-- ==== Sys2Proof/Word.lean ====
section
/-! DEFINITION. The widths of GNSSTK-CODEC: bytes, command words and the register widths. -/

namespace Sys2Proof

/-- A byte of PB, RB, IN or OUT; bit 0 is the least significant (00_scope.md R8). -/
abbrev Byte := BitVec 8

/-- A command word `CW[103:0]` (30_encoding.md R70). -/
abbrev CmdWord := BitVec 104

/-- An unsigned number of a VarUInt's range, 0 to 2^29 - 1 (40_varuint.md R100, R105). -/
abbrev U29 := BitVec 29

/-- A 32-bit register or field: OFF, CONS, RID, PLEN, CRCB, CUR, CRCS. -/
abbrev U32 := BitVec 32

/-- A 64-bit register or field: the operand A, VAL, the VarSInt shift register. -/
abbrev U64 := BitVec 64

end Sys2Proof
end

