-- ==== Sys2Proof/Syntax.lean ====
section
/-! DEFINITION. The instructions of GNSSTK-CODEC: one constructor per row of spec/opcode_table.json. The first eleven are
the commands of 30_encoding.md R82; the other seventeen are the wire formats of R73, R75, R77 and R78, the bytes the codec
reads one by one inside a command (A1). -/

namespace Sys2Proof

/-- One row of the opcode table, with the fields its row gives it. -/
inductive Instr where
  /-- NOP (42_buffer_ops.md R140) -/
  | nop
  /-- VU.ENC (40_varuint.md R103): LE, STRM, OFF, A -/
  | vuEnc (le strm : Bool) (off : U32) (a : U64)
  /-- VU.DEC (40_varuint.md R104): LE, STRM, OFF -/
  | vuDec (le strm : Bool) (off : U32)
  /-- VS.ENC (41_varsint.md R125): LE, STRM, NVF, OFF, A -/
  | vsEnc (le strm nvf : Bool) (off : U32) (a : U64)
  /-- VS.DEC (41_varsint.md R126): LE, STRM, OFF -/
  | vsDec (le strm : Bool) (off : U32)
  /-- PB.PUT (42_buffer_ops.md R141): OFF, A[7:0] -/
  | pbPut (off : U32) (b : Byte)
  /-- PB.GET (42_buffer_ops.md R142): OFF -/
  | pbGet (off : U32)
  /-- PB.CLR (42_buffer_ops.md R143) -/
  | pbClr
  /-- REC.ENC (43_record_framer.md R159): LE, REV, ENH, A -/
  | recEnc (le rev enh : Bool) (a : U64)
  /-- REC.DECF (43_record_framer.md R160) -/
  | recDecf
  /-- REC.DECR (43_record_framer.md R170) -/
  | recDecr
  /-- head sync byte 0xC2: little-endian, forward only, regular (30_encoding.md R73) -/
  | syncHeadC2
  /-- head sync byte 0xE2: big-endian, forward only, regular (R73) -/
  | syncHeadE2
  /-- head sync byte 0xC8: little-endian, forward only, enhanced (R73) -/
  | syncHeadC8
  /-- head sync byte 0xE8: big-endian, forward only, enhanced (R73) -/
  | syncHeadE8
  /-- head sync byte 0xD2: little-endian, reverse-readable, regular (R73) -/
  | syncHeadD2
  /-- head sync byte 0xF2: big-endian, reverse-readable, regular (R73) -/
  | syncHeadF2
  /-- head sync byte 0xD8: little-endian, reverse-readable, enhanced (R73) -/
  | syncHeadD8
  /-- head sync byte 0xF8: big-endian, reverse-readable, enhanced (R73) -/
  | syncHeadF8
  /-- tail sync byte 0xB4, the partner of 0xD2 (R75) -/
  | syncTailB4
  /-- tail sync byte 0xB0, the partner of 0xF2 (R75) -/
  | syncTailB0
  /-- tail sync byte 0xE4, the partner of 0xD8 (R75) -/
  | syncTailE4
  /-- tail sync byte 0xE0, the partner of 0xF8 (R75) -/
  | syncTailE0
  /-- VU-CONT `1ddddddd`: a non-final VarUInt byte (R77) -/
  | vuCont (d : BitVec 7)
  /-- VU-TERM `0ddddddd`: the final byte of a 1, 2 or 3 byte VarUInt (R77) -/
  | vuTerm (d : BitVec 7)
  /-- VU-BYTE4 `dddddddd`: the fourth byte of a 4 byte VarUInt (R77) -/
  | vuByte4 (d : Byte)
  /-- VS-FIRST-LE `ddddsnnn`: the first byte of a little-endian VarSInt (R78) -/
  | vsFirstLe (d : BitVec 4) (s : Bool) (n : BitVec 3)
  /-- VS-FIRST-BE `snnndddd`: the first byte of a big-endian VarSInt (R78) -/
  | vsFirstBe (s : Bool) (n : BitVec 3) (d : BitVec 4)
deriving DecidableEq, Repr

/-- Where an instruction is read: the command port, or a position of the wire formats (R86: "recognised by position"). -/
inductive Slot where
  /-- the command port (R70) -/
  | command
  /-- where a record's protocol expects a sync byte (R84) -/
  | sync
  /-- byte 1 to 3 of a VarUInt (R77) -/
  | vuByte
  /-- byte 4 of a VarUInt (R77) -/
  | vuFourth
  /-- the first byte of a VarSInt in the given byte order, true for little-endian (R78) -/
  | vsFirst (le : Bool)
deriving DecidableEq, Repr

/-- What stands at a slot: a command word on the command port, or one byte of a stream or buffer. -/
inductive Code where
  | word (w : CmdWord)
  | byte (b : Byte)
deriving DecidableEq, Repr

/-- The slot at which an instruction is read. -/
def Instr.slot : Instr → Slot
  | .nop | .vuEnc .. | .vuDec .. | .vsEnc .. | .vsDec .. | .pbPut .. | .pbGet .. | .pbClr
  | .recEnc .. | .recDecf | .recDecr => .command
  | .syncHeadC2 | .syncHeadE2 | .syncHeadC8 | .syncHeadE8 | .syncHeadD2 | .syncHeadF2 | .syncHeadD8 | .syncHeadF8
  | .syncTailB4 | .syncTailB0 | .syncTailE4 | .syncTailE0 => .sync
  | .vuCont _ | .vuTerm _ => .vuByte
  | .vuByte4 _ => .vuFourth
  | .vsFirstLe .. => .vsFirst true
  | .vsFirstBe .. => .vsFirst false

/-- The eleven commands, as against the seventeen wire formats. -/
def Instr.isCommand (i : Instr) : Bool := i.slot == .command

end Sys2Proof
end

