-- ==== Sys2Proof/Decode.lean ====
section
/-! DEFINITION. Decoding command words and wire bytes, and encoding instructions. The command word is one parallel word with
no byte order of its own (30_encoding.md R70), so the decoder takes it whole. -/

namespace Sys2Proof

/-- Why a word or byte spells no instruction. -/
inductive Reject where
  /-- the control byte matches no row of 30_encoding.md R82 (R83) -/
  | illegalCommand
  /-- the byte is neither a head nor a tail sync byte (R84) -/
  | notSyncByte
  /-- a word where a byte stands, or a byte where a word stands; no port gives one -/
  | wrongPort
deriving DecidableEq, Repr

/-- The control byte `CW[7:0]` (R70). -/
def CmdWord.ctl (w : CmdWord) : Byte := w.extractLsb' 0 8
/-- `LE`, `CW[4]` (R70). -/
def CmdWord.le (w : CmdWord) : Bool := w.getLsbD 4
/-- `STRM`, `CW[5]` (R70). -/
def CmdWord.strm (w : CmdWord) : Bool := w.getLsbD 5
/-- `M0`, `CW[6]`: NVF or REV (R70). -/
def CmdWord.m0 (w : CmdWord) : Bool := w.getLsbD 6
/-- `M1`, `CW[7]`: ENH (R70). -/
def CmdWord.m1 (w : CmdWord) : Bool := w.getLsbD 7
/-- `OFF`, `CW[39:8]` (R70). -/
def CmdWord.off (w : CmdWord) : U32 := w.extractLsb' 8 32
/-- `A`, `CW[103:40]` (R70). -/
def CmdWord.operand (w : CmdWord) : U64 := w.extractLsb' 40 64

/-- The rows of 30_encoding.md R82: mnemonic, match, mask. -/
def commandRows : List (String × Byte × Byte) :=
  [("NOP", 0x00, 0xFF), ("VU.ENC", 0x01, 0xCF), ("VU.DEC", 0x02, 0xCF), ("VS.ENC", 0x03, 0x8F), ("VS.DEC", 0x04, 0xCF),
   ("PB.PUT", 0x05, 0xFF), ("PB.GET", 0x06, 0xFF), ("PB.CLR", 0x07, 0xFF), ("REC.ENC", 0x08, 0x2F), ("REC.DECF", 0x09, 0xFF),
   ("REC.DECR", 0x0A, 0xFF)]

/-- The command a word spells: "when `(CW[7:0] & mask) == match`" (R82); every other word is illegal (R83). -/
def decodeCommand (w : CmdWord) : Except Reject Instr :=
  let c := CmdWord.ctl w
  if c &&& 0xFF#8 = 0x00#8 then .ok .nop
  else if c &&& 0xCF#8 = 0x01#8 then .ok (.vuEnc (CmdWord.le w) (CmdWord.strm w) (CmdWord.off w) (CmdWord.operand w))
  else if c &&& 0xCF#8 = 0x02#8 then .ok (.vuDec (CmdWord.le w) (CmdWord.strm w) (CmdWord.off w))
  else if c &&& 0x8F#8 = 0x03#8 then
    .ok (.vsEnc (CmdWord.le w) (CmdWord.strm w) (CmdWord.m0 w) (CmdWord.off w) (CmdWord.operand w))
  else if c &&& 0xCF#8 = 0x04#8 then .ok (.vsDec (CmdWord.le w) (CmdWord.strm w) (CmdWord.off w))
  else if c &&& 0xFF#8 = 0x05#8 then .ok (.pbPut (CmdWord.off w) ((CmdWord.operand w).extractLsb' 0 8))
  else if c &&& 0xFF#8 = 0x06#8 then .ok (.pbGet (CmdWord.off w))
  else if c &&& 0xFF#8 = 0x07#8 then .ok .pbClr
  else if c &&& 0x2F#8 = 0x08#8 then .ok (.recEnc (CmdWord.le w) (CmdWord.m0 w) (CmdWord.m1 w) (CmdWord.operand w))
  else if c &&& 0xFF#8 = 0x09#8 then .ok .recDecf
  else if c &&& 0xFF#8 = 0x0A#8 then .ok .recDecr
  else .error .illegalCommand

/-- The sync byte a byte is, by the tables of 30_encoding.md R73 and R75. -/
def decodeSync (b : Byte) : Except Reject Instr :=
  if b = 0xC2#8 then .ok .syncHeadC2
  else if b = 0xE2#8 then .ok .syncHeadE2
  else if b = 0xC8#8 then .ok .syncHeadC8
  else if b = 0xE8#8 then .ok .syncHeadE8
  else if b = 0xD2#8 then .ok .syncHeadD2
  else if b = 0xF2#8 then .ok .syncHeadF2
  else if b = 0xD8#8 then .ok .syncHeadD8
  else if b = 0xF8#8 then .ok .syncHeadF8
  else if b = 0xB4#8 then .ok .syncTailB4
  else if b = 0xB0#8 then .ok .syncTailB0
  else if b = 0xE4#8 then .ok .syncTailE4
  else if b = 0xE0#8 then .ok .syncTailE0
  else .error .notSyncByte

/-- The wire format of a byte at a slot: sync bytes by value (R73, R75), VarUInt bytes by continuation bit and position (R77),
a VarSInt's first byte by byte order (R78). -/
def decodeByte (sl : Slot) (b : Byte) : Except Reject Instr :=
  match sl with
  | .command => .error .wrongPort
  | .sync => decodeSync b
  | .vuByte => .ok (if b.getLsbD 7 then .vuCont (b.extractLsb' 0 7) else .vuTerm (b.extractLsb' 0 7))
  | .vuFourth => .ok (.vuByte4 b)
  | .vsFirst true => .ok (.vsFirstLe (b.extractLsb' 4 4) (b.getLsbD 3) (b.extractLsb' 0 3))
  | .vsFirst false => .ok (.vsFirstBe (b.getLsbD 7) (b.extractLsb' 4 3) (b.extractLsb' 0 4))

/-- The instruction that stands at a slot. -/
def decode (sl : Slot) (c : Code) : Except Reject Instr :=
  match sl, c with
  | .command, .word w => decodeCommand w
  | .command, .byte _ => .error .wrongPort
  | _, .word _ => .error .wrongPort
  | sl, .byte b => decodeByte sl b

/-- The control byte `{M1, M0, STRM, LE, OP}` (30_encoding.md R70, R87). -/
def controlByte (op : BitVec 4) (le strm m0 m1 : Bool) : Byte :=
  BitVec.ofBool m1 ++ BitVec.ofBool m0 ++ BitVec.ofBool strm ++ BitVec.ofBool le ++ op

/-- The command word `{A, OFF, control byte}` (R70, R87). -/
def commandWord (a : U64) (off : U32) (ctl : Byte) : CmdWord := a ++ off ++ ctl

/-- The word or byte of an instruction; a field the command does not use is 0 (R70, R73, R75, R77, R78, R82). -/
def encode : Instr → Code
  | .nop => .word (commandWord 0 0 (controlByte 0x0 false false false false))
  | .vuEnc le strm off a => .word (commandWord a off (controlByte 0x1 le strm false false))
  | .vuDec le strm off => .word (commandWord 0 off (controlByte 0x2 le strm false false))
  | .vsEnc le strm nvf off a => .word (commandWord a off (controlByte 0x3 le strm nvf false))
  | .vsDec le strm off => .word (commandWord 0 off (controlByte 0x4 le strm false false))
  | .pbPut off b => .word (commandWord (b.setWidth 64) off (controlByte 0x5 false false false false))
  | .pbGet off => .word (commandWord 0 off (controlByte 0x6 false false false false))
  | .pbClr => .word (commandWord 0 0 (controlByte 0x7 false false false false))
  | .recEnc le rev enh a => .word (commandWord a 0 (controlByte 0x8 le false rev enh))
  | .recDecf => .word (commandWord 0 0 (controlByte 0x9 false false false false))
  | .recDecr => .word (commandWord 0 0 (controlByte 0xA false false false false))
  | .syncHeadC2 => .byte 0xC2
  | .syncHeadE2 => .byte 0xE2
  | .syncHeadC8 => .byte 0xC8
  | .syncHeadE8 => .byte 0xE8
  | .syncHeadD2 => .byte 0xD2
  | .syncHeadF2 => .byte 0xF2
  | .syncHeadD8 => .byte 0xD8
  | .syncHeadF8 => .byte 0xF8
  | .syncTailB4 => .byte 0xB4
  | .syncTailB0 => .byte 0xB0
  | .syncTailE4 => .byte 0xE4
  | .syncTailE0 => .byte 0xE0
  | .vuCont d => .byte (1#1 ++ d)
  | .vuTerm d => .byte (0#1 ++ d)
  | .vuByte4 d => .byte d
  | .vsFirstLe d s n => .byte (d ++ BitVec.ofBool s ++ n)
  | .vsFirstBe s n d => .byte (BitVec.ofBool s ++ n ++ d)

/-- The slot at which a word of `nbits` bits, numbered as the opcode table numbers it, is read when nothing else is known
(A17). More than a byte is a command word. One byte is a sync byte where it is one; else a command word with OFF and A zero
where its control byte is legal and not 0x00; else a byte of a VarUInt. VU-BYTE4 and the two VS-FIRST formats are told from
these by their position alone (30_encoding.md R77, R78, R86), which a bare byte does not have. -/
def tableSlot (nbits w : Nat) : Slot :=
  if 8 < nbits then .command
  else
    match decodeSync (BitVec.ofNat 8 w), decodeCommand (BitVec.ofNat 104 w) with
    | .ok _, _ => .sync
    | .error _, .ok .nop => .vuByte
    | .error _, .ok _ => .command
    | .error _, .error _ => .vuByte

/-- What stands at the slot of `tableSlot`. -/
def tableCode (nbits w : Nat) : Code :=
  match tableSlot nbits w with
  | .command => .word (BitVec.ofNat 104 w)
  | _ => .byte (BitVec.ofNat 8 w)

/-- The instruction the decoder reads from the bits of an opcode-table row (A17). -/
def decodeTableWord (nbits w : Nat) : Option Instr :=
  (decode (tableSlot nbits w) (tableCode nbits w)).toOption

end Sys2Proof
end

