-- ==== Sys2Proof/Machine/State.lean ====
section
/-! DEFINITION. The state of GNSSTK-CODEC (10_state.md): registers, phase, buffers, scratch, and what the host presents on the
ports; the reasons a step can stop; the state after reset (R40, R220). -/

namespace Sys2Proof.Machine

open Sys2Proof

/-- The phase register PH (10_state.md R30). The codes of 4 to 7, 15 and 23 are never held and have no constructor. -/
inductive Phase where
  | idle
  | vBuf | vIn | vOut
  | eSync | eId | eLen | ePay | eCrc | eRlen | eTail
  | fSync | fId | fLen | fPay | fCrc | fRlen | fTail
  | rTail | rRlen | rFill | rHead | rId | rLen | rPay | rCrc
deriving DecidableEq, Repr

/-- The status kinds of STAT (60_exceptions.md R190). Codes 10 to 15 are never produced and have no constructor. -/
inductive Status where
  | ok | noValue | overflow | invalidOffset | malformedSync | truncatedRead | checksumMismatch | headTailMismatch
  | unsupported | illegalCommand
deriving DecidableEq, Repr

/-- The CRC widths a record can have; the 16-byte tier is refused (43_record_framer.md R150, R151). -/
inductive CrcKind where
  /-- the 1-byte XOR checksum (R154) -/
  | xor8
  /-- CRC16, 2 bytes -/
  | crc16
  /-- CRC32, 4 bytes -/
  | crc32
deriving DecidableEq, Repr

/-- The scratch registers (10_state.md R37), which "live only inside one command", and the latched fields of the command in
progress. -/
structure Scratch where
  /-- the value being read is a VarSInt (VS.DEC), not a VarUInt -/
  signed : Bool
  /-- byte order in force: true for little-endian (20_memory.md R50) -/
  le : Bool
  /-- the record is reverse-readable -/
  rev : Bool
  /-- the record's CRC mode is enhanced -/
  enh : Bool
  /-- latched OFF of a value command -/
  off : U32
  /-- the bytes a stream encode puts on OUT -/
  tx : List Byte
  /-- the VarUInt accumulator (40_varuint.md R105); the byte counter is CUR -/
  acc : U29
  /-- the bytes of the VarUInt in progress, as taken (R105) -/
  raw : List Byte
  /-- the VarSInt flag nibble, sign and size - 1 (41_varsint.md R127) -/
  nib : BitVec 4
  /-- the VarSInt shift register W (R127) -/
  shift : U64
  /-- the record id in progress -/
  id : U29
  /-- the id field of the header byte store HDR (43_record_framer.md R152) -/
  rawId : List Byte
  /-- the length field of HDR -/
  rawLen : List Byte
  /-- the payload length in progress -/
  dlen : U29
  /-- the CRC width in force (R150) -/
  crc : CrcKind
  /-- the running CRC state CRCS (R155) -/
  crcs : U32
  /-- the running XOR XORS (R154) -/
  xors : Byte
  /-- the CRC bytes taken so far -/
  got : List Byte
  /-- the trailing length bytes taken so far (R163) -/
  gotLen : List Byte
  /-- the decoded trailing length L (R170) -/
  tlen : U29
deriving DecidableEq, Repr

/-- The scratch registers before a command uses them: zero, a DESIGN CHOICE nothing can observe (R37, R40; A11). -/
def Scratch.init : Scratch :=
  { signed := false, le := false, rev := false, enh := false, off := 0, tx := [], acc := 0, raw := [], nib := 0, shift := 0,
    id := 0, rawId := [], rawLen := [], dlen := 0, crc := .xor8, crcs := 0, xors := 0, got := [], gotLen := [], tlen := 0 }

/-- A byte on OUT with its `out_last` mark (20_memory.md R58). -/
structure OutByte where
  data : Byte
  last : Bool
deriving DecidableEq, Repr

/-- A byte memory: (address, byte) pairs, addresses rising, no byte equal to what an unlisted address reads as
(`Mem.default`). -/
abbrev Mem := List Host.Cell

/-- The whole state. The first block is the registers of the status port (R38), then the buffers (R36) and the scratch
registers (R37); the last block is what the host presents on the ports (92_eei_decisions.md D1), and the model's step
counter. -/
structure State where
  /-- VAL (R22) -/
  val : U64
  /-- NV (R23) -/
  nv : Bool
  /-- CNT (R24) -/
  cnt : BitVec 4
  /-- CONS (R25) -/
  cons : U32
  /-- STAT (R26) -/
  stat : Status
  /-- BUSY (R27) -/
  busy : Bool
  /-- SYNC (R28) -/
  sync : Byte
  /-- RID (R29) -/
  rid : U32
  /-- PLEN (R34) -/
  plen : U32
  /-- CRCLEN (R35) -/
  crclen : BitVec 3
  /-- CRCB (R35) -/
  crcb : U32
  /-- PH (R30) -/
  ph : Phase
  /-- CUR (R31) -/
  cur : U32
  /-- PB (R36) -/
  pb : Mem
  /-- RB (R36) -/
  rb : Mem
  /-- the scratch registers (R37) -/
  scratch : Scratch
  /-- the `resp_valid` pulse (60_exceptions.md R192): true right after the step that completes a command (A13) -/
  resp : Bool
  /-- the reset input `rst` (70_reset_and_hazards.md R220; A14) -/
  rst : Bool
  /-- the command words the host presents, one after the other (R224; A3) -/
  cmdQ : List CmdWord
  /-- the bytes the host presents on IN (20_memory.md R57; A4) -/
  inQ : List Byte
  /-- after those bytes the host presents end of stream, rather than nothing (R57; A4) -/
  inEos : Bool
  /-- the bytes put on OUT, first byte first (R58; A5) -/
  outQ : List OutByte
  /-- how many more bytes the host takes on OUT; none: every byte (R58; A5) -/
  outRoom : Option Nat
  /-- the MODEL's step counter, the argument of the free values of the status port (A12) -/
  tick : Nat
deriving DecidableEq, Repr

/-- Why the machine stops with a fault. The block itself never stops: its failures are statuses (60_exceptions.md R190). -/
inductive Fault where
  /-- An access to an address at or past PB_BYTES, which does not exist (20_memory.md R56). Raised by the accesses to PB of
  the framer and of the buffer reads, only from states that break `Safety.Inv`. Safe: the model stops. -/
  | noPbAddress (a : Nat)
  /-- An access to an address at or past RB_BYTES, which does not exist (R56). Raised by the accesses to RB of REC.DECR,
  only from states that break `Safety.Inv`. Safe: the model stops. -/
  | noRbAddress (a : Nat)
deriving DecidableEq, Repr

/-- Why an instruction has no meaning where it stands. -/
inductive Refusal where
  /-- The instruction has no meaning yet. Raised by `exec` only. Safe: the model stops. -/
  | notModelled (mnemonic : String)
  /-- A wire format in a phase or at a position that does not read it (30_encoding.md R86; A16). Raised by the wire meanings,
  never by a step. Safe: the model stops. -/
  | notReadHere
deriving DecidableEq, Repr

/-- The outcome of a step or of an instruction. -/
abbrev Result := Host.Outcome State Fault Refusal

/-- The machine after reset (10_state.md R40, 70_reset_and_hazards.md R220). PB, RB and the scratch registers are unspecified
and unobservable (R221): zero (A10, A11). The host's side of the ports is idle: no word, no byte, no end of stream, every byte
of OUT taken, `rst` released (A14). -/
def State.reset : State :=
  { val := 0, nv := false, cnt := 0, cons := 0, stat := .ok, busy := false,
    sync := 0, rid := 0, plen := 0, crclen := 0, crcb := 0, ph := .idle, cur := 0,
    pb := [], rb := [], scratch := Scratch.init,
    resp := false, rst := false, cmdQ := [], inQ := [], inEos := false, outQ := [], outRoom := none, tick := 0 }

end Sys2Proof.Machine
end

