-- ==== Sys2Proof/Machine/Flags.lean ====
section
/-! DEFINITION. The codes of PH and STAT, and every write of the result registers STAT, VAL, NV and CNT. NV is the block's only
condition flag (10_state.md R23). -/

namespace Sys2Proof.Machine

open Sys2Proof

/-- The code of a phase (10_state.md R30). -/
def Phase.code : Phase → BitVec 5
  | .idle => 0 | .vBuf => 1 | .vIn => 2 | .vOut => 3
  | .eSync => 8 | .eId => 9 | .eLen => 10 | .ePay => 11 | .eCrc => 12 | .eRlen => 13 | .eTail => 14
  | .fSync => 16 | .fId => 17 | .fLen => 18 | .fPay => 19 | .fCrc => 20 | .fRlen => 21 | .fTail => 22
  | .rTail => 24 | .rRlen => 25 | .rFill => 26 | .rHead => 27 | .rId => 28 | .rLen => 29 | .rPay => 30 | .rCrc => 31

/-- The code of a status kind (60_exceptions.md R190). -/
def Status.code : Status → BitVec 4
  | .ok => 0 | .noValue => 1 | .overflow => 2 | .invalidOffset => 3 | .malformedSync => 4 | .truncatedRead => 5
  | .checksumMismatch => 6 | .headTailMismatch => 7 | .unsupported => 8 | .illegalCommand => 9

/-- A phase of REC.DECF or REC.DECR (R30, R33): codes 16 and up. -/
def Phase.decoding : Phase → Bool
  | .fSync | .fId | .fLen | .fPay | .fCrc | .fRlen | .fTail => true
  | .rTail | .rRlen | .rFill | .rHead | .rId | .rLen | .rPay | .rCrc => true
  | _ => false

/-- A phase that puts bytes on OUT (R30). -/
def Phase.sending : Phase → Bool
  | .vOut | .eSync | .eId | .eLen | .ePay | .eCrc | .eRlen | .eTail => true
  | _ => false

/-- The result registers a command leaves (10_state.md R22, R23, R24, R26). -/
def State.setResult (s : State) (st : Status) (v : U64) (nv : Bool) (cnt : Nat) : State :=
  { s with stat := st, val := v, nv := nv, cnt := BitVec.ofNat 4 cnt }

end Sys2Proof.Machine
end

