-- ==== Sys2Proof/Config.lean ====
section
/-! DEFINITION. What one block of GNSSTK-CODEC fixes (00_scope.md R6) and the free values the spec leaves open. The sync
tables, which the spec gives by value, stand in Machine/Operands.lean. -/

namespace Sys2Proof

/-- A CRC engine: initial state, one byte's update, final operation (00_scope.md R6, 43_record_framer.md R155). -/
structure CrcEngine (w : Nat) where
  init : BitVec w
  step : BitVec w → Byte → BitVec w
  fin : BitVec w → BitVec w
deriving Inhabited

namespace Config

/-- PB_BYTES, the capacity of the payload buffer, at the value the spec takes (00_scope.md R6, 92_eei_decisions.md D16; A9). -/
def pbBytes : Nat := 1048576

/-- RB_BYTES, the capacity of the staging buffer: PB_BYTES + 16 (00_scope.md R6, 92_eei_decisions.md D16; A9). -/
def rbBytes : Nat := pbBytes + 16

/-- The CRC16 engine: OPEN (00_scope.md R6, 43_record_framer.md R156, 92_eei_decisions.md D13; A7). No value: a claim
holds whatever the engine. -/
opaque crc16 : CrcEngine 16

/-- The CRC32 engine: OPEN, as `crc16` (A7). -/
opaque crc32 : CrcEngine 32

/-- What the status port shows as STAT while BUSY = 1: any value (10_state.md R38, 93_implementation_defined.md U7; A12).
The argument of this and of the next nine is the model's step counter. -/
opaque busyStat : Nat → BitVec 4
/-- VAL on the status port while BUSY = 1: any value (R38, U7; A12). -/
opaque busyVal : Nat → U64
/-- NV on the status port while BUSY = 1: any value (R38, U7; A12). -/
opaque busyNv : Nat → Bool
/-- CNT on the status port while BUSY = 1: any value (R38, U7; A12). -/
opaque busyCnt : Nat → BitVec 4
/-- CONS on the status port while BUSY = 1: any value (R38, U7; A12). -/
opaque busyCons : Nat → U32
/-- SYNC on the status port while BUSY = 1: any value (R38, U7; A12). -/
opaque busySync : Nat → Byte
/-- RID on the status port while BUSY = 1: any value (R38, U7; A12). -/
opaque busyRid : Nat → U32
/-- PLEN on the status port while BUSY = 1: any value (R38, U7; A12). -/
opaque busyPlen : Nat → U32
/-- CRCLEN on the status port while BUSY = 1: any value (R38, U7; A12). -/
opaque busyCrclen : Nat → BitVec 3
/-- CRCB on the status port while BUSY = 1: any value (R38, U7; A12). -/
opaque busyCrcb : Nat → U32

end Config

end Sys2Proof
end

