-- ==== Sys2Proof/Machine/Operands.lean ====
section
/-! DEFINITION. The pure functions of the codec: every operand form and wire layout. Sync bytes (30_encoding.md R72 to R75),
VarUInt (40_varuint.md R100 to R105), VarSInt (41_varsint.md R120 to R131), CRC selection and bytes (43_record_framer.md R150
to R157), record layouts (30_encoding.md R79, R80). -/

namespace Sys2Proof.Machine

open Sys2Proof

/-! ## Sync bytes -/

/-- `HEAD(le, rev, enh)` (30_encoding.md R74): 0xC0, BE in bit 5, REV in bit 4, ENH in bit 3 or REG in bit 1 (A8). -/
def headByte (le rev enh : Bool) : Byte :=
  0xC0#8 ||| (if le then 0x00#8 else 0x20#8) ||| (if rev then 0x10#8 else 0x00#8) ||| (if enh then 0x08#8 else 0x02#8)

/-- The eight legal head sync bytes (R73; A8). -/
def headSet : List Byte := [0xC2, 0xE2, 0xC8, 0xE8, 0xD2, 0xF2, 0xD8, 0xF8]

/-- The four legal tail sync bytes (R75; A8). -/
def tailSet : List Byte := [0xB4, 0xB0, 0xE4, 0xE0]

/-- `TAIL(HEAD(le, true, enh))`: the paired tail of a reverse-readable head (R75; A8). -/
def tailByte (le enh : Bool) : Byte :=
  match le, enh with
  | true, false => 0xB4
  | false, false => 0xB0
  | true, true => 0xE4
  | false, true => 0xE0

/-! ## VarUInt -/

/-- `VU_MAX` (40_varuint.md R100). -/
def vuMax : Nat := 536870911

/-- `VU_SIZE` (R100): none where it raises Overflow. -/
def vuSize (v : Nat) : Option Nat :=
  if v < 128 then some 1
  else if v < 16384 then some 2
  else if v < 2097152 then some 3
  else if v < 536870912 then some 4
  else none

/-- The little-endian layout (R101): the least significant 7-bit group first. -/
def vuEncLe (v : U29) : List Byte :=
  if v.toNat < 128 then [0#1 ++ v.extractLsb' 0 7]
  else if v.toNat < 16384 then [1#1 ++ v.extractLsb' 0 7, 0#1 ++ v.extractLsb' 7 7]
  else if v.toNat < 2097152 then [1#1 ++ v.extractLsb' 0 7, 1#1 ++ v.extractLsb' 7 7, 0#1 ++ v.extractLsb' 14 7]
  else [1#1 ++ v.extractLsb' 0 7, 1#1 ++ v.extractLsb' 7 7, 1#1 ++ v.extractLsb' 14 7, v.extractLsb' 21 8]

/-- The big-endian layout (R102): the most significant group first. -/
def vuEncBe (v : U29) : List Byte :=
  if v.toNat < 128 then [0#1 ++ v.extractLsb' 0 7]
  else if v.toNat < 16384 then [1#1 ++ v.extractLsb' 7 7, 0#1 ++ v.extractLsb' 0 7]
  else if v.toNat < 2097152 then [1#1 ++ v.extractLsb' 14 7, 1#1 ++ v.extractLsb' 7 7, 0#1 ++ v.extractLsb' 0 7]
  else [1#1 ++ v.extractLsb' 22 7, 1#1 ++ v.extractLsb' 15 7, 1#1 ++ v.extractLsb' 8 7, v.extractLsb' 0 8]

/-- `VU_ENC(v, le)` for a `v` in range (R101, R102). -/
def vuEnc (v : U29) (le : Bool) : List Byte := if le then vuEncLe v else vuEncBe v

/-- One of the first three bytes joins the accumulator as 7 payload bits; `n` bytes came before it (R105). -/
def vuJoin (le : Bool) (acc : U29) (n : Nat) (d : BitVec 7) : U29 :=
  if le then acc ||| (d.setWidth 29 <<< (7 * n)) else (acc <<< 7) ||| d.setWidth 29

/-- The fourth byte joins the accumulator with all 8 bits (R105). -/
def vuJoinFourth (le : Bool) (acc : U29) (d : Byte) : U29 :=
  if le then acc ||| (d.setWidth 29 <<< 21) else (acc <<< 8) ||| d.setWidth 29

/-- `VU_DEC` (R105) on a byte sequence, from the state where `n` bytes have been joined into `acc`: the value and the number
of bytes, or none where the bytes run out before the termination rule stops (R106). -/
def vuDecFrom (le : Bool) : Nat → U29 → List Byte → Option (U29 × Nat)
  | _, _, [] => none
  | n, acc, b :: bs =>
    if n < 3 then
      if b.getLsbD 7 then vuDecFrom le (n + 1) (vuJoin le acc n (b.extractLsb' 0 7)) bs
      else some (vuJoin le acc n (b.extractLsb' 0 7), n + 1)
    else some (vuJoinFourth le acc b, n + 1)

/-- `VU_DEC` (R105) on a byte sequence. -/
def vuDec (le : Bool) (bs : List Byte) : Option (U29 × Nat) := vuDecFrom le 0 0 bs

/-! ## VarSInt -/

/-- `VS_MAX`, the largest magnitude (41_varsint.md R121). -/
def vsMax : Nat := 1157442765409226759

/-- `F[s]`, the floor of band `s`, 1 to 8 (R121). -/
def bandFloor : Nat → Nat
  | 0 => 0
  | 1 => 0
  | 2 => 16
  | 3 => 4110
  | 4 => 1052685
  | 5 => 269488140
  | 6 => 68988964875
  | 7 => 17661175009290
  | _ => 4521260802379785

/-- `SPLIT` (R120): the sign and the magnitude as an unsigned number. -/
def vsSplit (a : U64) : Bool × Nat := (a.msb, if a.msb then 2 ^ 64 - a.toNat else a.toNat)

/-- `VS_SIZE` (R122): "the largest s in 1..8 with F[s] <= mag"; none where it raises Overflow. -/
def vsSize (mag : Nat) : Option Nat :=
  if vsMax < mag then none
  else if bandFloor 8 ≤ mag then some 8
  else if bandFloor 7 ≤ mag then some 7
  else if bandFloor 6 ≤ mag then some 6
  else if bandFloor 5 ≤ mag then some 5
  else if bandFloor 4 ≤ mag then some 4
  else if bandFloor 3 ≤ mag then some 3
  else if bandFloor 2 ≤ mag then some 2
  else some 1

/-- The flag nibble `N = {g, (s-1)[2:0]}` (R123). -/
def vsNibble (g : Bool) (s : Nat) : BitVec 4 := BitVec.ofBool g ++ BitVec.ofNat 3 (s - 1)

/-- The size the flag nibble declares (R127). -/
def nibSize (nib : BitVec 4) : Nat := (nib.extractLsb' 0 3).toNat + 1

/-- The sign the flag nibble declares (R127). -/
def nibSign (nib : BitVec 4) : Bool := nib.getLsbD 3

/-- The little-endian layout (R123): `W = (P << 4) | N`, least significant byte first. -/
def vsEncLe (nib : BitVec 4) (s : Nat) (p : U64) : List Byte :=
  let w : U64 := (p <<< 4) ||| nib.setWidth 64
  (List.range s).map fun i => w.extractLsb' (8 * i) 8

/-- The big-endian layout (R124): `W = (N << (8s-4)) | P`, most significant byte first. -/
def vsEncBe (nib : BitVec 4) (s : Nat) (p : U64) : List Byte :=
  let w : U64 := (nib.setWidth 64 <<< (8 * s - 4)) ||| p
  (List.range s).map fun i => w.extractLsb' (8 * (s - 1 - i)) 8

/-- The bytes of sign `g`, size `s` and payload `p` (R123, R124). -/
def vsLayout (le g : Bool) (s : Nat) (p : U64) : List Byte :=
  if le then vsEncLe (vsNibble g s) s p else vsEncBe (vsNibble g s) s p

/-- The no-value sentinel (R131). -/
def vsSentinel (le : Bool) : Byte := if le then 0x08 else 0x80

/-- The bytes VS.ENC produces for a number (R120 to R124): none where it raises Overflow. -/
def vsEnc (le : Bool) (a : U64) : Option (List Byte) :=
  let (g, mag) := vsSplit a
  (vsSize mag).map fun s => vsLayout le g s (BitVec.ofNat 64 (mag - bandFloor s))

/-- How the decoding of a whole VarSInt ends (R127). -/
inductive VsValue where
  | value (v : U64)
  | noValue
  | overflow
deriving DecidableEq, Repr

/-- Byte `i` of a VarSInt enters the shift register (R127). -/
def vsShiftIn (le : Bool) (w : U64) (i : Nat) (b : Byte) : U64 :=
  if le then w ||| (b.setWidth 64 <<< (8 * i)) else (w <<< 8) ||| b.setWidth 64

/-- The payload field of the shift register of an `s`-byte VarSInt (R127). -/
def vsPayload (le : Bool) (s : Nat) (w : U64) : U64 :=
  if le then w >>> 4 else w &&& BitVec.ofNat 64 (2 ^ (8 * s - 4) - 1)

/-- The end of `VS_DEC` (R127): the sentinel (R129), the range check (R130), the sign. -/
def vsFinish (le : Bool) (nib : BitVec 4) (w : U64) : VsValue :=
  let g := nibSign nib
  let s := nibSize nib
  let p := vsPayload le s w
  if s = 1 ∧ g = true ∧ p = 0 then .noValue
  else
    let mag := bandFloor s + p.toNat
    if vsMax < mag then .overflow
    else .value (if g then -(BitVec.ofNat 64 mag) else BitVec.ofNat 64 mag)

/-- The flag nibble of a VarSInt's first byte (30_encoding.md R78). -/
def firstNibble (le : Bool) (b : Byte) : BitVec 4 := if le then b.extractLsb' 0 4 else b.extractLsb' 4 4

/-- Bytes `i`, `i + 1`, ... of a VarSInt enter the shift register (R127). -/
def vsShiftAll (le : Bool) : U64 → Nat → List Byte → U64
  | w, _, [] => w
  | w, i, b :: bs => vsShiftAll le (vsShiftIn le w i b) (i + 1) bs

/-- `VS_DEC` (R127) on a byte sequence: how it ends and the size, or none where the bytes run out (R128). -/
def vsDec (le : Bool) (bs : List Byte) : Option (VsValue × Nat) :=
  match bs with
  | [] => none
  | b :: rest =>
    let nib := firstNibble le b
    let s := nibSize nib
    if rest.length < s - 1 then none
    else some (vsFinish le nib (vsShiftAll le (b.setWidth 64) 1 (rest.take (s - 1))), s)

/-! ## CRC selection and CRC bytes -/

/-- The width in bytes. -/
def CrcKind.len : CrcKind → Nat
  | .xor8 => 1
  | .crc16 => 2
  | .crc32 => 4

/-- `CRCLEN(d, enh)` (43_record_framer.md R150); none for the 16-byte tier, which is refused (R151). -/
def crcKind (d : Nat) (enh : Bool) : Option CrcKind :=
  if 1048576 ≤ d then none
  else if d < 128 then some (if enh then .crc16 else .xor8)
  else if d < 4096 then some (if enh then .crc32 else .crc16)
  else some .crc32

/-- `CRCLEN(d, enh)` as the number of bytes, 16 for the reserved tier (R150). -/
def crcLen (d : Nat) (enh : Bool) : Nat :=
  match crcKind d enh with
  | some k => k.len
  | none => 16

/-- `XOR(s)`: the exclusive-or of all bytes, from 0x00 (R154). -/
def xorBytes (bs : List Byte) : Byte := bs.foldl (· ^^^ ·) 0

/-- `RUN(E, st, bytes)` (R155). -/
def crcRun {w : Nat} (e : CrcEngine w) (st : BitVec w) (bs : List Byte) : BitVec w := bs.foldl e.step st

/-- `CRCVAL(E, HDR, PAY)` (R155): two passes, the second from the raw state of the first. -/
def crcVal {w : Nat} (e : CrcEngine w) (hdr pay : List Byte) : BitVec w := e.fin (crcRun e (crcRun e e.init hdr) pay)

/-- A CRC16 value in byte order (R157). -/
def crc16Layout (le : Bool) (v : BitVec 16) : List Byte :=
  if le then [v.extractLsb' 0 8, v.extractLsb' 8 8] else [v.extractLsb' 8 8, v.extractLsb' 0 8]

/-- A CRC32 value in byte order (R157). -/
def crc32Layout (le : Bool) (v : U32) : List Byte :=
  if le then [v.extractLsb' 0 8, v.extractLsb' 8 8, v.extractLsb' 16 8, v.extractLsb' 24 8]
  else [v.extractLsb' 24 8, v.extractLsb' 16 8, v.extractLsb' 8 8, v.extractLsb' 0 8]

/-- `CRCBYTES(HDR, PAY, c, le)` (R157) with the engines as arguments. -/
def crcBytesWith (e16 : CrcEngine 16) (e32 : CrcEngine 32) (hdr pay : List Byte) (k : CrcKind) (le : Bool) : List Byte :=
  match k with
  | .xor8 => [xorBytes (hdr ++ pay)]
  | .crc16 => crc16Layout le (crcVal e16 hdr pay)
  | .crc32 => crc32Layout le (crcVal e32 hdr pay)

/-- `CRCBYTES(HDR, PAY, c, le)` (R157) with this block's engines (A7). -/
def crcBytes (hdr pay : List Byte) (k : CrcKind) (le : Bool) : List Byte :=
  crcBytesWith Config.crc16 Config.crc32 hdr pay k le

/-- The first state of CRCS for a width (R155). -/
def crcsInit : CrcKind → U32
  | .xor8 => 0
  | .crc16 => Config.crc16.init.setWidth 32
  | .crc32 => Config.crc32.init

/-- CRCS after one more byte (R155). -/
def crcsStep (k : CrcKind) (st : U32) (b : Byte) : U32 :=
  match k with
  | .xor8 => st
  | .crc16 => (Config.crc16.step (st.setWidth 16) b).setWidth 32
  | .crc32 => Config.crc32.step st b

/-- The CRC bytes that CRCS and XORS stand for (R154, R155, R157). -/
def crcOut (k : CrcKind) (crcs : U32) (xors : Byte) (le : Bool) : List Byte :=
  match k with
  | .xor8 => [xors]
  | .crc16 => crc16Layout le (Config.crc16.fin (crcs.setWidth 16))
  | .crc32 => crc32Layout le (Config.crc32.fin crcs)

/-- CRCB of CRC bytes in stream order (10_state.md R35): the first byte in CRCB[7:0]. -/
def packCrc : List Byte → U32
  | [] => 0
  | b :: bs => (packCrc bs <<< 8) ||| b.setWidth 32

/-! ## Record layouts -/

/-- The wire bytes of a record (30_encoding.md R79, R80; 43_record_framer.md R159), for an id in range, a payload length in
range, and the CRC width `k` that the length selects. -/
def recordWire (le rev enh : Bool) (id : U29) (pay : List Byte) (k : CrcKind) : List Byte :=
  let hdr := vuEnc id le ++ vuEnc (BitVec.ofNat 29 pay.length) le
  let body := headByte le rev enh :: (hdr ++ pay ++ crcBytes hdr pay k le)
  if rev then
    body ++ (vuEnc (BitVec.ofNat 29 (hdr.length + pay.length + k.len)) le).reverse ++ [tailByte le enh]
  else body

end Sys2Proof.Machine
end

