-- ==== Sys2Proof/Machine/Ops.lean ====
section
/-! DEFINITION. The named operations over the buffers, the ports and the registers: memory (20_memory.md), `IN.take` and
`OUT.put` (00_scope.md R9, 20_memory.md R57, R58), accepting a command (10_state.md R32), completing one (60_exceptions.md
R192) and `raise`, the block's one exception operation (R193). The block has no return from an exception (R196). -/

namespace Sys2Proof.Machine

open Sys2Proof

/-! ## Byte memories -/

/-- What an address that no command has written reads as: 0, a DESIGN CHOICE that 70_reset_and_hazards.md R221 allows and no
command can observe (A10). -/
def Mem.default : Byte := 0

/-- The byte at an address. -/
def Mem.read : Mem → Nat → Byte
  | [], _ => Mem.default
  | (k, b) :: m, a => if k = a then b else Mem.read m a

/-- Write one byte, keeping the canonical form. -/
def Mem.write : Mem → Nat → Byte → Mem
  | [], a, b => if b = Mem.default then [] else [(a, b)]
  | (k, c) :: m, a, b =>
    if a < k then (if b = Mem.default then (k, c) :: m else (a, b) :: (k, c) :: m)
    else if a = k then (if b = Mem.default then m else (a, b) :: m)
    else (k, c) :: Mem.write m a b

/-- The canonical form of a memory of `size` bytes: addresses strictly rising and below `size`, no default byte. -/
abbrev Mem.wf (size : Nat) (m : Mem) : Prop :=
  m.Pairwise (fun x y => x.1 < y.1) ∧ ∀ c ∈ m, c.1 < size ∧ c.2 ≠ Mem.default

/-- `MemWrite(a, n, s)` on PB: lowest address first (00_scope.md R9). -/
def Mem.writeList (m : Mem) (a : Nat) : List Byte → Mem
  | [] => m
  | b :: bs => Mem.writeList (m.write a b) (a + 1) bs

/-- `MemRead(a, n)` (00_scope.md R9). -/
def Mem.readList (m : Mem) (a : Nat) : Nat → List Byte
  | 0 => []
  | n + 1 => m.read a :: Mem.readList m (a + 1) n

/-! ## The lengths of the record in progress -/

/-- `dataLen = nID + nLEN + payloadLen` (43_record_framer.md R152), with the field lengths as taken or as encoded. -/
def Scratch.dataLen (k : Scratch) : Nat := k.rawId.length + k.rawLen.length + k.dlen.toNat

/-- `L = nID + nLEN + payloadLen + c` (R153). -/
def Scratch.totalLen (k : Scratch) : Nat := k.dataLen + k.crc.len

/-- `rev(VU_ENC(L, declared byte order))`, the trailing length as it stands on the wire (R153). -/
def Scratch.trailerLen (k : Scratch) : List Byte := (vuEnc (BitVec.ofNat 29 k.totalLen) k.le).reverse

/-- The computed CRC bytes (R157), from CRCS and XORS. -/
def Scratch.crcField (k : Scratch) : List Byte := crcOut k.crc k.crcs k.xors k.le

/-- One byte joins CRCS and XORS "as bytes are put, taken or read from RB" (R154, R155; A22). -/
def Scratch.feed (k : Scratch) (b : Byte) : Scratch :=
  { k with crcs := crcsStep k.crc k.crcs b, xors := k.xors ^^^ b }

/-- CRCS and XORS started for a width (R154, R155). -/
def Scratch.crcBegin (k : Scratch) (c : CrcKind) : Scratch :=
  { k with crc := c, crcs := crcsInit c, xors := 0, got := [], gotLen := [] }

/-- The first of the two CRC passes: over the header bytes `HDR = ID ‖ LEN` (R155). -/
def Scratch.crcHeader (k : Scratch) : Scratch := (k.rawId ++ k.rawLen).foldl Scratch.feed k

/-! ## Phases -/

/-- Enter a phase, CUR at 0 (10_state.md R31). -/
def State.enter (s : State) (p : Phase) : State := { s with ph := p, cur := 0 }

/-- Enter a phase that decodes a VarUInt: the accumulator starts at 0 (40_varuint.md R105). -/
def State.enterField (s : State) (p : Phase) : State :=
  { s with ph := p, cur := 0, scratch := { s.scratch with acc := 0, raw := [] } }

/-- The next byte of the field in progress. -/
def State.advance (s : State) : State := { s with cur := s.cur + 1 }

/-- Accept a command into its first phase (10_state.md R27, R32): BUSY rises, CONS and CUR start at 0 (R25, R31), the scratch
registers are initialised (R37, A11). -/
def State.accept (s : State) (p : Phase) : State :=
  { s with busy := true, ph := p, cur := 0, cons := 0, scratch := Scratch.init }

/-- The empty Record (43_record_framer.md R164, 42_buffer_ops.md R143). -/
def State.clearRecord (s : State) : State :=
  { s with sync := 0, rid := 0, plen := 0, crclen := 0, crcb := 0 }

/-- The end of a command: PH to IDLE, BUSY falls, the response is signalled (10_state.md R32, 60_exceptions.md R192). -/
def State.respond (s : State) : State :=
  { s with ph := .idle, cur := 0, busy := false, resp := true, scratch := Scratch.init }

/-- A command completes with its results (R192). -/
def State.complete (s : State) (st : Status) (v : U64) (nv : Bool) (cnt : Nat) : State :=
  (s.setResult st v nv cnt).respond

/-- `raise Kind` (60_exceptions.md R193): STAT takes the kind, VAL, NV and CNT are 0, CONS stays, the Record is empty if the
command is REC.DECF or REC.DECR, and the command ends. -/
def State.raise (s : State) (k : Status) : State :=
  ((if s.ph.decoding then s.clearRecord else s).setResult k 0 false 0).respond

/-- An illegal command word (30_encoding.md R83): STAT, VAL, NV, CNT and CONS, and nothing else. -/
def State.illegal (s : State) : State := ({ s with cons := 0, ph := .idle } : State).raise .illegalCommand

/-- A successful REC.DECF or REC.DECR (43_record_framer.md R160, R170): the record registers from the fields taken. -/
def State.recordDone (s : State) : State :=
  ({ s with
      sync := headByte s.scratch.le s.scratch.rev s.scratch.enh
      rid := s.scratch.id.setWidth 32
      plen := s.scratch.dlen.setWidth 32
      crclen := BitVec.ofNat 3 s.scratch.crc.len
      crcb := packCrc s.scratch.got } : State).complete .ok 0 false 0

/-- The number of bytes REC.ENC puts (R159 `total`). -/
def Scratch.wireLen (k : Scratch) : Nat :=
  1 + k.totalLen + (if k.rev then k.trailerLen.length + 1 else 0)

/-- A successful REC.ENC (R159): the record registers of the bytes put, VAL their number. -/
def State.encodeDone (s : State) : State :=
  ({ s with
      sync := headByte s.scratch.le s.scratch.rev s.scratch.enh
      rid := s.scratch.id.setWidth 32
      crclen := BitVec.ofNat 3 s.scratch.crc.len
      crcb := packCrc s.scratch.crcField } : State).complete .ok (BitVec.ofNat 64 s.scratch.wireLen) false 0

/-! ## The buffers and the streams -/

/-- What the codec finds when it needs a byte. -/
inductive Fetch where
  /-- the host presents neither a byte nor end of stream: the codec waits (20_memory.md R57) -/
  | waiting
  /-- no byte will come: end of stream, or past the valid bytes of a buffer (R57, R59, 40_varuint.md R106) -/
  | ended
  /-- the byte, and the state with the byte taken -/
  | got (b : Byte) (s : State)
  /-- an address that does not exist, in a state no run reaches (A15) -/
  | absent (f : Fault)

/-- `IN.take()` (00_scope.md R9, 20_memory.md R57). -/
def State.take (s : State) : Fetch :=
  match s.inQ with
  | b :: q => .got b { s with inQ := q, cons := s.cons + 1 }
  | [] => if s.inEos then .ended else .waiting

/-- A byte of PB at an address that must be below `bound` (R59): PLEN, for every command that reads PB. -/
def State.fetchPb (s : State) (a bound : Nat) : Fetch :=
  if bound ≤ a then .ended
  else if Config.pbBytes ≤ a then .absent (.noPbAddress a)
  else .got (s.pb.read a) s

/-- A staged byte RB[p], p at most L (43_record_framer.md R170 `next`). -/
def State.fetchRb (s : State) (p : Nat) : Fetch :=
  if s.scratch.tlen.toNat < p then .ended
  else if Config.rbBytes ≤ p then .absent (.noRbAddress p)
  else .got (s.rb.read p) s

/-- `next()`: where the phase takes its bytes from (10_state.md R30, R33; 43_record_framer.md R170). The phases that take none
answer `waiting`. -/
def State.nextByte (s : State) : Fetch :=
  match s.ph with
  | .vBuf => s.fetchPb (s.scratch.off.toNat + s.cur.toNat) s.plen.toNat
  | .vIn | .fSync | .fId | .fLen | .fPay | .fCrc | .fRlen | .fTail | .rTail | .rRlen | .rFill => s.take
  | .rHead => s.fetchRb 0
  | .rId => s.fetchRb (1 + s.cur.toNat)
  | .rLen => s.fetchRb (1 + s.scratch.rawId.length + s.cur.toNat)
  | .rPay => s.fetchRb (1 + s.scratch.rawId.length + s.scratch.rawLen.length + s.cur.toNat)
  | .rCrc => s.fetchRb (1 + s.scratch.dataLen + s.cur.toNat)
  | .idle | .vOut | .eSync | .eId | .eLen | .ePay | .eCrc | .eRlen | .eTail => .waiting

/-- `OUT.put(b)` (00_scope.md R9, 20_memory.md R58) with its `out_last` mark: none while the host does not take it. -/
def State.put (s : State) (b : Byte) (last : Bool) : Option State :=
  match s.outRoom with
  | none => some { s with outQ := s.outQ ++ [⟨b, last⟩] }
  | some 0 => none
  | some (n + 1) => some { s with outQ := s.outQ ++ [⟨b, last⟩], outRoom := some n }

/-- The write of `bs` at OFF by VU.ENC, VS.ENC and PB.PUT (20_memory.md R60): the bytes, then `PLEN <- max(PLEN, OFF + n)`. -/
def State.writePb (s : State) (off : U32) (bs : List Byte) : State :=
  { s with
    pb := s.pb.writeList off.toNat bs
    plen := BitVec.ofNat 32 (max s.plen.toNat (off.toNat + bs.length)) }

/-- The write bound (R60): `OFF <= PLEN` and `OFF + n <= PB_BYTES`. -/
def State.writable (s : State) (off : U32) (n : Nat) : Bool :=
  off.toNat ≤ s.plen.toNat && off.toNat + n ≤ Config.pbBytes

/-! ## Wire positions -/

/-- Byte 1 to 3, or byte 4, of a VarUInt (30_encoding.md R77). -/
def vuSlot (cur : U32) : Slot := if cur.toNat < 3 then .vuByte else .vuFourth

/-- The wire format the phase reads next, none for plain bytes (R86): payload, CRC, trailing length as compared, staging, the
later bytes of a VarSInt. -/
def State.slot (s : State) : Option Slot :=
  match s.ph with
  | .fSync | .fTail | .rTail | .rHead => some .sync
  | .fId | .fLen | .rRlen | .rId | .rLen => some (vuSlot s.cur)
  | .vBuf | .vIn =>
    if s.scratch.signed then (if s.cur = 0 then some (.vsFirst s.scratch.le) else none) else some (vuSlot s.cur)
  | .idle => some .command
  | .vOut | .eSync | .eId | .eLen | .ePay | .eCrc | .eRlen | .eTail | .fPay | .fCrc | .fRlen | .rFill | .rPay | .rCrc => none

/-! ## The status port -/

/-- The registers of the status port as the host reads them (10_state.md R38). -/
structure PortView where
  busy : Bool
  stat : BitVec 4
  val : U64
  nv : Bool
  cnt : BitVec 4
  cons : U32
  sync : Byte
  rid : U32
  plen : U32
  crclen : BitVec 3
  crcb : U32
  ph : BitVec 5
  cur : U32
deriving DecidableEq, Repr

/-- The status port (R38): while BUSY = 1 all but BUSY, PH and CUR are free values (A12). -/
def State.port (s : State) : PortView :=
  if s.busy then
    { busy := true, ph := s.ph.code, cur := s.cur
      stat := Config.busyStat s.tick, val := Config.busyVal s.tick, nv := Config.busyNv s.tick, cnt := Config.busyCnt s.tick
      cons := Config.busyCons s.tick, sync := Config.busySync s.tick, rid := Config.busyRid s.tick
      plen := Config.busyPlen s.tick, crclen := Config.busyCrclen s.tick, crcb := Config.busyCrcb s.tick }
  else
    { busy := false, ph := s.ph.code, cur := s.cur
      stat := s.stat.code, val := s.val, nv := s.nv, cnt := s.cnt, cons := s.cons, sync := s.sync, rid := s.rid
      plen := s.plen, crclen := s.crclen, crcb := s.crcb }

end Sys2Proof.Machine
end

