-- ==== Sys2Proof/Machine/Framer.lean ====
section
/-! DEFINITION. What the codec does with each piece of a value or record, shared by the forward and the reverse phases (10_state.md
R33: "do the same work"): the end of a VarUInt field, the payload-length handler, payload, CRC, trailing length and staging
bytes, the bytes of a VarSInt. Each takes the state in which the byte has just been taken. -/

namespace Sys2Proof.Machine

open Sys2Proof

/-- The payload-length handler (43_record_framer.md R162, R173): refuse the 16-byte tier, then a payload that does not fit PB;
a reverse decode then checks `nID + nLEN + plen + c = L`. Otherwise the CRC starts over the header (R155) and the payload
phase follows, or F_CRC when a forward record is empty (10_state.md R30). -/
def State.lengthHandler (s : State) : State :=
  match crcKind s.scratch.dataLen s.scratch.enh with
  | none => s.raise .unsupported
  | some k =>
    if Config.pbBytes < s.scratch.dlen.toNat then s.raise .unsupported
    else if s.ph = .rLen ∧ s.scratch.dataLen + k.len ≠ s.scratch.tlen.toNat then s.raise .headTailMismatch
    else
      { s with
        ph := if s.ph = .rLen then .rPay else if s.scratch.dlen = 0 then .fCrc else .fPay
        cur := 0
        scratch := (s.scratch.crcBegin k).crcHeader }

/-- A VarUInt has ended with value `v`, `n` bytes and the bytes `raw` (40_varuint.md R105): VU.DEC completes (R104), or the
framer goes on with the next field (43_record_framer.md R160, R170). -/
def State.vuDone (s : State) (v : U29) (n : Nat) (raw : List Byte) : Result :=
  match s.ph with
  | .vBuf | .vIn => .next (s.complete .ok (v.setWidth 64) false n)
  | .fId => .next (({ s with scratch := { s.scratch with id := v, rawId := raw } } : State).enterField .fLen)
  | .rId => .next (({ s with scratch := { s.scratch with id := v, rawId := raw } } : State).enterField .rLen)
  | .fLen | .rLen => .next ({ s with scratch := { s.scratch with dlen := v, rawLen := raw } } : State).lengthHandler
  | .rRlen =>
    let t : State := { s with scratch := { s.scratch with tlen := v } }
    .next (if Config.rbBytes < v.toNat + 1 then t.raise .unsupported else t.enter .rFill)
  | _ => .refused .notReadHere

/-- A VarSInt's bytes are all in the shift register (41_varsint.md R126, R127): a value, the sentinel, or Overflow. -/
def State.vsDone (s : State) : State :=
  match vsFinish s.scratch.le s.scratch.nib s.scratch.shift with
  | .value v => s.complete .ok v false (nibSize s.scratch.nib)
  | .noValue => s.complete .noValue 0 true 1
  | .overflow => s.raise .overflow

/-- The first byte of a VarSInt, with its flag nibble (R127). -/
def State.vsStart (s : State) (nib : BitVec 4) (b : Byte) : State :=
  let t : State := { s with scratch := { s.scratch with nib := nib, shift := b.setWidth 64 } }
  if nibSize nib = 1 then t.vsDone else t.advance

/-- A later byte of a VarSInt: a plain payload byte (30_encoding.md R78, 41_varsint.md R127). -/
def State.vsMore (s : State) (b : Byte) : State :=
  let t : State := { s with scratch := { s.scratch with shift := vsShiftIn s.scratch.le s.scratch.shift s.cur.toNat b } }
  if nibSize s.scratch.nib ≤ s.cur.toNat + 1 then t.vsDone else t.advance

/-- A payload byte into PB[CUR] (43_record_framer.md R160 F_PAY, R170 R_PAY), and into the running CRC (R155). -/
def State.payByte (s : State) (crcPhase : Phase) (b : Byte) : Result :=
  if Config.pbBytes ≤ s.cur.toNat then .fault (.noPbAddress s.cur.toNat)
  else
    let t : State := { s with pb := s.pb.write s.cur.toNat b, scratch := s.scratch.feed b }
    .next (if s.scratch.dlen.toNat ≤ s.cur.toNat + 1 then t.enter crcPhase else t.advance)

/-- A CRC byte (R160 F_CRC, R170 R_CRC): after the last of the `c` bytes they are compared with the computed ones; then the
record is done, or its trailer follows in a forward decode of a reverse-readable record (R163). -/
def State.crcByte (s : State) (b : Byte) : State :=
  let t : State := { s with scratch := { s.scratch with got := s.scratch.got ++ [b] } }
  if s.scratch.crc.len ≤ s.cur.toNat + 1 then
    if t.scratch.got ≠ t.scratch.crcField then t.raise .checksumMismatch
    else if s.ph = .fCrc ∧ s.scratch.rev = true then t.enter .fRlen
    else t.recordDone
  else t.advance

/-- A byte of the trailing length in a forward decode (R163): after the last one they are compared with `rev(VU_ENC(L))`. -/
def State.rlenByte (s : State) (b : Byte) : State :=
  let t : State := { s with scratch := { s.scratch with gotLen := s.scratch.gotLen ++ [b] } }
  if s.scratch.trailerLen.length ≤ s.cur.toNat + 1 then
    if t.scratch.gotLen ≠ t.scratch.trailerLen then t.raise .headTailMismatch else t.enter .fTail
  else t.advance

/-- The k-th byte taken while staging goes to RB[L - k], k = CUR; after `L + 1` bytes the head follows (R171). -/
def State.fillByte (s : State) (b : Byte) : Result :=
  let a := s.scratch.tlen.toNat - s.cur.toNat
  if Config.rbBytes ≤ a then .fault (.noRbAddress a)
  else
    let t : State := { s with rb := s.rb.write a b }
    .next (if s.scratch.tlen.toNat ≤ s.cur.toNat then t.enter .rHead else t.advance)

/-- A byte that is neither a head nor a tail sync byte where a sync byte is due: MalformedSync (30_encoding.md R84), but for
the staged head byte, which is compared with the one paired value (43_record_framer.md R172). -/
def State.badSync (s : State) : State :=
  if s.ph = .rHead then s.raise .headTailMismatch else s.raise .malformedSync

/-- A head sync byte (30_encoding.md R73, R84): REC.DECF goes on with its flags (43_record_framer.md R160); it is no tail
(R84, R160 step 5); as the staged byte 0 it must be the paired head (R172). -/
def State.headSync (s : State) (le rev enh : Bool) : Result :=
  match s.ph with
  | .fSync =>
    .next (({ s with scratch := { s.scratch with le := le, rev := rev, enh := enh } } : State).enterField .fId)
  | .fTail | .rTail => .next (s.raise .malformedSync)
  | .rHead =>
    .next (if le = s.scratch.le ∧ rev = s.scratch.rev ∧ enh = s.scratch.enh then s.enterField .rId
      else s.raise .headTailMismatch)
  | _ => .refused .notReadHere

/-- A tail sync byte (30_encoding.md R75, R84): REC.DECR goes on with its paired head's flags (43_record_framer.md R170); at
the end of a forward decode it must be the partner of the head (R160 step 5); it is no head (R84, R172). -/
def State.tailSync (s : State) (le enh : Bool) : Result :=
  match s.ph with
  | .fSync => .next (s.raise .malformedSync)
  | .fTail =>
    .next (if le = s.scratch.le ∧ enh = s.scratch.enh then s.recordDone else s.raise .headTailMismatch)
  | .rTail =>
    .next (({ s with scratch := { s.scratch with le := le, rev := true, enh := enh } } : State).enterField .rRlen)
  | .rHead => .next (s.raise .headTailMismatch)
  | _ => .refused .notReadHere

/-- A byte that is no wire format of its own, by the phase that takes it (30_encoding.md R86). -/
def State.dataByte (s : State) (b : Byte) : Result :=
  match s.ph with
  | .vBuf | .vIn => .next (s.vsMore b)
  | .fPay => s.payByte .fCrc b
  | .rPay => s.payByte .rCrc b
  | .fCrc | .rCrc => .next (s.crcByte b)
  | .fRlen => .next (s.rlenByte b)
  | .rFill => s.fillByte b
  | _ => .refused .notReadHere

/-! ## The bytes of an encode -/

/-- The bytes of the field a sending phase puts (43_record_framer.md R159); the payload is read from PB byte by byte. -/
def State.txField (s : State) : List Byte :=
  match s.ph with
  | .vOut => s.scratch.tx
  | .eSync => [headByte s.scratch.le s.scratch.rev s.scratch.enh]
  | .eId => s.scratch.rawId
  | .eLen => s.scratch.rawLen
  | .eCrc => s.scratch.crcField
  | .eRlen => s.scratch.trailerLen
  | .eTail => [tailByte s.scratch.le s.scratch.enh]
  | _ => []

/-- The number of bytes a sending phase puts. -/
def State.txLen (s : State) : Nat := if s.ph = .ePay then s.scratch.dlen.toNat else s.txField.length

/-- The byte a sending phase puts next, by CUR. -/
def State.txByte (s : State) : Fetch :=
  if s.ph = .ePay then s.fetchPb s.cur.toNat s.scratch.dlen.toNat
  else
    match s.txField[s.cur.toNat]? with
    | some b => .got b s
    | none => .ended

/-- `out_last`: the byte is the last one of the command's output (20_memory.md R58). -/
def State.txLast (s : State) : Bool :=
  match s.ph with
  | .vOut => s.txLen ≤ s.cur.toNat + 1
  | .eCrc => !s.scratch.rev && s.txLen ≤ s.cur.toNat + 1
  | .eTail => true
  | _ => false

/-- The bytes the CRC covers are fed as they are put (43_record_framer.md R155). -/
def State.txFeed (s : State) (b : Byte) : State :=
  match s.ph with
  | .eId | .eLen | .ePay => { s with scratch := s.scratch.feed b }
  | _ => s

/-- The end of a sending phase: the "leaves to" column of 10_state.md R30; the last phase completes the command. -/
def State.txNext (s : State) : State :=
  match s.ph with
  | .eSync => s.enter .eId
  | .eId => s.enter .eLen
  | .eLen => s.enter (if s.scratch.dlen = 0 then .eCrc else .ePay)
  | .ePay => s.enter .eCrc
  | .eCrc => if s.scratch.rev then s.enter .eRlen else s.encodeDone
  | .eRlen => s.enter .eTail
  | .eTail => s.encodeDone
  | _ => s.complete .ok 0 false s.scratch.tx.length

/-- One byte of an encode, none while the host does not take it (20_memory.md R58). -/
def State.sendUnit (s : State) : Option Result :=
  match s.txByte with
  | .got b _ =>
    (s.put b s.txLast).map fun t =>
      let u := t.txFeed b
      .next (if s.txLen ≤ s.cur.toNat + 1 then u.txNext else u.advance)
  | .absent f => some (.fault f)
  | _ => some (.next s.txNext)

end Sys2Proof.Machine
end

