-- ==== Sys2Proof/Machine/Wire.lean ====
section
/-! DEFINITION. The meanings of the seventeen wire formats (30_encoding.md R73, R75, R77, R78): what the codec does with a byte
it has just taken, by the phase it is in. A format in a phase or at a position that does not read it is refused by name (A16);
no step does that, since the decoder is asked for the format of the very position (R86). -/

namespace Sys2Proof.Machine

open Sys2Proof

/-- The meaning stands only where the phase reads this format (R86). -/
def State.readsAt (s : State) (sl : Slot) (r : Result) : Result :=
  if s.slot = some sl then r else .refused .notReadHere

/-- SYNC.HEAD.0xC2: little-endian, forward only, regular (R73). -/
def execSyncHeadC2 (s : State) : Result := s.readsAt .sync (s.headSync true false false)
/-- SYNC.HEAD.0xE2: big-endian, forward only, regular (R73). -/
def execSyncHeadE2 (s : State) : Result := s.readsAt .sync (s.headSync false false false)
/-- SYNC.HEAD.0xC8: little-endian, forward only, enhanced (R73). -/
def execSyncHeadC8 (s : State) : Result := s.readsAt .sync (s.headSync true false true)
/-- SYNC.HEAD.0xE8: big-endian, forward only, enhanced (R73). -/
def execSyncHeadE8 (s : State) : Result := s.readsAt .sync (s.headSync false false true)
/-- SYNC.HEAD.0xD2: little-endian, reverse-readable, regular (R73). -/
def execSyncHeadD2 (s : State) : Result := s.readsAt .sync (s.headSync true true false)
/-- SYNC.HEAD.0xF2: big-endian, reverse-readable, regular (R73). -/
def execSyncHeadF2 (s : State) : Result := s.readsAt .sync (s.headSync false true false)
/-- SYNC.HEAD.0xD8: little-endian, reverse-readable, enhanced (R73). -/
def execSyncHeadD8 (s : State) : Result := s.readsAt .sync (s.headSync true true true)
/-- SYNC.HEAD.0xF8: big-endian, reverse-readable, enhanced (R73). -/
def execSyncHeadF8 (s : State) : Result := s.readsAt .sync (s.headSync false true true)

/-- SYNC.TAIL.0xB4: the partner of 0xD2, little-endian, regular (R75). -/
def execSyncTailB4 (s : State) : Result := s.readsAt .sync (s.tailSync true false)
/-- SYNC.TAIL.0xB0: the partner of 0xF2, big-endian, regular (R75). -/
def execSyncTailB0 (s : State) : Result := s.readsAt .sync (s.tailSync false false)
/-- SYNC.TAIL.0xE4: the partner of 0xD8, little-endian, enhanced (R75). -/
def execSyncTailE4 (s : State) : Result := s.readsAt .sync (s.tailSync true true)
/-- SYNC.TAIL.0xE0: the partner of 0xF8, big-endian, enhanced (R75). -/
def execSyncTailE0 (s : State) : Result := s.readsAt .sync (s.tailSync false true)

/-- VU-CONT (R77; 40_varuint.md R105): 7 payload bits join the accumulator and another byte follows. -/
def execVuCont (d : BitVec 7) (s : State) : Result :=
  s.readsAt .vuByte <| .next
    { s with
      cur := s.cur + 1
      scratch := { s.scratch with
        acc := vuJoin s.scratch.le s.scratch.acc s.cur.toNat d
        raw := s.scratch.raw ++ [1#1 ++ d] } }

/-- VU-TERM (R77; 40_varuint.md R105): 7 payload bits join the accumulator and the value ends. -/
def execVuTerm (d : BitVec 7) (s : State) : Result :=
  s.readsAt .vuByte <|
    s.vuDone (vuJoin s.scratch.le s.scratch.acc s.cur.toNat d) (s.cur.toNat + 1) (s.scratch.raw ++ [0#1 ++ d])

/-- VU-BYTE4 (R77; 40_varuint.md R105): all 8 bits join the accumulator and the value ends after 4 bytes. -/
def execVuByte4 (d : Byte) (s : State) : Result :=
  s.readsAt .vuFourth <| s.vuDone (vuJoinFourth s.scratch.le s.scratch.acc d) 4 (s.scratch.raw ++ [d])

/-- VS-FIRST-LE `ddddsnnn` (R78; 41_varsint.md R127): the flag nibble is the low nibble. -/
def execVsFirstLe (d : BitVec 4) (g : Bool) (n : BitVec 3) (s : State) : Result :=
  s.readsAt (.vsFirst true) <| .next (s.vsStart (BitVec.ofBool g ++ n) (d ++ BitVec.ofBool g ++ n))

/-- VS-FIRST-BE `snnndddd` (R78; 41_varsint.md R127): the flag nibble is the high nibble. -/
def execVsFirstBe (g : Bool) (n : BitVec 3) (d : BitVec 4) (s : State) : Result :=
  s.readsAt (.vsFirst false) <| .next (s.vsStart (BitVec.ofBool g ++ n) (BitVec.ofBool g ++ n ++ d))

end Sys2Proof.Machine
end

