-- ==== Sys2Proof/Machine/Run.lean ====
section
/-! DEFINITION. The codec inside a command: one unit of work of the phase it is in (a byte taken or put), and running units until
the command ends or must wait for the host (70_reset_and_hazards.md R231, R230; A2). -/

namespace Sys2Proof.Machine

open Sys2Proof

/-- A wire format read inside a command; the arms agree with `exec`. A command word is no wire format. -/
def runWire (i : Instr) (s : State) : Result :=
  match i with
  | .syncHeadC2 => execSyncHeadC2 s
  | .syncHeadE2 => execSyncHeadE2 s
  | .syncHeadC8 => execSyncHeadC8 s
  | .syncHeadE8 => execSyncHeadE8 s
  | .syncHeadD2 => execSyncHeadD2 s
  | .syncHeadF2 => execSyncHeadF2 s
  | .syncHeadD8 => execSyncHeadD8 s
  | .syncHeadF8 => execSyncHeadF8 s
  | .syncTailB4 => execSyncTailB4 s
  | .syncTailB0 => execSyncTailB0 s
  | .syncTailE4 => execSyncTailE4 s
  | .syncTailE0 => execSyncTailE0 s
  | .vuCont d => execVuCont d s
  | .vuTerm d => execVuTerm d s
  | .vuByte4 d => execVuByte4 d s
  | .vsFirstLe d g n => execVsFirstLe d g n s
  | .vsFirstBe g n d => execVsFirstBe g n d s
  | .nop | .vuEnc .. | .vuDec .. | .vsEnc .. | .vsDec .. | .pbPut .. | .pbGet .. | .pbClr
  | .recEnc .. | .recDecf | .recDecr => .refused .notReadHere

/-- A byte just taken, `s` being the state after the take: the wire format of its position runs; a byte that is none where a
sync byte is due is an error; any other byte is plain. -/
def State.handleByte (s : State) (b : Byte) : Result :=
  match s.slot with
  | none => s.dataByte b
  | some sl =>
    match decodeByte sl b with
    | .ok i => runWire i s
    | .error _ => .next s.badSync

/-- One unit of work in a phase, none in IDLE and while the codec waits on IN or OUT (20_memory.md R57, R58). -/
def State.unit (s : State) : Option Result :=
  if s.ph = .idle then none
  else if s.ph.sending then s.sendUnit
  else if s.ph = .rPay ∧ s.scratch.dlen.toNat ≤ s.cur.toNat then some (.next (s.enter .rCrc))
  else
    match s.nextByte with
    | .waiting => none
    | .ended => some (.next (s.raise .truncatedRead))
    | .absent f => some (.fault f)
    | .got b t => some (t.handleByte b)

/-- Units of work until the command ends or waits, at most `n`. -/
def settle : Nat → State → Result
  | 0, s => .next s
  | n + 1, s =>
    match s.unit with
    | none => .next s
    | some (.next t) => settle n t
    | some r => r

/-- More units than any command has: 26 phases of fewer than 2^32 bytes each. -/
def settleFuel : Nat := 2 ^ 38

/-- Run an accepted command until it ends or waits (R231; A2). -/
def State.run (s : State) : Result := settle settleFuel s

end Sys2Proof.Machine
end

