-- ==== Sys2Proof/Machine/VarUInt.lean ====
section
/-! DEFINITION. VU.ENC and VU.DEC (40_varuint.md), and what every command shares: a word presented while BUSY = 1 waits. -/

namespace Sys2Proof.Machine

open Sys2Proof

/-- A command is accepted while BUSY = 0; while BUSY = 1 the word waits on the port and nothing changes (10_state.md R27,
70_reset_and_hazards.md R224; A25). -/
def State.whenFree (s : State) (r : Result) : Result := if s.busy then .next s else r

/-- A value's bytes to PB at OFF (20_memory.md R60), or to OUT (40_varuint.md R103, 41_varsint.md R125). The encode form of
both value units: STRM chooses. -/
def State.encodeTo (s : State) (strm : Bool) (off : U32) (bs : List Byte) : Result :=
  if strm then
    let t := s.accept .vOut
    ({ t with scratch := { t.scratch with tx := bs } } : State).run
  else
    let t := s.accept .vBuf
    if t.writable off bs.length then .next ((t.writePb off bs).complete .ok 0 false bs.length)
    else .next (t.raise .invalidOffset)

/-- A value's bytes from PB at OFF, the first of which must be below PLEN (20_memory.md R59), or from IN. The decode form of
both value units: STRM chooses. -/
def State.decodeFrom (s : State) (signed le strm : Bool) (off : U32) : Result :=
  if strm then
    let t := s.accept .vIn
    ({ t with scratch := { t.scratch with signed := signed, le := le } } : State).run
  else
    let t := s.accept .vBuf
    if t.plen.toNat ≤ off.toNat then .next (t.raise .invalidOffset)
    else ({ t with scratch := { t.scratch with signed := signed, le := le, off := off } } : State).run

/-- VU.ENC (40_varuint.md R103): Overflow when A > 536,870,911, else the bytes of R101 or R102. -/
def execVuEnc (le strm : Bool) (off : U32) (a : U64) (s : State) : Result :=
  s.whenFree <|
    match vuSize a.toNat with
    | none => .next ((s.accept (if strm then .vOut else .vBuf)).raise .overflow)
    | some _ => s.encodeTo strm off (vuEnc (a.setWidth 29) le)

/-- VU.DEC (40_varuint.md R104). -/
def execVuDec (le strm : Bool) (off : U32) (s : State) : Result :=
  s.whenFree <| s.decodeFrom false le strm off

end Sys2Proof.Machine
end

