-- ==== Sys2Proof/Machine/Buffer.lean ====
section
/-! DEFINITION. The payload buffer commands NOP, PB.PUT, PB.GET and PB.CLR (42_buffer_ops.md). -/

namespace Sys2Proof.Machine

open Sys2Proof

/-- NOP (42_buffer_ops.md R140): writes no register; its completion is signalled like any other (60_exceptions.md R192). -/
def execNop (s : State) : Result := s.whenFree <| .next { s with resp := true }

/-- PB.PUT (R141): one byte at OFF, within the write bound (20_memory.md R60). -/
def execPbPut (off : U32) (b : Byte) (s : State) : Result :=
  s.whenFree <|
    let t := s.accept .vBuf
    .next (if t.writable off 1 then (t.writePb off [b]).complete .ok 0 false 0 else t.raise .invalidOffset)

/-- PB.GET (R142): the byte at OFF, below PLEN (20_memory.md R59), zero-extended. -/
def execPbGet (off : U32) (s : State) : Result :=
  s.whenFree <|
    let t := s.accept .vBuf
    match t.fetchPb off.toNat t.plen.toNat with
    | .got b u => .next (u.complete .ok (b.setWidth 64) false 0)
    | .absent f => .fault f
    | _ => .next (t.raise .invalidOffset)

/-- PB.CLR (R143): the empty Record; the bytes of PB are not erased. -/
def execPbClr (s : State) : Result :=
  s.whenFree <| .next ((s.accept .vBuf).clearRecord.complete .ok 0 false 0)

end Sys2Proof.Machine
end

