-- ==== Sys2Proof/Machine/Record.lean ====
section
/-! DEFINITION. The Record framer's commands REC.ENC, REC.DECF and REC.DECR (43_record_framer.md). What the codec does in each
of their phases stands in Machine/Framer.lean and Machine/Wire.lean. -/

namespace Sys2Proof.Machine

open Sys2Proof

/-- The Record that REC.ENC serializes, latched with its CRC started (43_record_framer.md R155, R159). -/
def State.beginEncode (s : State) (le rev enh : Bool) (id : U29) (k : CrcKind) : State :=
  let t := s.accept .eSync
  let c : Scratch :=
    { t.scratch with
      le := le, rev := rev, enh := enh, id := id, dlen := s.plen.setWidth 29
      rawId := vuEnc id le, rawLen := vuEnc (s.plen.setWidth 29) le }
  { t with scratch := c.crcBegin k }

/-- REC.ENC (43_record_framer.md R159): Overflow for an id above 536,870,911, then Unsupported for the 16-byte tier, both
before the first byte (R158); then the record's bytes go to OUT, phase by phase. -/
def execRecEnc (le rev enh : Bool) (a : U64) (s : State) : Result :=
  s.whenFree <|
    if vuMax < a.toNat then .next ((s.accept .idle).raise .overflow)
    else
      let id : U29 := a.setWidth 29
      match crcKind ((vuEnc id le).length + (vuEnc (s.plen.setWidth 29) le).length + s.plen.toNat) enh with
      | none => .next ((s.accept .idle).raise .unsupported)
      | some k => (s.beginEncode le rev enh id k).run

/-- REC.DECF (R160): the empty Record (R164), then the forward protocol from F_SYNC. -/
def execRecDecf (s : State) : Result :=
  s.whenFree <| ((s.accept .fSync).clearRecord).run

/-- REC.DECR (R170): the empty Record (R164), then the reverse protocol from R_TAIL. -/
def execRecDecr (s : State) : Result :=
  s.whenFree <| ((s.accept .rTail).clearRecord).run

end Sys2Proof.Machine
end

