-- ==== Sys2Proof/Machine/VarSInt.lean ====
section
/-! DEFINITION. VS.ENC and VS.DEC (41_varsint.md). -/

namespace Sys2Proof.Machine

open Sys2Proof

/-- VS.ENC (41_varsint.md R125): the sentinel when NVF = 1, whatever A holds; else Overflow when the magnitude is above VS_MAX,
else the bytes of R123 or R124. -/
def execVsEnc (le strm nvf : Bool) (off : U32) (a : U64) (s : State) : Result :=
  s.whenFree <|
    match if nvf then some [vsSentinel le] else vsEnc le a with
    | none => .next ((s.accept (if strm then .vOut else .vBuf)).raise .overflow)
    | some bs => s.encodeTo strm off bs

/-- VS.DEC (41_varsint.md R126). -/
def execVsDec (le strm : Bool) (off : U32) (s : State) : Result :=
  s.whenFree <| s.decodeFrom true le strm off

end Sys2Proof.Machine
end

