-- ==== Sys2Proof/Machine/Dispatch.lean ====
section
/-! DEFINITION. The meaning of every instruction. -/

namespace Sys2Proof.Machine

open Sys2Proof

def exec (i : Instr) (s : State) : Host.Outcome State Fault Refusal :=
  match i with
  | .nop => Sys2Proof.Machine.execNop s
  | .vuEnc le strm off a => Sys2Proof.Machine.execVuEnc le strm off a s
  | .vuDec le strm off => Sys2Proof.Machine.execVuDec le strm off s
  | .vsEnc le strm nvf off a => Sys2Proof.Machine.execVsEnc le strm nvf off a s
  | .vsDec le strm off => Sys2Proof.Machine.execVsDec le strm off s
  | .pbPut off b => Sys2Proof.Machine.execPbPut off b s
  | .pbGet off => Sys2Proof.Machine.execPbGet off s
  | .pbClr => Sys2Proof.Machine.execPbClr s
  | .recEnc le rev enh a => Sys2Proof.Machine.execRecEnc le rev enh a s
  | .recDecf => Sys2Proof.Machine.execRecDecf s
  | .recDecr => Sys2Proof.Machine.execRecDecr s
  | .syncHeadC2 => Sys2Proof.Machine.execSyncHeadC2 s
  | .syncHeadE2 => Sys2Proof.Machine.execSyncHeadE2 s
  | .syncHeadC8 => Sys2Proof.Machine.execSyncHeadC8 s
  | .syncHeadE8 => Sys2Proof.Machine.execSyncHeadE8 s
  | .syncHeadD2 => Sys2Proof.Machine.execSyncHeadD2 s
  | .syncHeadF2 => Sys2Proof.Machine.execSyncHeadF2 s
  | .syncHeadD8 => Sys2Proof.Machine.execSyncHeadD8 s
  | .syncHeadF8 => Sys2Proof.Machine.execSyncHeadF8 s
  | .syncTailB4 => Sys2Proof.Machine.execSyncTailB4 s
  | .syncTailB0 => Sys2Proof.Machine.execSyncTailB0 s
  | .syncTailE4 => Sys2Proof.Machine.execSyncTailE4 s
  | .syncTailE0 => Sys2Proof.Machine.execSyncTailE0 s
  | .vuCont d => Sys2Proof.Machine.execVuCont d s
  | .vuTerm d => Sys2Proof.Machine.execVuTerm d s
  | .vuByte4 d => Sys2Proof.Machine.execVuByte4 d s
  | .vsFirstLe d g n => Sys2Proof.Machine.execVsFirstLe d g n s
  | .vsFirstBe g n d => Sys2Proof.Machine.execVsFirstBe g n d s

end Sys2Proof.Machine
end

