-- ==== Sys2Proof/Machine/Fetch.lean ====
section
/-! DEFINITION. Fetching: the next instruction from the command port or from the bytes of the phase in progress; the reset
input; placing an instruction where it is fetched. -/

namespace Sys2Proof.Machine

open Sys2Proof

/-- The start of a step: the model's counter moves on (A12) and the `resp_valid` pulse ends (60_exceptions.md R192; A13). -/
def State.tickOver (s : State) : State := { s with tick := s.tick + 1, resp := false }

/-- Every register at its reset value (10_state.md R40, 70_reset_and_hazards.md R220); PB and RB are "not cleared by reset"
(R221), and what the host presents is the host's. -/
def State.resetRegisters (s : State) : State :=
  { State.reset with
    pb := s.pb, rb := s.rb, resp := s.resp, rst := s.rst, cmdQ := s.cmdQ, inQ := s.inQ, inEos := s.inEos
    outQ := s.outQ, outRoom := s.outRoom, tick := s.tick }

/-- What stands where the codec fetches next. -/
inductive Fetched where
  /-- a command word on the port of an idle codec, and the state with the word taken (10_state.md R27, 30_encoding.md R70) -/
  | command (w : CmdWord) (s : State)
  /-- a wire format at the position of the phase, and the state with its byte taken (30_encoding.md R86) -/
  | wire (i : Instr) (s : State)
  /-- no instruction: other work of the phase, or nothing presented -/
  | other

/-- The next instruction (10_state.md R30, R32; A1). -/
def State.fetchInstr (s : State) : Fetched :=
  if s.ph = .idle then
    match s.busy, s.cmdQ with
    | false, w :: q => .command w { s with cmdQ := q }
    | _, _ => .other
  else
    match s.slot, s.nextByte with
    | some sl, .got b t =>
      match decodeByte sl b with
      | .ok i => .wire i t
      | .error _ => .other
    | _, _ => .other

/-- A command word first on the command port of an idle codec. -/
def State.withCommand (s : State) (w : CmdWord) : State :=
  { s with rst := false, busy := false, ph := .idle, cur := 0, cmdQ := w :: s.cmdQ }

/-- A wire byte first on IN, in a phase that reads its format next: F_SYNC for a head sync byte, R_TAIL for a tail sync byte,
V_IN of VU.DEC for another byte. -/
def State.withByte (s : State) (b : Byte) : State :=
  { s with
    rst := false, busy := true, cur := 0, scratch := Scratch.init, inQ := b :: s.inQ
    ph := if b ∈ headSet then .fSync else if b ∈ tailSet then .rTail else .vIn }

end Sys2Proof.Machine
end

