-- ==== Sys2Proof/Machine/Step.lean ====
section
/-! DEFINITION. One step of the codec: reset, a command word accepted in IDLE, or one unit of work of a command that has waited. -/

namespace Sys2Proof.Machine

open Sys2Proof

/-- One step (A2, A3, A6, A14). While `rst` is asserted every register is at its reset value and no port moves
(70_reset_and_hazards.md R220). In IDLE the next command word is taken from the port and runs (10_state.md R27, R32); an
illegal one is reported (30_encoding.md R83); with no word the codec waits. In any other phase it goes on with its command: a
wire format is fetched, decoded and runs as its instruction, any other unit of work is done, or the codec waits (20_memory.md
R57, R58). -/
def step (s : State) : Host.Outcome State Fault Refusal :=
  let t := s.tickOver
  if t.rst then .next t.resetRegisters
  else
    match t.fetchInstr with
    | .command w u =>
      match decodeCommand w with
      | .ok i => exec i u
      | .error _ => .next u.illegal
    | .wire i u => exec i u
    | .other => (t.unit).getD (.next t)

/-- `s` with an opcode-table row's instruction where the next step fetches it, by the slot `decodeTableWord` reads it at (A3,
A17): a command word on the command port of an idle codec; a head sync byte on IN in F_SYNC, a tail sync byte on IN in R_TAIL,
a VarUInt byte on IN in V_IN. -/
def State.withFetchWord (s : State) (nbits w : Nat) : State :=
  match tableCode nbits w with
  | .word c => s.withCommand c
  | .byte b => s.withByte b

end Sys2Proof.Machine
end

