-- ==== Sys2Proof/Safety.lean ====
section
/-! DEFINITION. What the statements are said in: the end of a command spelled out as a record, the marks of `out_last`, the
"leaves to" column of 10_state.md R30, waiting, and the invariant of the registers. -/

namespace Sys2Proof.Machine

open Sys2Proof

/-- A command has ended with these results (10_state.md R32, 60_exceptions.md R192, R193): the result registers, CONS, the
phase back in IDLE, BUSY low, the response signalled (A13), the scratch registers cleared (A11). Nothing else. -/
def State.ended (s : State) (st : Status) (v : U64) (nv : Bool) (cnt : Nat) (cons : Nat) : State :=
  { s with
    stat := st, val := v, nv := nv, cnt := BitVec.ofNat 4 cnt, cons := BitVec.ofNat 32 cons
    ph := .idle, cur := 0, busy := false, resp := true, scratch := Scratch.init }

/-- The outcome is the state `t`, up to the scratch registers, which "no command can read afterwards" (10_state.md R37; what they
hold after a command is the model's choice, A11). -/
def EndsIn (r : Result) (t : State) : Prop := ∃ k : Scratch, r = .next { t with scratch := k }

/-- 30_encoding.md R83: OP is 0xB to 0xF, or a control bit is 1 that the opcode does not use. -/
def IllegalControl (w : CmdWord) : Prop :=
  let op : BitVec 4 := w.extractLsb' 0 4
  let le := w.getLsbD 4
  let strm := w.getLsbD 5
  let m0 := w.getLsbD 6
  let m1 := w.getLsbD 7
  0xB ≤ op.toNat ∨
    (op ∈ [0x0#4, 0x5#4, 0x6#4, 0x7#4, 0x9#4, 0xA#4] ∧ (le = true ∨ strm = true ∨ m0 = true ∨ m1 = true)) ∨
    (op ∈ [0x1#4, 0x2#4, 0x4#4] ∧ (m0 = true ∨ m1 = true)) ∨ (op = 0x3 ∧ m1 = true) ∨ (op = 0x8 ∧ strm = true)

/-- A command has ended in an error (R193): VAL, NV and CNT are 0. -/
def State.failed (s : State) (k : Status) (cons : Nat) : State := s.ended k 0 false 0 cons

/-- The record registers of the empty Record (43_record_framer.md R164). -/
def State.emptied (s : State) : State := { s with sync := 0, rid := 0, plen := 0, crclen := 0, crcb := 0 }

/-- The end of a VarSInt decode that took `n` bytes (41_varsint.md R126). -/
def State.vsEnded (s : State) (cons : Nat) : VsValue → Nat → State
  | .value v, n => s.ended .ok v false n cons
  | .noValue, _ => s.ended .noValue 0 true 1 cons
  | .overflow, _ => s.failed .overflow cons

/-- Bytes put on OUT of which none is the last of its command. -/
def unmarked (bs : List Byte) : List OutByte := bs.map fun b => ⟨b, false⟩

/-- The bytes of one command on OUT: the last one is marked (20_memory.md R58). -/
def marked : List Byte → List OutByte
  | [] => []
  | [b] => [⟨b, true⟩]
  | b :: bs => ⟨b, false⟩ :: marked bs

/-- `HDR = ID ‖ LEN` of an encoded record (43_record_framer.md R152). -/
def header (le : Bool) (id : U29) (payloadLen : Nat) : List Byte := vuEnc id le ++ vuEnc (BitVec.ofNat 29 payloadLen) le

/-- The host takes at least `n` more bytes on OUT (20_memory.md R58). -/
def State.roomFor (s : State) (n : Nat) : Bool :=
  match s.outRoom with
  | none => true
  | some r => decide (n ≤ r)

/-- Bytes put on OUT and taken by the host, with their marks (R58). -/
def State.putAll (s : State) (bs : List OutByte) : State :=
  { s with outQ := s.outQ ++ bs, outRoom := s.outRoom.map (· - bs.length) }

/-- The registers of a held Record (10_state.md R28, R29, R34, R35). -/
def State.holding (s : State) (head : Byte) (id : U29) (payloadLen : Nat) (crc : List Byte) : State :=
  { s with
    sync := head, rid := id.setWidth 32, plen := BitVec.ofNat 32 payloadLen
    crclen := BitVec.ofNat 3 crc.length, crcb := packCrc crc }

/-! ## The two read protocols as 43_record_framer.md R160 and R170 write them, on a whole byte sequence -/

/-- How a read of a record ends. -/
inductive Stop where
  /-- the bytes run out: TruncatedRead at end of stream, a wait otherwise (20_memory.md R57) -/
  | short
  /-- a check fails -/
  | error (k : Status)
  /-- a whole record: its head sync byte, its id, its CRC bytes -/
  | record (head : Byte) (id : U29) (crc : List Byte)
deriving DecidableEq, Repr

/-- What a read of a record does: how it ends, the payload bytes that went to PB, the bytes of IN left. -/
structure ReadResult where
  stop : Stop
  pay : List Byte
  rest : List Byte
deriving DecidableEq, Repr

/-- `PARSE_HEAD` (30_encoding.md R74): byte order, direction, CRC mode of a head sync byte. -/
def parseHead (b : Byte) : Option (Bool × Bool × Bool) :=
  if b ∈ headSet then some (!b.getLsbD 5, b.getLsbD 4, b.getLsbD 3) else none

/-- `HEAD_OF` (30_encoding.md R75): the paired head of a tail sync byte. -/
def headOf (b : Byte) : Option Byte :=
  if b = 0xB4 then some 0xD2
  else if b = 0xB0 then some 0xF2
  else if b = 0xE4 then some 0xD8
  else if b = 0xE0 then some 0xF8
  else none

/-- The trailer of a forward read (43_record_framer.md R163): `rev(VU_ENC(L))`, then the tail byte, from the bytes `bs`. -/
def readTrailer (le enh : Bool) (total : Nat) (done : Stop) (pay bs : List Byte) : ReadResult :=
  let e := (vuEnc (BitVec.ofNat 29 total) le).reverse
  if bs.length < e.length then ⟨.short, pay, []⟩
  else if bs.take e.length ≠ e then ⟨.error .headTailMismatch, pay, bs.drop e.length⟩
  else
    match bs.drop e.length with
    | [] => ⟨.short, pay, []⟩
    | t :: rest =>
      if headOf t = none then ⟨.error .malformedSync, pay, rest⟩
      else if headOf t ≠ some (headByte le true enh) then ⟨.error .headTailMismatch, pay, rest⟩
      else ⟨done, pay, rest⟩

/-- The pseudocode of REC.DECF (43_record_framer.md R160). -/
def readForward : List Byte → ReadResult
  | [] => ⟨.short, [], []⟩
  | s :: b1 =>
    match parseHead s with
    | none => ⟨.error .malformedSync, [], b1⟩
    | some (le, rev, enh) =>
      match vuDec le b1 with
      | none => ⟨.short, [], []⟩
      | some (id, nID) =>
        match vuDec le (b1.drop nID) with
        | none => ⟨.short, [], []⟩
        | some (len, nLEN) =>
          let hdr := b1.take (nID + nLEN)
          let b3 := b1.drop (nID + nLEN)
          let d := nID + nLEN + len.toNat
          match crcKind d enh with
          | none => ⟨.error .unsupported, [], b3⟩
          | some k =>
            let pay := b3.take len.toNat
            let b4 := b3.drop len.toNat
            let got := b4.take k.len
            if Config.pbBytes < len.toNat then ⟨.error .unsupported, [], b3⟩
            else if b3.length < len.toNat + k.len then ⟨.short, pay, []⟩
            else if got ≠ crcBytes hdr pay k le then ⟨.error .checksumMismatch, pay, b4.drop k.len⟩
            else if rev then readTrailer le enh (d + k.len) (.record s id got) pay (b4.drop k.len)
            else ⟨.record s id got, pay, b4.drop k.len⟩

/-- The pseudocode of REC.DECR from R_HEAD on (43_record_framer.md R170): `staged` is RB[0..L], `rest` what IN still holds. -/
def readStaged (head : Byte) (le enh : Bool) (staged rest : List Byte) : ReadResult :=
  match staged with
  | [] => ⟨.error .headTailMismatch, [], rest⟩
  | s :: body =>
    if s ≠ head then ⟨.error .headTailMismatch, [], rest⟩
    else
      match vuDec le body with
      | none => ⟨.error .truncatedRead, [], rest⟩
      | some (id, nID) =>
        match vuDec le (body.drop nID) with
        | none => ⟨.error .truncatedRead, [], rest⟩
        | some (len, nLEN) =>
          let d := nID + nLEN + len.toNat
          match crcKind d enh with
          | none => ⟨.error .unsupported, [], rest⟩
          | some k =>
            let pay := (body.drop (nID + nLEN)).take len.toNat
            let got := body.drop d
            if Config.pbBytes < len.toNat then ⟨.error .unsupported, [], rest⟩
            else if d + k.len ≠ body.length then ⟨.error .headTailMismatch, [], rest⟩
            else if got ≠ crcBytes (body.take (nID + nLEN)) pay k le then ⟨.error .checksumMismatch, pay, rest⟩
            else ⟨.record head id got, pay, rest⟩

/-- The pseudocode of REC.DECR (43_record_framer.md R170): the bytes come tail first, and `rev` of the staged ones stands in RB
(R171). -/
def readBackward : List Byte → ReadResult
  | [] => ⟨.short, [], []⟩
  | t :: b1 =>
    match headOf t with
    | none => ⟨.error .malformedSync, [], b1⟩
    | some head =>
      let le := !head.getLsbD 5
      match vuDec le b1 with
      | none => ⟨.short, [], []⟩
      | some (total, nR) =>
        let b2 := b1.drop nR
        if Config.rbBytes < total.toNat + 1 then ⟨.error .unsupported, [], b2⟩
        else if b2.length < total.toNat + 1 then ⟨.short, [], []⟩
        else readStaged head le (head.getLsbD 3) (b2.take (total.toNat + 1)).reverse (b2.drop (total.toNat + 1))

/-- The top address of RB that REC.DECR stages to, L; none where it stages nothing (R170, R171). -/
def stagedTop : List Byte → Option Nat
  | [] => none
  | t :: b1 =>
    match headOf t with
    | none => none
    | some head =>
      match vuDec (!head.getLsbD 5) b1 with
      | none => none
      | some (total, _) => if Config.rbBytes < total.toNat + 1 then none else some total.toNat

/-- The state a record decode ends in (R160, R164, R170, 60_exceptions.md R193), `r` being the read of all of IN: none where it
must wait for the host. -/
def State.afterRead (s : State) (r : ReadResult) : Option State :=
  let n := s.inQ.length - r.rest.length
  let t : State := { s.emptied with pb := s.pb.writeList 0 r.pay, inQ := r.rest }
  match r.stop with
  | .short => if s.inEos then some (t.failed .truncatedRead n) else none
  | .error k => some (t.failed k n)
  | .record head id crc => some ((t.holding head id r.pay.length crc).ended .ok 0 false 0 n)

/-- The "leaves to" column of 10_state.md R30: the phase that follows, for a record that is reverse-readable or not (`rev`), with
an empty payload or not (`empty`). -/
def Phase.leavesTo (rev empty : Bool) : Phase → Phase
  | .idle | .vBuf | .vIn | .vOut => .idle
  | .eSync => .eId
  | .eId => .eLen
  | .eLen => if empty then .eCrc else .ePay
  | .ePay => .eCrc
  | .eCrc => if rev then .eRlen else .idle
  | .eRlen => .eTail
  | .eTail => .idle
  | .fSync => .fId
  | .fId => .fLen
  | .fLen => if empty then .fCrc else .fPay
  | .fPay => .fCrc
  | .fCrc => if rev then .fRlen else .idle
  | .fRlen => .fTail
  | .fTail => .idle
  | .rTail => .rRlen
  | .rRlen => .rFill
  | .rFill => .rHead
  | .rHead => .rId
  | .rId => .rLen
  | .rLen => .rPay
  | .rPay => .rCrc
  | .rCrc => .idle

/-- A status that `raise` gives: every kind but OK and NoValue, which commands complete with (60_exceptions.md R190, R193). -/
def Status.isError : Status → Bool
  | .ok | .noValue => false
  | .overflow | .invalidOffset | .malformedSync | .truncatedRead | .checksumMismatch | .headTailMismatch | .unsupported
  | .illegalCommand => true

/-- A phase that takes bytes from IN (R30). -/
def Phase.takes : Phase → Bool
  | .vIn | .fSync | .fId | .fLen | .fPay | .fCrc | .fRlen | .fTail | .rTail | .rRlen | .rFill => true
  | _ => false

/-- A phase in which a payload length has been accepted: E_SYNC to E_TAIL, F_PAY to F_TAIL, R_PAY, R_CRC. -/
def Phase.payloadKnown : Phase → Bool
  | .eSync | .eId | .eLen | .ePay | .eCrc | .eRlen | .eTail | .fPay | .fCrc | .fRlen | .fTail | .rPay | .rCrc => true
  | _ => false

/-- A phase in which a trailing length has been accepted: R_FILL to R_CRC. -/
def Phase.stagingKnown : Phase → Bool
  | .rFill | .rHead | .rId | .rLen | .rPay | .rCrc => true
  | _ => false

/-- The head sync bytes with their byte order, direction and CRC mode (30_encoding.md R73). -/
def headTable : List (Instr × Bool × Bool × Bool) :=
  [(.syncHeadC2, true, false, false), (.syncHeadE2, false, false, false), (.syncHeadC8, true, false, true),
   (.syncHeadE8, false, false, true), (.syncHeadD2, true, true, false), (.syncHeadF2, false, true, false),
   (.syncHeadD8, true, true, true), (.syncHeadF8, false, true, true)]

/-- The tail sync bytes with their byte order and CRC mode (30_encoding.md R75). -/
def tailTable : List (Instr × Bool × Bool) :=
  [(.syncTailB4, true, false), (.syncTailB0, false, false), (.syncTailE4, true, true), (.syncTailE0, false, true)]

/-- The instruction ends a VarUInt in this state: a VU-TERM among its first three bytes, or its fourth byte; with the value, the
number of bytes and the bytes (40_varuint.md R105). -/
inductive EndsVarUInt (s : State) : Instr → U29 → Nat → List Byte → Prop where
  | term (d : BitVec 7) (h : s.slot = some .vuByte) :
    EndsVarUInt s (.vuTerm d)
      (if s.scratch.le then s.scratch.acc ||| (d.setWidth 29 <<< (7 * s.cur.toNat))
        else (s.scratch.acc <<< 7) ||| d.setWidth 29)
      (s.cur.toNat + 1) (s.scratch.raw ++ [0#1 ++ d])
  | fourth (d : Byte) (h : s.slot = some .vuFourth) :
    EndsVarUInt s (.vuByte4 d)
      (if s.scratch.le then s.scratch.acc ||| (d.setWidth 29 <<< 21) else (s.scratch.acc <<< 8) ||| d.setWidth 29)
      4 (s.scratch.raw ++ [d])

/-- What a state keeps through a command that only computes a value: the record registers but PLEN, RB, `rst`, the command
port. -/
def State.keepsRecord (s t : State) : Prop :=
  t.sync = s.sync ∧ t.rid = s.rid ∧ t.crclen = s.crclen ∧ t.crcb = s.crcb ∧ t.rb = s.rb ∧ t.rst = s.rst ∧ t.cmdQ = s.cmdQ ∧
    t.tick = s.tick ∧ t.inEos = s.inEos

/-- The codec is idle, or waits for the host on IN or OUT (60_exceptions.md R208). -/
def State.blocked (s : State) : Prop := s.unit = none

/-- `n` steps, one after the other. -/
def stepTimes : Nat → State → Result
  | 0, s => .next s
  | n + 1, s =>
    match step s with
    | .next t => stepTimes n t
    | r => r

/-- A command split by a wait ends as the whole command does (70_reset_and_hazards.md R230, R231). Where `exec i` waits from
`start`, and the host then changes its ports by `give`, some number of steps leads to the state that `exec i` leads to at
once from `whole`, the start with all of that on the ports. The words `q` that wait on the command port meanwhile stay there;
the counter (A12) counts the steps; `resp` (A13) is set if the command has ended. -/
def Resumes (i : Instr) (start whole : State) (give : State → State) : Prop :=
  ∀ (t u : State) (q : List CmdWord) (k : Nat) (r : Bool),
    exec i start = .next t → t.busy = true → exec i whole = .next u →
      ∃ (n : Nat) (r' : Bool),
        stepTimes n { give t with cmdQ := q, tick := k, resp := r } =
          .next { u with cmdQ := q, tick := k + n, resp := r' } ∧
        (u.busy = false → r' = true)

/-- The invariant of the block: what 10_state.md says its registers can hold, the canonical form of the buffers, and what the
scratch registers hold in the phases that use them. -/
structure Inv (s : State) : Prop where
  /-- PB is canonical and inside its PB_BYTES addresses (R36). -/
  pbWf : Mem.wf Config.pbBytes s.pb
  /-- RB is canonical and inside its RB_BYTES addresses (R36). -/
  rbWf : Mem.wf Config.rbBytes s.rb
  /-- "Always 0 ≤ PLEN ≤ PB_BYTES" (R34). -/
  plenBound : s.plen.toNat ≤ Config.pbBytes
  /-- "recordId never exceeds VarUInt's maximum" (R29). -/
  ridBound : s.rid.toNat ≤ vuMax
  /-- CNT is 0 to 8 (R24). -/
  cntBound : s.cnt.toNat ≤ 8
  /-- "SYNC therefore only ever holds 0x00 or one of the eight head values" (R28). -/
  syncLegal : s.sync = 0 ∨ s.sync ∈ headSet
  /-- CRCLEN is 0, 1, 2 or 4 (R35). -/
  crclenLegal : s.crclen = 0 ∨ s.crclen = 1 ∨ s.crclen = 2 ∨ s.crclen = 4
  /-- "bytes beyond CRCLEN are 0" (R35). -/
  crcbBound : s.crcb.toNat < 2 ^ (8 * s.crclen.toNat)
  /-- With no record held the record registers but PLEN are 0 (R28, R164). -/
  emptyRecord : s.sync = 0 → s.rid = 0 ∧ s.crclen = 0 ∧ s.crcb = 0
  /-- NV is 1 exactly with STAT = NoValue (R23, R225). -/
  nvStat : s.nv = true ↔ s.stat = .noValue
  /-- BUSY is 1 exactly outside IDLE (R27, R32). -/
  busyPhase : s.busy = true ↔ s.ph ≠ .idle
  /-- CUR is 0 in IDLE (R31, R193). -/
  idleCur : s.ph = .idle → s.cur = 0
  /-- An accepted payload fits PB (43_record_framer.md R162, R173). -/
  dlenBound : s.ph.payloadKnown = true → s.scratch.dlen.toNat ≤ Config.pbBytes
  /-- In F_PAY a payload byte is due (R30). -/
  fPayCur : s.ph = .fPay → s.cur.toNat < s.scratch.dlen.toNat
  /-- An accepted trailing length fits RB (R171). -/
  tlenBound : s.ph.stagingKnown = true → s.scratch.tlen.toNat + 1 ≤ Config.rbBytes
  /-- In the trailer of a forward decode all CRC bytes have been taken (R160). -/
  gotLength : s.ph = .fRlen ∨ s.ph = .fTail → s.scratch.got.length = s.scratch.crc.len
  /-- A value on OUT has at most 8 bytes (20_memory.md R55). -/
  txLength : s.ph = .vOut → s.scratch.tx.length ≤ 8

end Sys2Proof.Machine
end

