-- ==== Sys2Proof/Certificates/Slice0/Obligations.lean ====
section
/-! DEFINITION. The statements for the provers: what the rules of spec/ say the codec does. In a statement about a command the
codec is free (`busy = false`) unless the statement is about waiting; `ended` and `failed` (Sys2Proof/Safety.lean) spell out the
end of a command, and whatever a record update does not name is unchanged. `EndsIn` leaves the scratch registers open, which no
rule constrains after a command. What a statement says of the model's own fields is the model's choice and no rule's: the
step counter `tick` (A12), the form of the response pulse `resp` (A13), scratch registers at zero after a command (A11), the
queues of the ports (A3, A4, A5). The sync values (A8) and the byte layouts of VarUInt, VarSInt and CRC (A23) are those the
spec marks "from general knowledge, not in source". -/

open Sys2Proof Sys2Proof.Machine

/-! ## Reset and the ports -/

/-- 10_state.md R40: the registers after reset, as the status port shows them (PH and STAT by their codes, 0). -/
def Obligations.ResetRegisters : Prop :=
  State.reset.port =
    { busy := false, stat := 0, val := 0, nv := false, cnt := 0, cons := 0, sync := 0x00, rid := 0, plen := 0, crclen := 0,
      crcb := 0, ph := 0, cur := 0 }

/-- 70_reset_and_hazards.md R220: while `rst` is asserted a step takes no command, no byte, puts no byte, whatever command was in
progress; released, the registers hold the values of 10_state.md R40 and the codec waits in IDLE. That the registers hold them
already while `rst` is asserted, and that PB and RB stay as they are, which R221 says only as "not cleared by reset", is the
model's choice (A14). -/
def Obligations.ResetInput : Prop :=
  ∀ s : State, s.rst = true →
    ∃ t, step s = .next t ∧ t.port = State.reset.port ∧ t.pb = s.pb ∧ t.rb = s.rb ∧ t.rst = true ∧
      t.cmdQ = s.cmdQ ∧ t.inQ = s.inQ ∧ t.outQ = s.outQ ∧ t.outRoom = s.outRoom ∧
      (s.cmdQ = [] → ∃ u, step { t with rst := false } = .next u ∧ u.port = State.reset.port)

/-- 10_state.md R38: the status port shows every register while the codec is free, and BUSY, PH and CUR always. PH and STAT stand
there as the codes of the tables of 10_state.md R30 and 60_exceptions.md R190. -/
def Obligations.StatusPort : Prop :=
  (∀ s : State, s.port.busy = s.busy ∧ s.port.ph = s.ph.code ∧ s.port.cur = s.cur ∧
    (s.busy = false →
      s.port.stat = s.stat.code ∧ s.port.val = s.val ∧ s.port.nv = s.nv ∧ s.port.cnt = s.cnt ∧ s.port.cons = s.cons ∧
        s.port.sync = s.sync ∧ s.port.rid = s.rid ∧ s.port.plen = s.plen ∧ s.port.crclen = s.crclen ∧
        s.port.crcb = s.crcb)) ∧
    (∀ p : Phase, p.code.toNat =
      match p with
      | .idle => 0 | .vBuf => 1 | .vIn => 2 | .vOut => 3
      | .eSync => 8 | .eId => 9 | .eLen => 10 | .ePay => 11 | .eCrc => 12 | .eRlen => 13 | .eTail => 14
      | .fSync => 16 | .fId => 17 | .fLen => 18 | .fPay => 19 | .fCrc => 20 | .fRlen => 21 | .fTail => 22
      | .rTail => 24 | .rRlen => 25 | .rFill => 26 | .rHead => 27 | .rId => 28 | .rLen => 29 | .rPay => 30 | .rCrc => 31) ∧
    ∀ k : Status, k.code.toNat =
      match k with
      | .ok => 0 | .noValue => 1 | .overflow => 2 | .invalidOffset => 3 | .malformedSync => 4 | .truncatedRead => 5
      | .checksumMismatch => 6 | .headTailMismatch => 7 | .unsupported => 8 | .illegalCommand => 9

/-- The invariant of the registers holds after reset. -/
def Obligations.InvReset : Prop := Inv State.reset

/-- Every step keeps the invariant of the registers (10_state.md R23 to R37). -/
def Obligations.InvStep : Prop := ∀ s t : State, Inv s → step s = .next t → Inv t

/-- A step from a state with the invariant neither faults nor refuses (60_exceptions.md R190: every failure is a status). -/
def Obligations.StepTotal : Prop := ∀ s : State, Inv s → ∃ t, step s = .next t

/-! ## Fetching and decoding -/

/-- A step of the free codec runs the command that the next command word spells, with the word taken from the port, the model's
counter moved on (A12) and the response pulse ended (A13). -/
def Obligations.StepRunsCommand : Prop :=
  ∀ (s : State) (w : CmdWord) (q : List CmdWord) (i : Instr),
    s.rst = false → s.busy = false → s.ph = .idle → s.cmdQ = w :: q → decode .command (.word w) = .ok i →
      step s = exec i { s with cmdQ := q, tick := s.tick + 1, resp := false }

/-- A step of the busy codec runs the wire format that stands where its phase reads next (30_encoding.md R86), with the byte
taken (`u` is the state after the take). -/
def Obligations.StepRunsWire : Prop :=
  ∀ (s u : State) (sl : Slot) (b : Byte) (i : Instr),
    s.rst = false → s.ph ≠ .idle → s.slot = some sl →
      State.nextByte { s with tick := s.tick + 1, resp := false } = .got b u → decode sl (.byte b) = .ok i →
        step s = exec i u

/-- 30_encoding.md R83: a word with an unassigned OP, or with a 1 in a control bit its opcode does not use, is accepted; only STAT,
VAL, NV, CNT and CONS change (PH is IDLE before and after, and CUR 0), no byte is taken or put, and the response is
signalled (60_exceptions.md R192). The word leaves the port (A3), the counter moves on (A12). -/
def Obligations.IllegalWord : Prop :=
  ∀ (s : State) (w : CmdWord) (q : List CmdWord),
    s.rst = false → s.busy = false → s.ph = .idle → s.cur = 0 → s.cmdQ = w :: q → IllegalControl w →
      EndsIn (step s)
        { s with
          cmdQ := q, tick := s.tick + 1, resp := true
          stat := .illegalCommand, val := 0, nv := false, cnt := 0, cons := 0 }

/-- 30_encoding.md R82, R83: which command a word spells by its control byte, the fields it then has, and which words spell
none. -/
def Obligations.CommandMap : Prop :=
  ∀ w : CmdWord,
    let c : Byte := w.extractLsb' 0 8
    let le := w.getLsbD 4
    let strm := w.getLsbD 5
    let m0 := w.getLsbD 6
    let m1 := w.getLsbD 7
    let off : U32 := w.extractLsb' 8 32
    let a : U64 := w.extractLsb' 40 64
    (decodeCommand w = .ok .nop ↔ c &&& 0xFF = 0x00) ∧
    (decodeCommand w = .ok (.vuEnc le strm off a) ↔ c &&& 0xCF = 0x01) ∧
    (decodeCommand w = .ok (.vuDec le strm off) ↔ c &&& 0xCF = 0x02) ∧
    (decodeCommand w = .ok (.vsEnc le strm m0 off a) ↔ c &&& 0x8F = 0x03) ∧
    (decodeCommand w = .ok (.vsDec le strm off) ↔ c &&& 0xCF = 0x04) ∧
    (decodeCommand w = .ok (.pbPut off (a.extractLsb' 0 8)) ↔ c &&& 0xFF = 0x05) ∧
    (decodeCommand w = .ok (.pbGet off) ↔ c &&& 0xFF = 0x06) ∧
    (decodeCommand w = .ok .pbClr ↔ c &&& 0xFF = 0x07) ∧
    (decodeCommand w = .ok (.recEnc le m0 m1 a) ↔ c &&& 0x2F = 0x08) ∧
    (decodeCommand w = .ok .recDecf ↔ c &&& 0xFF = 0x09) ∧
    (decodeCommand w = .ok .recDecr ↔ c &&& 0xFF = 0x0A) ∧
    (decodeCommand w = .error .illegalCommand ↔ IllegalControl w)

/-- 30_encoding.md R70: "`OFF` and `A` are ignored, whatever they hold, by an opcode that does not use them": two words with
equal control bytes that also agree in the fields their command uses do the same. -/
def Obligations.IgnoredFields : Prop :=
  ∀ (w v : CmdWord) (i j : Instr) (s : State),
    decodeCommand w = .ok i → decodeCommand v = .ok j → CmdWord.ctl w = CmdWord.ctl v →
      (CmdWord.strm w = false → (CmdWord.ctl w).extractLsb' 0 4 ∈ [0x1#4, 0x2#4, 0x3#4, 0x4#4, 0x5#4, 0x6#4] →
        CmdWord.off w = CmdWord.off v) →
      ((CmdWord.ctl w).extractLsb' 0 4 ∈ [0x1#4, 0x8#4] → CmdWord.operand w = CmdWord.operand v) →
      ((CmdWord.ctl w).extractLsb' 0 4 = 0x3#4 → CmdWord.m0 w = false → CmdWord.operand w = CmdWord.operand v) →
      ((CmdWord.ctl w).extractLsb' 0 4 = 0x5#4 →
        (CmdWord.operand w).extractLsb' 0 8 = (CmdWord.operand v).extractLsb' 0 8) →
        exec i s = exec j s

/-- Decoding gives back every instruction from its encoding, with every operand at every value, at the slot the instruction is
read at (30_encoding.md R70 to R82). -/
def Obligations.DecodeEncode : Prop := ∀ i : Instr, decode i.slot (encode i) = .ok i

/-- 30_encoding.md R73, R74, R75, R76: the two tables of sync values written out, with the instruction each value is, its byte
order, direction, CRC mode and partner, in every function that names them; what the source fixes about the alphabet, R76 (a)
to (e); that no tail value is a head value; `PARSE_HEAD(HEAD(le, rev, enh)) = (le, rev, enh)`. The values are general knowledge
(A8), and the last two clauses of R74 and R76 the spec marks as derived. -/
def Obligations.SyncAlphabet : Prop :=
  let heads : List (Byte × Instr × Bool × Bool × Bool) :=
    [(0xC2, .syncHeadC2, true, false, false), (0xE2, .syncHeadE2, false, false, false),
     (0xC8, .syncHeadC8, true, false, true), (0xE8, .syncHeadE8, false, false, true),
     (0xD2, .syncHeadD2, true, true, false), (0xF2, .syncHeadF2, false, true, false),
     (0xD8, .syncHeadD8, true, true, true), (0xF8, .syncHeadF8, false, true, true)]
  let tails : List (Byte × Instr × Byte × Bool × Bool) :=
    [(0xB4, .syncTailB4, 0xD2, true, false), (0xB0, .syncTailB0, 0xF2, false, false),
     (0xE4, .syncTailE4, 0xD8, true, true), (0xE0, .syncTailE0, 0xF8, false, true)]
  (headSet = heads.map (·.1) ∧ headTable = heads.map (·.2) ∧
    ∀ r ∈ heads, decode .sync (.byte r.1) = .ok r.2.1 ∧ encode r.2.1 = .byte r.1 ∧
      headByte r.2.2.1 r.2.2.2.1 r.2.2.2.2 = r.1 ∧ parseHead r.1 = some r.2.2) ∧
    (tailSet = tails.map (·.1) ∧ tailTable = tails.map (fun r => (r.2.1, r.2.2.2)) ∧
      ∀ r ∈ tails, decode .sync (.byte r.1) = .ok r.2.1 ∧ encode r.2.1 = .byte r.1 ∧
        tailByte r.2.2.2.1 r.2.2.2.2 = r.1 ∧ headOf r.1 = some r.2.2.1 ∧
        headByte r.2.2.2.1 true r.2.2.2.2 = r.2.2.1) ∧
    headSet.Nodup ∧ headSet.length = 8 ∧ tailSet.Nodup ∧ tailSet.length = 4 ∧
    (∀ b ∈ headSet, b.extractLsb' 6 2 = 0b11#2) ∧
    (∀ b, b ∈ headSet ↔ ∃ le rev enh, b = headByte le rev enh) ∧
    (∀ b, b ∈ tailSet ↔ ∃ le enh, b = tailByte le enh) ∧
    (∀ le enh le' enh', tailByte le enh = tailByte le' enh' → le = le' ∧ enh = enh') ∧
    (∀ le enh, headOf (tailByte le enh) = some (headByte le true enh)) ∧
    0xFF ∉ headSet ∧ 0xFF ∉ tailSet ∧ (∀ b ∈ tailSet, b ∉ headSet) ∧
    (∀ le rev enh, parseHead (headByte le rev enh) = some (le, rev, enh)) ∧
    ∀ b : Byte, (∃ i, decode .sync (.byte b) = .ok i) ↔ b ∈ headSet ∨ b ∈ tailSet

/-- Words and bytes written out from the encodings decode to their instructions (30_encoding.md R70, R73, R75, R77, R78; the
sync values A8, the place of the flag nibble A23). -/
def Obligations.WordsDecode : Prop :=
  decode .command (.word 0x0000000000000000_00000000_00#104) = .ok .nop ∧
  decode .command (.word 0x000000000000012C_00000000_01#104) = .ok (.vuEnc false false 0 300) ∧
  decode .command (.word 0xFFFFFFFFFFFFFF9C_00000007_13#104) = .ok (.vsEnc true false false 7 (-100)) ∧
  decode .command (.word 0x000000000000002A_00000000_C8#104) = .ok (.recEnc false true true 42) ∧
  decode .command (.word 0x0000000000000047_00000005_05#104) = .ok (.pbPut 5 0x47) ∧
  decode .sync (.byte 0b11100010) = .ok .syncHeadE2 ∧
  decode .sync (.byte 0b10110100) = .ok .syncTailB4 ∧
  decode .vuByte (.byte 0b10101100) = .ok (.vuCont 0b0101100) ∧
  decode .vuByte (.byte 0b00000010) = .ok (.vuTerm 0b0000010) ∧
  decode .vuFourth (.byte 0b11111111) = .ok (.vuByte4 0b11111111) ∧
  decode (.vsFirst true) (.byte 0b01001001) = .ok (.vsFirstLe 0b0100 true 0b001) ∧
  decode (.vsFirst false) (.byte 0b10010000) = .ok (.vsFirstBe true 0b001 0b0000)

/-! ## The pure functions -/

/-- 40_varuint.md R100, R101, R102: the size thresholds and the bytes of both layouts, as numbers. Which group stands in which
byte is "from general knowledge, not in source" (R101, R102; A23). -/
def Obligations.VarUIntLayout : Prop :=
  (∀ n : Nat, vuSize n =
    if n < 128 then some 1 else if n < 16384 then some 2 else if n < 2097152 then some 3
    else if n < 536870912 then some 4 else none) ∧
  ∀ v : U29,
    let n := v.toNat
    ((vuEnc v true).map BitVec.toNat =
      if n < 128 then [n]
      else if n < 16384 then [128 + n % 128, n / 128]
      else if n < 2097152 then [128 + n % 128, 128 + n / 128 % 128, n / 16384]
      else [128 + n % 128, 128 + n / 128 % 128, 128 + n / 16384 % 128, n / 2097152]) ∧
    ((vuEnc v false).map BitVec.toNat =
      if n < 128 then [n]
      else if n < 16384 then [128 + n / 128, n % 128]
      else if n < 2097152 then [128 + n / 16384, 128 + n / 128 % 128, n % 128]
      else [128 + n / 4194304, 128 + n / 32768 % 128, 128 + n / 256 % 128, n % 256])

/-- 41_varsint.md R122, with the floors of the table of R121 written out: "the largest s in 1..8 with F[s] <= mag", Overflow
above VS_MAX; the payload fits its field. The floors are those that every other statement about a VarSInt names as
`bandFloor`. -/
def Obligations.VarSIntSize : Prop :=
  let floors := [0, 16, 4110, 1052685, 269488140, 68988964875, 17661175009290, 4521260802379785]
  let F : Nat → Nat := fun s => floors.getD (s - 1) 0
  (List.range' 1 8).map bandFloor = floors ∧
    ∀ mag s : Nat,
      (vsSize mag = some s ↔
        mag ≤ 1157442765409226759 ∧ 1 ≤ s ∧ s ≤ 8 ∧ F s ≤ mag ∧ ∀ r, 1 ≤ r → r ≤ 8 → F r ≤ mag → r ≤ s) ∧
      (vsSize mag = none ↔ 1157442765409226759 < mag) ∧
      (vsSize mag = some s → mag - F s < 2 ^ (8 * s - 4))

/-- 41_varsint.md R123, R124: the bytes of sign `g`, size `s` and payload `p` are the base-256 digits of the word `W`, least
significant first in little-endian order, most significant first in big-endian order. Which nibble goes with which byte order is "from
general knowledge, not in source" (R123; A23). -/
def Obligations.VarSIntLayout : Prop :=
  ∀ (g : Bool) (s p : Nat), 1 ≤ s → s ≤ 8 → p < 2 ^ (8 * s - 4) →
    let nib := (if g then 8 else 0) + (s - 1)
    (vsLayout true g s (BitVec.ofNat 64 p)).map BitVec.toNat =
      (List.range s).map (fun i => (p * 16 + nib) / 256 ^ i % 256) ∧
    (vsLayout false g s (BitVec.ofNat 64 p)).map BitVec.toNat =
      (List.range s).map (fun i => (nib * 2 ^ (8 * s - 4) + p) / 256 ^ (s - 1 - i) % 256)

/-- 41_varsint.md R129, R130: the sentinel is exactly the 1-byte negative zero; Overflow is exactly the 8-byte payload of 60
ones; every other pattern is the value `F[s] + P` with its sign. -/
def Obligations.VarSIntEnd : Prop :=
  ∀ (le : Bool) (nib : BitVec 4) (w : U64),
    let s := nibSize nib
    let p := (vsPayload le s w).toNat
    (vsFinish le nib w = .noValue ↔ s = 1 ∧ nibSign nib = true ∧ p = 0) ∧
    (vsFinish le nib w = .overflow ↔ s = 8 ∧ p = 2 ^ 60 - 1) ∧
    (∀ v : U64, vsFinish le nib w = .value v →
      v.toInt = if nibSign nib then -((bandFloor s + p : Nat) : Int) else ((bandFloor s + p : Nat) : Int))

/-- 43_record_framer.md R150: the CRC width by dataLen and mode; the 16-byte tier has none. -/
def Obligations.CrcTier : Prop :=
  ∀ (d : Nat) (enh : Bool),
    (crcKind d enh).map CrcKind.len =
      if 1048576 ≤ d then none
      else if d < 128 then some (if enh then 2 else 1)
      else if d < 4096 then some (if enh then 4 else 2)
      else some 4

/-- 43_record_framer.md R154, R155: the running CRC that the framer keeps, fed the header and then the payload byte by byte,
ends in `CRCBYTES` of a single pass over the concatenation (with the engines of the block, whatever they are: A7). R157: the
bytes of `CRCBYTES` as numbers, in the record's byte order, which is "from general knowledge, not in source" (A23).
10_state.md R35: CRCB holds CRC bytes with the first in its bits 7:0, and 0 beyond them. -/
def Obligations.RunningCrc : Prop :=
  (∀ (k : Scratch) (c : CrcKind) (pay : List Byte),
    (pay.foldl Scratch.feed (k.crcBegin c).crcHeader).crcField = crcBytes (k.rawId ++ k.rawLen) pay c k.le) ∧
    (∀ (hdr pay : List Byte) (c : CrcKind) (le : Bool),
      let v16 := (Config.crc16.fin ((hdr ++ pay).foldl Config.crc16.step Config.crc16.init)).toNat
      let v32 := (Config.crc32.fin ((hdr ++ pay).foldl Config.crc32.step Config.crc32.init)).toNat
      (crcBytes hdr pay c le).map BitVec.toNat =
        match c with
        | .xor8 => [((hdr ++ pay).foldl (· ^^^ ·) 0).toNat]
        | .crc16 => if le then [v16 % 256, v16 / 256] else [v16 / 256, v16 % 256]
        | .crc32 =>
          if le then [v32 % 256, v32 / 256 % 256, v32 / 65536 % 256, v32 / 16777216]
          else [v32 / 16777216, v32 / 65536 % 256, v32 / 256 % 256, v32 % 256]) ∧
    ∀ a b c d : Byte,
      packCrc [] = 0 ∧ (packCrc [a]).toNat = a.toNat ∧ (packCrc [a, b]).toNat = a.toNat + 256 * b.toNat ∧
        (packCrc [a, b, c, d]).toNat = a.toNat + 256 * b.toNat + 65536 * c.toNat + 16777216 * d.toNat

/-! ## Value and buffer commands -/

/-- 42_buffer_ops.md R140: NOP writes no register. Its response is signalled (60_exceptions.md R192). -/
def Obligations.NopResult : Prop := ∀ s : State, s.busy = false → exec .nop s = .next { s with resp := true }

/-- 42_buffer_ops.md R141. -/
def Obligations.PbPutResult : Prop :=
  ∀ (off : U32) (b : Byte) (s : State), s.busy = false →
    EndsIn (exec (.pbPut off b) s)
      (if s.plen.toNat < off.toNat ∨ Config.pbBytes < off.toNat + 1 then s.failed .invalidOffset 0
        else
          ({ s with pb := s.pb.write off.toNat b, plen := BitVec.ofNat 32 (max s.plen.toNat (off.toNat + 1)) } : State).ended
            .ok 0 false 0 0)

/-- 42_buffer_ops.md R142, with PLEN within the buffer (10_state.md R34). -/
def Obligations.PbGetResult : Prop :=
  ∀ (off : U32) (s : State), s.busy = false → s.plen.toNat ≤ Config.pbBytes →
    EndsIn (exec (.pbGet off) s)
      (if s.plen.toNat ≤ off.toNat then s.failed .invalidOffset 0
        else s.ended .ok ((s.pb.read off.toNat).setWidth 64) false 0 0)

/-- 42_buffer_ops.md R143. -/
def Obligations.PbClrResult : Prop :=
  ∀ s : State, s.busy = false →
    EndsIn (exec .pbClr s)
      (({ s with plen := 0, sync := 0, rid := 0, crclen := 0, crcb := 0 } : State).ended .ok 0 false 0 0)

/-- 40_varuint.md R103, both forms, where the host takes the bytes of the stream form. -/
def Obligations.VuEncResult : Prop :=
  ∀ (le strm : Bool) (off : U32) (a : U64) (s : State), s.busy = false →
    let bs := vuEnc (a.setWidth 29) le
    (a.toNat ≤ 536870911 → strm = true → s.roomFor bs.length = true) →
      EndsIn (exec (.vuEnc le strm off a) s)
        (if 536870911 < a.toNat then s.failed .overflow 0
          else if strm then (s.putAll (marked bs)).ended .ok 0 false bs.length 0
          else if s.plen.toNat < off.toNat ∨ Config.pbBytes < off.toNat + bs.length then s.failed .invalidOffset 0
          else
            ({ s with
                pb := s.pb.writeList off.toNat bs
                plen := BitVec.ofNat 32 (max s.plen.toNat (off.toNat + bs.length)) } : State).ended .ok 0 false bs.length 0)

/-- 40_varuint.md R104, R106, both forms: the bytes below PLEN, or the bytes of IN where they suffice or have ended. -/
def Obligations.VuDecResult : Prop :=
  ∀ (le strm : Bool) (off : U32) (s : State), s.busy = false →
    (strm = false → s.plen.toNat ≤ Config.pbBytes) →
    (strm = true → (vuDec le s.inQ).isSome = true ∨ s.inEos = true) →
      EndsIn (exec (.vuDec le strm off) s)
        (if strm then
          match vuDec le s.inQ with
          | some (v, n) => ({ s with inQ := s.inQ.drop n } : State).ended .ok (v.setWidth 64) false n n
          | none => ({ s with inQ := [] } : State).failed .truncatedRead s.inQ.length
        else if s.plen.toNat ≤ off.toNat then s.failed .invalidOffset 0
        else
          match vuDec le (s.pb.readList off.toNat (s.plen.toNat - off.toNat)) with
          | some (v, n) => s.ended .ok (v.setWidth 64) false n 0
          | none => s.failed .truncatedRead 0)

/-- 41_varsint.md R125, both forms and the sentinel, where the host takes the bytes of the stream form. -/
def Obligations.VsEncResult : Prop :=
  ∀ (le strm nvf : Bool) (off : U32) (a : U64) (s : State), s.busy = false →
    let mag := a.toInt.natAbs
    let bytes : Option (List Byte) :=
      if nvf then some [if le then 0x08 else 0x80]
      else (vsSize mag).map fun n => vsLayout le (decide (a.toInt < 0)) n (BitVec.ofNat 64 (mag - bandFloor n))
    (∀ bs, bytes = some bs → strm = true → s.roomFor bs.length = true) →
      EndsIn (exec (.vsEnc le strm nvf off a) s)
        (match bytes with
        | none => s.failed .overflow 0
        | some bs =>
          if strm then (s.putAll (marked bs)).ended .ok 0 false bs.length 0
          else if s.plen.toNat < off.toNat ∨ Config.pbBytes < off.toNat + bs.length then s.failed .invalidOffset 0
          else
            ({ s with
                pb := s.pb.writeList off.toNat bs
                plen := BitVec.ofNat 32 (max s.plen.toNat (off.toNat + bs.length)) } : State).ended .ok 0 false bs.length 0)

/-- 41_varsint.md R126, R128, both forms: the bytes below PLEN, or the bytes of IN where they suffice or have ended. -/
def Obligations.VsDecResult : Prop :=
  ∀ (le strm : Bool) (off : U32) (s : State), s.busy = false →
    (strm = false → s.plen.toNat ≤ Config.pbBytes) →
    (strm = true → (vsDec le s.inQ).isSome = true ∨ s.inEos = true) →
      EndsIn (exec (.vsDec le strm off) s)
        (if strm then
          match vsDec le s.inQ with
          | some (v, n) => ({ s with inQ := s.inQ.drop n } : State).vsEnded n v n
          | none => ({ s with inQ := [] } : State).failed .truncatedRead s.inQ.length
        else if s.plen.toNat ≤ off.toNat then s.failed .invalidOffset 0
        else
          match vsDec le (s.pb.readList off.toNat (s.plen.toNat - off.toNat)) with
          | some (v, n) => s.vsEnded 0 v n
          | none => s.failed .truncatedRead 0)

/-- 40_varuint.md R108 on the machine: what VU.ENC wrote to PB, VU.DEC reads back from the same offset in the same byte order,
with the same size, leaving PB and PLEN as they are. -/
def Obligations.VarUIntRoundTrip : Prop :=
  ∀ (le : Bool) (off : U32) (a : U64) (s t : State), Inv s → s.busy = false →
    exec (.vuEnc le false off a) s = .next t → t.stat = .ok →
      exec (.vuDec le false off) t = .next { t with val := a } ∧ some t.cnt.toNat = vuSize a.toNat

/-- 41_varsint.md R132 on the machine: what VS.ENC wrote to PB, VS.DEC reads back: the number, or NoValue for the sentinel. -/
def Obligations.VarSIntRoundTrip : Prop :=
  ∀ (le nvf : Bool) (off : U32) (a : U64) (s t : State), Inv s → s.busy = false →
    exec (.vsEnc le false nvf off a) s = .next t → t.stat = .ok →
      exec (.vsDec le false off) t = .next (if nvf then { t with stat := .noValue, nv := true } else { t with val := a }) ∧
        (nvf = false → some t.cnt.toNat = vsSize a.toInt.natAbs)

/-- 20_memory.md R60 and the memory frame of the storing commands: the stored bytes read back from OFF on, every other byte of
PB reads as before (the bytes stored and OFF are those of the command), and PLEN covers them. -/
def Obligations.StoreFrame : Prop :=
  ∀ (i : Instr) (off : U32) (bs : List Byte) (s t : State), Inv s → s.busy = false →
    ((∃ le a, i = .vuEnc le false off a ∧ bs = vuEnc (a.setWidth 29) le) ∨
      (∃ le a, i = .vsEnc le false false off a ∧ vsEnc le a = some bs) ∨
      (∃ le a, i = .vsEnc le false true off a ∧ bs = [vsSentinel le]) ∨
      (∃ b, i = .pbPut off b ∧ bs = [b])) →
    exec i s = .next t →
      (t.stat = .ok →
        t.pb.readList off.toNat bs.length = bs ∧
        (∀ x, x < off.toNat ∨ off.toNat + bs.length ≤ x → t.pb.read x = s.pb.read x) ∧
        t.plen.toNat = max s.plen.toNat (off.toNat + bs.length)) ∧
      (t.stat ≠ .ok → t.pb = s.pb ∧ t.plen = s.plen)

/-- The memory frame of the record decodes (43_record_framer.md R160, R170, R171): the payload bytes that the read reached
stand in PB from 0 on, every other byte of PB reads as before; REC.DECR writes RB up to the trailing length it accepted and
nowhere else, REC.DECF nowhere. -/
def Obligations.RecordStoreFrame : Prop :=
  ∀ (i : Instr) (pay : List Byte) (s t : State), Inv s → s.busy = false →
    (i = .recDecf ∧ pay = (readForward s.inQ).pay) ∨ (i = .recDecr ∧ pay = (readBackward s.inQ).pay) →
    exec i s = .next t →
      t.pb.readList 0 pay.length = pay ∧ (∀ x, pay.length ≤ x → t.pb.read x = s.pb.read x) ∧
        (match if i = .recDecr then stagedTop s.inQ else none with
        | none => t.rb = s.rb
        | some top => ∀ x, top < x → t.rb.read x = s.rb.read x)

/-- What each command leaves unchanged, in every state and for every operand. A value or buffer command: the record registers
but PLEN, RB, the command port; IN, but for a decode from IN; OUT, but for an encode to OUT; PLEN and all of PB, but for a form that
stores to PB. A record command: the streams and buffers it does not use. -/
def Obligations.CommandFrame : Prop :=
  ∀ (i : Instr) (s t : State), exec i s = .next t →
    (match i with
    | .nop => t.keepsRecord s ∧ t = { s with resp := t.resp }
    | .vuEnc _ strm _ _ | .vsEnc _ strm _ _ _ =>
      s.keepsRecord t ∧ t.inQ = s.inQ ∧ (if strm then t.plen = s.plen ∧ t.pb = s.pb else t.outQ = s.outQ ∧ t.outRoom = s.outRoom)
    | .vuDec _ strm _ | .vsDec _ strm _ =>
      s.keepsRecord t ∧ t.plen = s.plen ∧ t.pb = s.pb ∧ t.outQ = s.outQ ∧ t.outRoom = s.outRoom ∧
        (strm = false → t.inQ = s.inQ)
    | .pbPut _ _ => s.keepsRecord t ∧ t.inQ = s.inQ ∧ t.outQ = s.outQ ∧ t.outRoom = s.outRoom
    | .pbGet _ =>
      s.keepsRecord t ∧ t.plen = s.plen ∧ t.pb = s.pb ∧ t.inQ = s.inQ ∧ t.outQ = s.outQ ∧ t.outRoom = s.outRoom
    | .pbClr => t.pb = s.pb ∧ t.rb = s.rb ∧ t.inQ = s.inQ ∧ t.outQ = s.outQ ∧ t.outRoom = s.outRoom
    | .recEnc _ _ _ _ => t.pb = s.pb ∧ t.rb = s.rb ∧ t.plen = s.plen ∧ t.inQ = s.inQ
    | .recDecf => t.rb = s.rb ∧ t.outQ = s.outQ ∧ t.outRoom = s.outRoom
    | .recDecr => t.outQ = s.outQ ∧ t.outRoom = s.outRoom
    | _ => True)

/-! ## The record commands -/

/-- 43_record_framer.md R158, R159: the refusals before the first byte, else the whole record on OUT and the record registers
of it, where the host takes the bytes. -/
def Obligations.RecEncResult : Prop :=
  ∀ (le rev enh : Bool) (a : U64) (s : State), s.busy = false →
    let id : U29 := a.setWidth 29
    let hdr := header le id s.plen.toNat
    let pay := s.pb.readList 0 s.plen.toNat
    (∀ k, a.toNat ≤ 536870911 → crcKind (hdr.length + s.plen.toNat) enh = some k →
      s.roomFor (recordWire le rev enh id pay k).length = true) →
      EndsIn (exec (.recEnc le rev enh a) s)
        (if 536870911 < a.toNat then s.failed .overflow 0
          else
            match crcKind (hdr.length + s.plen.toNat) enh with
            | none => s.failed .unsupported 0
            | some k =>
              let wire := recordWire le rev enh id pay k
              let crc := crcBytes hdr pay k le
              ({ s.putAll (marked wire) with
                  sync := headByte le rev enh, rid := a.setWidth 32
                  crclen := BitVec.ofNat 3 crc.length, crcb := packCrc crc } : State).ended
                .ok (BitVec.ofNat 64 wire.length) false 0 0)

/-- 43_record_framer.md R160, R162, R163, R164: REC.DECF does to every input what the pseudocode of R160 does
(`readForward`), and waits where the bytes run out without end of stream. -/
def Obligations.RecDecfResult : Prop :=
  ∀ s : State, s.busy = false →
    match s.afterRead (readForward s.inQ) with
    | some t => EndsIn (exec .recDecf s) t
    | none =>
      ∃ t, exec .recDecf s = .next t ∧ t.blocked ∧ t.busy = true ∧ t.inQ = [] ∧ t.cons = BitVec.ofNat 32 s.inQ.length ∧
        t.pb = s.pb.writeList 0 (readForward s.inQ).pay ∧ t.plen = 0 ∧ t.sync = 0 ∧ t.rid = 0 ∧ t.crclen = 0 ∧ t.crcb = 0

/-- 43_record_framer.md R170, R171, R172, R173: REC.DECR does to every input what the pseudocode of R170 does
(`readBackward`), and waits where the bytes run out without end of stream. RB is left at any contents (10_state.md R37). RB is
in its canonical form before, which `InvReset` and `InvStep` say it always is. -/
def Obligations.RecDecrResult : Prop :=
  ∀ s : State, Mem.wf Config.rbBytes s.rb → s.busy = false →
    match s.afterRead (readBackward s.inQ) with
    | some t => ∃ rb, EndsIn (exec .recDecr s) { t with rb := rb }
    | none =>
      ∃ t, exec .recDecr s = .next t ∧ t.blocked ∧ t.busy = true ∧ t.inQ = [] ∧ t.cons = BitVec.ofNat 32 s.inQ.length ∧
        t.pb = s.pb ∧ t.plen = 0 ∧ t.sync = 0 ∧ t.rid = 0 ∧ t.crclen = 0 ∧ t.crcb = 0

/-- 43_record_framer.md R174, R175, laws the spec marks as derived: what REC.ENC puts, REC.DECF reads back, and REC.DECR reads the reverse-readable record back
from its last byte, from any states: the same record registers and payload as the encoder's, CONS the length of the record, and
the bytes after it untouched. -/
def Obligations.RecordRoundTrip : Prop :=
  ∀ (le rev enh : Bool) (a : U64) (s t u v : State) (rest : List Byte),
    s.busy = false → s.plen.toNat ≤ Config.pbBytes → s.outRoom = none → s.outQ = [] →
    exec (.recEnc le rev enh a) s = .next t → t.stat = .ok →
    let w := t.outQ.map OutByte.data
    Inv u → u.busy = false → u.inQ = w ++ rest →
    Inv v → v.busy = false → v.inQ = w.reverse ++ rest →
      (∃ u', exec .recDecf u = .next u' ∧ u'.stat = .ok ∧ u'.busy = false ∧ u'.inQ = rest ∧ u'.cons.toNat = w.length ∧
        u'.sync = headByte le rev enh ∧ u'.rid = a.setWidth 32 ∧ u'.plen = s.plen ∧ u'.crclen = t.crclen ∧ u'.crcb = t.crcb ∧
        ∀ x, x < s.plen.toNat → u'.pb.read x = s.pb.read x) ∧
      (rev = true →
        ∃ v', exec .recDecr v = .next v' ∧ v'.stat = .ok ∧ v'.busy = false ∧ v'.inQ = rest ∧ v'.cons.toNat = w.length ∧
          v'.sync = headByte le rev enh ∧ v'.rid = a.setWidth 32 ∧ v'.plen = s.plen ∧ v'.crclen = t.crclen ∧
          v'.crcb = t.crcb ∧ ∀ x, x < s.plen.toNat → v'.pb.read x = s.pb.read x)

/-- 43_record_framer.md R175, the other direction: a record that REC.DECF accepts, with minimal id and length fields, is put
byte for byte by REC.ENC with the flags of SYNC and the id RID. -/
def Obligations.RecordReencode : Prop :=
  ∀ (s t : State), Inv s → s.busy = false → s.outRoom = none → exec .recDecf s = .next t → t.busy = false → t.stat = .ok →
    let w := s.inQ.take t.cons.toNat
    let le := !t.sync.getLsbD 5
    let hdr := header le (t.rid.setWidth 29) t.plen.toNat
    (w.drop 1).take hdr.length = hdr →
      ∃ u, exec (.recEnc le (t.sync.getLsbD 4) (t.sync.getLsbD 3) (t.rid.setWidth 64)) t = .next u ∧ u.stat = .ok ∧
        u.outQ = t.outQ ++ marked w

/-- 30_encoding.md R84: a first byte outside the head set (REC.DECF) or the tail set (REC.DECR) is MalformedSync, with exactly
that byte consumed and the empty Record left; 244 of the 256 byte values are in neither set. -/
def Obligations.BadFirstByte : Prop :=
  (∀ (s : State) (b : Byte) (q : List Byte), s.busy = false → s.inQ = b :: q →
    (b ∉ headSet → EndsIn (exec .recDecf s) (({ s.emptied with inQ := q } : State).failed .malformedSync 1)) ∧
    (b ∉ tailSet → EndsIn (exec .recDecr s) (({ s.emptied with inQ := q } : State).failed .malformedSync 1))) ∧
  ((List.range 256).filter fun n => BitVec.ofNat 8 n ∉ headSet ∧ BitVec.ofNat 8 n ∉ tailSet).length = 244

/-- A record cut short (20_memory.md R57, 43_record_framer.md R160, R170): a proper part of a record and then end of stream is
TruncatedRead with every byte consumed, forward and backward. -/
def Obligations.TruncatedRecord : Prop :=
  ∀ (le rev enh : Bool) (id : U29) (pay : List Byte) (k : CrcKind) (s : State) (n : Nat), s.busy = false → s.inEos = true →
    crcKind ((header le id pay.length).length + pay.length) enh = some k →
    n < (recordWire le rev enh id pay k).length →
      (s.inQ = (recordWire le rev enh id pay k).take n →
        ∃ pb, exec .recDecf s = .next (({ s.emptied with inQ := [], pb := pb } : State).failed .truncatedRead n)) ∧
      (rev = true → s.inQ = (recordWire le rev enh id pay k).reverse.take n →
        ∃ rb, exec .recDecr s = .next (({ s.emptied with inQ := [], rb := rb } : State).failed .truncatedRead n))

/-- 43_record_framer.md R160: CRC bytes that differ from the computed ones are ChecksumMismatch, with the bytes up to and with
the CRC consumed and the empty Record left. -/
def Obligations.ChecksumMismatch : Prop :=
  ∀ (le rev enh : Bool) (id : U29) (pay crc rest : List Byte) (k : CrcKind) (s : State), s.busy = false →
    let hdr := header le id pay.length
    crcKind (hdr.length + pay.length) enh = some k → crc.length = k.len → crc ≠ crcBytes hdr pay k le →
    s.inQ = headByte le rev enh :: (hdr ++ pay ++ crc ++ rest) →
      exec .recDecf s = .next
        (({ s.emptied with pb := s.pb.writeList 0 pay, inQ := rest } : State).failed .checksumMismatch
          (1 + hdr.length + pay.length + k.len))

/-- 43_record_framer.md R154, R176: in a record with the 1-byte checksum any one changed payload byte is reported as
ChecksumMismatch, whichever way the record is read; for REC.DECR with RB in its canonical form (`InvReset`, `InvStep`). -/
def Obligations.PayloadCorruption : Prop :=
  ∀ (le rev : Bool) (id : U29) (a c : List Byte) (b b' : Byte) (s t : State),
    let pay := a ++ b :: c
    let wire := recordWire le rev false id pay .xor8
    let bad := wire.set (1 + (header le id pay.length).length + a.length) b'
    (header le id pay.length).length + pay.length < 128 → b ≠ b' → s.busy = false →
      (s.inQ = bad → exec .recDecf s = .next t → t.stat = .checksumMismatch ∧ t.plen = 0) ∧
      (rev = true → Mem.wf Config.rbBytes s.rb → s.inQ = bad.reverse → exec .recDecr s = .next t →
        t.stat = .checksumMismatch ∧ t.plen = 0)

/-! ## The wire formats -/

/-- A head sync byte, by where it stands: in F_SYNC it gives the flags of the record and the id follows (43_record_framer.md R160);
as the staged byte 0 it must be the paired head (R172); where a tail is due it is MalformedSync (30_encoding.md R84). -/
def Obligations.HeadSyncByte : Prop :=
  ∀ r ∈ headTable, ∀ s : State,
    (s.ph = .fSync →
      exec r.1 s = .next
        { s with
          ph := .fId, cur := 0
          scratch := { s.scratch with le := r.2.1, rev := r.2.2.1, enh := r.2.2.2, acc := 0, raw := [] } }) ∧
    (s.ph = .rHead →
      exec r.1 s = .next
        (if r.2.1 = s.scratch.le ∧ r.2.2.1 = s.scratch.rev ∧ r.2.2.2 = s.scratch.enh then
          { s with ph := .rId, cur := 0, scratch := { s.scratch with acc := 0, raw := [] } }
        else s.emptied.failed .headTailMismatch s.cons.toNat)) ∧
    (s.ph = .fTail ∨ s.ph = .rTail → exec r.1 s = .next (s.emptied.failed .malformedSync s.cons.toNat))

/-- A tail sync byte, by where it stands: in R_TAIL it gives the flags of its paired head and the trailing length follows
(43_record_framer.md R170); at the end of a forward read it must be the partner of the head, and then the record is done (R160,
R163); where a head is due it is an error (30_encoding.md R84, R172). -/
def Obligations.TailSyncByte : Prop :=
  ∀ r ∈ tailTable, ∀ s : State,
    (s.ph = .rTail →
      exec r.1 s = .next
        { s with
          ph := .rRlen, cur := 0
          scratch := { s.scratch with le := r.2.1, rev := true, enh := r.2.2, acc := 0, raw := [] } }) ∧
    (s.ph = .fTail →
      exec r.1 s = .next
        (if r.2.1 = s.scratch.le ∧ r.2.2 = s.scratch.enh then
          ({ s with
              sync := headByte s.scratch.le s.scratch.rev s.scratch.enh, rid := s.scratch.id.setWidth 32
              plen := s.scratch.dlen.setWidth 32, crclen := BitVec.ofNat 3 s.scratch.crc.len
              crcb := packCrc s.scratch.got } : State).ended .ok 0 false 0 s.cons.toNat
        else s.emptied.failed .headTailMismatch s.cons.toNat)) ∧
    (s.ph = .fSync → exec r.1 s = .next (s.emptied.failed .malformedSync s.cons.toNat)) ∧
    (s.ph = .rHead → exec r.1 s = .next (s.emptied.failed .headTailMismatch s.cons.toNat))

/-- 30_encoding.md R77, 40_varuint.md R105: VU-CONT joins 7 payload bits to the accumulator and another byte follows. -/
def Obligations.VuCont : Prop :=
  ∀ (d : BitVec 7) (s : State), s.slot = some .vuByte →
    exec (.vuCont d) s = .next
      { s with
        cur := s.cur + 1
        scratch := { s.scratch with
          acc := if s.scratch.le then s.scratch.acc ||| (d.setWidth 29 <<< (7 * s.cur.toNat))
            else (s.scratch.acc <<< 7) ||| d.setWidth 29
          raw := s.scratch.raw ++ [1#1 ++ d] } }

/-- VU-TERM or VU-BYTE4 ends the VarUInt that VU.DEC reads (30_encoding.md R77, 40_varuint.md R104, R105). It ends a record's
id: the length field follows (43_record_framer.md R160, R170). It ends a trailing
length L: L + 1 bytes are staged, or refused where they do not fit RB (R171). -/
def Obligations.VarUIntEnds : Prop :=
  ∀ (i : Instr) (v : U29) (n : Nat) (raw : List Byte) (s : State), EndsVarUInt s i v n raw →
    (s.ph = .vBuf ∨ s.ph = .vIn → exec i s = .next (s.ended .ok (v.setWidth 64) false n s.cons.toNat)) ∧
    (s.ph = .fId ∨ s.ph = .rId →
      exec i s = .next
        { s with
          ph := if s.ph = .fId then .fLen else .rLen, cur := 0
          scratch := { s.scratch with id := v, rawId := raw, acc := 0, raw := [] } }) ∧
    (s.ph = .rRlen →
      exec i s = .next
        (if Config.rbBytes < v.toNat + 1 then s.emptied.failed .unsupported s.cons.toNat
          else { s with ph := .rFill, cur := 0, scratch := { s.scratch with tlen := v } }))

/-- The payload-length handler (43_record_framer.md R162, R173): what VU-TERM or VU-BYTE4 does at the end of a record's length
field. -/
def Obligations.LengthEnds : Prop :=
  ∀ (i : Instr) (v : U29) (n : Nat) (raw : List Byte) (s : State), EndsVarUInt s i v n raw → s.ph = .fLen ∨ s.ph = .rLen →
    let d := s.scratch.rawId.length + raw.length + v.toNat
    exec i s = .next
      (match crcKind d s.scratch.enh with
      | none => s.emptied.failed .unsupported s.cons.toNat
      | some k =>
        if Config.pbBytes < v.toNat then s.emptied.failed .unsupported s.cons.toNat
        else if s.ph = .rLen ∧ d + k.len ≠ s.scratch.tlen.toNat then s.emptied.failed .headTailMismatch s.cons.toNat
        else
          { s with
            ph := if s.ph = .rLen then .rPay else if v = 0 then .fCrc else .fPay
            cur := 0
            scratch := (({ s.scratch with dlen := v, rawLen := raw } : Scratch).crcBegin k).crcHeader })

/-- 30_encoding.md R78, 41_varsint.md R127, R129: the first byte of a VarSInt in each byte order. A 1-byte value ends at once:
the sentinel, or the signed payload; a longer one goes on with its flag nibble and the first byte in the shift register. -/
def Obligations.VsFirst : Prop :=
  ∀ (le g : Bool) (n : BitVec 3) (d : BitVec 4) (s : State), s.slot = some (.vsFirst le) →
    exec (if le then .vsFirstLe d g n else .vsFirstBe g n d) s = .next
      (if n ≠ 0 then
        { s with
          cur := s.cur + 1
          scratch := { s.scratch with
            nib := BitVec.ofBool g ++ n
            shift := (if le then d ++ BitVec.ofBool g ++ n else BitVec.ofBool g ++ n ++ d : BitVec 8).setWidth 64 } }
      else if g = true ∧ d = 0 then s.ended .noValue 0 true 1 s.cons.toNat
      else s.ended .ok (if g then -(d.setWidth 64) else d.setWidth 64) false 1 s.cons.toNat)

/-! ## Waiting, ending and the whole machine -/

/-- 20_memory.md R57: in a phase that takes bytes, with neither a byte nor end of stream presented, a step changes nothing (but
the model's counter and the ended pulse); at end of stream the command ends with TruncatedRead and CONS stays. -/
def Obligations.InWaits : Prop :=
  ∀ s : State, s.rst = false → s.ph.takes = true → s.inQ = [] →
    (s.inEos = false → step s = .next { s with tick := s.tick + 1, resp := false }) ∧
    (s.inEos = true →
      step s = .next
        (({ (if s.ph = .vIn then s else s.emptied) with tick := s.tick + 1 } : State).failed .truncatedRead s.cons.toNat))

/-- 20_memory.md R58, 70_reset_and_hazards.md R230: a stream encode puts the bytes the host takes and then waits, with nothing
else done; the last byte is not among them. A command that waits while the host takes `room` bytes, and is then given room for
`more` bytes (none: for every byte), ends in, or waits in, the state it comes to at once with room for all of them. -/
def Obligations.EncodeWaits : Prop :=
  (∀ (i : Instr) (bs : List Byte) (room : Nat) (s : State), s.busy = false → s.outRoom = some room → room < bs.length →
    ((∃ le off a, i = .vuEnc le true off a ∧ a.toNat ≤ 536870911 ∧ bs = vuEnc (a.setWidth 29) le) ∨
      (∃ le off a, i = .vsEnc le true false off a ∧ vsEnc le a = some bs) ∨
      (∃ le off a, i = .vsEnc le true true off a ∧ bs = [vsSentinel le]) ∨
      (∃ le rev enh a k, i = .recEnc le rev enh a ∧ a.toNat ≤ 536870911 ∧
        crcKind ((header le (a.setWidth 29) s.plen.toNat).length + s.plen.toNat) enh = some k ∧
        bs = recordWire le rev enh (a.setWidth 29) (s.pb.readList 0 s.plen.toNat) k)) →
      ∃ t, exec i s = .next t ∧ t.blocked ∧ t.busy = true ∧ t.outQ = s.outQ ++ unmarked (bs.take room) ∧
        t.outRoom = some 0 ∧ t.cons = 0 ∧ t.inQ = s.inQ ∧ t.pb = s.pb ∧ t.plen = s.plen ∧ s.keepsRecord t) ∧
    ∀ (i : Instr) (room : Nat) (more : Option Nat) (s : State),
      Inv s → s.rst = false → s.busy = false → i.isCommand = true →
        Resumes i { s with outRoom := some room } { s with outRoom := more.map (room + ·) }
          (fun t => { t with outRoom := more.map (t.outRoom.getD 0 + ·) })

/-- 20_memory.md R57, 70_reset_and_hazards.md R230: a stream decode takes the bytes there are and then waits, with nothing else
done. A command that waits for more than the bytes `a`, and is then given the bytes `b` (and end of stream, or not), ends in,
or waits in, the state it comes to at once with all of them on IN: the payload, CRC, trailing length and staged bytes it takes
step by step are those it takes in one run, and so for every split of its bytes, one after the other. -/
def Obligations.DecodeWaits : Prop :=
  (∀ (i : Instr) (s : State), s.busy = false → s.inEos = false →
    ((∃ le off, i = .vuDec le true off ∧ vuDec le s.inQ = none) ∨ (∃ le off, i = .vsDec le true off ∧ vsDec le s.inQ = none)) →
      ∃ t, exec i s = .next t ∧ t.blocked ∧ t.busy = true ∧ t.ph = .vIn ∧ t.inQ = [] ∧
        t.cons = BitVec.ofNat 32 s.inQ.length ∧ t.cur = BitVec.ofNat 32 s.inQ.length ∧ t.pb = s.pb ∧ t.plen = s.plen ∧
        t.outQ = s.outQ ∧ s.keepsRecord t) ∧
    ∀ (i : Instr) (a b : List Byte) (eos : Bool) (s : State),
      Inv s → s.rst = false → s.busy = false → i.isCommand = true →
        Resumes i { s with inQ := a, inEos := false } { s with inQ := a ++ b, inEos := eos }
          (fun t => { t with inQ := t.inQ ++ b, inEos := eos })

/-- 70_reset_and_hazards.md R224: a command word presented while BUSY = 1 waits: no step of a busy codec takes it. The second
clause is the model's own (A25, DEDUCED): `exec` of a command in a busy state, a call that no step makes, answers that same
state. -/
def Obligations.BusyWaits : Prop :=
  (∀ s t : State, s.busy = true → step s = .next t → t.cmdQ = s.cmdQ) ∧
    ∀ (i : Instr) (s : State), i.isCommand = true → s.busy = true → exec i s = .next s

/-- 10_state.md R32, 60_exceptions.md R208: from a state with the invariant a command runs until it has ended or waits for the
host: nothing else stops it. -/
def Obligations.CommandSettles : Prop :=
  ∀ (i : Instr) (s : State), Inv s → s.busy = false → i.isCommand = true → ∃ t, exec i s = .next t ∧ t.blocked

/-- 10_state.md R32: inside a command PH stays, or moves to the phase that the "leaves to" column of R30 gives, after E_CRC and
F_CRC by whether the record is reverse-readable, after E_LEN and F_LEN by whether its payload is empty; to IDLE from any
other place only with an error status (a `raise`), or by reset (70_reset_and_hazards.md R220). -/
def Obligations.PhaseMoves : Prop :=
  ∀ s t : State, s.ph ≠ .idle → step s = .next t →
    t.ph = s.ph ∨ t.ph = s.ph.leavesTo s.scratch.rev (t.scratch.dlen = 0) ∨
      (t.ph = .idle ∧ (s.rst = true ∨ t.stat.isError = true))

/-- 10_state.md R25: CONS is the number of bytes the command has taken from IN so far, and they are the first ones; NOP takes
none. -/
def Obligations.ConsCounts : Prop :=
  ∀ (i : Instr) (s t : State), i.isCommand = true → s.busy = false → exec i s = .next t →
    ∃ taken, s.inQ = taken ++ t.inQ ∧
      (if i = .nop then t.cons = s.cons ∧ taken = [] else t.cons = BitVec.ofNat 32 taken.length)

/-- 20_memory.md R68: "a command that ends in error has put nothing". -/
def Obligations.ErrorPutsNothing : Prop :=
  ∀ (i : Instr) (s t : State), i.isCommand = true → i ≠ .nop → s.busy = false → exec i s = .next t → t.busy = false →
    t.stat ≠ .ok → t.outQ = s.outQ ∧ t.outRoom = s.outRoom

/-- 43_record_framer.md R164: a decode that has not succeeded holds the empty Record. -/
def Obligations.NoPartialRecord : Prop :=
  ∀ (i : Instr) (s t : State), i = .recDecf ∨ i = .recDecr → s.busy = false → exec i s = .next t →
    t.busy = true ∨ t.stat ≠ .ok → t.plen = 0 ∧ t.sync = 0 ∧ t.rid = 0 ∧ t.crclen = 0 ∧ t.crcb = 0

/-- 60_exceptions.md R193: what `raise` does in every phase. -/
def Obligations.RaiseRule : Prop :=
  ∀ (s : State) (k : Status),
    s.raise k =
      { s with
        ph := .idle, cur := 0, stat := k, val := 0, nv := false, cnt := 0, busy := false, resp := true
        scratch := Scratch.init
        sync := if s.ph.decoding then 0 else s.sync, rid := if s.ph.decoding then 0 else s.rid
        plen := if s.ph.decoding then 0 else s.plen, crclen := if s.ph.decoding then 0 else s.crclen
        crcb := if s.ph.decoding then 0 else s.crcb }

/-- 60_exceptions.md R196: no command's behaviour depends on the STAT an earlier one left; nor on its VAL, NV, CNT and CONS, which
every command starts afresh (10_state.md R22 to R25, 60_exceptions.md R204), on PH and CUR, which acceptance sets (10_state.md
R30, R31, R32), or on the scratch registers, which each command initialises (R37): a command that ends, ends in the same
state. -/
def Obligations.ResultsForgotten : Prop :=
  ∀ (i : Instr) (s t : State) (st : Status) (v : U64) (nv : Bool) (cnt : BitVec 4) (cons cur : U32) (k : Scratch) (ph : Phase),
    i.isCommand = true → i ≠ .nop → s.busy = false → exec i s = .next t → t.busy = false →
      exec i { s with stat := st, val := v, nv := nv, cnt := cnt, cons := cons, cur := cur, scratch := k, ph := ph } = .next t

/-- 70_reset_and_hazards.md R221: bytes of PB at or past PLEN and all of RB cannot be observed: a command that runs from two
states that differ only there leaves the same registers, the same streams and the same bytes of PB below PLEN. -/
def Obligations.UnwrittenUnobservable : Prop :=
  ∀ (i : Instr) (s t : State) (pb rb : Mem), i.isCommand = true → Inv s → s.busy = false →
    Mem.wf Config.pbBytes pb → Mem.wf Config.rbBytes rb → (∀ x, x < s.plen.toNat → pb.read x = s.pb.read x) →
    exec i s = .next t →
      ∃ pb' rb', exec i { s with pb := pb, rb := rb } = .next { t with pb := pb', rb := rb' } ∧
        ∀ x, x < t.plen.toNat → pb'.read x = t.pb.read x
end

