-- ==== Sys2Proof/Laws/Codec.lean ====
section
/-! SUPPORT. The pure functions of the codec: sizes, lengths, and the bytes of a VarUInt and of a VarSInt read back. -/

namespace Sys2Proof.Machine

open Sys2Proof

/-! ## VarUInt -/

/-- A number in range has a size, and its encoding has that many bytes (40_varuint.md R100, R108). -/
theorem vuSize_eq_length (v : U29) (le : Bool) : vuSize v.toNat = some (vuEnc v le).length := by
  have h := v.isLt
  unfold vuSize vuEnc vuEncLe vuEncBe
  cases le <;> simp <;> split_ifs <;> simp_all

/-- 1 to 4 bytes (R55, R101, R102). -/
theorem vuEnc_length_bounds (v : U29) (le : Bool) : 1 ≤ (vuEnc v le).length ∧ (vuEnc v le).length ≤ 4 := by
  unfold vuEnc vuEncLe vuEncBe
  cases le <;> simp <;> split_ifs <;> simp

/-- The size function answers exactly below 2^29 (R100). -/
theorem vuSize_isSome (v : Nat) : (vuSize v).isSome ↔ v ≤ vuMax := by
  unfold vuSize vuMax
  split_ifs <;> simp <;> omega

/-- A number in range survives being narrowed to 29 bits. -/
theorem setWidth_29_toNat {a : U64} (h : a.toNat ≤ vuMax) : (a.setWidth 29).toNat = a.toNat := by
  unfold vuMax at h
  simp only [BitVec.toNat_setWidth]
  omega

/-- A bit at or above the top of a small number is clear. -/
theorem getLsbD_eq_false_of_lt {w : Nat} {v : BitVec w} {n i : Nat} (h : v.toNat < 2 ^ n) (hi : n ≤ i) :
    v.getLsbD i = false := by
  rw [BitVec.getLsbD]
  exact Nat.testBit_lt_two_pow (lt_of_lt_of_le h (Nat.pow_le_pow_right (by norm_num) hi))

/-- A VU-CONT byte has its continuation bit set (30_encoding.md R77). -/
theorem append_one_msb (d : BitVec 7) : (1#1 ++ d : BitVec 8).getLsbD 7 = true := by
  revert d; decide

/-- A VU-TERM byte has its continuation bit clear (R77). -/
theorem append_zero_msb (d : BitVec 7) : (0#1 ++ d : BitVec 8).getLsbD 7 = false := by
  revert d; decide

/-- The payload bits of a VarUInt byte (R77). -/
theorem append_low {n : Nat} (c : BitVec n) (d : BitVec 7) : (c ++ d).extractLsb' 0 7 = d := by
  ext i hi
  simp [BitVec.getLsbD_append, hi]

/-- The decoder reads the little-endian bytes back, whatever follows them (40_varuint.md R108). -/
theorem vuDec_vuEncLe (v : U29) (rest : List Byte) : vuDec true (vuEncLe v ++ rest) = some (v, (vuEncLe v).length) := by
  unfold vuDec vuEncLe
  split_ifs with h1 h2 h3 <;>
    simp only [List.cons_append, List.nil_append, vuDecFrom, append_zero_msb, append_one_msb, append_low] <;>
    simp [vuJoin, vuJoinFourth] <;> apply BitVec.eq_of_getLsbD_eq <;> intro i hi
  · have := @getLsbD_eq_false_of_lt 29 v 7 i h1
    interval_cases i <;> simp_all
  · have := @getLsbD_eq_false_of_lt 29 v 14 i h2
    interval_cases i <;> simp_all
  · have := @getLsbD_eq_false_of_lt 29 v 21 i h3
    interval_cases i <;> simp_all
  · interval_cases i <;> simp

/-- The decoder reads the big-endian bytes back, whatever follows them (R108). -/
theorem vuDec_vuEncBe (v : U29) (rest : List Byte) : vuDec false (vuEncBe v ++ rest) = some (v, (vuEncBe v).length) := by
  unfold vuDec vuEncBe
  split_ifs with h1 h2 h3 <;>
    simp only [List.cons_append, List.nil_append, vuDecFrom, append_zero_msb, append_one_msb, append_low] <;>
    simp [vuJoin, vuJoinFourth] <;> apply BitVec.eq_of_getLsbD_eq <;> intro i hi
  · have := @getLsbD_eq_false_of_lt 29 v 7 i h1
    interval_cases i <;> simp_all
  · have := @getLsbD_eq_false_of_lt 29 v 14 i h2
    interval_cases i <;> simp_all
  · have := @getLsbD_eq_false_of_lt 29 v 21 i h3
    interval_cases i <;> simp_all
  · interval_cases i <;> simp

/-- `VU_DEC(VU_ENC(v, le))` in both byte orders, whatever follows (R108). -/
theorem vuDec_vuEnc (v : U29) (le : Bool) (rest : List Byte) :
    vuDec le (vuEnc v le ++ rest) = some (v, (vuEnc v le).length) := by
  cases le
  · exact vuDec_vuEncBe v rest
  · exact vuDec_vuEncLe v rest

/-- A decode looks at no byte after the ones it counts (R105). -/
theorem vuDecFrom_append {le : Bool} {bs : List Byte} {n : Nat} {acc v : U29} {m : Nat}
    (h : vuDecFrom le n acc bs = some (v, m)) (rest : List Byte) : vuDecFrom le n acc (bs ++ rest) = some (v, m) := by
  induction bs generalizing n acc with
  | nil => simp [vuDecFrom] at h
  | cons b bs ih =>
    simp only [List.cons_append, vuDecFrom] at h ⊢
    split_ifs at h ⊢
    · exact ih h
    · exact h
    · exact h

/-- The count of a decode: at least one more byte than before, at most 4 in all, and no more than there are (R105). -/
theorem vuDecFrom_count {le : Bool} {bs : List Byte} {n : Nat} {acc v : U29} {m : Nat}
    (h : vuDecFrom le n acc bs = some (v, m)) : n < m ∧ m ≤ n + bs.length ∧ m ≤ max (n + 1) 4 := by
  induction bs generalizing n acc with
  | nil => simp [vuDecFrom] at h
  | cons b bs ih =>
    simp only [vuDecFrom] at h
    split_ifs at h
    · have := ih h
      simp only [List.length_cons]
      omega
    · simp only [Option.some.injEq, Prod.mk.injEq] at h
      simp only [List.length_cons]
      omega
    · simp only [Option.some.injEq, Prod.mk.injEq] at h
      simp only [List.length_cons]
      omega

/-! ## VarSInt -/

/-- A size is 1 to 8 and its band starts at or below the magnitude (41_varsint.md R122). -/
theorem vsSize_bounds {mag s : Nat} (h : vsSize mag = some s) :
    1 ≤ s ∧ s ≤ 8 ∧ bandFloor s ≤ mag ∧ mag ≤ vsMax ∧ mag - bandFloor s < 2 ^ (8 * s - 4) - 1 + (if s = 1 then 1 else 0) := by
  unfold vsSize at h
  split_ifs at h <;> simp only [Option.some.injEq] at h <;> subst h <;>
    simp_all only [bandFloor, vsMax] <;> norm_num <;> omega

/-- The flag nibble read back (R123, R127). -/
theorem nibSize_vsNibble (g : Bool) {s : Nat} (h1 : 1 ≤ s) (h8 : s ≤ 8) : nibSize (vsNibble g s) = s := by
  interval_cases s <;> cases g <;> decide

theorem nibSign_vsNibble (g : Bool) {s : Nat} (h1 : 1 ≤ s) (h8 : s ≤ 8) : nibSign (vsNibble g s) = g := by
  interval_cases s <;> cases g <;> decide

/-- The layouts have `s` bytes (R123, R124). -/
@[simp] theorem vsLayout_length (le g : Bool) (s : Nat) (p : U64) : (vsLayout le g s p).length = s := by
  unfold vsLayout vsEncLe vsEncBe
  cases le <;> simp

/-- Little-endian: the bytes `W[8i+7:8i]` shifted in from byte `k` on give W back (R123, R127). -/
theorem vsShiftAll_le (w : U64) (k n : Nat) :
    vsShiftAll true (w &&& BitVec.ofNat 64 (2 ^ (8 * k) - 1)) k ((List.range' k n).map fun i => w.extractLsb' (8 * i) 8) =
      w &&& BitVec.ofNat 64 (2 ^ (8 * (k + n)) - 1) := by
  induction n generalizing k with
  | zero => simp [vsShiftAll]
  | succ n ih =>
    simp only [List.range'_succ, List.map_cons, vsShiftAll]
    rw [show vsShiftIn true (w &&& BitVec.ofNat 64 (2 ^ (8 * k) - 1)) k (w.extractLsb' (8 * k) 8)
        = w &&& BitVec.ofNat 64 (2 ^ (8 * (k + 1)) - 1) from ?_, ih (k + 1), show k + 1 + n = k + (n + 1) by omega]
    apply BitVec.eq_of_getLsbD_eq
    intro i hi
    simp only [vsShiftIn, if_true, BitVec.getLsbD_or, BitVec.getLsbD_and, BitVec.getLsbD_shiftLeft, BitVec.getLsbD_setWidth,
      BitVec.getLsbD_extractLsb', BitVec.getLsbD_ofNat, hi, Nat.testBit_two_pow_sub_one, decide_true, Bool.true_and]
    by_cases h1 : i < 8 * k
    · simp [h1, show i < 8 * (k + 1) by omega]
    · by_cases h2 : i < 8 * (k + 1)
      · simp [h1, h2, show i - 8 * k < 8 by omega, show 8 * k + (i - 8 * k) = i by omega, show i - 8 * k < 64 by omega]
      · simp [h1, h2, show ¬ i - 8 * k < 8 by omega]

/-- The bytes of a word, most significant first (R124). -/
theorem bytesBe_succ (w : U64) (n : Nat) :
    ((List.range (n + 1)).map fun i => w.extractLsb' (8 * (n + 1 - 1 - i)) 8) =
      w.extractLsb' (8 * n) 8 :: (List.range n).map fun i => w.extractLsb' (8 * (n - 1 - i)) 8 := by
  rw [List.range_succ_eq_map, List.map_cons, List.map_map]
  refine congrArg₂ _ (by simp) (List.map_congr_left fun i hi => ?_)
  simp only [Function.comp]
  rw [show n + 1 - 1 - Nat.succ i = n - 1 - i by omega]

/-- Big-endian: the last `n` bytes of W shifted in after the rest of W give W (R124, R127). -/
theorem vsShiftAll_be (w : U64) (k n : Nat) :
    vsShiftAll false (w >>> (8 * n)) k ((List.range n).map fun i => w.extractLsb' (8 * (n - 1 - i)) 8) = w := by
  induction n generalizing k with
  | zero => simp [vsShiftAll]
  | succ n ih =>
    rw [bytesBe_succ]
    simp only [vsShiftAll]
    rw [show vsShiftIn false (w >>> (8 * (n + 1))) k (w.extractLsb' (8 * n) 8) = w >>> (8 * n) from ?_, ih (k + 1)]
    apply BitVec.eq_of_getLsbD_eq
    intro i hi
    simp only [vsShiftIn, Bool.false_eq_true, if_false, BitVec.getLsbD_or, BitVec.getLsbD_shiftLeft, BitVec.getLsbD_ushiftRight,
      BitVec.getLsbD_setWidth, BitVec.getLsbD_extractLsb', hi, decide_true, Bool.true_and]
    by_cases h1 : i < 8
    · simp [h1]
    · simp [h1, show 8 * (n + 1) + (i - 8) = 8 * n + i by omega]

/-- The least significant byte of a word, as the first state of the shift register. -/
theorem setWidth_low_byte (w : U64) : (w.extractLsb' 0 8).setWidth 64 = w &&& BitVec.ofNat 64 (2 ^ (8 * 1) - 1) := by
  apply BitVec.eq_of_getLsbD_eq
  intro i hi
  simp only [BitVec.getLsbD_setWidth, BitVec.getLsbD_extractLsb', BitVec.getLsbD_and, BitVec.getLsbD_ofNat, hi,
    Nat.testBit_two_pow_sub_one, decide_true, Bool.true_and, Nat.zero_add]
  rw [Bool.and_comm]

/-- A word's bytes in little-endian order, shifted in from the first on, give the word (R123, R127). -/
theorem vsShiftAll_vsEncLe {w : U64} {s : Nat} (hs : 1 ≤ s) (hw : w.toNat < 2 ^ (8 * s)) :
    vsShiftAll true ((w.extractLsb' 0 8).setWidth 64) 1 ((List.range' 1 (s - 1)).map fun i => w.extractLsb' (8 * i) 8) = w := by
  rw [setWidth_low_byte, vsShiftAll_le, show 1 + (s - 1) = s by omega]
  apply BitVec.eq_of_getLsbD_eq
  intro i hi
  simp only [BitVec.getLsbD_and, BitVec.getLsbD_ofNat, hi, Nat.testBit_two_pow_sub_one, decide_true, Bool.true_and]
  by_cases h : i < 8 * s
  · simp [h]
  · simp [h, getLsbD_eq_false_of_lt hw (by omega : 8 * s ≤ i)]

/-- A word's bytes in big-endian order, shifted in from the first on, give the word (R124, R127). -/
theorem vsShiftAll_vsEncBe {w : U64} {s : Nat} (hs : 1 ≤ s) (hw : w.toNat < 2 ^ (8 * s)) :
    vsShiftAll false ((w.extractLsb' (8 * (s - 1)) 8).setWidth 64) 1
      ((List.range (s - 1)).map fun i => w.extractLsb' (8 * (s - 1 - 1 - i)) 8) = w := by
  rw [show (w.extractLsb' (8 * (s - 1)) 8).setWidth 64 = w >>> (8 * (s - 1)) from ?_, vsShiftAll_be]
  apply BitVec.eq_of_getLsbD_eq
  intro i hi
  simp only [BitVec.getLsbD_setWidth, BitVec.getLsbD_extractLsb', BitVec.getLsbD_ushiftRight, hi, decide_true, Bool.true_and]
  by_cases h : i < 8
  · simp [h]
  · simp [h, getLsbD_eq_false_of_lt hw (by omega : 8 * s ≤ 8 * (s - 1) + i)]

/-- The fields of the little-endian word `(P << 4) | N` (R123). -/
theorem wordLe_fields {nib : BitVec 4} {p : U64} {s : Nat} (hs : 1 ≤ s) (h8 : s ≤ 8) (hp : p.toNat < 2 ^ (8 * s - 4)) :
    ((p <<< 4) ||| nib.setWidth 64).toNat < 2 ^ (8 * s) ∧ ((p <<< 4) ||| nib.setWidth 64) >>> 4 = p ∧
      (((p <<< 4) ||| nib.setWidth 64).extractLsb' 0 8).extractLsb' 0 4 = nib := by
  have hp60 : p.toNat < 2 ^ 60 := lt_of_lt_of_le hp (Nat.pow_le_pow_right (by norm_num) (by omega))
  have hn := nib.isLt
  have hN : ((p <<< 4) ||| nib.setWidth 64).toNat = p.toNat * 16 + nib.toNat := by
    rw [BitVec.toNat_or, BitVec.toNat_shiftLeft, BitVec.toNat_setWidth, Nat.shiftLeft_eq,
      Nat.mod_eq_of_lt (by omega), Nat.mod_eq_of_lt (by omega)]
    rw [show p.toNat * 2 ^ 4 = 2 ^ 4 * p.toNat by ring, ← Nat.two_pow_add_eq_or_of_lt (by omega)]
    ring
  refine ⟨?_, ?_, ?_⟩
  · rw [hN]
    have : 2 ^ (8 * s) = 2 ^ (8 * s - 4) * 16 := by
      rw [show (16 : Nat) = 2 ^ 4 by norm_num, ← pow_add]; congr 1; omega
    omega
  · apply BitVec.eq_of_toNat_eq
    rw [BitVec.toNat_ushiftRight, hN, Nat.shiftRight_eq_div_pow]
    omega
  · apply BitVec.eq_of_getLsbD_eq
    intro i hi
    simp only [BitVec.getLsbD_extractLsb', BitVec.getLsbD_or, BitVec.getLsbD_shiftLeft, BitVec.getLsbD_setWidth, Nat.zero_add]
    simp [hi, show i < 8 by omega, show i < 64 by omega]

/-- The fields of the big-endian word `(N << (8s-4)) | P` (R124). -/
theorem wordBe_fields {nib : BitVec 4} {p : U64} {s : Nat} (hs : 1 ≤ s) (h8 : s ≤ 8) (hp : p.toNat < 2 ^ (8 * s - 4)) :
    ((nib.setWidth 64 <<< (8 * s - 4)) ||| p).toNat < 2 ^ (8 * s) ∧
      ((nib.setWidth 64 <<< (8 * s - 4)) ||| p) &&& BitVec.ofNat 64 (2 ^ (8 * s - 4) - 1) = p ∧
      (((nib.setWidth 64 <<< (8 * s - 4)) ||| p).extractLsb' (8 * (s - 1)) 8).extractLsb' 4 4 = nib := by
  have hb := fun i => @getLsbD_eq_false_of_lt 64 p (8 * s - 4) i hp
  refine ⟨?_, ?_, ?_⟩
  · apply Nat.lt_pow_two_of_testBit
    intro i hi
    rw [BitVec.testBit_toNat]
    simp only [BitVec.getLsbD_or, BitVec.getLsbD_shiftLeft, BitVec.getLsbD_setWidth, hb i (by omega)]
    simp only [Bool.or_false, Bool.and_eq_false_iff]
    exact .inr (.inr (BitVec.getLsbD_of_ge _ _ (by omega)))
  · apply BitVec.eq_of_getLsbD_eq
    intro i hi
    simp only [BitVec.getLsbD_and, BitVec.getLsbD_or, BitVec.getLsbD_shiftLeft, BitVec.getLsbD_setWidth, BitVec.getLsbD_ofNat, hi,
      Nat.testBit_two_pow_sub_one, decide_true, Bool.true_and]
    by_cases h : i < 8 * s - 4
    · simp [h]
    · simp [h, hb i (by omega)]
  · apply BitVec.eq_of_getLsbD_eq
    intro i hi
    simp only [BitVec.getLsbD_extractLsb', BitVec.getLsbD_or, BitVec.getLsbD_shiftLeft, BitVec.getLsbD_setWidth, hi,
      hb (8 * (s - 1) + (4 + i)) (by omega)]
    simp [show 4 + i < 8 by omega, show 8 * (s - 1) + (4 + i) < 64 by omega, show ¬ 8 * (s - 1) + (4 + i) < 8 * s - 4 by omega,
      show 8 * (s - 1) + (4 + i) - (8 * s - 4) = i by omega, show i < 64 by omega]

/-- The decoder takes the layout of a nibble, a size and a payload apart again (R123, R124, R127). -/
theorem vsDec_vsLayout (le g : Bool) {s : Nat} {p : U64} (hs : 1 ≤ s) (h8 : s ≤ 8) (hp : p.toNat < 2 ^ (8 * s - 4))
    (rest : List Byte) :
    vsDec le (vsLayout le g s p ++ rest) =
      some (if s = 1 ∧ g = true ∧ p = 0 then .noValue
        else if vsMax < bandFloor s + p.toNat then .overflow
        else .value (if g then -(BitVec.ofNat 64 (bandFloor s + p.toNat)) else BitVec.ofNat 64 (bandFloor s + p.toNat)), s) := by
  obtain ⟨t, rfl⟩ : ∃ t, s = t + 1 := ⟨s - 1, by omega⟩
  cases le
  · obtain ⟨h1, h2, h3⟩ := @wordBe_fields (vsNibble g (t + 1)) p (t + 1) hs h8 hp
    have h4 := @vsShiftAll_vsEncBe ((vsNibble g (t + 1)).setWidth 64 <<< (8 * (t + 1) - 4) ||| p) (t + 1) hs h1
    simp only [vsLayout, Bool.false_eq_true, if_false, vsEncBe, bytesBe_succ, List.cons_append, vsDec]
    simp only [firstNibble, Bool.false_eq_true, if_false, Nat.add_sub_cancel] at h3 h4 ⊢
    rw [h3, nibSize_vsNibble g hs h8]
    simp only [Nat.add_sub_cancel, List.length_append, List.length_map, List.length_range]
    rw [if_neg (by omega), List.take_left' (by simp), h4]
    simp only [vsFinish, vsPayload, nibSize_vsNibble g hs h8, nibSign_vsNibble g hs h8, Bool.false_eq_true, if_false, h2]
  · obtain ⟨h1, h2, h3⟩ := @wordLe_fields (vsNibble g (t + 1)) p (t + 1) hs h8 hp
    have h4 := @vsShiftAll_vsEncLe ((p <<< 4) ||| (vsNibble g (t + 1)).setWidth 64) (t + 1) hs h1
    simp only [vsLayout, if_true, vsEncLe, List.range_eq_range', List.range'_succ, List.map_cons, List.cons_append, vsDec]
    simp only [firstNibble, if_true, Nat.add_sub_cancel, Nat.mul_zero, Nat.zero_add] at h3 h4 ⊢
    rw [h3, nibSize_vsNibble g hs h8]
    simp only [Nat.add_sub_cancel, List.length_append, List.length_map, List.length_range']
    rw [if_neg (by omega), List.take_left' (by simp), h4]
    simp only [vsFinish, vsPayload, nibSize_vsNibble g hs h8, nibSign_vsNibble g hs h8, if_true, h2]

/-- The magnitude of a two's complement number and its sign give the number back (R120, R127). -/
theorem vsSplit_value (a : U64) :
    (if (vsSplit a).1 then -(BitVec.ofNat 64 (vsSplit a).2) else BitVec.ofNat 64 (vsSplit a).2) = a := by
  unfold vsSplit
  cases h : a.msb
  · simp
  · simp only [if_true]
    apply BitVec.eq_of_toNat_eq
    have := a.isLt
    have hm : 2 ^ 63 ≤ a.toNat := by
      have := BitVec.msb_eq_decide a
      rw [h] at this
      simpa using this.symm
    rw [BitVec.toNat_neg, BitVec.toNat_ofNat]
    omega

/-- `VS_DEC` of the encoding of a number gives the number and its size, whatever follows (41_varsint.md R132). -/
theorem vsDec_vsEnc {le : Bool} {a : U64} {bs : List Byte} (h : vsEnc le a = some bs) (rest : List Byte) :
    vsDec le (bs ++ rest) = some (.value a, bs.length) := by
  unfold vsEnc at h
  obtain ⟨s, hs, rfl⟩ : ∃ s, vsSize (vsSplit a).2 = some s ∧
      vsLayout le (vsSplit a).1 s (BitVec.ofNat 64 ((vsSplit a).2 - bandFloor s)) = bs := by
    simpa [Option.map_eq_some_iff] using h
  obtain ⟨h1, h8, hf, hmax, hp⟩ := vsSize_bounds hs
  have hpow : 2 ^ (8 * s - 4) ≤ 2 ^ 60 := Nat.pow_le_pow_right (by norm_num) (by omega)
  have h2 : 2 ^ (8 * s - 4) ≥ 2 ^ 4 := Nat.pow_le_pow_right (by norm_num) (by omega)
  have hp' : (vsSplit a).2 - bandFloor s < 2 ^ (8 * s - 4) := by split at hp <;> omega
  have hto : (BitVec.ofNat 64 ((vsSplit a).2 - bandFloor s)).toNat = (vsSplit a).2 - bandFloor s := by
    rw [BitVec.toNat_ofNat]; omega
  rw [vsDec_vsLayout le _ h1 h8 (by rw [hto]; exact hp'), hto, vsLayout_length, if_neg ?_, if_neg (by omega),
    show bandFloor s + ((vsSplit a).2 - bandFloor s) = (vsSplit a).2 by omega, vsSplit_value]
  rintro ⟨rfl, hg, hz⟩
  have hz' := congrArg BitVec.toNat hz
  rw [hto] at hz'
  rw [show bandFloor 1 = 0 from rfl, show (0 : U64).toNat = 0 from rfl] at hz'
  have hm : (vsSplit a).2 = 0 := by omega
  unfold vsSplit at hg hm
  simp only at hg
  rw [hg] at hm
  have := a.isLt
  simp at hm
  omega

end Sys2Proof.Machine
end

