-- ==== Sys2Proof/Laws/State.lean ====
section
/-! SUPPORT. One lemma per field per update of State, so that no proof unfolds a record update. -/

namespace Sys2Proof.Machine

open Sys2Proof



/-! ## setResult -/

@[simp] theorem State.setResult_val (s : State) (st : Status) (v : U64) (nv' : Bool) (n : Nat) : (s.setResult st v nv' n).val = v := rfl
@[simp] theorem State.setResult_nv (s : State) (st : Status) (v : U64) (nv' : Bool) (n : Nat) : (s.setResult st v nv' n).nv = nv' := rfl
@[simp] theorem State.setResult_cnt (s : State) (st : Status) (v : U64) (nv' : Bool) (n : Nat) : (s.setResult st v nv' n).cnt = BitVec.ofNat 4 n := rfl
@[simp] theorem State.setResult_cons (s : State) (st : Status) (v : U64) (nv' : Bool) (n : Nat) : (s.setResult st v nv' n).cons = s.cons := rfl
@[simp] theorem State.setResult_stat (s : State) (st : Status) (v : U64) (nv' : Bool) (n : Nat) : (s.setResult st v nv' n).stat = st := rfl
@[simp] theorem State.setResult_busy (s : State) (st : Status) (v : U64) (nv' : Bool) (n : Nat) : (s.setResult st v nv' n).busy = s.busy := rfl
@[simp] theorem State.setResult_sync (s : State) (st : Status) (v : U64) (nv' : Bool) (n : Nat) : (s.setResult st v nv' n).sync = s.sync := rfl
@[simp] theorem State.setResult_rid (s : State) (st : Status) (v : U64) (nv' : Bool) (n : Nat) : (s.setResult st v nv' n).rid = s.rid := rfl
@[simp] theorem State.setResult_plen (s : State) (st : Status) (v : U64) (nv' : Bool) (n : Nat) : (s.setResult st v nv' n).plen = s.plen := rfl
@[simp] theorem State.setResult_crclen (s : State) (st : Status) (v : U64) (nv' : Bool) (n : Nat) : (s.setResult st v nv' n).crclen = s.crclen := rfl
@[simp] theorem State.setResult_crcb (s : State) (st : Status) (v : U64) (nv' : Bool) (n : Nat) : (s.setResult st v nv' n).crcb = s.crcb := rfl
@[simp] theorem State.setResult_ph (s : State) (st : Status) (v : U64) (nv' : Bool) (n : Nat) : (s.setResult st v nv' n).ph = s.ph := rfl
@[simp] theorem State.setResult_cur (s : State) (st : Status) (v : U64) (nv' : Bool) (n : Nat) : (s.setResult st v nv' n).cur = s.cur := rfl
@[simp] theorem State.setResult_pb (s : State) (st : Status) (v : U64) (nv' : Bool) (n : Nat) : (s.setResult st v nv' n).pb = s.pb := rfl
@[simp] theorem State.setResult_rb (s : State) (st : Status) (v : U64) (nv' : Bool) (n : Nat) : (s.setResult st v nv' n).rb = s.rb := rfl
@[simp] theorem State.setResult_scratch (s : State) (st : Status) (v : U64) (nv' : Bool) (n : Nat) : (s.setResult st v nv' n).scratch = s.scratch := rfl
@[simp] theorem State.setResult_resp (s : State) (st : Status) (v : U64) (nv' : Bool) (n : Nat) : (s.setResult st v nv' n).resp = s.resp := rfl
@[simp] theorem State.setResult_rst (s : State) (st : Status) (v : U64) (nv' : Bool) (n : Nat) : (s.setResult st v nv' n).rst = s.rst := rfl
@[simp] theorem State.setResult_cmdQ (s : State) (st : Status) (v : U64) (nv' : Bool) (n : Nat) : (s.setResult st v nv' n).cmdQ = s.cmdQ := rfl
@[simp] theorem State.setResult_inQ (s : State) (st : Status) (v : U64) (nv' : Bool) (n : Nat) : (s.setResult st v nv' n).inQ = s.inQ := rfl
@[simp] theorem State.setResult_inEos (s : State) (st : Status) (v : U64) (nv' : Bool) (n : Nat) : (s.setResult st v nv' n).inEos = s.inEos := rfl
@[simp] theorem State.setResult_outQ (s : State) (st : Status) (v : U64) (nv' : Bool) (n : Nat) : (s.setResult st v nv' n).outQ = s.outQ := rfl
@[simp] theorem State.setResult_outRoom (s : State) (st : Status) (v : U64) (nv' : Bool) (n : Nat) : (s.setResult st v nv' n).outRoom = s.outRoom := rfl
@[simp] theorem State.setResult_tick (s : State) (st : Status) (v : U64) (nv' : Bool) (n : Nat) : (s.setResult st v nv' n).tick = s.tick := rfl

/-! ## enter -/

@[simp] theorem State.enter_val (s : State) (p : Phase) : (s.enter p).val = s.val := rfl
@[simp] theorem State.enter_nv (s : State) (p : Phase) : (s.enter p).nv = s.nv := rfl
@[simp] theorem State.enter_cnt (s : State) (p : Phase) : (s.enter p).cnt = s.cnt := rfl
@[simp] theorem State.enter_cons (s : State) (p : Phase) : (s.enter p).cons = s.cons := rfl
@[simp] theorem State.enter_stat (s : State) (p : Phase) : (s.enter p).stat = s.stat := rfl
@[simp] theorem State.enter_busy (s : State) (p : Phase) : (s.enter p).busy = s.busy := rfl
@[simp] theorem State.enter_sync (s : State) (p : Phase) : (s.enter p).sync = s.sync := rfl
@[simp] theorem State.enter_rid (s : State) (p : Phase) : (s.enter p).rid = s.rid := rfl
@[simp] theorem State.enter_plen (s : State) (p : Phase) : (s.enter p).plen = s.plen := rfl
@[simp] theorem State.enter_crclen (s : State) (p : Phase) : (s.enter p).crclen = s.crclen := rfl
@[simp] theorem State.enter_crcb (s : State) (p : Phase) : (s.enter p).crcb = s.crcb := rfl
@[simp] theorem State.enter_ph (s : State) (p : Phase) : (s.enter p).ph = p := rfl
@[simp] theorem State.enter_cur (s : State) (p : Phase) : (s.enter p).cur = 0 := rfl
@[simp] theorem State.enter_pb (s : State) (p : Phase) : (s.enter p).pb = s.pb := rfl
@[simp] theorem State.enter_rb (s : State) (p : Phase) : (s.enter p).rb = s.rb := rfl
@[simp] theorem State.enter_scratch (s : State) (p : Phase) : (s.enter p).scratch = s.scratch := rfl
@[simp] theorem State.enter_resp (s : State) (p : Phase) : (s.enter p).resp = s.resp := rfl
@[simp] theorem State.enter_rst (s : State) (p : Phase) : (s.enter p).rst = s.rst := rfl
@[simp] theorem State.enter_cmdQ (s : State) (p : Phase) : (s.enter p).cmdQ = s.cmdQ := rfl
@[simp] theorem State.enter_inQ (s : State) (p : Phase) : (s.enter p).inQ = s.inQ := rfl
@[simp] theorem State.enter_inEos (s : State) (p : Phase) : (s.enter p).inEos = s.inEos := rfl
@[simp] theorem State.enter_outQ (s : State) (p : Phase) : (s.enter p).outQ = s.outQ := rfl
@[simp] theorem State.enter_outRoom (s : State) (p : Phase) : (s.enter p).outRoom = s.outRoom := rfl
@[simp] theorem State.enter_tick (s : State) (p : Phase) : (s.enter p).tick = s.tick := rfl

/-! ## enterField -/

@[simp] theorem State.enterField_val (s : State) (p : Phase) : (s.enterField p).val = s.val := rfl
@[simp] theorem State.enterField_nv (s : State) (p : Phase) : (s.enterField p).nv = s.nv := rfl
@[simp] theorem State.enterField_cnt (s : State) (p : Phase) : (s.enterField p).cnt = s.cnt := rfl
@[simp] theorem State.enterField_cons (s : State) (p : Phase) : (s.enterField p).cons = s.cons := rfl
@[simp] theorem State.enterField_stat (s : State) (p : Phase) : (s.enterField p).stat = s.stat := rfl
@[simp] theorem State.enterField_busy (s : State) (p : Phase) : (s.enterField p).busy = s.busy := rfl
@[simp] theorem State.enterField_sync (s : State) (p : Phase) : (s.enterField p).sync = s.sync := rfl
@[simp] theorem State.enterField_rid (s : State) (p : Phase) : (s.enterField p).rid = s.rid := rfl
@[simp] theorem State.enterField_plen (s : State) (p : Phase) : (s.enterField p).plen = s.plen := rfl
@[simp] theorem State.enterField_crclen (s : State) (p : Phase) : (s.enterField p).crclen = s.crclen := rfl
@[simp] theorem State.enterField_crcb (s : State) (p : Phase) : (s.enterField p).crcb = s.crcb := rfl
@[simp] theorem State.enterField_ph (s : State) (p : Phase) : (s.enterField p).ph = p := rfl
@[simp] theorem State.enterField_cur (s : State) (p : Phase) : (s.enterField p).cur = 0 := rfl
@[simp] theorem State.enterField_pb (s : State) (p : Phase) : (s.enterField p).pb = s.pb := rfl
@[simp] theorem State.enterField_rb (s : State) (p : Phase) : (s.enterField p).rb = s.rb := rfl
@[simp] theorem State.enterField_scratch (s : State) (p : Phase) : (s.enterField p).scratch = { s.scratch with acc := 0, raw := [] } := rfl
@[simp] theorem State.enterField_resp (s : State) (p : Phase) : (s.enterField p).resp = s.resp := rfl
@[simp] theorem State.enterField_rst (s : State) (p : Phase) : (s.enterField p).rst = s.rst := rfl
@[simp] theorem State.enterField_cmdQ (s : State) (p : Phase) : (s.enterField p).cmdQ = s.cmdQ := rfl
@[simp] theorem State.enterField_inQ (s : State) (p : Phase) : (s.enterField p).inQ = s.inQ := rfl
@[simp] theorem State.enterField_inEos (s : State) (p : Phase) : (s.enterField p).inEos = s.inEos := rfl
@[simp] theorem State.enterField_outQ (s : State) (p : Phase) : (s.enterField p).outQ = s.outQ := rfl
@[simp] theorem State.enterField_outRoom (s : State) (p : Phase) : (s.enterField p).outRoom = s.outRoom := rfl
@[simp] theorem State.enterField_tick (s : State) (p : Phase) : (s.enterField p).tick = s.tick := rfl

/-! ## advance -/

@[simp] theorem State.advance_val (s : State) : (s.advance).val = s.val := rfl
@[simp] theorem State.advance_nv (s : State) : (s.advance).nv = s.nv := rfl
@[simp] theorem State.advance_cnt (s : State) : (s.advance).cnt = s.cnt := rfl
@[simp] theorem State.advance_cons (s : State) : (s.advance).cons = s.cons := rfl
@[simp] theorem State.advance_stat (s : State) : (s.advance).stat = s.stat := rfl
@[simp] theorem State.advance_busy (s : State) : (s.advance).busy = s.busy := rfl
@[simp] theorem State.advance_sync (s : State) : (s.advance).sync = s.sync := rfl
@[simp] theorem State.advance_rid (s : State) : (s.advance).rid = s.rid := rfl
@[simp] theorem State.advance_plen (s : State) : (s.advance).plen = s.plen := rfl
@[simp] theorem State.advance_crclen (s : State) : (s.advance).crclen = s.crclen := rfl
@[simp] theorem State.advance_crcb (s : State) : (s.advance).crcb = s.crcb := rfl
@[simp] theorem State.advance_ph (s : State) : (s.advance).ph = s.ph := rfl
@[simp] theorem State.advance_cur (s : State) : (s.advance).cur = s.cur + 1 := rfl
@[simp] theorem State.advance_pb (s : State) : (s.advance).pb = s.pb := rfl
@[simp] theorem State.advance_rb (s : State) : (s.advance).rb = s.rb := rfl
@[simp] theorem State.advance_scratch (s : State) : (s.advance).scratch = s.scratch := rfl
@[simp] theorem State.advance_resp (s : State) : (s.advance).resp = s.resp := rfl
@[simp] theorem State.advance_rst (s : State) : (s.advance).rst = s.rst := rfl
@[simp] theorem State.advance_cmdQ (s : State) : (s.advance).cmdQ = s.cmdQ := rfl
@[simp] theorem State.advance_inQ (s : State) : (s.advance).inQ = s.inQ := rfl
@[simp] theorem State.advance_inEos (s : State) : (s.advance).inEos = s.inEos := rfl
@[simp] theorem State.advance_outQ (s : State) : (s.advance).outQ = s.outQ := rfl
@[simp] theorem State.advance_outRoom (s : State) : (s.advance).outRoom = s.outRoom := rfl
@[simp] theorem State.advance_tick (s : State) : (s.advance).tick = s.tick := rfl

/-! ## accept -/

@[simp] theorem State.accept_val (s : State) (p : Phase) : (s.accept p).val = s.val := rfl
@[simp] theorem State.accept_nv (s : State) (p : Phase) : (s.accept p).nv = s.nv := rfl
@[simp] theorem State.accept_cnt (s : State) (p : Phase) : (s.accept p).cnt = s.cnt := rfl
@[simp] theorem State.accept_cons (s : State) (p : Phase) : (s.accept p).cons = 0 := rfl
@[simp] theorem State.accept_stat (s : State) (p : Phase) : (s.accept p).stat = s.stat := rfl
@[simp] theorem State.accept_busy (s : State) (p : Phase) : (s.accept p).busy = true := rfl
@[simp] theorem State.accept_sync (s : State) (p : Phase) : (s.accept p).sync = s.sync := rfl
@[simp] theorem State.accept_rid (s : State) (p : Phase) : (s.accept p).rid = s.rid := rfl
@[simp] theorem State.accept_plen (s : State) (p : Phase) : (s.accept p).plen = s.plen := rfl
@[simp] theorem State.accept_crclen (s : State) (p : Phase) : (s.accept p).crclen = s.crclen := rfl
@[simp] theorem State.accept_crcb (s : State) (p : Phase) : (s.accept p).crcb = s.crcb := rfl
@[simp] theorem State.accept_ph (s : State) (p : Phase) : (s.accept p).ph = p := rfl
@[simp] theorem State.accept_cur (s : State) (p : Phase) : (s.accept p).cur = 0 := rfl
@[simp] theorem State.accept_pb (s : State) (p : Phase) : (s.accept p).pb = s.pb := rfl
@[simp] theorem State.accept_rb (s : State) (p : Phase) : (s.accept p).rb = s.rb := rfl
@[simp] theorem State.accept_scratch (s : State) (p : Phase) : (s.accept p).scratch = Scratch.init := rfl
@[simp] theorem State.accept_resp (s : State) (p : Phase) : (s.accept p).resp = s.resp := rfl
@[simp] theorem State.accept_rst (s : State) (p : Phase) : (s.accept p).rst = s.rst := rfl
@[simp] theorem State.accept_cmdQ (s : State) (p : Phase) : (s.accept p).cmdQ = s.cmdQ := rfl
@[simp] theorem State.accept_inQ (s : State) (p : Phase) : (s.accept p).inQ = s.inQ := rfl
@[simp] theorem State.accept_inEos (s : State) (p : Phase) : (s.accept p).inEos = s.inEos := rfl
@[simp] theorem State.accept_outQ (s : State) (p : Phase) : (s.accept p).outQ = s.outQ := rfl
@[simp] theorem State.accept_outRoom (s : State) (p : Phase) : (s.accept p).outRoom = s.outRoom := rfl
@[simp] theorem State.accept_tick (s : State) (p : Phase) : (s.accept p).tick = s.tick := rfl

/-! ## clearRecord -/

@[simp] theorem State.clearRecord_val (s : State) : (s.clearRecord).val = s.val := rfl
@[simp] theorem State.clearRecord_nv (s : State) : (s.clearRecord).nv = s.nv := rfl
@[simp] theorem State.clearRecord_cnt (s : State) : (s.clearRecord).cnt = s.cnt := rfl
@[simp] theorem State.clearRecord_cons (s : State) : (s.clearRecord).cons = s.cons := rfl
@[simp] theorem State.clearRecord_stat (s : State) : (s.clearRecord).stat = s.stat := rfl
@[simp] theorem State.clearRecord_busy (s : State) : (s.clearRecord).busy = s.busy := rfl
@[simp] theorem State.clearRecord_sync (s : State) : (s.clearRecord).sync = 0 := rfl
@[simp] theorem State.clearRecord_rid (s : State) : (s.clearRecord).rid = 0 := rfl
@[simp] theorem State.clearRecord_plen (s : State) : (s.clearRecord).plen = 0 := rfl
@[simp] theorem State.clearRecord_crclen (s : State) : (s.clearRecord).crclen = 0 := rfl
@[simp] theorem State.clearRecord_crcb (s : State) : (s.clearRecord).crcb = 0 := rfl
@[simp] theorem State.clearRecord_ph (s : State) : (s.clearRecord).ph = s.ph := rfl
@[simp] theorem State.clearRecord_cur (s : State) : (s.clearRecord).cur = s.cur := rfl
@[simp] theorem State.clearRecord_pb (s : State) : (s.clearRecord).pb = s.pb := rfl
@[simp] theorem State.clearRecord_rb (s : State) : (s.clearRecord).rb = s.rb := rfl
@[simp] theorem State.clearRecord_scratch (s : State) : (s.clearRecord).scratch = s.scratch := rfl
@[simp] theorem State.clearRecord_resp (s : State) : (s.clearRecord).resp = s.resp := rfl
@[simp] theorem State.clearRecord_rst (s : State) : (s.clearRecord).rst = s.rst := rfl
@[simp] theorem State.clearRecord_cmdQ (s : State) : (s.clearRecord).cmdQ = s.cmdQ := rfl
@[simp] theorem State.clearRecord_inQ (s : State) : (s.clearRecord).inQ = s.inQ := rfl
@[simp] theorem State.clearRecord_inEos (s : State) : (s.clearRecord).inEos = s.inEos := rfl
@[simp] theorem State.clearRecord_outQ (s : State) : (s.clearRecord).outQ = s.outQ := rfl
@[simp] theorem State.clearRecord_outRoom (s : State) : (s.clearRecord).outRoom = s.outRoom := rfl
@[simp] theorem State.clearRecord_tick (s : State) : (s.clearRecord).tick = s.tick := rfl

/-! ## respond -/

@[simp] theorem State.respond_val (s : State) : (s.respond).val = s.val := rfl
@[simp] theorem State.respond_nv (s : State) : (s.respond).nv = s.nv := rfl
@[simp] theorem State.respond_cnt (s : State) : (s.respond).cnt = s.cnt := rfl
@[simp] theorem State.respond_cons (s : State) : (s.respond).cons = s.cons := rfl
@[simp] theorem State.respond_stat (s : State) : (s.respond).stat = s.stat := rfl
@[simp] theorem State.respond_busy (s : State) : (s.respond).busy = false := rfl
@[simp] theorem State.respond_sync (s : State) : (s.respond).sync = s.sync := rfl
@[simp] theorem State.respond_rid (s : State) : (s.respond).rid = s.rid := rfl
@[simp] theorem State.respond_plen (s : State) : (s.respond).plen = s.plen := rfl
@[simp] theorem State.respond_crclen (s : State) : (s.respond).crclen = s.crclen := rfl
@[simp] theorem State.respond_crcb (s : State) : (s.respond).crcb = s.crcb := rfl
@[simp] theorem State.respond_ph (s : State) : (s.respond).ph = .idle := rfl
@[simp] theorem State.respond_cur (s : State) : (s.respond).cur = 0 := rfl
@[simp] theorem State.respond_pb (s : State) : (s.respond).pb = s.pb := rfl
@[simp] theorem State.respond_rb (s : State) : (s.respond).rb = s.rb := rfl
@[simp] theorem State.respond_scratch (s : State) : (s.respond).scratch = Scratch.init := rfl
@[simp] theorem State.respond_resp (s : State) : (s.respond).resp = true := rfl
@[simp] theorem State.respond_rst (s : State) : (s.respond).rst = s.rst := rfl
@[simp] theorem State.respond_cmdQ (s : State) : (s.respond).cmdQ = s.cmdQ := rfl
@[simp] theorem State.respond_inQ (s : State) : (s.respond).inQ = s.inQ := rfl
@[simp] theorem State.respond_inEos (s : State) : (s.respond).inEos = s.inEos := rfl
@[simp] theorem State.respond_outQ (s : State) : (s.respond).outQ = s.outQ := rfl
@[simp] theorem State.respond_outRoom (s : State) : (s.respond).outRoom = s.outRoom := rfl
@[simp] theorem State.respond_tick (s : State) : (s.respond).tick = s.tick := rfl

/-! ## complete -/

@[simp] theorem State.complete_val (s : State) (st : Status) (v : U64) (nv' : Bool) (n : Nat) : (s.complete st v nv' n).val = v := rfl
@[simp] theorem State.complete_nv (s : State) (st : Status) (v : U64) (nv' : Bool) (n : Nat) : (s.complete st v nv' n).nv = nv' := rfl
@[simp] theorem State.complete_cnt (s : State) (st : Status) (v : U64) (nv' : Bool) (n : Nat) : (s.complete st v nv' n).cnt = BitVec.ofNat 4 n := rfl
@[simp] theorem State.complete_cons (s : State) (st : Status) (v : U64) (nv' : Bool) (n : Nat) : (s.complete st v nv' n).cons = s.cons := rfl
@[simp] theorem State.complete_stat (s : State) (st : Status) (v : U64) (nv' : Bool) (n : Nat) : (s.complete st v nv' n).stat = st := rfl
@[simp] theorem State.complete_busy (s : State) (st : Status) (v : U64) (nv' : Bool) (n : Nat) : (s.complete st v nv' n).busy = false := rfl
@[simp] theorem State.complete_sync (s : State) (st : Status) (v : U64) (nv' : Bool) (n : Nat) : (s.complete st v nv' n).sync = s.sync := rfl
@[simp] theorem State.complete_rid (s : State) (st : Status) (v : U64) (nv' : Bool) (n : Nat) : (s.complete st v nv' n).rid = s.rid := rfl
@[simp] theorem State.complete_plen (s : State) (st : Status) (v : U64) (nv' : Bool) (n : Nat) : (s.complete st v nv' n).plen = s.plen := rfl
@[simp] theorem State.complete_crclen (s : State) (st : Status) (v : U64) (nv' : Bool) (n : Nat) : (s.complete st v nv' n).crclen = s.crclen := rfl
@[simp] theorem State.complete_crcb (s : State) (st : Status) (v : U64) (nv' : Bool) (n : Nat) : (s.complete st v nv' n).crcb = s.crcb := rfl
@[simp] theorem State.complete_ph (s : State) (st : Status) (v : U64) (nv' : Bool) (n : Nat) : (s.complete st v nv' n).ph = .idle := rfl
@[simp] theorem State.complete_cur (s : State) (st : Status) (v : U64) (nv' : Bool) (n : Nat) : (s.complete st v nv' n).cur = 0 := rfl
@[simp] theorem State.complete_pb (s : State) (st : Status) (v : U64) (nv' : Bool) (n : Nat) : (s.complete st v nv' n).pb = s.pb := rfl
@[simp] theorem State.complete_rb (s : State) (st : Status) (v : U64) (nv' : Bool) (n : Nat) : (s.complete st v nv' n).rb = s.rb := rfl
@[simp] theorem State.complete_scratch (s : State) (st : Status) (v : U64) (nv' : Bool) (n : Nat) : (s.complete st v nv' n).scratch = Scratch.init := rfl
@[simp] theorem State.complete_resp (s : State) (st : Status) (v : U64) (nv' : Bool) (n : Nat) : (s.complete st v nv' n).resp = true := rfl
@[simp] theorem State.complete_rst (s : State) (st : Status) (v : U64) (nv' : Bool) (n : Nat) : (s.complete st v nv' n).rst = s.rst := rfl
@[simp] theorem State.complete_cmdQ (s : State) (st : Status) (v : U64) (nv' : Bool) (n : Nat) : (s.complete st v nv' n).cmdQ = s.cmdQ := rfl
@[simp] theorem State.complete_inQ (s : State) (st : Status) (v : U64) (nv' : Bool) (n : Nat) : (s.complete st v nv' n).inQ = s.inQ := rfl
@[simp] theorem State.complete_inEos (s : State) (st : Status) (v : U64) (nv' : Bool) (n : Nat) : (s.complete st v nv' n).inEos = s.inEos := rfl
@[simp] theorem State.complete_outQ (s : State) (st : Status) (v : U64) (nv' : Bool) (n : Nat) : (s.complete st v nv' n).outQ = s.outQ := rfl
@[simp] theorem State.complete_outRoom (s : State) (st : Status) (v : U64) (nv' : Bool) (n : Nat) : (s.complete st v nv' n).outRoom = s.outRoom := rfl
@[simp] theorem State.complete_tick (s : State) (st : Status) (v : U64) (nv' : Bool) (n : Nat) : (s.complete st v nv' n).tick = s.tick := rfl

/-! ## raise -/

@[simp] theorem State.raise_val (s : State) (k : Status) : (s.raise k).val = 0 := by
  unfold State.raise; split <;> simp
@[simp] theorem State.raise_nv (s : State) (k : Status) : (s.raise k).nv = false := by
  unfold State.raise; split <;> simp
@[simp] theorem State.raise_cnt (s : State) (k : Status) : (s.raise k).cnt = 0 := by
  unfold State.raise; split <;> simp
@[simp] theorem State.raise_cons (s : State) (k : Status) : (s.raise k).cons = s.cons := by
  unfold State.raise; split <;> simp
@[simp] theorem State.raise_stat (s : State) (k : Status) : (s.raise k).stat = k := by
  unfold State.raise; split <;> simp
@[simp] theorem State.raise_busy (s : State) (k : Status) : (s.raise k).busy = false := by
  unfold State.raise; split <;> simp
@[simp] theorem State.raise_sync (s : State) (k : Status) : (s.raise k).sync = if s.ph.decoding then 0 else s.sync := by
  unfold State.raise; split <;> simp
@[simp] theorem State.raise_rid (s : State) (k : Status) : (s.raise k).rid = if s.ph.decoding then 0 else s.rid := by
  unfold State.raise; split <;> simp
@[simp] theorem State.raise_plen (s : State) (k : Status) : (s.raise k).plen = if s.ph.decoding then 0 else s.plen := by
  unfold State.raise; split <;> simp
@[simp] theorem State.raise_crclen (s : State) (k : Status) : (s.raise k).crclen = if s.ph.decoding then 0 else s.crclen := by
  unfold State.raise; split <;> simp
@[simp] theorem State.raise_crcb (s : State) (k : Status) : (s.raise k).crcb = if s.ph.decoding then 0 else s.crcb := by
  unfold State.raise; split <;> simp
@[simp] theorem State.raise_ph (s : State) (k : Status) : (s.raise k).ph = .idle := by
  unfold State.raise; split <;> simp
@[simp] theorem State.raise_cur (s : State) (k : Status) : (s.raise k).cur = 0 := by
  unfold State.raise; split <;> simp
@[simp] theorem State.raise_pb (s : State) (k : Status) : (s.raise k).pb = s.pb := by
  unfold State.raise; split <;> simp
@[simp] theorem State.raise_rb (s : State) (k : Status) : (s.raise k).rb = s.rb := by
  unfold State.raise; split <;> simp
@[simp] theorem State.raise_scratch (s : State) (k : Status) : (s.raise k).scratch = Scratch.init := by
  unfold State.raise; split <;> simp
@[simp] theorem State.raise_resp (s : State) (k : Status) : (s.raise k).resp = true := by
  unfold State.raise; split <;> simp
@[simp] theorem State.raise_rst (s : State) (k : Status) : (s.raise k).rst = s.rst := by
  unfold State.raise; split <;> simp
@[simp] theorem State.raise_cmdQ (s : State) (k : Status) : (s.raise k).cmdQ = s.cmdQ := by
  unfold State.raise; split <;> simp
@[simp] theorem State.raise_inQ (s : State) (k : Status) : (s.raise k).inQ = s.inQ := by
  unfold State.raise; split <;> simp
@[simp] theorem State.raise_inEos (s : State) (k : Status) : (s.raise k).inEos = s.inEos := by
  unfold State.raise; split <;> simp
@[simp] theorem State.raise_outQ (s : State) (k : Status) : (s.raise k).outQ = s.outQ := by
  unfold State.raise; split <;> simp
@[simp] theorem State.raise_outRoom (s : State) (k : Status) : (s.raise k).outRoom = s.outRoom := by
  unfold State.raise; split <;> simp
@[simp] theorem State.raise_tick (s : State) (k : Status) : (s.raise k).tick = s.tick := by
  unfold State.raise; split <;> simp

/-! ## recordDone -/

@[simp] theorem State.recordDone_val (s : State) : (s.recordDone).val = 0 := rfl
@[simp] theorem State.recordDone_nv (s : State) : (s.recordDone).nv = false := rfl
@[simp] theorem State.recordDone_cnt (s : State) : (s.recordDone).cnt = 0 := rfl
@[simp] theorem State.recordDone_cons (s : State) : (s.recordDone).cons = s.cons := rfl
@[simp] theorem State.recordDone_stat (s : State) : (s.recordDone).stat = .ok := rfl
@[simp] theorem State.recordDone_busy (s : State) : (s.recordDone).busy = false := rfl
@[simp] theorem State.recordDone_sync (s : State) : (s.recordDone).sync = headByte s.scratch.le s.scratch.rev s.scratch.enh := rfl
@[simp] theorem State.recordDone_rid (s : State) : (s.recordDone).rid = s.scratch.id.setWidth 32 := rfl
@[simp] theorem State.recordDone_plen (s : State) : (s.recordDone).plen = s.scratch.dlen.setWidth 32 := rfl
@[simp] theorem State.recordDone_crclen (s : State) : (s.recordDone).crclen = BitVec.ofNat 3 s.scratch.crc.len := rfl
@[simp] theorem State.recordDone_crcb (s : State) : (s.recordDone).crcb = packCrc s.scratch.got := rfl
@[simp] theorem State.recordDone_ph (s : State) : (s.recordDone).ph = .idle := rfl
@[simp] theorem State.recordDone_cur (s : State) : (s.recordDone).cur = 0 := rfl
@[simp] theorem State.recordDone_pb (s : State) : (s.recordDone).pb = s.pb := rfl
@[simp] theorem State.recordDone_rb (s : State) : (s.recordDone).rb = s.rb := rfl
@[simp] theorem State.recordDone_scratch (s : State) : (s.recordDone).scratch = Scratch.init := rfl
@[simp] theorem State.recordDone_resp (s : State) : (s.recordDone).resp = true := rfl
@[simp] theorem State.recordDone_rst (s : State) : (s.recordDone).rst = s.rst := rfl
@[simp] theorem State.recordDone_cmdQ (s : State) : (s.recordDone).cmdQ = s.cmdQ := rfl
@[simp] theorem State.recordDone_inQ (s : State) : (s.recordDone).inQ = s.inQ := rfl
@[simp] theorem State.recordDone_inEos (s : State) : (s.recordDone).inEos = s.inEos := rfl
@[simp] theorem State.recordDone_outQ (s : State) : (s.recordDone).outQ = s.outQ := rfl
@[simp] theorem State.recordDone_outRoom (s : State) : (s.recordDone).outRoom = s.outRoom := rfl
@[simp] theorem State.recordDone_tick (s : State) : (s.recordDone).tick = s.tick := rfl

/-! ## encodeDone -/

@[simp] theorem State.encodeDone_val (s : State) : (s.encodeDone).val = BitVec.ofNat 64 s.scratch.wireLen := rfl
@[simp] theorem State.encodeDone_nv (s : State) : (s.encodeDone).nv = false := rfl
@[simp] theorem State.encodeDone_cnt (s : State) : (s.encodeDone).cnt = 0 := rfl
@[simp] theorem State.encodeDone_cons (s : State) : (s.encodeDone).cons = s.cons := rfl
@[simp] theorem State.encodeDone_stat (s : State) : (s.encodeDone).stat = .ok := rfl
@[simp] theorem State.encodeDone_busy (s : State) : (s.encodeDone).busy = false := rfl
@[simp] theorem State.encodeDone_sync (s : State) : (s.encodeDone).sync = headByte s.scratch.le s.scratch.rev s.scratch.enh := rfl
@[simp] theorem State.encodeDone_rid (s : State) : (s.encodeDone).rid = s.scratch.id.setWidth 32 := rfl
@[simp] theorem State.encodeDone_plen (s : State) : (s.encodeDone).plen = s.plen := rfl
@[simp] theorem State.encodeDone_crclen (s : State) : (s.encodeDone).crclen = BitVec.ofNat 3 s.scratch.crc.len := rfl
@[simp] theorem State.encodeDone_crcb (s : State) : (s.encodeDone).crcb = packCrc s.scratch.crcField := rfl
@[simp] theorem State.encodeDone_ph (s : State) : (s.encodeDone).ph = .idle := rfl
@[simp] theorem State.encodeDone_cur (s : State) : (s.encodeDone).cur = 0 := rfl
@[simp] theorem State.encodeDone_pb (s : State) : (s.encodeDone).pb = s.pb := rfl
@[simp] theorem State.encodeDone_rb (s : State) : (s.encodeDone).rb = s.rb := rfl
@[simp] theorem State.encodeDone_scratch (s : State) : (s.encodeDone).scratch = Scratch.init := rfl
@[simp] theorem State.encodeDone_resp (s : State) : (s.encodeDone).resp = true := rfl
@[simp] theorem State.encodeDone_rst (s : State) : (s.encodeDone).rst = s.rst := rfl
@[simp] theorem State.encodeDone_cmdQ (s : State) : (s.encodeDone).cmdQ = s.cmdQ := rfl
@[simp] theorem State.encodeDone_inQ (s : State) : (s.encodeDone).inQ = s.inQ := rfl
@[simp] theorem State.encodeDone_inEos (s : State) : (s.encodeDone).inEos = s.inEos := rfl
@[simp] theorem State.encodeDone_outQ (s : State) : (s.encodeDone).outQ = s.outQ := rfl
@[simp] theorem State.encodeDone_outRoom (s : State) : (s.encodeDone).outRoom = s.outRoom := rfl
@[simp] theorem State.encodeDone_tick (s : State) : (s.encodeDone).tick = s.tick := rfl

/-! ## writePb -/

@[simp] theorem State.writePb_val (s : State) (off : U32) (bs : List Byte) : (s.writePb off bs).val = s.val := rfl
@[simp] theorem State.writePb_nv (s : State) (off : U32) (bs : List Byte) : (s.writePb off bs).nv = s.nv := rfl
@[simp] theorem State.writePb_cnt (s : State) (off : U32) (bs : List Byte) : (s.writePb off bs).cnt = s.cnt := rfl
@[simp] theorem State.writePb_cons (s : State) (off : U32) (bs : List Byte) : (s.writePb off bs).cons = s.cons := rfl
@[simp] theorem State.writePb_stat (s : State) (off : U32) (bs : List Byte) : (s.writePb off bs).stat = s.stat := rfl
@[simp] theorem State.writePb_busy (s : State) (off : U32) (bs : List Byte) : (s.writePb off bs).busy = s.busy := rfl
@[simp] theorem State.writePb_sync (s : State) (off : U32) (bs : List Byte) : (s.writePb off bs).sync = s.sync := rfl
@[simp] theorem State.writePb_rid (s : State) (off : U32) (bs : List Byte) : (s.writePb off bs).rid = s.rid := rfl
@[simp] theorem State.writePb_plen (s : State) (off : U32) (bs : List Byte) : (s.writePb off bs).plen = BitVec.ofNat 32 (max s.plen.toNat (off.toNat + bs.length)) := rfl
@[simp] theorem State.writePb_crclen (s : State) (off : U32) (bs : List Byte) : (s.writePb off bs).crclen = s.crclen := rfl
@[simp] theorem State.writePb_crcb (s : State) (off : U32) (bs : List Byte) : (s.writePb off bs).crcb = s.crcb := rfl
@[simp] theorem State.writePb_ph (s : State) (off : U32) (bs : List Byte) : (s.writePb off bs).ph = s.ph := rfl
@[simp] theorem State.writePb_cur (s : State) (off : U32) (bs : List Byte) : (s.writePb off bs).cur = s.cur := rfl
@[simp] theorem State.writePb_pb (s : State) (off : U32) (bs : List Byte) : (s.writePb off bs).pb = s.pb.writeList off.toNat bs := rfl
@[simp] theorem State.writePb_rb (s : State) (off : U32) (bs : List Byte) : (s.writePb off bs).rb = s.rb := rfl
@[simp] theorem State.writePb_scratch (s : State) (off : U32) (bs : List Byte) : (s.writePb off bs).scratch = s.scratch := rfl
@[simp] theorem State.writePb_resp (s : State) (off : U32) (bs : List Byte) : (s.writePb off bs).resp = s.resp := rfl
@[simp] theorem State.writePb_rst (s : State) (off : U32) (bs : List Byte) : (s.writePb off bs).rst = s.rst := rfl
@[simp] theorem State.writePb_cmdQ (s : State) (off : U32) (bs : List Byte) : (s.writePb off bs).cmdQ = s.cmdQ := rfl
@[simp] theorem State.writePb_inQ (s : State) (off : U32) (bs : List Byte) : (s.writePb off bs).inQ = s.inQ := rfl
@[simp] theorem State.writePb_inEos (s : State) (off : U32) (bs : List Byte) : (s.writePb off bs).inEos = s.inEos := rfl
@[simp] theorem State.writePb_outQ (s : State) (off : U32) (bs : List Byte) : (s.writePb off bs).outQ = s.outQ := rfl
@[simp] theorem State.writePb_outRoom (s : State) (off : U32) (bs : List Byte) : (s.writePb off bs).outRoom = s.outRoom := rfl
@[simp] theorem State.writePb_tick (s : State) (off : U32) (bs : List Byte) : (s.writePb off bs).tick = s.tick := rfl

/-! ## tickOver -/

@[simp] theorem State.tickOver_val (s : State) : (s.tickOver).val = s.val := rfl
@[simp] theorem State.tickOver_nv (s : State) : (s.tickOver).nv = s.nv := rfl
@[simp] theorem State.tickOver_cnt (s : State) : (s.tickOver).cnt = s.cnt := rfl
@[simp] theorem State.tickOver_cons (s : State) : (s.tickOver).cons = s.cons := rfl
@[simp] theorem State.tickOver_stat (s : State) : (s.tickOver).stat = s.stat := rfl
@[simp] theorem State.tickOver_busy (s : State) : (s.tickOver).busy = s.busy := rfl
@[simp] theorem State.tickOver_sync (s : State) : (s.tickOver).sync = s.sync := rfl
@[simp] theorem State.tickOver_rid (s : State) : (s.tickOver).rid = s.rid := rfl
@[simp] theorem State.tickOver_plen (s : State) : (s.tickOver).plen = s.plen := rfl
@[simp] theorem State.tickOver_crclen (s : State) : (s.tickOver).crclen = s.crclen := rfl
@[simp] theorem State.tickOver_crcb (s : State) : (s.tickOver).crcb = s.crcb := rfl
@[simp] theorem State.tickOver_ph (s : State) : (s.tickOver).ph = s.ph := rfl
@[simp] theorem State.tickOver_cur (s : State) : (s.tickOver).cur = s.cur := rfl
@[simp] theorem State.tickOver_pb (s : State) : (s.tickOver).pb = s.pb := rfl
@[simp] theorem State.tickOver_rb (s : State) : (s.tickOver).rb = s.rb := rfl
@[simp] theorem State.tickOver_scratch (s : State) : (s.tickOver).scratch = s.scratch := rfl
@[simp] theorem State.tickOver_resp (s : State) : (s.tickOver).resp = false := rfl
@[simp] theorem State.tickOver_rst (s : State) : (s.tickOver).rst = s.rst := rfl
@[simp] theorem State.tickOver_cmdQ (s : State) : (s.tickOver).cmdQ = s.cmdQ := rfl
@[simp] theorem State.tickOver_inQ (s : State) : (s.tickOver).inQ = s.inQ := rfl
@[simp] theorem State.tickOver_inEos (s : State) : (s.tickOver).inEos = s.inEos := rfl
@[simp] theorem State.tickOver_outQ (s : State) : (s.tickOver).outQ = s.outQ := rfl
@[simp] theorem State.tickOver_outRoom (s : State) : (s.tickOver).outRoom = s.outRoom := rfl
@[simp] theorem State.tickOver_tick (s : State) : (s.tickOver).tick = s.tick + 1 := rfl

/-! ## resetRegisters -/

@[simp] theorem State.resetRegisters_val (s : State) : (s.resetRegisters).val = 0 := rfl
@[simp] theorem State.resetRegisters_nv (s : State) : (s.resetRegisters).nv = false := rfl
@[simp] theorem State.resetRegisters_cnt (s : State) : (s.resetRegisters).cnt = 0 := rfl
@[simp] theorem State.resetRegisters_cons (s : State) : (s.resetRegisters).cons = 0 := rfl
@[simp] theorem State.resetRegisters_stat (s : State) : (s.resetRegisters).stat = .ok := rfl
@[simp] theorem State.resetRegisters_busy (s : State) : (s.resetRegisters).busy = false := rfl
@[simp] theorem State.resetRegisters_sync (s : State) : (s.resetRegisters).sync = 0 := rfl
@[simp] theorem State.resetRegisters_rid (s : State) : (s.resetRegisters).rid = 0 := rfl
@[simp] theorem State.resetRegisters_plen (s : State) : (s.resetRegisters).plen = 0 := rfl
@[simp] theorem State.resetRegisters_crclen (s : State) : (s.resetRegisters).crclen = 0 := rfl
@[simp] theorem State.resetRegisters_crcb (s : State) : (s.resetRegisters).crcb = 0 := rfl
@[simp] theorem State.resetRegisters_ph (s : State) : (s.resetRegisters).ph = .idle := rfl
@[simp] theorem State.resetRegisters_cur (s : State) : (s.resetRegisters).cur = 0 := rfl
@[simp] theorem State.resetRegisters_pb (s : State) : (s.resetRegisters).pb = s.pb := rfl
@[simp] theorem State.resetRegisters_rb (s : State) : (s.resetRegisters).rb = s.rb := rfl
@[simp] theorem State.resetRegisters_scratch (s : State) : (s.resetRegisters).scratch = Scratch.init := rfl
@[simp] theorem State.resetRegisters_resp (s : State) : (s.resetRegisters).resp = s.resp := rfl
@[simp] theorem State.resetRegisters_rst (s : State) : (s.resetRegisters).rst = s.rst := rfl
@[simp] theorem State.resetRegisters_cmdQ (s : State) : (s.resetRegisters).cmdQ = s.cmdQ := rfl
@[simp] theorem State.resetRegisters_inQ (s : State) : (s.resetRegisters).inQ = s.inQ := rfl
@[simp] theorem State.resetRegisters_inEos (s : State) : (s.resetRegisters).inEos = s.inEos := rfl
@[simp] theorem State.resetRegisters_outQ (s : State) : (s.resetRegisters).outQ = s.outQ := rfl
@[simp] theorem State.resetRegisters_outRoom (s : State) : (s.resetRegisters).outRoom = s.outRoom := rfl
@[simp] theorem State.resetRegisters_tick (s : State) : (s.resetRegisters).tick = s.tick := rfl

/-! ## The running CRC keeps the other scratch registers -/

@[simp] theorem Scratch.feed_signed (k : Scratch) (b : Byte) : (k.feed b).signed = k.signed := rfl
@[simp] theorem Scratch.feed_le (k : Scratch) (b : Byte) : (k.feed b).le = k.le := rfl
@[simp] theorem Scratch.feed_rev (k : Scratch) (b : Byte) : (k.feed b).rev = k.rev := rfl
@[simp] theorem Scratch.feed_enh (k : Scratch) (b : Byte) : (k.feed b).enh = k.enh := rfl
@[simp] theorem Scratch.feed_off (k : Scratch) (b : Byte) : (k.feed b).off = k.off := rfl
@[simp] theorem Scratch.feed_tx (k : Scratch) (b : Byte) : (k.feed b).tx = k.tx := rfl
@[simp] theorem Scratch.feed_acc (k : Scratch) (b : Byte) : (k.feed b).acc = k.acc := rfl
@[simp] theorem Scratch.feed_raw (k : Scratch) (b : Byte) : (k.feed b).raw = k.raw := rfl
@[simp] theorem Scratch.feed_nib (k : Scratch) (b : Byte) : (k.feed b).nib = k.nib := rfl
@[simp] theorem Scratch.feed_shift (k : Scratch) (b : Byte) : (k.feed b).shift = k.shift := rfl
@[simp] theorem Scratch.feed_id (k : Scratch) (b : Byte) : (k.feed b).id = k.id := rfl
@[simp] theorem Scratch.feed_rawId (k : Scratch) (b : Byte) : (k.feed b).rawId = k.rawId := rfl
@[simp] theorem Scratch.feed_rawLen (k : Scratch) (b : Byte) : (k.feed b).rawLen = k.rawLen := rfl
@[simp] theorem Scratch.feed_dlen (k : Scratch) (b : Byte) : (k.feed b).dlen = k.dlen := rfl
@[simp] theorem Scratch.feed_crc (k : Scratch) (b : Byte) : (k.feed b).crc = k.crc := rfl
@[simp] theorem Scratch.feed_crcs (k : Scratch) (b : Byte) : (k.feed b).crcs = crcsStep k.crc k.crcs b := rfl
@[simp] theorem Scratch.feed_xors (k : Scratch) (b : Byte) : (k.feed b).xors = k.xors ^^^ b := rfl
@[simp] theorem Scratch.feed_got (k : Scratch) (b : Byte) : (k.feed b).got = k.got := rfl
@[simp] theorem Scratch.feed_gotLen (k : Scratch) (b : Byte) : (k.feed b).gotLen = k.gotLen := rfl
@[simp] theorem Scratch.feed_tlen (k : Scratch) (b : Byte) : (k.feed b).tlen = k.tlen := rfl
@[simp] theorem Scratch.crcBegin_signed (k : Scratch) (c : CrcKind) : (k.crcBegin c).signed = k.signed := rfl
@[simp] theorem Scratch.crcBegin_le (k : Scratch) (c : CrcKind) : (k.crcBegin c).le = k.le := rfl
@[simp] theorem Scratch.crcBegin_rev (k : Scratch) (c : CrcKind) : (k.crcBegin c).rev = k.rev := rfl
@[simp] theorem Scratch.crcBegin_enh (k : Scratch) (c : CrcKind) : (k.crcBegin c).enh = k.enh := rfl
@[simp] theorem Scratch.crcBegin_off (k : Scratch) (c : CrcKind) : (k.crcBegin c).off = k.off := rfl
@[simp] theorem Scratch.crcBegin_tx (k : Scratch) (c : CrcKind) : (k.crcBegin c).tx = k.tx := rfl
@[simp] theorem Scratch.crcBegin_acc (k : Scratch) (c : CrcKind) : (k.crcBegin c).acc = k.acc := rfl
@[simp] theorem Scratch.crcBegin_raw (k : Scratch) (c : CrcKind) : (k.crcBegin c).raw = k.raw := rfl
@[simp] theorem Scratch.crcBegin_nib (k : Scratch) (c : CrcKind) : (k.crcBegin c).nib = k.nib := rfl
@[simp] theorem Scratch.crcBegin_shift (k : Scratch) (c : CrcKind) : (k.crcBegin c).shift = k.shift := rfl
@[simp] theorem Scratch.crcBegin_id (k : Scratch) (c : CrcKind) : (k.crcBegin c).id = k.id := rfl
@[simp] theorem Scratch.crcBegin_rawId (k : Scratch) (c : CrcKind) : (k.crcBegin c).rawId = k.rawId := rfl
@[simp] theorem Scratch.crcBegin_rawLen (k : Scratch) (c : CrcKind) : (k.crcBegin c).rawLen = k.rawLen := rfl
@[simp] theorem Scratch.crcBegin_dlen (k : Scratch) (c : CrcKind) : (k.crcBegin c).dlen = k.dlen := rfl
@[simp] theorem Scratch.crcBegin_crc (k : Scratch) (c : CrcKind) : (k.crcBegin c).crc = c := rfl
@[simp] theorem Scratch.crcBegin_crcs (k : Scratch) (c : CrcKind) : (k.crcBegin c).crcs = crcsInit c := rfl
@[simp] theorem Scratch.crcBegin_xors (k : Scratch) (c : CrcKind) : (k.crcBegin c).xors = 0 := rfl
@[simp] theorem Scratch.crcBegin_got (k : Scratch) (c : CrcKind) : (k.crcBegin c).got = [] := rfl
@[simp] theorem Scratch.crcBegin_gotLen (k : Scratch) (c : CrcKind) : (k.crcBegin c).gotLen = [] := rfl
@[simp] theorem Scratch.crcBegin_tlen (k : Scratch) (c : CrcKind) : (k.crcBegin c).tlen = k.tlen := rfl

end Sys2Proof.Machine
end

