-- ==== Sys2Proof/Laws/Crc.lean ====
section
/-! SUPPORT. The running CRC: feeding CRCS and XORS byte by byte gives `CRCBYTES` of the bytes fed. -/

namespace Sys2Proof.Machine

open Sys2Proof

/-- Two passes are one pass over the concatenation (43_record_framer.md R155). -/
theorem crcRun_append {w : Nat} (e : CrcEngine w) (st : BitVec w) (a b : List Byte) :
    crcRun e (crcRun e st a) b = crcRun e st (a ++ b) := by
  simp [crcRun, List.foldl_append]

/-- Bytes fed to the running CRC. -/
def Scratch.feedAll (k : Scratch) (bs : List Byte) : Scratch := bs.foldl Scratch.feed k

@[simp] theorem Scratch.feedAll_nil (k : Scratch) : k.feedAll [] = k := rfl
@[simp] theorem Scratch.feedAll_cons (k : Scratch) (b : Byte) (bs : List Byte) :
    k.feedAll (b :: bs) = (k.feed b).feedAll bs := rfl
theorem Scratch.feedAll_append (k : Scratch) (a b : List Byte) : k.feedAll (a ++ b) = (k.feedAll a).feedAll b := by
  simp [Scratch.feedAll, List.foldl_append]

/-- Feeding changes CRCS and XORS only. -/
theorem Scratch.feedAll_eq (k : Scratch) (bs : List Byte) :
    k.feedAll bs = { k with crcs := bs.foldl (crcsStep k.crc) k.crcs, xors := bs.foldl (· ^^^ ·) k.xors } := by
  induction bs generalizing k with
  | nil => rfl
  | cons b bs ih => rw [Scratch.feedAll_cons, ih]; rfl

/-- CRCS of CRC16 is the 16-bit state, zero-extended. -/
theorem crcs_crc16 (st : BitVec 16) (bs : List Byte) :
    bs.foldl (crcsStep .crc16) (st.setWidth 32) = (crcRun Config.crc16 st bs).setWidth 32 := by
  induction bs generalizing st with
  | nil => rfl
  | cons b bs ih =>
    simp only [List.foldl_cons, crcsStep, crcRun] at ih ⊢
    rw [BitVec.setWidth_setWidth_of_le _ (by norm_num), BitVec.setWidth_eq, ih]

/-- The CRC bytes after the header and the payload have been fed are `CRCBYTES(HDR, PAY, c, le)` (R155, R157). -/
theorem crcField_feedAll (k : Scratch) (c : CrcKind) (hdr pay : List Byte) :
    (((k.crcBegin c).feedAll hdr).feedAll pay).crcField = crcBytes hdr pay c k.le := by
  rw [← Scratch.feedAll_append, Scratch.feedAll_eq]
  unfold Scratch.crcField crcBytes crcBytesWith
  cases c with
  | xor8 => rfl
  | crc16 =>
    simp only [Scratch.crcBegin_crc, Scratch.crcBegin_crcs, Scratch.crcBegin_le, crcOut, crcsInit, crcs_crc16]
    rw [BitVec.setWidth_setWidth_of_le _ (by norm_num), BitVec.setWidth_eq, crcVal, crcRun_append]
  | crc32 =>
    simp only [Scratch.crcBegin_crc, Scratch.crcBegin_crcs, Scratch.crcBegin_le, crcOut, crcsInit, crcVal, crcRun_append]
    rfl

/-- The computed CRC bytes have the width in force (R150). -/
@[simp] theorem crcField_length (k : Scratch) : k.crcField.length = k.crc.len := by
  unfold Scratch.crcField crcOut crc16Layout crc32Layout
  cases k.crc <;> simp [CrcKind.len] <;> split <;> rfl

/-- `CRCBYTES` has the width in force (R157). -/
@[simp] theorem crcBytes_length (hdr pay : List Byte) (c : CrcKind) (le : Bool) : (crcBytes hdr pay c le).length = c.len := by
  unfold crcBytes crcBytesWith crc16Layout crc32Layout
  cases c <;> simp [CrcKind.len] <;> split <;> rfl

end Sys2Proof.Machine
end

