-- ==== Sys2Proof/Laws/Memory.lean ====
section
/-! SUPPORT. The byte memories: a write is read back, changes no other address, and keeps the canonical form. -/

namespace Sys2Proof.Machine

open Sys2Proof

/-- A write leaves every other address alone, whatever the memory. -/
theorem Mem.read_write_ne (m : Mem) (a : Nat) (b : Byte) (x : Nat) (h : x ≠ a) : (m.write a b).read x = m.read x := by
  induction m with
  | nil => unfold Mem.write; split <;> simp [Mem.read, Ne.symm h]
  | cons c m ih =>
    obtain ⟨k, c⟩ := c
    unfold Mem.write
    split
    · split <;> simp [Mem.read, Ne.symm h]
    · split
      · rename_i hak
        subst hak
        split <;> simp [Mem.read, Ne.symm h]
      · simp only [Mem.read, ih]

/-- In a canonical memory every address below the first listed one reads as the default. -/
theorem Mem.read_below {m : Mem} {a : Nat} (h : ∀ c ∈ m, a < c.1) : m.read a = Mem.default := by
  induction m with
  | nil => rfl
  | cons c m ih =>
    have h1 : a < c.1 := h c (by simp)
    simp only [Mem.read]
    rw [if_neg (by omega)]
    exact ih fun d hd => h d (by simp [hd])

/-- A write is read back. -/
theorem Mem.read_write_eq (m : Mem) (a : Nat) (b : Byte) (h : m.Pairwise fun x y => x.1 < y.1) :
    (m.write a b).read a = b := by
  induction m with
  | nil => unfold Mem.write; split <;> simp_all [Mem.read]
  | cons c m ih =>
    obtain ⟨k, c⟩ := c
    have hp := List.pairwise_cons.1 h
    unfold Mem.write
    split
    · split
      · rename_i hlt hb
        rw [hb]
        refine Mem.read_below fun d hd => ?_
        rcases List.mem_cons.1 hd with rfl | hd
        · exact hlt
        · exact lt_trans hlt (hp.1 d hd)
      · simp [Mem.read]
    · split
      · rename_i hak
        subst hak
        split
        · rename_i hb
          rw [hb]
          exact Mem.read_below fun d hd => hp.1 d hd
        · simp [Mem.read]
      · rename_i hak
        simp only [Mem.read]
        rw [if_neg (Ne.symm hak)]
        exact ih hp.2

/-- What a canonical memory reads at an address after a write at another or the same one. -/
theorem Mem.read_write (m : Mem) (a : Nat) (b : Byte) (x : Nat) (h : m.Pairwise fun x y => x.1 < y.1) :
    (m.write a b).read x = if x = a then b else m.read x := by
  split
  · rename_i hx
    rw [hx, Mem.read_write_eq m a b h]
  · rename_i hx
    exact Mem.read_write_ne m a b x hx

/-- Every entry of a written memory is the written byte or an old entry. -/
theorem Mem.mem_write {m : Mem} {a : Nat} {b : Byte} {c : Host.Cell} (h : c ∈ m.write a b) :
    (c = (a, b) ∧ b ≠ Mem.default) ∨ c ∈ m := by
  induction m with
  | nil =>
    unfold Mem.write at h
    split at h <;> simp_all
  | cons d m ih =>
    obtain ⟨k, e⟩ := d
    unfold Mem.write at h
    split at h
    · split at h
      · exact .inr h
      · rcases List.mem_cons.1 h with rfl | h
        · exact .inl ⟨rfl, by assumption⟩
        · exact .inr h
    · split at h
      · split at h
        · exact .inr (List.mem_cons_of_mem _ h)
        · rcases List.mem_cons.1 h with rfl | h
          · exact .inl ⟨rfl, by assumption⟩
          · exact .inr (List.mem_cons_of_mem _ h)
      · rcases List.mem_cons.1 h with rfl | h
        · exact .inr (by simp)
        · rcases ih h with h | h
          · exact .inl h
          · exact .inr (List.mem_cons_of_mem _ h)

/-- A write keeps the canonical form. -/
theorem Mem.wf_write {size : Nat} {m : Mem} (h : m.wf size) {a : Nat} (b : Byte) (ha : a < size) :
    (m.write a b).wf size := by
  refine ⟨?_, fun c hc => ?_⟩
  · have hp := h.1
    clear h
    induction m with
    | nil => unfold Mem.write; split <;> simp
    | cons d m ih =>
      obtain ⟨k, e⟩ := d
      have hc := List.pairwise_cons.1 hp
      unfold Mem.write
      split
      · rename_i hlt
        split
        · exact hp
        · refine List.pairwise_cons.2 ⟨fun x hx => ?_, hp⟩
          rcases List.mem_cons.1 hx with rfl | hx
          · exact hlt
          · exact lt_trans hlt (hc.1 x hx)
      · split
        · rename_i hak
          subst hak
          split
          · exact hc.2
          · exact List.pairwise_cons.2 ⟨hc.1, hc.2⟩
        · rename_i hnlt hne
          refine List.pairwise_cons.2 ⟨fun x hx => ?_, ih hc.2⟩
          rcases Mem.mem_write hx with ⟨rfl, -⟩ | hx
          · show k < a
            omega
          · exact hc.1 x hx
  · rcases Mem.mem_write hc with ⟨rfl, hb⟩ | hc
    · exact ⟨ha, hb⟩
    · exact h.2 c hc

/-- `MemWrite` keeps the canonical form when it stays inside the memory. -/
theorem Mem.wf_writeList {size : Nat} (bs : List Byte) {m : Mem} (h : m.wf size) {a : Nat} (ha : a + bs.length ≤ size) :
    (m.writeList a bs).wf size := by
  induction bs generalizing m a with
  | nil => exact h
  | cons b bs ih =>
    simp only [List.length_cons] at ha
    exact ih (Mem.wf_write h b (by omega)) (by omega)

/-- `MemWrite` leaves every address outside its bytes alone. -/
theorem Mem.read_writeList_outside (bs : List Byte) (m : Mem) (a x : Nat) (h : x < a ∨ a + bs.length ≤ x) :
    (m.writeList a bs).read x = m.read x := by
  induction bs generalizing m a with
  | nil => rfl
  | cons b bs ih =>
    simp only [List.length_cons] at h
    simp only [Mem.writeList]
    rw [ih _ _ (by omega), Mem.read_write_ne _ _ _ _ (by omega)]

/-- `MemWrite` is read back, byte by byte. -/
theorem Mem.read_writeList_inside (bs : List Byte) {size : Nat} {m : Mem} (hm : m.wf size) (a i : Nat)
    (ha : a + bs.length ≤ size) (h : i < bs.length) : (m.writeList a bs).read (a + i) = bs[i] := by
  induction bs generalizing m a i with
  | nil => simp at h
  | cons b bs ih =>
    simp only [List.length_cons] at ha h
    simp only [Mem.writeList]
    cases i with
    | zero =>
      rw [Mem.read_writeList_outside _ _ _ _ (by omega)]
      exact Mem.read_write_eq _ _ _ hm.1
    | succ i =>
      have hw : Mem.wf size (m.write a b) := Mem.wf_write hm b (by omega)
      have := ih hw (a + 1) i (by omega) (by omega)
      rw [show a + (i + 1) = a + 1 + i by omega, this]
      rfl

/-- `MemRead` reads `n` bytes. -/
@[simp] theorem Mem.length_readList (m : Mem) (a n : Nat) : (m.readList a n).length = n := by
  induction n generalizing a with
  | zero => rfl
  | succ n ih => simp [Mem.readList, ih]

/-- `MemRead` after `MemWrite` at the same place gives the bytes written. -/
theorem Mem.readList_writeList (bs : List Byte) {size : Nat} {m : Mem} (hm : m.wf size) (a : Nat)
    (ha : a + bs.length ≤ size) : (m.writeList a bs).readList a bs.length = bs := by
  induction bs generalizing m a with
  | nil => rfl
  | cons b bs ih =>
    simp only [List.length_cons] at ha
    simp only [Mem.writeList, List.length_cons, Mem.readList]
    rw [ih (Mem.wf_write hm b (by omega)) (a + 1) (by omega), Mem.read_writeList_outside _ _ _ _ (by omega),
      Mem.read_write_eq _ _ _ hm.1]

/-- `MemRead` of `n + k` bytes is `MemRead` of `n`, then of `k` more. -/
theorem Mem.readList_add (m : Mem) (a n k : Nat) : m.readList a (n + k) = m.readList a n ++ m.readList (a + n) k := by
  induction n generalizing a with
  | zero => simp [Mem.readList]
  | succ n ih =>
    rw [show n + 1 + k = (n + k) + 1 by omega]
    simp only [Mem.readList, ih, List.cons_append]
    rw [show a + 1 + n = a + (n + 1) by omega]

/-- Two memories that read alike on a range give the same `MemRead`. -/
theorem Mem.readList_congr {m m' : Mem} {a n : Nat} (h : ∀ x, a ≤ x → x < a + n → m.read x = m'.read x) :
    m.readList a n = m'.readList a n := by
  induction n generalizing a with
  | zero => rfl
  | succ n ih =>
    simp only [Mem.readList]
    rw [h a (by omega) (by omega), ih fun x hx hx' => h x (by omega) (by omega)]

/-- A wide write into an empty memory, at its end or in the middle, is the byte-wise write. -/
@[simp] theorem Mem.writeList_singleton (m : Mem) (a : Nat) (b : Byte) : m.writeList a [b] = m.write a b := rfl

/-- The empty memory is canonical. -/
theorem Mem.wf_nil (size : Nat) : Mem.wf size [] := by simp [Mem.wf]

end Sys2Proof.Machine
end

