-- ==== Sys2Proof/Laws/PerInstr.lean ====
section
/-! SUPPORT. The family of per-instruction statements: the encoding of an instruction stands where the instruction is read. -/

namespace Sys2Proof.Laws

/-- The control byte of an encoded command (30_encoding.md R70). -/
theorem ctl_commandWord (a : U64) (off : U32) (c : Byte) : CmdWord.ctl (commandWord a off c) = c := by
  ext i hi
  simp only [CmdWord.ctl, commandWord, BitVec.getElem_extractLsb', Nat.zero_add, BitVec.getLsbD_append, hi, if_true]
  rfl

/-- A command is a word whose control byte fits the row of its own mnemonic in 30_encoding.md R82; a wire format is one byte. -/
def Encodes.Statement (i : Instr) : Prop :=
  match encode i with
  | .word w => i.slot = .command ∧ ∃ r ∈ commandRows, CmdWord.ctl w &&& r.2.2 = r.2.1
  | .byte _ => i.slot ≠ .command

/-- One row that fits is enough. -/
theorem Encodes.of_row {i : Instr} {a : U64} {off : U32} {c : Byte} (he : encode i = .word (commandWord a off c))
    (hs : i.slot = .command) (r : String × Byte × Byte) (hr : r ∈ commandRows) (hc : c &&& r.2.2 = r.2.1) :
    Encodes.Statement i := by
  unfold Encodes.Statement
  rw [he]
  exact ⟨hs, r, hr, by rw [ctl_commandWord]; exact hc⟩

theorem Encodes.nop : Encodes.Statement .nop :=
  Encodes.of_row rfl rfl ("NOP", 0x00, 0xFF) (by decide) (by decide)

theorem Encodes.vuEnc (le strm : Bool) (off : U32) (a : U64) : Encodes.Statement (.vuEnc le strm off a) :=
  Encodes.of_row rfl rfl ("VU.ENC", 0x01, 0xCF) (by decide) (by revert le strm; decide)

theorem Encodes.vuDec (le strm : Bool) (off : U32) : Encodes.Statement (.vuDec le strm off) :=
  Encodes.of_row rfl rfl ("VU.DEC", 0x02, 0xCF) (by decide) (by revert le strm; decide)

theorem Encodes.vsEnc (le strm nvf : Bool) (off : U32) (a : U64) : Encodes.Statement (.vsEnc le strm nvf off a) :=
  Encodes.of_row rfl rfl ("VS.ENC", 0x03, 0x8F) (by decide) (by revert le strm nvf; decide)

theorem Encodes.vsDec (le strm : Bool) (off : U32) : Encodes.Statement (.vsDec le strm off) :=
  Encodes.of_row rfl rfl ("VS.DEC", 0x04, 0xCF) (by decide) (by revert le strm; decide)

theorem Encodes.pbPut (off : U32) (b : Byte) : Encodes.Statement (.pbPut off b) :=
  Encodes.of_row rfl rfl ("PB.PUT", 0x05, 0xFF) (by decide) (by decide)

theorem Encodes.pbGet (off : U32) : Encodes.Statement (.pbGet off) :=
  Encodes.of_row rfl rfl ("PB.GET", 0x06, 0xFF) (by decide) (by decide)

theorem Encodes.pbClr : Encodes.Statement .pbClr :=
  Encodes.of_row rfl rfl ("PB.CLR", 0x07, 0xFF) (by decide) (by decide)

theorem Encodes.recEnc (le rev enh : Bool) (a : U64) : Encodes.Statement (.recEnc le rev enh a) :=
  Encodes.of_row rfl rfl ("REC.ENC", 0x08, 0x2F) (by decide) (by revert le rev enh; decide)

theorem Encodes.recDecf : Encodes.Statement .recDecf :=
  Encodes.of_row rfl rfl ("REC.DECF", 0x09, 0xFF) (by decide) (by decide)

theorem Encodes.recDecr : Encodes.Statement .recDecr :=
  Encodes.of_row rfl rfl ("REC.DECR", 0x0A, 0xFF) (by decide) (by decide)

theorem Encodes.syncHeadC2 : Encodes.Statement .syncHeadC2 := by simp [Encodes.Statement, encode, Instr.slot]

theorem Encodes.syncHeadE2 : Encodes.Statement .syncHeadE2 := by simp [Encodes.Statement, encode, Instr.slot]

theorem Encodes.syncHeadC8 : Encodes.Statement .syncHeadC8 := by simp [Encodes.Statement, encode, Instr.slot]

theorem Encodes.syncHeadE8 : Encodes.Statement .syncHeadE8 := by simp [Encodes.Statement, encode, Instr.slot]

theorem Encodes.syncHeadD2 : Encodes.Statement .syncHeadD2 := by simp [Encodes.Statement, encode, Instr.slot]

theorem Encodes.syncHeadF2 : Encodes.Statement .syncHeadF2 := by simp [Encodes.Statement, encode, Instr.slot]

theorem Encodes.syncHeadD8 : Encodes.Statement .syncHeadD8 := by simp [Encodes.Statement, encode, Instr.slot]

theorem Encodes.syncHeadF8 : Encodes.Statement .syncHeadF8 := by simp [Encodes.Statement, encode, Instr.slot]

theorem Encodes.syncTailB4 : Encodes.Statement .syncTailB4 := by simp [Encodes.Statement, encode, Instr.slot]

theorem Encodes.syncTailB0 : Encodes.Statement .syncTailB0 := by simp [Encodes.Statement, encode, Instr.slot]

theorem Encodes.syncTailE4 : Encodes.Statement .syncTailE4 := by simp [Encodes.Statement, encode, Instr.slot]

theorem Encodes.syncTailE0 : Encodes.Statement .syncTailE0 := by simp [Encodes.Statement, encode, Instr.slot]

theorem Encodes.vuCont (d : BitVec 7) : Encodes.Statement (.vuCont d) := by
  simp [Encodes.Statement, encode, Instr.slot]

theorem Encodes.vuTerm (d : BitVec 7) : Encodes.Statement (.vuTerm d) := by
  simp [Encodes.Statement, encode, Instr.slot]

theorem Encodes.vuByte4 (d : Byte) : Encodes.Statement (.vuByte4 d) := by
  simp [Encodes.Statement, encode, Instr.slot]

theorem Encodes.vsFirstLe (d : BitVec 4) (s : Bool) (n : BitVec 3) : Encodes.Statement (.vsFirstLe d s n) := by
  simp [Encodes.Statement, encode, Instr.slot]

theorem Encodes.vsFirstBe (s : Bool) (n : BitVec 3) (d : BitVec 4) : Encodes.Statement (.vsFirstBe s n d) := by
  simp [Encodes.Statement, encode, Instr.slot]

end Sys2Proof.Laws
end

