-- ==== Sys2Proof/Laws/Run.lean ====
section
/-! SUPPORT. Running a command: what one unit of work does in each kind of phase, and what a run of units comes to. -/

namespace Sys2Proof.Machine

open Sys2Proof

/-! ## Runs of units -/

/-- `k` units of work lead from `s` to `t`. -/
inductive Units : Nat → State → State → Prop where
  | refl (s : State) : Units 0 s s
  | head {k : Nat} {s t u : State} (h : s.unit = some (.next t)) (hs : Units k t u) : Units (k + 1) s u

theorem Units.trans {j k : Nat} {s t u : State} (h : Units j s t) (h' : Units k t u) : Units (j + k) s u := by
  induction h with
  | refl s => simpa using h'
  | head hu _ ih => rw [Nat.add_right_comm]; exact .head hu (ih h')

theorem Units.single {s t : State} (h : s.unit = some (.next t)) : Units 1 s t := .head h (.refl t)

/-- A property that every unit keeps holds after any number of units. -/
theorem Units.induction {P : State → Prop} (hP : ∀ s t, P s → s.unit = some (.next t) → P t) {k : Nat} {s t : State}
    (h : Units k s t) (hs : P s) : P t := by
  induction h with
  | refl s => exact hs
  | head hu _ ih => exact ih (hP _ _ hs hu)

theorem settle_blocked {s : State} (h : s.unit = none) (n : Nat) : settle n s = .next s := by
  cases n <;> simp [settle, h]

theorem settle_units {k : Nat} {s t : State} (h : Units k s t) (n : Nat) : settle (k + n) s = settle n t := by
  induction h with
  | refl s => simp
  | head hu _ ih => rw [Nat.add_right_comm, settle, hu]; exact ih

/-- A command whose units end in a blocked state runs to that state. -/
theorem run_of_units {k : Nat} {s t : State} (h : Units k s t) (hk : k ≤ settleFuel) (ht : t.unit = none) : s.run = .next t := by
  obtain ⟨n, hn⟩ := Nat.exists_eq_add_of_le hk
  rw [State.run, hn, settle_units h, settle_blocked ht]

/-- Whatever a run answers, units led there. -/
theorem units_of_settle {n : Nat} {s t : State} (h : settle n s = .next t) : ∃ k, Units k s t := by
  induction n generalizing s with
  | zero => simp only [settle, Host.Outcome.next.injEq] at h; exact ⟨0, h ▸ .refl s⟩
  | succ n ih =>
    simp only [settle] at h
    split at h
    · simp only [Host.Outcome.next.injEq] at h; exact ⟨0, h ▸ .refl s⟩
    · rename_i u hu
      obtain ⟨k, hk⟩ := ih h
      exact ⟨k + 1, .head hu hk⟩
    · rename_i r hn hr
      exact absurd h (hn t)

theorem units_of_run {s t : State} (h : s.run = .next t) : ∃ k, Units k s t := units_of_settle h

/-- Every unit is a step, and every step inside a command that is not blocked is a unit. -/
theorem runWire_eq_exec (i : Instr) (s : State) (h : i.isCommand = false) : runWire i s = exec i s := by
  cases i <;> first | rfl | simp [Instr.isCommand, Instr.slot] at h

/-! ## One unit -/

/-- The state with the first byte of IN taken, `q` being the others (20_memory.md R57). -/
def State.took (s : State) (q : List Byte) : State := { s with inQ := q, cons := s.cons + 1 }

@[simp] theorem State.took_val (s : State) (q : List Byte) : (s.took q).val = s.val := rfl
@[simp] theorem State.took_nv (s : State) (q : List Byte) : (s.took q).nv = s.nv := rfl
@[simp] theorem State.took_cnt (s : State) (q : List Byte) : (s.took q).cnt = s.cnt := rfl
@[simp] theorem State.took_cons (s : State) (q : List Byte) : (s.took q).cons = s.cons + 1 := rfl
@[simp] theorem State.took_stat (s : State) (q : List Byte) : (s.took q).stat = s.stat := rfl
@[simp] theorem State.took_busy (s : State) (q : List Byte) : (s.took q).busy = s.busy := rfl
@[simp] theorem State.took_sync (s : State) (q : List Byte) : (s.took q).sync = s.sync := rfl
@[simp] theorem State.took_rid (s : State) (q : List Byte) : (s.took q).rid = s.rid := rfl
@[simp] theorem State.took_plen (s : State) (q : List Byte) : (s.took q).plen = s.plen := rfl
@[simp] theorem State.took_crclen (s : State) (q : List Byte) : (s.took q).crclen = s.crclen := rfl
@[simp] theorem State.took_crcb (s : State) (q : List Byte) : (s.took q).crcb = s.crcb := rfl
@[simp] theorem State.took_ph (s : State) (q : List Byte) : (s.took q).ph = s.ph := rfl
@[simp] theorem State.took_cur (s : State) (q : List Byte) : (s.took q).cur = s.cur := rfl
@[simp] theorem State.took_pb (s : State) (q : List Byte) : (s.took q).pb = s.pb := rfl
@[simp] theorem State.took_rb (s : State) (q : List Byte) : (s.took q).rb = s.rb := rfl
@[simp] theorem State.took_scratch (s : State) (q : List Byte) : (s.took q).scratch = s.scratch := rfl
@[simp] theorem State.took_resp (s : State) (q : List Byte) : (s.took q).resp = s.resp := rfl
@[simp] theorem State.took_rst (s : State) (q : List Byte) : (s.took q).rst = s.rst := rfl
@[simp] theorem State.took_cmdQ (s : State) (q : List Byte) : (s.took q).cmdQ = s.cmdQ := rfl
@[simp] theorem State.took_inQ (s : State) (q : List Byte) : (s.took q).inQ = q := rfl
@[simp] theorem State.took_inEos (s : State) (q : List Byte) : (s.took q).inEos = s.inEos := rfl
@[simp] theorem State.took_outQ (s : State) (q : List Byte) : (s.took q).outQ = s.outQ := rfl
@[simp] theorem State.took_outRoom (s : State) (q : List Byte) : (s.took q).outRoom = s.outRoom := rfl
@[simp] theorem State.took_tick (s : State) (q : List Byte) : (s.took q).tick = s.tick := rfl
@[simp] theorem State.took_slot (s : State) (q : List Byte) : (s.took q).slot = s.slot := rfl

@[simp] theorem unit_idle {s : State} (h : s.ph = .idle) : s.unit = none := by simp [State.unit, h]

theorem unit_sending {s : State} (h : s.ph.sending = true) : s.unit = s.sendUnit := by
  have : s.ph ≠ .idle := by rintro h'; simp [h', Phase.sending] at h
  simp [State.unit, this, h]

/-- A phase that takes from IN, with a byte presented (20_memory.md R57). -/
theorem unit_take {s : State} {b : Byte} {q : List Byte} (h : s.ph.takes = true) (hq : s.inQ = b :: q) :
    s.unit = some ((s.took q).handleByte b) := by
  unfold State.unit State.nextByte
  split_ifs with h1 h2 h3
  · simp [h1, Phase.takes] at h
  · revert h h2; cases s.ph <;> simp [Phase.takes, Phase.sending]
  · simp [h3.1, Phase.takes] at h
  · revert h; cases hp : s.ph <;> simp [Phase.takes, State.take, State.took, hq, hp]

/-- A phase that takes from IN, with nothing presented (R57). -/
theorem unit_wait {s : State} (h : s.ph.takes = true) (hq : s.inQ = []) (he : s.inEos = false) : s.unit = none := by
  unfold State.unit State.nextByte
  split_ifs with h1 h2 h3
  · rfl
  · revert h h2; cases s.ph <;> simp [Phase.takes, Phase.sending]
  · simp [h3.1, Phase.takes] at h
  · revert h; cases hp : s.ph <;> simp [Phase.takes, State.take, hq, he]

/-- A phase that takes from IN, with end of stream presented (R57). -/
theorem unit_eos {s : State} (h : s.ph.takes = true) (hq : s.inQ = []) (he : s.inEos = true) :
    s.unit = some (.next (s.raise .truncatedRead)) := by
  unfold State.unit State.nextByte
  split_ifs with h1 h2 h3
  · simp [h1, Phase.takes] at h
  · revert h h2; cases s.ph <;> simp [Phase.takes, Phase.sending]
  · simp [h3.1, Phase.takes] at h
  · revert h; cases hp : s.ph <;> simp [Phase.takes, State.take, hq, he]

/-- V_BUF reads PB below PLEN (R59, 40_varuint.md R106). -/
theorem unit_vBuf {s : State} (h : s.ph = .vBuf) (hp : s.plen.toNat ≤ Config.pbBytes) :
    s.unit = some
      (if s.plen.toNat ≤ s.scratch.off.toNat + s.cur.toNat then .next (s.raise .truncatedRead)
        else s.handleByte (s.pb.read (s.scratch.off.toNat + s.cur.toNat))) := by
  unfold State.unit State.nextByte State.fetchPb
  simp only [h, Phase.sending, reduceCtorEq, if_false, false_and, Bool.false_eq_true]
  by_cases h1 : s.plen.toNat ≤ s.scratch.off.toNat + s.cur.toNat
  · simp only [h1, if_true]
  · rw [if_neg h1, if_neg (show ¬Config.pbBytes ≤ s.scratch.off.toNat + s.cur.toNat by omega), if_neg h1]

/-- A staged phase reads RB up to L (43_record_framer.md R170). -/
theorem fetchRb_eq {s : State} (hL : s.scratch.tlen.toNat + 1 ≤ Config.rbBytes) (p : Nat) :
    s.fetchRb p = if s.scratch.tlen.toNat < p then .ended else .got (s.rb.read p) s := by
  unfold State.fetchRb
  split_ifs <;> first | rfl | omega

/-- A VarUInt byte at its position (40_varuint.md R105). -/
theorem handleByte_vu {s : State} (b : Byte) (h : s.slot = some (vuSlot s.cur)) :
    s.handleByte b =
      if s.cur.toNat < 3 then
        if b.getLsbD 7 then
          .next { s with
            cur := s.cur + 1
            scratch := { s.scratch with
              acc := vuJoin s.scratch.le s.scratch.acc s.cur.toNat (b.extractLsb' 0 7), raw := s.scratch.raw ++ [b] } }
        else s.vuDone (vuJoin s.scratch.le s.scratch.acc s.cur.toNat (b.extractLsb' 0 7)) (s.cur.toNat + 1) (s.scratch.raw ++ [b])
      else s.vuDone (vuJoinFourth s.scratch.le s.scratch.acc b) 4 (s.scratch.raw ++ [b]) := by
  have h1 : ∀ c : Byte, c.getLsbD 7 = true → (1#1 ++ c.extractLsb' 0 7 : BitVec 8) = c := by decide
  have h0 : ∀ c : Byte, c.getLsbD 7 = false → (0#1 ++ c.extractLsb' 0 7 : BitVec 8) = c := by decide
  unfold State.handleByte
  rw [h]
  unfold vuSlot
  by_cases hc : s.cur.toNat < 3
  · have h' : s.slot = some .vuByte := by rw [h, vuSlot, if_pos hc]
    by_cases hb : b.getLsbD 7
    · simp only [hc, hb, decodeByte, runWire, execVuCont, State.readsAt, h', h1 b hb, if_true]
    · simp only [Bool.not_eq_true] at hb
      simp only [hc, hb, decodeByte, runWire, execVuTerm, State.readsAt, h', h0 b hb, if_true, Bool.false_eq_true, if_false]
  · have h' : s.slot = some .vuFourth := by rw [h, vuSlot, if_neg hc]
    simp only [hc, decodeByte, runWire, execVuByte4, State.readsAt, h', if_true, if_false]

/-- The first byte of a VarSInt (41_varsint.md R127). -/
theorem handleByte_vsFirst {s : State} {le : Bool} (b : Byte) (h : s.slot = some (.vsFirst le)) :
    s.handleByte b = .next (s.vsStart (firstNibble le b) b) := by
  have hl : ∀ c : Byte, BitVec.ofBool (c.getLsbD 3) ++ c.extractLsb' 0 3 = c.extractLsb' 0 4 ∧
      (c.extractLsb' 4 4 ++ BitVec.ofBool (c.getLsbD 3) ++ c.extractLsb' 0 3 : BitVec 8) = c := by decide
  have hb : ∀ c : Byte, BitVec.ofBool (c.getLsbD 7) ++ c.extractLsb' 4 3 = c.extractLsb' 4 4 ∧
      (c.extractLsb' 4 4 ++ c.extractLsb' 0 4 : BitVec 8) = c := by decide
  unfold State.handleByte
  rw [h]
  cases le
  · simp only [decodeByte, runWire, execVsFirstBe, State.readsAt, h, if_true, firstNibble, (hb b).1, (hb b).2, Bool.false_eq_true,
      if_false]
  · simp only [decodeByte, runWire, execVsFirstLe, State.readsAt, h, if_true, firstNibble, (hl b).1, (hl b).2]

/-- A plain byte (30_encoding.md R86). -/
theorem handleByte_data {s : State} (b : Byte) (h : s.slot = none) : s.handleByte b = s.dataByte b := by
  simp [State.handleByte, h]

/-- A tail sync byte's byte order and CRC mode (30_encoding.md R75). -/
def parseTail (b : Byte) : Option (Bool × Bool) := (headOf b).map fun h => (!h.getLsbD 5, h.getLsbD 3)

/-- The three kinds of byte where a sync byte is due (30_encoding.md R84). -/
theorem decodeSync_cases (b : Byte) :
    (∃ r ∈ headTable, decodeSync b = .ok r.1 ∧ parseHead b = some r.2) ∨
    (∃ r ∈ tailTable, decodeSync b = .ok r.1 ∧ parseHead b = none ∧ parseTail b = some r.2) ∨
    (decodeSync b = .error .notSyncByte ∧ parseHead b = none ∧ parseTail b = none) := by
  revert b; decide +kernel

/-- The meaning of a head sync byte where it is read. -/
theorem exec_head {r : Instr × Bool × Bool × Bool} (hr : r ∈ headTable) {s : State} (h : s.slot = some .sync) :
    runWire r.1 s = s.headSync r.2.1 r.2.2.1 r.2.2.2 := by
  simp only [headTable, List.mem_cons, List.not_mem_nil, or_false] at hr
  obtain rfl | rfl | rfl | rfl | rfl | rfl | rfl | rfl := hr <;>
    simp only [runWire, execSyncHeadC2, execSyncHeadE2, execSyncHeadC8, execSyncHeadE8, execSyncHeadD2, execSyncHeadF2,
      execSyncHeadD8, execSyncHeadF8, State.readsAt, h, if_true]

/-- The meaning of a tail sync byte where it is read. -/
theorem exec_tail {r : Instr × Bool × Bool} (hr : r ∈ tailTable) {s : State} (h : s.slot = some .sync) :
    runWire r.1 s = s.tailSync r.2.1 r.2.2 := by
  simp only [tailTable, List.mem_cons, List.not_mem_nil, or_false] at hr
  obtain rfl | rfl | rfl | rfl := hr <;>
    simp only [runWire, execSyncTailB4, execSyncTailB0, execSyncTailE4, execSyncTailE0, State.readsAt, h, if_true]

/-- Where a sync byte is due (30_encoding.md R84). -/
theorem handleByte_sync {s : State} (b : Byte) (h : s.slot = some .sync) :
    s.handleByte b =
      match parseHead b with
      | some (le, rev, enh) => s.headSync le rev enh
      | none =>
        match parseTail b with
        | some (le, enh) => s.tailSync le enh
        | none => .next s.badSync := by
  unfold State.handleByte
  rw [h]
  simp only [decodeByte]
  obtain ⟨r, hr, h1, h2⟩ | ⟨r, hr, h1, h2, h3⟩ | ⟨h1, h2, h3⟩ := decodeSync_cases b
  · simp only [h1, h2, exec_head hr h]
  · simp only [h1, h2, h3, exec_tail hr h]
  · simp only [h1, h2, h3]

/-! ## The byte a unit works on -/

/-- The byte a phase works on is the first one of IN, which is then taken, or one of PB or RB, which stays (20_memory.md R57,
R59, 43_record_framer.md R170). -/
theorem nextByte_got {s t : State} {b : Byte} (h : s.nextByte = .got b t) :
    t = s ∨ ∃ q, s.inQ = b :: q ∧ t = s.took q := by
  have tk : s.take = .got b t → ∃ q, s.inQ = b :: q ∧ t = s.took q := by
    intro h'
    unfold State.take at h'
    split at h'
    · rename_i c q hq
      injection h' with h1 h2
      subst h1
      exact ⟨q, hq, h2.symm⟩
    · split_ifs at h'
  have rb : ∀ p, s.fetchRb p = .got b t → t = s := by
    intro p h'
    unfold State.fetchRb at h'
    split_ifs at h'
    injection h' with _ h'
    exact h'.symm
  have pb : ∀ a n, s.fetchPb a n = .got b t → t = s := by
    intro a n h'
    unfold State.fetchPb at h'
    split_ifs at h'
    injection h' with _ h'
    exact h'.symm
  unfold State.nextByte at h
  split at h
  all_goals first
    | exact .inr (tk h)
    | exact .inl (rb _ h)
    | exact .inl (pb _ _ h)
    | cases h

theorem nextByte_slot {s t : State} {b : Byte} (h : s.nextByte = .got b t) : t.slot = s.slot := by
  obtain rfl | ⟨q, _, rfl⟩ := nextByte_got h <;> rfl

/-- What the decoder reads from a byte is a wire format (30_encoding.md R86). -/
theorem decodeByte_wire {sl : Slot} {b : Byte} {i : Instr} (h : decodeByte sl b = .ok i) : i.isCommand = false := by
  cases sl with
  | command => simp [decodeByte] at h
  | sync =>
    obtain ⟨r, hr, h1, _⟩ | ⟨r, hr, h1, _⟩ | ⟨h1, _⟩ := decodeSync_cases b
    all_goals simp only [decodeByte, h1] at h
    · injection h with h
      subst h
      exact (by decide : ∀ r ∈ headTable, r.1.isCommand = false) r hr
    · injection h with h
      subst h
      exact (by decide : ∀ r ∈ tailTable, r.1.isCommand = false) r hr
    · cases h
  | vuByte =>
    simp only [decodeByte] at h
    injection h with h
    subst h
    split_ifs <;> rfl
  | vuFourth =>
    simp only [decodeByte] at h
    injection h with h
    subst h
    rfl
  | vsFirst le =>
    cases le <;>
    · simp only [decodeByte] at h
      injection h with h
      subst h
      rfl

/-- What the decoder reads from a command word is a command (30_encoding.md R82). -/
theorem decodeCommand_command {w : CmdWord} {i : Instr} (h : decodeCommand w = .ok i) : i.isCommand = true := by
  unfold decodeCommand at h
  generalize CmdWord.ctl w = c at h
  dsimp only at h
  repeat' split at h
  all_goals first
    | (injection h with h; subst h; rfl)
    | cases h

/-- A step inside a command is one unit of work, or waits (A2, A6). -/
theorem step_busy {s : State} (hr : s.rst = false) (hp : s.ph ≠ .idle) :
    step s = s.tickOver.unit.getD (.next s.tickOver) := by
  have hr' : s.tickOver.rst = false := hr
  have hp' : s.tickOver.ph ≠ .idle := hp
  unfold step
  generalize s.tickOver = t at *
  simp only [hr', Bool.false_eq_true, if_false]
  cases hf : t.fetchInstr with
  | other => rfl
  | command w u =>
    simp only [State.fetchInstr, if_neg hp'] at hf
    split at hf
    · split at hf <;> cases hf
    · cases hf
  | wire i u =>
    simp only [State.fetchInstr, if_neg hp'] at hf
    split at hf
    · rename_i sl b v hs hb
      split at hf
      · rename_i j hj
        injection hf with h1 h2
        subst h1 h2
        have hsend : t.ph.sending = false := by
          revert hs
          unfold State.slot
          cases t.ph <;> simp [Phase.sending]
        have hpay : ¬(t.ph = .rPay ∧ t.scratch.dlen.toNat ≤ t.cur.toNat) := by
          rintro ⟨h, _⟩
          simp [State.slot, h] at hs
        simp only [State.unit, if_neg hp', hsend, Bool.false_eq_true, if_false, if_neg hpay, hb, State.handleByte, nextByte_slot hb,
          hs, hj, Option.getD_some, runWire_eq_exec j v (decodeByte_wire hj)]
      · cases hf
    · cases hf

end Sys2Proof.Machine
end

