-- ==== Sys2Proof/WellFormed.lean ====
section
/-! DEFINITION. Well-formed instructions. Every field of `Instr` has the exact width of its row, so what is left to check is
what an assembler line of 30_encoding.md R87 cannot write: a field that the form does not use and that is not 0. Such a word
is legal ("ignored, whatever they hold", R70) and decodes and runs like its well-formed twin; it is only not spelled (A19). -/

namespace Sys2Proof

/-- An unused OFF is 0: the stream forms have no offset (30_encoding.md R82, R87). -/
def offUnused (strm : Bool) (off : U32) : Bool := !strm || off == 0

/-- An unused A is 0: the no-value form of VS.ENC has no number (30_encoding.md R71, R87). -/
def operandUnused (nvf : Bool) (a : U64) : Bool := !nvf || a == 0

/-- The instruction is one that an assembler line (or a wire byte) spells. -/
def WellFormed : Instr → Bool
  | .vuEnc _ strm off _ => offUnused strm off
  | .vuDec _ strm off => offUnused strm off
  | .vsEnc _ strm nvf off a => offUnused strm off && operandUnused nvf a
  | .vsDec _ strm off => offUnused strm off
  | .nop | .pbPut .. | .pbGet .. | .pbClr | .recEnc .. | .recDecf | .recDecr => true
  | .syncHeadC2 | .syncHeadE2 | .syncHeadC8 | .syncHeadE8 | .syncHeadD2 | .syncHeadF2 | .syncHeadD8 | .syncHeadF8 => true
  | .syncTailB4 | .syncTailB0 | .syncTailE4 | .syncTailE0 => true
  | .vuCont _ | .vuTerm _ | .vuByte4 _ | .vsFirstLe .. | .vsFirstBe .. => true

end Sys2Proof
end

