-- ==== Sys2Proof/Tests/Slice0.lean ====
section
/-! SUPPORT. Tests. Expected values are those of spec/95_test_vectors.md (its section in each comment) or worked by hand from the
encoding rules. The witnesses at the end show states that meet the hypotheses of the statements of
Certificates/Slice0/Obligations.lean. -/

namespace Sys2Proof.Tests

open Sys2Proof Sys2Proof.Machine

set_option Elab.async false

/-! ## Well-formedness: an ill-formed term for each check -/

theorem test_wf_vuEnc_off : WellFormed (.vuEnc true true 1 0) = false := by decide
theorem test_wf_vuDec_off : WellFormed (.vuDec true true 1) = false := by decide
theorem test_wf_vsEnc_off : WellFormed (.vsEnc true true false 1 0) = false := by decide
theorem test_wf_vsEnc_operand : WellFormed (.vsEnc true false true 1 5) = false := by decide
theorem test_wf_vsDec_off : WellFormed (.vsDec false true 8) = false := by decide
/-- Lines of 30_encoding.md R87. -/
theorem test_wf_lines :
    [Instr.vuEnc true false 7 300, .vuDec false true 0, .vsEnc true true true 0 0, .vsDec true false 4, .pbPut 5 90].all
      WellFormed = true := by decide

/-! ## Decoding: one word or byte written out for every constructor (spec/95_test_vectors.md section 2.9, 30_encoding.md R73 to
R78) -/

/-- The command a word decodes to. -/
def word (w : CmdWord) : Option Instr := (decode .command (.word w)).toOption

/-- The wire format a byte decodes to at a slot. -/
def byteAt (sl : Slot) (b : Byte) : Option Instr := (decode sl (.byte b)).toOption

theorem test_decode_nop : word 0x0000000000000000_00000000_00 = some .nop := by decide
theorem test_decode_vuEnc : word 0x000000000000012C_00000007_01 = some (.vuEnc false false 7 300) := by decide
theorem test_decode_vuDec : word 0x0000000000000000_00000002_12 = some (.vuDec true false 2) := by decide
theorem test_decode_vsEnc : word 0xFFFFFFFFFFFFFF9C_00000002_13 = some (.vsEnc true false false 2 (-100)) := by decide
theorem test_decode_vsEnc_novalue : word 0x0000000000000000_00000000_73 = some (.vsEnc true true true 0 0) := by decide
theorem test_decode_vsDec : word 0x0000000000000000_00000000_24 = some (.vsDec false true 0) := by decide
theorem test_decode_pbPut : word 0x000000000000005A_00000005_05 = some (.pbPut 5 90) := by decide
theorem test_decode_pbGet : word 0x0000000000000000_000FFFFF_06 = some (.pbGet 1048575) := by decide
theorem test_decode_pbClr : word 0x0000000000000000_00000000_07 = some .pbClr := by decide
theorem test_decode_recEnc : word 0x0000000000000005_00000000_58 = some (.recEnc true true false 5) := by decide
theorem test_decode_recDecf : word 0xDEADBEEFDEADBEEF_12345678_09 = some .recDecf := by decide
theorem test_decode_recDecr : word 0x0000000000000000_00000000_0A = some .recDecr := by decide
theorem test_decode_syncHeadC2 : byteAt .sync 0b11000010 = some .syncHeadC2 := by decide
theorem test_decode_syncHeadE2 : byteAt .sync 0b11100010 = some .syncHeadE2 := by decide
theorem test_decode_syncHeadC8 : byteAt .sync 0b11001000 = some .syncHeadC8 := by decide
theorem test_decode_syncHeadE8 : byteAt .sync 0b11101000 = some .syncHeadE8 := by decide
theorem test_decode_syncHeadD2 : byteAt .sync 0b11010010 = some .syncHeadD2 := by decide
theorem test_decode_syncHeadF2 : byteAt .sync 0b11110010 = some .syncHeadF2 := by decide
theorem test_decode_syncHeadD8 : byteAt .sync 0b11011000 = some .syncHeadD8 := by decide
theorem test_decode_syncHeadF8 : byteAt .sync 0b11111000 = some .syncHeadF8 := by decide
theorem test_decode_syncTailB4 : byteAt .sync 0b10110100 = some .syncTailB4 := by decide
theorem test_decode_syncTailB0 : byteAt .sync 0b10110000 = some .syncTailB0 := by decide
theorem test_decode_syncTailE4 : byteAt .sync 0b11100100 = some .syncTailE4 := by decide
theorem test_decode_syncTailE0 : byteAt .sync 0b11100000 = some .syncTailE0 := by decide
theorem test_decode_vuCont : byteAt .vuByte 0b10101100 = some (.vuCont 0b0101100) := by decide
theorem test_decode_vuTerm : byteAt .vuByte 0b00000010 = some (.vuTerm 0b0000010) := by decide
theorem test_decode_vuByte4 : byteAt .vuFourth 0b10000001 = some (.vuByte4 0b10000001) := by decide
theorem test_decode_vsFirstLe : byteAt (.vsFirst true) 0b01001001 = some (.vsFirstLe 0b0100 true 0b001) := by decide
theorem test_decode_vsFirstBe : byteAt (.vsFirst false) 0b10010101 = some (.vsFirstBe true 0b001 0b0101) := by decide
/-- The illegal words of section 2.9. -/
theorem test_decode_illegal :
    [0x0B, 0x0C, 0x0D, 0x0E, 0x0F, 0xFF, 0x10, 0x41, 0x82, 0x83, 0x44, 0x15, 0x26, 0x87, 0x28, 0x19, 0x4A].all
      (fun c => (word (BitVec.ofNat 104 c)).isNone) = true := by decide
/-- 34 of the 256 control bytes spell a command (30_encoding.md R82). -/
theorem test_decode_count : ((List.range 256).filter fun c => (word (BitVec.ofNat 104 c)).isSome).length = 34 := by
  decide +kernel
/-- 30_encoding.md R87: `rec.enc.be.rev.enh 42`. -/
theorem test_encode_recEnc : encode (.recEnc false true true 42) = .word 0x000000000000002A_00000000_C8 := by decide

/-! ## Execution: one command or one byte on a small state -/

/-- The outcome is a next state of which the check holds. -/
def ends (r : Result) (p : State → Bool) : Bool :=
  match r with
  | .next t => p t
  | _ => false

theorem ends_next {r : Result} {p : State → Bool} (h : ends r p = true) : ∃ t, r = .next t ∧ p t = true := by
  unfold ends at h
  split at h
  · exact ⟨_, rfl, h⟩
  · cases h

/-- After reset, with these bytes in PB and PLEN their number. -/
def buffer (bs : List Byte) : State :=
  { State.reset with pb := Mem.writeList [] 0 bs, plen := BitVec.ofNat 32 bs.length }

/-- After reset, with these bytes on IN and then end of stream. -/
def stream (bs : List Byte) : State := { State.reset with inQ := bs, inEos := true }

/-- STAT, VAL, CNT and CONS. -/
def results (st : Status) (v : U64) (cnt : BitVec 4) (cons : U32) (t : State) : Bool :=
  t.stat == st && t.val == v && t.cnt == cnt && t.cons == cons && !t.busy && t.ph == .idle

/-- PB[0..PLEN-1]. -/
def bytes (t : State) : List Byte := t.pb.readList 0 t.plen.toNat

/-- The record registers SYNC, RID, CRCLEN, CRCB. -/
def held (sync : Byte) (rid : U32) (crclen : BitVec 3) (crcb : U32) (t : State) : Bool :=
  t.sync == sync && t.rid == rid && t.crclen == crclen && t.crcb == crcb

/-- Section 2.4 row 20. -/
theorem test_exec_nop :
    (ends (exec .nop { buffer [1] with stat := .invalidOffset }) fun t => t.stat == .invalidOffset && bytes t == [1]) = true := by decide +kernel
/-- Section 2.4 row 9. -/
theorem test_exec_vuEnc_append :
    (ends (exec (.vuEnc true false 1 300) (buffer [0xFF])) fun t => results .ok 0 2 0 t && bytes t == [0xFF, 0xAC, 0x02]) = true := by decide +kernel
/-- Section 2.4, stream forms. -/
theorem test_exec_vuEnc_stream :
    (ends (exec (.vuEnc false true 0 300) State.reset) fun t =>
      results .ok 0 2 0 t && t.outQ == [⟨0x82, false⟩, ⟨0x2C, true⟩]) = true := by decide +kernel
/-- Section 2.4 row 15. -/
theorem test_exec_vuDec_end :
    (ends (exec (.vuDec true false 3) (buffer [0x90, 0x54, 0x80, 0x80, 0x01])) (results .ok 128 2 0)) = true := by decide +kernel
/-- Section 2.4, stream forms. -/
theorem test_exec_vuDec_stream :
    (ends (exec (.vuDec true true 0) (stream [0xAC, 0x02, 0x77])) fun t => results .ok 300 2 2 t && t.inQ == [0x77]) = true := by decide +kernel
/-- Section 2.4 row 12. -/
theorem test_exec_vsEnc_overwrite :
    (ends (exec (.vsEnc false false false 0 (-100)) (buffer [0xFF, 0xAC, 0x80, 0x80, 0x01])) fun t =>
      results .ok 0 2 0 t && bytes t == [0x90, 0x54, 0x80, 0x80, 0x01]) = true := by decide +kernel
/-- Section 2.2: the largest number, then the one above it. -/
theorem test_exec_vsEnc_range :
    (ends (exec (.vsEnc true true false 0 1157442765409226759) State.reset) (fun t =>
        t.outQ.map OutByte.data == [0xE7, 0xFF, 0xFF, 0xFF, 0xFF, 0xFF, 0xFF, 0xFF]) &&
      ends (exec (.vsEnc true true false 0 1157442765409226760) State.reset) (results .overflow 0 0 0)) = true := by decide +kernel
/-- Section 2.4 row 13. -/
theorem test_exec_vsDec_value :
    (ends (exec (.vsDec false false 0) (buffer [0x90, 0x54])) (results .ok (-100) 2 0)) = true := by decide +kernel
/-- Section 2.4, stream forms. -/
theorem test_exec_vsDec_novalue :
    (ends (exec (.vsDec true true 0) (stream [0x08, 0xFF])) fun t => results .noValue 0 1 1 t && t.nv) = true := by decide +kernel
/-- Section 2.4 rows 3 and 4. -/
theorem test_exec_pbPut :
    (ends (exec (.pbPut 1 0x11) State.reset) (results .invalidOffset 0 0 0) &&
      ends (exec (.pbPut 0 0x47) State.reset) (fun t => results .ok 0 0 0 t && bytes t == [0x47])) = true := by decide +kernel
/-- Section 2.4 rows 6 and 7. -/
theorem test_exec_pbGet :
    (ends (exec (.pbGet 0) (buffer [0xFF])) (results .ok 255 0 0) && ends (exec (.pbGet 1) (buffer [0xFF])) (results .invalidOffset 0 0 0)) = true := by decide +kernel
/-- Section 2.4 row 21. -/
theorem test_exec_pbClr :
    (ends (exec .pbClr { buffer [1, 2] with sync := 0xE2, rid := 9, crclen := 1, crcb := 3 }) fun t =>
      results .ok 0 0 0 t && held 0 0 0 0 t && t.plen == 0) = true := by decide +kernel
/-- Section 2.5. -/
theorem test_exec_recEnc :
    (ends (exec (.recEnc false true false 42) (buffer [0x47, 0x4E, 0x53, 0x53])) fun t =>
      t.outQ.map OutByte.data == [0xF2, 0x2A, 0x04, 0x47, 0x4E, 0x53, 0x53, 0x27, 0x07, 0xB0] &&
        results .ok 10 0 0 t && held 0xF2 42 1 0x27 t) = true := by decide +kernel
/-- Section 2.5, 2-byte id. -/
theorem test_exec_recEnc_id :
    (ends (exec (.recEnc true true false 300) (buffer [1, 2, 3])) fun t =>
      t.outQ.map OutByte.data == [0xD2, 0xAC, 0x02, 0x03, 0x01, 0x02, 0x03, 0xAD, 0x07, 0xB4]) = true := by decide +kernel
/-- Section 2.7. -/
theorem test_exec_recDecf :
    (ends (exec .recDecf (stream [0xF2, 0x80, 0x2A, 0x04, 0x47, 0x4E, 0x53, 0x53, 0xA7, 0x08, 0xB0])) fun t =>
      results .ok 0 0 11 t && held 0xF2 42 1 0xA7 t && bytes t == [0x47, 0x4E, 0x53, 0x53]) = true := by decide +kernel
/-- Section 2.7: the trailing length, its tail, a refused tier. -/
theorem test_exec_recDecf_errors :
    (ends (exec .recDecf (stream [0xF2, 0x2A, 0x04, 0x47, 0x4E, 0x53, 0x53, 0x27, 0x08, 0xB0])) (results .headTailMismatch 0 0 9) &&
      ends (exec .recDecf (stream [0xF2, 0x2A, 0x04, 0x47, 0x4E, 0x53, 0x53, 0x27, 0x07, 0xF2])) (results .malformedSync 0 0 10) &&
      ends (exec .recDecf (stream [0xE2, 0x01, 0xBF, 0xFF, 0x7C, 0x00, 0x00])) (results .unsupported 0 0 5)) = true := by decide +kernel
/-- 43_record_framer.md R170, example. -/
theorem test_exec_recDecr :
    (ends (exec .recDecr (stream [0xB0, 0x07, 0x27, 0x53, 0x53, 0x4E, 0x47, 0x04, 0x2A, 0xF2])) fun t =>
      results .ok 0 0 10 t && held 0xF2 42 1 0x27 t && bytes t == [0x47, 0x4E, 0x53, 0x53]) = true := by decide +kernel
/-- 43_record_framer.md R172: 0xE2 where 0xF2 is expected. -/
theorem test_exec_recDecr_head :
    (ends (exec .recDecr (stream [0xB0, 0x07, 0x27, 0x53, 0x53, 0x4E, 0x47, 0x04, 0x2A, 0xE2])) (results .headTailMismatch 0 0 10)) = true := by decide +kernel

/-- A codec inside a command, in this phase. -/
def within (p : Phase) (k : Scratch) : State := { State.reset with busy := true, ph := p, scratch := k, cons := 1 }

/-- The byte order, direction and CRC mode a head sync byte sets (30_encoding.md R73). -/
def flags (le rev enh : Bool) (t : State) : Bool :=
  t.ph == .fId && t.scratch.le == le && t.scratch.rev == rev && t.scratch.enh == enh

theorem test_exec_syncHeadC2 : ends (exec .syncHeadC2 (within .fSync Scratch.init)) (flags true false false) = true := by decide
theorem test_exec_syncHeadE2 : ends (exec .syncHeadE2 (within .fSync Scratch.init)) (flags false false false) = true := by decide
theorem test_exec_syncHeadC8 : ends (exec .syncHeadC8 (within .fSync Scratch.init)) (flags true false true) = true := by decide
theorem test_exec_syncHeadE8 : ends (exec .syncHeadE8 (within .fSync Scratch.init)) (flags false false true) = true := by decide
theorem test_exec_syncHeadD2 : ends (exec .syncHeadD2 (within .fSync Scratch.init)) (flags true true false) = true := by decide
theorem test_exec_syncHeadF2 : ends (exec .syncHeadF2 (within .fSync Scratch.init)) (flags false true false) = true := by decide
theorem test_exec_syncHeadD8 : ends (exec .syncHeadD8 (within .fSync Scratch.init)) (flags true true true) = true := by decide
theorem test_exec_syncHeadF8 : ends (exec .syncHeadF8 (within .fSync Scratch.init)) (flags false true true) = true := by decide
theorem test_exec_syncTailB4 :
    ends (exec .syncTailB4 (within .rTail Scratch.init)) (fun t =>
      t.ph == .rRlen && t.scratch.le == true && t.scratch.rev && t.scratch.enh == false) = true := by decide
theorem test_exec_syncTailB0 :
    ends (exec .syncTailB0 (within .rTail Scratch.init)) (fun t =>
      t.ph == .rRlen && t.scratch.le == false && t.scratch.rev && t.scratch.enh == false) = true := by decide
theorem test_exec_syncTailE4 :
    ends (exec .syncTailE4 (within .rTail Scratch.init)) (fun t =>
      t.ph == .rRlen && t.scratch.le == true && t.scratch.rev && t.scratch.enh == true) = true := by decide
theorem test_exec_syncTailE0 :
    ends (exec .syncTailE0 (within .rTail Scratch.init)) (fun t =>
      t.ph == .rRlen && t.scratch.le == false && t.scratch.rev && t.scratch.enh == true) = true := by decide
/-- 40_varuint.md R104, example AC 02: 0x2C | (0x02 << 7). -/
theorem test_exec_vuCont :
    ends (exec (.vuCont 0x2C) (within .vIn { Scratch.init with le := true })) (fun t =>
      t.ph == .vIn && t.cur == 1 && t.scratch.acc == 44 && t.scratch.raw == [0xAC]) = true := by decide
theorem test_exec_vuTerm :
    ends (exec (.vuTerm 0x02) { within .vIn { Scratch.init with le := true, acc := 44, raw := [0xAC] } with cur := 1 })
      (results .ok 300 2 1) = true := by decide
/-- FF FF FF FF is the maximum: the fourth byte is taken whole (section 2.1). -/
theorem test_exec_vuByte4 :
    ends (exec (.vuByte4 0xFF) { within .vIn { Scratch.init with le := true, acc := 2097151 } with cur := 3 })
      (results .ok 536870911 4 1) = true := by decide
/-- `08` is the sentinel in little-endian order and 8 in big-endian order (section 2.2). -/
theorem test_exec_vsFirstLe :
    ends (exec (.vsFirstLe 0 true 0) (within .vIn { Scratch.init with signed := true, le := true }))
      (results .noValue 0 1 1) = true := by decide
theorem test_exec_vsFirstBe :
    ends (exec (.vsFirstBe false 0 8) (within .vIn { Scratch.init with signed := true })) (results .ok 8 1 1) = true := by decide

/-- 43_record_framer.md R156: the suggested CRC16 and CRC32, for checks of the layout only; the model holds no engine (A7). -/
def shiftXor {w : Nat} (poly : BitVec w) : Nat → BitVec w → BitVec w
  | 0, st => st
  | n + 1, st => shiftXor poly n (if st.msb then (st <<< 1) ^^^ poly else st <<< 1)
def suggested16 : CrcEngine 16 := ⟨0, fun st b => shiftXor 0x1021 8 (st ^^^ (b.setWidth 16 <<< 8)), id⟩
def suggested32 : CrcEngine 32 := ⟨0, fun st b => shiftXor 0x04C11DB7 8 (st ^^^ (b.setWidth 32 <<< 24)), id⟩

/-- R156: the check values of "123456789". -/
theorem test_crc_check :
    crcVal suggested16 [] [0x31, 0x32, 0x33, 0x34, 0x35, 0x36, 0x37, 0x38, 0x39] = 0x31C3 ∧
      crcVal suggested32 [] [0x31, 0x32, 0x33, 0x34, 0x35, 0x36, 0x37, 0x38, 0x39] = 0x89A1897F := by decide +kernel
/-- Section 2.5: CRC16 of the enhanced record, in both byte orders. -/
theorem test_crc_bytes :
    crcBytesWith suggested16 suggested32 [0x2A, 0x04] [0x47, 0x4E, 0x53, 0x53] .crc16 false = [0x32, 0x6B] ∧
      crcBytesWith suggested16 suggested32 [0x2A, 0x04] [0x47, 0x4E, 0x53, 0x53] .crc16 true = [0x6B, 0x32] := by
  decide +kernel
/-- 40_varuint.md R107, section 2.1: non-minimal encodings, and a fifth byte not touched. -/
theorem test_vuDec_nonMinimal :
    vuDec true [0x80, 0x00] = some (0, 2) ∧ vuDec false [0x80, 0x80, 0x80, 0x00] = some (0, 4) ∧
      vuDec false [0x81, 0x80, 0x80, 0x01, 0x55] = some (4194305, 4) := by decide
/-- 30_encoding.md R82, R73: a table row is decoded and runs as the first instruction after reset (A3, A17). -/
theorem test_table_word :
    decodeTableWord 104 0x000000000000012C_00000007_01 = some (.vuEnc false false 7 300) ∧
      decodeTableWord 8 0xE2 = some .syncHeadE2 ∧
      ends (step (State.reset.withFetchWord 8 0xE2)) (flags false false false) = true := by decide +kernel

/-! ## Witnesses: states and operands that meet the hypotheses of each statement, at the ends of its ranges -/

/-- F_PAY of `E2 2A 04 47 4E 53 53 27` with one payload byte taken. -/
def midDecode : State :=
  { within .fPay
      { Scratch.init with id := 42, rawId := [0x2A], rawLen := [0x04], dlen := 4, xors := 0x69 } with
    cur := 1, cons := 4, pb := [(0, 0x47)], inQ := [0x4E, 0x53, 0x53, 0x27, 0x99] }

theorem midDecode_inv : Inv midDecode := by constructor <;> decide

theorem buffer_inv (bs : List Byte) (h : bs = [0x47, 0x4E, 0x53, 0x53] ∨ bs = [0xFF]) : Inv (buffer bs) := by
  obtain rfl | rfl := h <;> constructor <;> decide

theorem stream_inv (bs : List Byte) (e : Bool) : Inv { stream bs with inEos := e } := by
  constructor <;> simp [stream, State.reset, Scratch.init, Mem.wf, Phase.payloadKnown, Phase.stagingKnown]

/-- The record of 43_record_framer.md R159, example. -/
def gnss : List Byte := [0xF2, 0x2A, 0x04, 0x47, 0x4E, 0x53, 0x53, 0x27, 0x07, 0xB0]

theorem witness_ResetInput : ({ midDecode with rst := true } : State).rst = true ∧ ({ midDecode with rst := true } : State).cmdQ = [] := by
  decide
theorem witness_StatusPort : State.reset.busy = false := rfl
theorem witness_InvStep : ∃ s t, Inv s ∧ step s = .next t ∧ s.ph ≠ .idle := by
  obtain ⟨t, ht, _⟩ := ends_next (r := step midDecode) (p := fun _ => true) (by decide +kernel)
  exact ⟨midDecode, t, midDecode_inv, ht, by decide⟩
theorem witness_StepTotal : Inv midDecode := midDecode_inv
theorem witness_StepRunsCommand :
    let s := { State.reset with cmdQ := [0x0000000000000000_00000000_07, 0x0F] }
    s.rst = false ∧ s.busy = false ∧ s.ph = .idle ∧ s.cmdQ = 0x0000000000000000_00000000_07 :: [0x0F] ∧
      decode .command (.word 0x0000000000000000_00000000_07) = .ok .pbClr := by decide
theorem witness_StepRunsWire :
    let s := { within .fSync Scratch.init with inQ := [0xE2] }
    let t : State := { s with tick := s.tick + 1, resp := false }
    s.rst = false ∧ s.ph ≠ .idle ∧ s.slot = some .sync ∧ t.nextByte = .got 0xE2 { t with inQ := [], cons := t.cons + 1 } ∧
      decode .sync (.byte 0xE2) = .ok .syncHeadE2 := ⟨rfl, by decide, rfl, rfl, rfl⟩
theorem witness_IllegalWord :
    let s := { State.reset with cmdQ := [0x28] }
    s.rst = false ∧ s.busy = false ∧ s.ph = .idle ∧ s.cur = 0 ∧ s.cmdQ = 0x28 :: [] ∧ IllegalControl 0x28 ∧
      IllegalControl 0x0B ∧ IllegalControl 0x0F ∧ IllegalControl 0x41 ∧ IllegalControl 0x83 ∧ IllegalControl 0x10 := by
  refine ⟨rfl, rfl, rfl, rfl, rfl, ?_, ?_, ?_, ?_, ?_, ?_⟩ <;> unfold IllegalControl <;> decide

/-- The hypotheses of `IgnoredFields` on two words. -/
def agree (w v : CmdWord) : Bool :=
  (word w).isSome && (word v).isSome && CmdWord.ctl w == CmdWord.ctl v &&
  (CmdWord.strm w || !([0x1#4, 0x2#4, 0x3#4, 0x4#4, 0x5#4, 0x6#4].contains ((CmdWord.ctl w).extractLsb' 0 4)) ||
    CmdWord.off w == CmdWord.off v) &&
  (!([0x1#4, 0x8#4].contains ((CmdWord.ctl w).extractLsb' 0 4)) || CmdWord.operand w == CmdWord.operand v) &&
  ((CmdWord.ctl w).extractLsb' 0 4 != 0x3#4 || CmdWord.m0 w || CmdWord.operand w == CmdWord.operand v) &&
  ((CmdWord.ctl w).extractLsb' 0 4 != 0x5#4 ||
    (CmdWord.operand w).extractLsb' 0 8 == (CmdWord.operand v).extractLsb' 0 8)

/-- Unequal words that agree in what their command uses: PB.CLR, a stream decode, a sentinel, PB.PUT, REC.ENC. -/
theorem witness_IgnoredFields :
    agree 0x07 0x0000000000000001_00000001_07 = true ∧ agree 0x22 0xFFFFFFFFFFFFFFFF_00000009_22 = true ∧
      agree 0x0000000000000000_00000004_53 0x0000000000000009_00000004_53 = true ∧
      agree 0x0000000000000047_00000001_05 0x0000000000000147_00000001_05 = true ∧
      agree 0x000000000000002A_00000000_08 0x000000000000002A_FFFFFFFF_08 = true := by decide +kernel
theorem witness_VarSIntLayout : (1 ≤ 1 ∧ 1 ≤ 8 ∧ 15 < 2 ^ (8 * 1 - 4)) ∧ (1 ≤ 8 ∧ 8 ≤ 8 ∧ 2 ^ 60 - 1 < 2 ^ (8 * 8 - 4)) := by
  decide
theorem witness_VarSIntEnd : vsFinish true 0x9 0x0009 = .value (-16) := by decide

theorem witness_NopResult : (buffer [0xFF]).busy = false := rfl
/-- OFF = PLEN, OFF = PLEN + 1, the last byte of PB, and the first address past it. -/
theorem witness_PbPutResult :
    ends (exec (.pbPut 1 9) (buffer [0xFF])) (results .ok 0 0 0) = true ∧
      ends (exec (.pbPut 2 9) (buffer [0xFF])) (results .invalidOffset 0 0 0) = true ∧
      ends (exec (.pbPut 1048575 9) { State.reset with plen := 1048575 }) (results .ok 0 0 0) = true ∧
      ends (exec (.pbPut 1048576 9) { State.reset with plen := 1048576 }) (results .invalidOffset 0 0 0) = true := by
  decide +kernel
theorem witness_PbGetResult : (buffer [0xFF]).busy = false ∧ (buffer [0xFF]).plen.toNat ≤ Config.pbBytes := by decide
theorem witness_PbClrResult : (buffer [0xFF]).busy = false := rfl
/-- The largest number, where exactly its bytes are taken, and the one above it; both forms. -/
theorem witness_VuEncResult :
    ({ State.reset with outRoom := some 4 } : State).roomFor (vuEnc 536870911 true).length = true ∧
      ends (exec (.vuEnc true true 0 536870911) { State.reset with outRoom := some 4 }) (fun t => results .ok 0 4 0 t) = true ∧
      ends (exec (.vuEnc true true 0 536870912) { State.reset with outRoom := some 0 }) (results .overflow 0 0 0) = true ∧
      ends (exec (.vuEnc true false 0 128) (buffer [0xFF])) (results .ok 0 2 0) = true ∧
      ends (exec (.vuEnc true false 1048575 128) { State.reset with plen := 1048576 }) (results .invalidOffset 0 0 0) = true := by
  decide +kernel
/-- The three ends of each form. -/
theorem witness_VuDecResult :
    (vuDec true (stream [0xAC, 0x02, 0x77]).inQ).isSome = true ∧ (stream [0x82]).inEos = true ∧
      ends (exec (.vuDec false true 0) (stream [0x82])) (results .truncatedRead 0 0 1) = true ∧
      ends (exec (.vuDec false false 0) (buffer [0xFF])) (results .truncatedRead 0 0 0) = true ∧
      ends (exec (.vuDec false false 1) (buffer [0xFF])) (results .invalidOffset 0 0 0) = true := by decide +kernel
/-- The sentinel, the largest negative number, the least number of all. -/
theorem witness_VsEncResult :
    ends (exec (.vsEnc false true true 0 0) { State.reset with outRoom := some 1 }) (results .ok 0 1 0) = true ∧
      ends (exec (.vsEnc false false false 0 (-1157442765409226759)) State.reset) (results .ok 0 8 0) = true ∧
      ends (exec (.vsEnc false false false 0 0x8000000000000000) State.reset) (results .overflow 0 0 0) = true := by
  decide +kernel
theorem witness_VsDecResult :
    (vsDec true (stream [0x49, 0x05]).inQ).isSome = true ∧ (stream [0x49]).inEos = true ∧
      ends (exec (.vsDec true true 0) (stream [0x49])) (results .truncatedRead 0 0 1) = true ∧
      ends (exec (.vsDec true true 0) (stream [0xFF, 0xFF, 0xFF, 0xFF, 0xFF, 0xFF, 0xFF, 0xFF])) (results .overflow 0 0 8) = true ∧
      ends (exec (.vsDec true false 0) (buffer [0xFF])) (results .truncatedRead 0 0 0) = true := by decide +kernel
theorem witness_VarUIntRoundTrip :
    ∃ s t, Inv s ∧ s.busy = false ∧ exec (.vuEnc true false 1 300) s = .next t ∧ t.stat = .ok := by
  obtain ⟨t, ht, hp⟩ := ends_next (r := exec (.vuEnc true false 1 300) (buffer [0xFF])) (p := fun t => t.stat == .ok)
    (by decide +kernel)
  exact ⟨_, t, buffer_inv _ (.inr rfl), rfl, ht, by simpa using hp⟩
theorem witness_VarSIntRoundTrip :
    ∃ s t, Inv s ∧ s.busy = false ∧ exec (.vsEnc false false true 1 7) s = .next t ∧ t.stat = .ok := by
  obtain ⟨t, ht, hp⟩ := ends_next (r := exec (.vsEnc false false true 1 7) (buffer [0xFF])) (p := fun t => t.stat == .ok)
    (by decide +kernel)
  exact ⟨_, t, buffer_inv _ (.inr rfl), rfl, ht, by simpa using hp⟩
/-- A store that succeeds and one that does not. -/
theorem witness_StoreFrame :
    (∃ s t, Inv s ∧ s.busy = false ∧ exec (.pbPut 1 5) s = .next t ∧ t.stat = .ok) ∧
      ∃ s t, Inv s ∧ s.busy = false ∧ exec (.vsEnc true false true 2 5) s = .next t ∧ t.stat ≠ .ok := by
  obtain ⟨t, ht, hp⟩ := ends_next (r := exec (.pbPut 1 5) (buffer [0xFF])) (p := fun t => t.stat == .ok) (by decide +kernel)
  obtain ⟨u, hu, hq⟩ := ends_next (r := exec (.vsEnc true false true 2 5) (buffer [0xFF])) (p := fun t => t.stat == .invalidOffset)
    (by decide +kernel)
  refine ⟨⟨_, t, buffer_inv _ (.inr rfl), rfl, ht, by simpa using hp⟩, _, u, buffer_inv _ (.inr rfl), rfl, hu, ?_⟩
  simp only [beq_iff_eq] at hq
  simp [hq]
theorem witness_RecordStoreFrame :
    ∃ s t, Inv s ∧ s.busy = false ∧ exec .recDecr s = .next t ∧ stagedTop s.inQ = some 7 := by
  obtain ⟨t, ht, _⟩ := ends_next (r := exec .recDecr (stream gnss.reverse)) (p := fun _ => true) (by decide +kernel)
  exact ⟨_, t, stream_inv _ true, rfl, ht, by decide +kernel⟩
theorem witness_CommandFrame : ∃ s t, exec (.vuDec true true 0) s = .next t := by
  obtain ⟨t, ht, _⟩ := ends_next (r := exec (.vuDec true true 0) (stream [0xAC, 0x02])) (p := fun _ => true) (by decide +kernel)
  exact ⟨_, t, ht⟩
/-- Room for exactly the record; then the two refusals. -/
theorem witness_RecEncResult :
    crcKind ((header false 42 4).length + 4) false = some .xor8 ∧
      ({ State.reset with outRoom := some 10 } : State).roomFor
        (recordWire false true false 42 [0x47, 0x4E, 0x53, 0x53] .xor8).length = true ∧
      ends (exec (.recEnc false true false 42) { buffer [0x47, 0x4E, 0x53, 0x53] with outRoom := some 10 })
        (results .ok 10 0 0) = true ∧
      ends (exec (.recEnc false true false 536870912) State.reset) (results .overflow 0 0 0) = true ∧
      ends (exec (.recEnc false true false 42) { State.reset with plen := 1048572 }) (results .unsupported 0 0 0) = true := by
  decide +kernel
/-- An input that ends and one that waits. -/
theorem witness_RecDecfResult :
    (State.reset.afterRead (readForward State.reset.inQ)).isNone = true ∧
      ((stream gnss).afterRead (readForward (stream gnss).inQ)).isSome = true := by decide +kernel
/-- The bytes run out at once, and a whole record over a staging buffer that holds bytes of an earlier one. -/
theorem witness_RecDecrResult :
    let s : State := { stream gnss.reverse with rb := [(0, 0xF2), (3, 0x99), (1048591, 1)] }
    (Mem.wf Config.rbBytes State.reset.rb ∧ State.reset.busy = false ∧
        (State.reset.afterRead (readBackward State.reset.inQ)).isNone = true) ∧
      (Mem.wf Config.rbBytes s.rb ∧ s.busy = false ∧ (s.afterRead (readBackward s.inQ)).isSome = true) ∧
      ends (exec .recDecr s) (results .ok 0 0 10) = true := by decide +kernel
theorem witness_RecordRoundTrip :
    ∃ s t u v, s.busy = false ∧ s.plen.toNat ≤ Config.pbBytes ∧ s.outRoom = none ∧ s.outQ = [] ∧
      exec (.recEnc false true false 42) s = .next t ∧ t.stat = .ok ∧
      Inv u ∧ u.busy = false ∧ u.inQ = t.outQ.map OutByte.data ++ [0x99] ∧
      Inv v ∧ v.busy = false ∧ v.inQ = (t.outQ.map OutByte.data).reverse ++ [0x99] := by
  obtain ⟨t, ht, hp⟩ := ends_next (r := exec (.recEnc false true false 42) (buffer [0x47, 0x4E, 0x53, 0x53]))
    (p := fun t => t.stat == .ok && t.outQ.map OutByte.data == gnss) (by decide +kernel)
  simp only [Bool.and_eq_true, beq_iff_eq] at hp
  refine ⟨_, t, stream (gnss ++ [0x99]), stream (gnss.reverse ++ [0x99]), rfl, by decide, rfl, rfl, ht, hp.1, stream_inv _ true, rfl, ?_,
    stream_inv _ true, rfl, ?_⟩ <;> rw [hp.2] <;> rfl
theorem witness_RecordReencode :
    ∃ s t, Inv s ∧ s.busy = false ∧ s.outRoom = none ∧ exec .recDecf s = .next t ∧ t.busy = false ∧ t.stat = .ok ∧
      let hdr := header (!t.sync.getLsbD 5) (t.rid.setWidth 29) t.plen.toNat
      ((s.inQ.take t.cons.toNat).drop 1).take hdr.length = hdr := by
  obtain ⟨t, ht, hp⟩ := ends_next (r := exec .recDecf (stream gnss))
    (p := fun t => !t.busy && t.stat == .ok && t.sync == 0xF2 && t.rid == 42 && t.plen == 4 && t.cons == 10) (by decide +kernel)
  simp only [Bool.and_eq_true, beq_iff_eq, Bool.not_eq_true'] at hp
  obtain ⟨⟨⟨⟨⟨h1, h2⟩, h3⟩, h4⟩, h5⟩, h6⟩ := hp
  refine ⟨_, t, stream_inv _ true, rfl, rfl, ht, h1, h2, ?_⟩
  rw [h3, h4, h5, h6]
  decide
theorem witness_BadFirstByte : (stream [0xFF, 0x2A]).busy = false ∧ (stream [0xFF, 0x2A]).inQ = 0xFF :: [0x2A] ∧
    0xFF ∉ headSet ∧ 0xFF ∉ tailSet := by decide
/-- Nothing at all, and all but the last byte. -/
theorem witness_TruncatedRecord :
    crcKind ((header false 42 4).length + 4) false = some .xor8 ∧
      recordWire false true false 42 [0x47, 0x4E, 0x53, 0x53] .xor8 = gnss ∧ 0 < gnss.length ∧ 9 < gnss.length ∧
      (stream (gnss.take 9)).inEos = true ∧ (stream (gnss.reverse.take 9)).inEos = true := by decide +kernel
theorem witness_ChecksumMismatch :
    crcKind ((header false 42 4).length + 4) false = some .xor8 ∧ [0x26#8].length = CrcKind.len .xor8 ∧
      [0x26#8] ≠ crcBytes (header false 42 4) [0x47, 0x4E, 0x53, 0x53] .xor8 false ∧
      (stream [0xE2, 0x2A, 0x04, 0x47, 0x4E, 0x53, 0x53, 0x26]).inQ =
        headByte false false false :: (header false 42 4 ++ [0x47, 0x4E, 0x53, 0x53] ++ [0x26] ++ []) := by decide +kernel
theorem witness_PayloadCorruption :
    let bad := (recordWire false true false 42 ([0x47] ++ 0x4E :: [0x53, 0x53]) .xor8).set
      (1 + (header false 42 4).length + [0x47#8].length) 0x4F
    (header false 42 4).length + 4 < 128 ∧ (0x4E : Byte) ≠ 0x4F ∧ (stream bad).busy = false ∧
      Mem.wf Config.rbBytes (stream bad.reverse).rb ∧ ends (exec .recDecf (stream bad)) (results .checksumMismatch 0 0 8) = true ∧
      ends (exec .recDecr (stream bad.reverse)) (results .checksumMismatch 0 0 10) = true := by decide +kernel
theorem witness_HeadSyncByte :
    (Instr.syncHeadF2, false, true, false) ∈ headTable ∧ (within .fSync Scratch.init).ph = .fSync ∧
      (within .rHead Scratch.init).ph = .rHead ∧ (within .fTail Scratch.init).ph = .fTail ∧
      (within .rTail Scratch.init).ph = .rTail := by decide
theorem witness_TailSyncByte :
    (Instr.syncTailB0, false, false) ∈ tailTable ∧ (within .rTail Scratch.init).ph = .rTail ∧
      (within .fTail Scratch.init).ph = .fTail ∧ (within .fSync Scratch.init).ph = .fSync ∧
      (within .rHead Scratch.init).ph = .rHead := by decide
/-- The first and the third byte. -/
theorem witness_VuCont :
    (within .vIn Scratch.init).slot = some .vuByte ∧ ({ within .fId Scratch.init with cur := 2 } : State).slot = some .vuByte := by
  decide
/-- The third byte as the last one, and the fourth; in each kind of phase. -/
theorem witness_VarUIntEnds :
    (∃ i v n raw, EndsVarUInt { within .vIn Scratch.init with cur := 2 } i v n raw) ∧
      (∃ i v n raw, EndsVarUInt { within .rId Scratch.init with cur := 3 } i v n raw) ∧
      ∃ i v n raw, EndsVarUInt (within .rRlen Scratch.init) i v n raw :=
  ⟨⟨_, _, _, _, .term 5 (by decide)⟩, ⟨_, _, _, _, .fourth 5 (by decide)⟩, ⟨_, _, _, _, .term 5 (by decide)⟩⟩
theorem witness_LengthEnds :
    (∃ i v n raw, EndsVarUInt (within .fLen { Scratch.init with rawId := [42] }) i v n raw) ∧
      ∃ i v n raw, EndsVarUInt { within .rLen { Scratch.init with rawId := [42] } with cur := 3 } i v n raw :=
  ⟨⟨_, _, _, _, .term 0 (by decide)⟩, ⟨_, _, _, _, .fourth 0xFF (by decide)⟩⟩
theorem witness_VsFirst :
    (within .vIn { Scratch.init with signed := true, le := true }).slot = some (.vsFirst true) ∧
      (within .vBuf { Scratch.init with signed := true }).slot = some (.vsFirst false) := by decide
theorem witness_InWaits :
    let s := within .fPay Scratch.init
    s.rst = false ∧ s.ph.takes = true ∧ s.inQ = [] ∧ s.inEos = false ∧ ({ s with inEos := true } : State).inEos = true := by
  decide
/-- No room, and room for all but the last byte. -/
theorem witness_EncodeWaits :
    let s := { buffer [0x47, 0x4E, 0x53, 0x53] with outRoom := some 9 }
    s.busy = false ∧ s.outRoom = some 9 ∧ 9 < gnss.length ∧
      gnss = recordWire false true false 42 (s.pb.readList 0 s.plen.toNat) .xor8 ∧
      0 < (vuEnc ((5 : U64).setWidth 29) true).length ∧ vsEnc true 100 = some [0x41, 0x05] ∧ 1 < [0x41#8, 0x05#8].length := by
  decide +kernel
theorem witness_DecodeWaits :
    let s := { State.reset with inQ := [0x87, 0xFF] }
    s.busy = false ∧ s.inEos = false ∧ vuDec true s.inQ = none ∧ vsDec true s.inQ = none := by decide
/-- REC.ENC waits with room for 9 of its 10 bytes, and ends at once with room for all of them. -/
theorem witness_EncodeWaits_resumes :
    let s := buffer [0x47, 0x4E, 0x53, 0x53]
    Inv s ∧ s.rst = false ∧ s.busy = false ∧ Instr.isCommand (.recEnc false true false 42) = true ∧
      ends (exec (.recEnc false true false 42) { s with outRoom := some 9 }) (fun t => t.busy && t.ph == .eTail) = true ∧
      ends (exec (.recEnc false true false 42) { s with outRoom := (some 1).map (9 + ·) }) (results .ok 10 0 0) = true :=
  ⟨buffer_inv _ (.inl rfl), rfl, rfl, rfl, by decide +kernel, by decide +kernel⟩
/-- REC.DECF waits inside the payload, and ends at once with the rest of the record. -/
theorem witness_DecodeWaits_resumes :
    let s := stream []
    Inv s ∧ s.rst = false ∧ s.busy = false ∧ Instr.isCommand .recDecf = true ∧
      ends (exec .recDecf { s with inQ := gnss.take 5, inEos := false }) (fun t => t.busy && t.ph == .fPay) = true ∧
      ends (exec .recDecf { s with inQ := gnss.take 5 ++ gnss.drop 5, inEos := false }) (results .ok 0 0 10) = true :=
  ⟨stream_inv _ true, rfl, rfl, rfl, by decide +kernel, by decide +kernel⟩
theorem witness_BusyWaits :
    (∃ t, midDecode.busy = true ∧ step midDecode = .next t) ∧ Instr.isCommand .pbClr = true := by
  obtain ⟨t, ht, _⟩ := ends_next (r := step midDecode) (p := fun _ => true) (by decide +kernel)
  exact ⟨⟨t, rfl, ht⟩, rfl⟩
theorem witness_CommandSettles : Inv (stream gnss) ∧ (stream gnss).busy = false ∧ Instr.isCommand .recDecf = true :=
  ⟨stream_inv _ true, rfl, rfl⟩
theorem witness_PhaseMoves : ∃ t, midDecode.ph ≠ .idle ∧ step midDecode = .next t := by
  obtain ⟨t, ht, _⟩ := ends_next (r := step midDecode) (p := fun _ => true) (by decide +kernel)
  exact ⟨t, by decide, ht⟩
theorem witness_ConsCounts : ∃ t, Instr.isCommand .recDecf = true ∧ (stream gnss).busy = false ∧
    exec .recDecf (stream gnss) = .next t := by
  obtain ⟨t, ht, _⟩ := ends_next (r := exec .recDecf (stream gnss)) (p := fun _ => true) (by decide +kernel)
  exact ⟨t, rfl, rfl, ht⟩
theorem witness_ErrorPutsNothing :
    ∃ t, exec (.recEnc true true true 536870912) State.reset = .next t ∧ t.busy = false ∧ t.stat ≠ .ok := by
  obtain ⟨t, ht, hp⟩ := ends_next (r := exec (.recEnc true true true 536870912) State.reset)
    (p := fun t => !t.busy && t.stat == .overflow) (by decide +kernel)
  simp only [Bool.and_eq_true, beq_iff_eq, Bool.not_eq_true'] at hp
  exact ⟨t, ht, hp.1, by simp [hp.2]⟩
/-- A failed decode, and one that waits. -/
theorem witness_NoPartialRecord :
    (∃ t, exec .recDecf (stream [0xFF]) = .next t ∧ t.stat ≠ .ok) ∧ ∃ t, exec .recDecr State.reset = .next t ∧ t.busy = true := by
  obtain ⟨t, ht, hp⟩ := ends_next (r := exec .recDecf (stream [0xFF])) (p := fun t => t.stat == .malformedSync) (by decide +kernel)
  obtain ⟨u, hu, hq⟩ := ends_next (r := exec .recDecr State.reset) (p := fun t => t.busy) (by decide +kernel)
  simp only [beq_iff_eq] at hp
  exact ⟨⟨t, ht, by simp [hp]⟩, u, hu, hq⟩
theorem witness_ResultsForgotten :
    ∃ t, Instr.isCommand .recDecf = true ∧ (stream gnss).busy = false ∧ exec .recDecf (stream gnss) = .next t ∧ t.busy = false := by
  obtain ⟨t, ht, hp⟩ := ends_next (r := exec .recDecf (stream gnss)) (p := fun t => !t.busy) (by decide +kernel)
  exact ⟨t, rfl, rfl, ht, by simpa using hp⟩
theorem witness_UnwrittenUnobservable :
    ∃ t, Inv (buffer [0xFF]) ∧ (buffer [0xFF]).busy = false ∧ Mem.wf Config.pbBytes [(0, 0xFF), (1, 0x33)] ∧
      Mem.wf Config.rbBytes [(7, 1)] ∧
      (∀ x, x < (buffer [0xFF]).plen.toNat → Mem.read [(0, 0xFF), (1, 0x33)] x = (buffer [0xFF]).pb.read x) ∧
      exec (.pbGet 0) (buffer [0xFF]) = .next t := by
  obtain ⟨t, ht, _⟩ := ends_next (r := exec (.pbGet 0) (buffer [0xFF])) (p := fun _ => true) (by decide +kernel)
  exact ⟨t, buffer_inv _ (.inr rfl), rfl, by decide, by decide, by decide, ht⟩

end Sys2Proof.Tests
end

section
/-! What a unit of work can do (10_state.md R30 to R33), said once: every statement about the runs of a command is derived from
`Handled`, `Sent` and `Begun`. -/

namespace Sys2Proof.Machine

open Sys2Proof

/-! ## What the scratch registers hold in a phase -/

/-- The part of `Inv` that speaks of PH, CUR and the scratch registers. -/
structure ScratchFits (p : Phase) (c : U32) (k : Scratch) : Prop where
  dlen : p.payloadKnown = true → k.dlen.toNat ≤ Config.pbBytes
  payCur : p = .fPay → c.toNat < k.dlen.toNat
  tlen : p.stagingKnown = true → k.tlen.toNat + 1 ≤ Config.rbBytes
  got : p = .fRlen ∨ p = .fTail → k.got.length = k.crc.len
  tx : p = .vOut → k.tx.length ≤ 8

theorem Inv.scratchFits {s : State} (h : Inv s) : ScratchFits s.ph s.cur s.scratch :=
  ⟨h.dlenBound, h.fPayCur, h.tlenBound, h.gotLength, h.txLength⟩

/-- A phase whose name bounds nothing, for the scratch registers at their start. -/
theorem ScratchFits.of_free {p : Phase} (hd : p.payloadKnown = false) (ht : p.stagingKnown = false) (hv : p ≠ .vOut) (c : U32)
    (k : Scratch) : ScratchFits p c k := by
  constructor <;> intro h <;> simp_all
  · simp [Phase.payloadKnown] at hd
  · obtain rfl | rfl := h <;> simp [Phase.payloadKnown] at hd

/-- What the scratch registers hold is handed on to a place that bounds no more of them. -/
theorem ScratchFits.carry {p p' : Phase} {c c' : U32} {k k' : Scratch} (h : ScratchFits p c k)
    (hp : p'.payloadKnown = true → p.payloadKnown = true) (hs : p'.stagingKnown = true → p.stagingKnown = true)
    (hd : k'.dlen = k.dlen) (ht : k'.tlen = k.tlen) (hf : p' = .fPay → c'.toNat < k'.dlen.toNat)
    (hg : p' = .fRlen ∨ p' = .fTail → k'.got.length = k'.crc.len) (hv : p' = .vOut → k'.tx.length ≤ 8) :
    ScratchFits p' c' k' where
  dlen h' := hd ▸ h.dlen (hp h')
  payCur := hf
  tlen h' := ht ▸ h.tlen (hs h')
  got := hg
  tx := hv

/-! ## The phase that follows -/

/-- Inside a command the codec works on in its phase at the next CUR, or enters the phase of the "leaves to" column of
10_state.md R30 (R31). -/
def State.MovesTo (s : State) (p : Phase) (c : U32) (empty : Bool) : Prop :=
  (p = s.ph ∧ c = s.cur + 1 ∧ s.cur.toNat + 1 < 2 ^ 32) ∨ (p = s.ph.leavesTo s.scratch.rev empty ∧ p ≠ .idle ∧ c = 0)

/-- A memory as it was, or with one byte written inside it. -/
def Mem.Stores (size : Nat) (m m' : Mem) : Prop := m' = m ∨ ∃ a b, a < size ∧ m' = m.write a b

theorem Mem.Stores.refl (size : Nat) (m : Mem) : Mem.Stores size m m := .inl rfl

theorem Mem.Stores.wf {size : Nat} {m m' : Mem} (h : Mem.Stores size m m') (hm : m.wf size) : m'.wf size := by
  obtain rfl | ⟨a, b, ha, rfl⟩ := h
  · exact hm
  · exact Mem.wf_write hm b ha

/-! ## What the codec can do with a byte -/

/-- A phase that works on bytes of IN, PB or RB (R30). -/
def Phase.reads (p : Phase) : Bool := p = .vBuf || p = .vIn || p.decoding

theorem reads_of_not_sending {p : Phase} (hi : p ≠ .idle) (hs : ¬p.sending = true) : p.reads = true := by
  cases p <;> simp_all [Phase.reads, Phase.sending, Phase.decoding]

/-- What the codec can come to from a state in which it has just taken a byte: an error, a value, a record, the next place of
the command; or a stop, from a state no run reaches (A15). -/
inductive Handled (s : State) : Result → Prop where
  | raised {k : Status} (hk : k.isError = true) : Handled s (.next (s.raise k))
  | valued {st : Status} {v : U64} {nv : Bool} {n : Nat} (hp : s.ph = .vBuf ∨ s.ph = .vIn) (hn : n ≤ 8)
      (hnv : nv = true ↔ st = .noValue) : Handled s (.next (s.complete st v nv n))
  | recorded {g : List Byte} (hp : s.ph = .fTail ∨ s.ph = .rCrc ∨ s.ph = .fCrc ∧ s.scratch.rev = false)
      (hg : s.ph = .fTail ∧ g = s.scratch.got ∨ g = s.scratch.crcField) :
      Handled s (.next ({ s with scratch := { s.scratch with got := g } } : State).recordDone)
  | goesOn {p : Phase} {c : U32} {k : Scratch} {pb rb : Mem} (hm : s.MovesTo p c (k.dlen = 0))
      (hk : ScratchFits s.ph s.cur s.scratch → ScratchFits p c k) (hpb : Mem.Stores Config.pbBytes s.pb pb)
      (hrb : Mem.Stores Config.rbBytes s.rb rb) :
      Handled s (.next { s with ph := p, cur := c, scratch := k, pb := pb, rb := rb })
  | absent {f : Fault} (h : ¬Inv s) : Handled s (.fault f)

/-- The next place of a command that touches neither buffer. -/
theorem Handled.moved {s : State} {p : Phase} {c : U32} {k : Scratch} (hm : s.MovesTo p c (k.dlen = 0))
    (hk : ScratchFits s.ph s.cur s.scratch → ScratchFits p c k) :
    Handled s (.next { s with ph := p, cur := c, scratch := k }) :=
  .goesOn hm hk (.refl _ _) (.refl _ _)

/-- An error forgets what the scratch registers held (60_exceptions.md R193). -/
theorem raise_with_scratch (s : State) (k : Scratch) (e : Status) : ({ s with scratch := k } : State).raise e = s.raise e := by
  unfold State.raise
  split <;> rfl

/-! ### The fields of a value or record -/

theorem crcHeader_eq (k : Scratch) : k.crcHeader = k.feedAll (k.rawId ++ k.rawLen) := rfl

@[simp] theorem crcHeader_dlen (k : Scratch) : k.crcHeader.dlen = k.dlen := by rw [crcHeader_eq, Scratch.feedAll_eq]
@[simp] theorem crcHeader_tlen (k : Scratch) : k.crcHeader.tlen = k.tlen := by rw [crcHeader_eq, Scratch.feedAll_eq]

/-- The payload-length handler refuses the record, or its payload follows (43_record_framer.md R162, R173). -/
theorem lengthHandler_cases (s : State) :
    (∃ e : Status, e.isError = true ∧ s.lengthHandler = s.raise e) ∨
    ∃ c : CrcKind, s.scratch.dlen.toNat ≤ Config.pbBytes ∧
      s.lengthHandler =
        { s with
          ph := if s.ph = .rLen then .rPay else if s.scratch.dlen = 0 then .fCrc else .fPay
          cur := 0
          scratch := (s.scratch.crcBegin c).crcHeader } := by
  unfold State.lengthHandler
  cases crcKind s.scratch.dataLen s.scratch.enh with
  | none => exact .inl ⟨_, rfl, rfl⟩
  | some c =>
    by_cases hbig : Config.pbBytes < s.scratch.dlen.toNat
    · exact .inl ⟨.unsupported, rfl, if_pos hbig⟩
    by_cases hlen : s.ph = .rLen ∧ s.scratch.dataLen + c.len ≠ s.scratch.tlen.toNat
    · exact .inl ⟨.headTailMismatch, rfl, by simp only [if_neg hbig, if_pos hlen]⟩
    · exact .inr ⟨c, by omega, by simp only [if_neg hbig, if_neg hlen]⟩

/-- The end of a length field, in the state that holds the decoded length. -/
theorem lengthHandler_handled {s : State} (hp : s.ph = .fLen ∨ s.ph = .rLen) (v : U29) (raw : List Byte) :
    Handled s (.next ({ s with scratch := { s.scratch with dlen := v, rawLen := raw } } : State).lengthHandler) := by
  obtain ⟨e, he, h⟩ | ⟨c, hd, h⟩ :=
    lengthHandler_cases ({ s with scratch := { s.scratch with dlen := v, rawLen := raw } } : State)
  · rw [h, raise_with_scratch]
    exact .raised he
  · rw [h]
    dsimp only at hd ⊢
    refine .moved (.inr ⟨?_, ?_, rfl⟩) fun hk => ?_
    · obtain hp | hp := hp <;> simp [hp, Phase.leavesTo]
    · split_ifs <;> simp
    · have ht := hk.tlen
      obtain hp | hp := hp
      · by_cases hv : v = 0
        · constructor <;> simp_all [Phase.stagingKnown]
        · have hv' : 0 < v.toNat := Nat.pos_of_ne_zero (BitVec.toNat_ne_iff_ne.2 hv)
          constructor <;> simp_all [Phase.stagingKnown]
      · constructor <;> simp_all [Phase.stagingKnown]

theorem vuSlot_ne_sync (c : U32) : Slot.sync ≠ vuSlot c := by
  unfold vuSlot
  split_ifs <;> simp

theorem vuSlot_ne_command (c : U32) : Slot.command ≠ vuSlot c := by
  unfold vuSlot
  split_ifs <;> simp

/-- The phases that read a VarUInt (30_encoding.md R77). -/
theorem vuSlot_phase {s : State} (hs : s.slot = some (vuSlot s.cur)) :
    s.ph = .vBuf ∨ s.ph = .vIn ∨ s.ph = .fId ∨ s.ph = .rId ∨ s.ph = .fLen ∨ s.ph = .rLen ∨ s.ph = .rRlen := by
  cases hp : s.ph <;> simp [State.slot, hp, vuSlot_ne_sync, vuSlot_ne_command] at hs ⊢

/-- The end of a VarUInt (40_varuint.md R105) in a phase that reads one. -/
theorem vuDone_handled {s : State} (hs : s.slot = some (vuSlot s.cur)) (v : U29) {n : Nat} (hn : n ≤ 8) (raw : List Byte) :
    Handled s (s.vuDone v n raw) := by
  have hph := vuSlot_phase hs
  unfold State.vuDone
  split
  next hp => exact .valued (.inl hp) hn (by simp)
  next hp => exact .valued (.inr hp) hn (by simp)
  next hp => exact .moved (.inr ⟨by simp [hp, Phase.leavesTo], by simp, rfl⟩) fun _ => .of_free rfl rfl (by simp) _ _
  next hp =>
    refine .moved (.inr ⟨by simp [hp, Phase.leavesTo], by simp, rfl⟩) fun hk => ?_
    exact hk.carry (by simp [Phase.payloadKnown]) (by simp [hp, Phase.stagingKnown]) rfl rfl (by simp) (by simp) (by simp)
  next hp => exact lengthHandler_handled (.inl hp) v raw
  next hp => exact lengthHandler_handled (.inr hp) v raw
  next hp =>
    dsimp only
    split_ifs with hbig
    · rw [raise_with_scratch]
      exact .raised rfl
    · refine .moved (.inr ⟨by simp [hp, Phase.leavesTo], by simp, rfl⟩) fun _ => ?_
      constructor <;> simp [Phase.payloadKnown]
      omega
  next h1 h2 h3 h4 h5 h6 h7 => simp_all

/-- A VarUInt byte (40_varuint.md R105). -/
theorem handleByte_vu_handled {s : State} (hs : s.slot = some (vuSlot s.cur)) (b : Byte) : Handled s (s.handleByte b) := by
  rw [handleByte_vu b hs]
  split_ifs with hc hb
  · refine .moved (.inl ⟨rfl, rfl, by omega⟩) fun hk => hk.carry id id rfl rfl (fun hp => ?_) hk.got hk.tx
    have := vuSlot_phase hs
    simp [hp] at this
  · exact vuDone_handled hs _ (by omega) _
  · exact vuDone_handled hs _ (by omega) _

/-! ### VarSInts -/

theorem nibSize_le (nib : BitVec 4) : nibSize nib ≤ 8 := by
  have := (nib.extractLsb' 0 3).isLt
  unfold nibSize
  omega

/-- The end of a VarSInt (41_varsint.md R126). -/
theorem vsDone_handled {s : State} (hp : s.ph = .vBuf ∨ s.ph = .vIn) (k : Scratch) :
    Handled s (.next ({ s with scratch := k } : State).vsDone) := by
  unfold State.vsDone
  split
  · exact .valued hp (nibSize_le _) (by simp)
  · exact .valued hp (by norm_num) (by simp)
  · rw [raise_with_scratch]
    exact .raised rfl

/-- One more byte of a VarSInt is due. -/
theorem value_advance_handled {s : State} (hp : s.ph = .vBuf ∨ s.ph = .vIn) (hc : s.cur.toNat + 1 < 2 ^ 32) (k : Scratch) :
    Handled s (.next ({ s with scratch := k } : State).advance) := by
  refine .moved (.inl ⟨rfl, rfl, hc⟩) fun _ => ?_
  obtain hp | hp := hp <;> rw [hp] <;> exact .of_free rfl rfl (by simp) _ _

theorem vsStart_handled {s : State} (hp : s.ph = .vBuf ∨ s.ph = .vIn) (hc : s.cur = 0) (nib : BitVec 4) (b : Byte) :
    Handled s (.next (s.vsStart nib b)) := by
  unfold State.vsStart
  dsimp only
  split_ifs
  · exact vsDone_handled hp _
  · exact value_advance_handled hp (by simp [hc]) _

theorem vsMore_handled {s : State} (hp : s.ph = .vBuf ∨ s.ph = .vIn) (b : Byte) : Handled s (.next (s.vsMore b)) := by
  have hn := nibSize_le s.scratch.nib
  unfold State.vsMore
  dsimp only
  split_ifs
  · exact vsDone_handled hp _
  · exact value_advance_handled hp (by omega) _

/-! ### The bytes of a record -/

/-- A payload byte (43_record_framer.md R160, R170); R_PAY asks for one only below the payload length. -/
theorem payByte_handled {s : State} {p : Phase} (hp : s.ph = .fPay ∧ p = .fCrc ∨ s.ph = .rPay ∧ p = .rCrc)
    (hc : s.ph = .rPay → s.cur.toNat < s.scratch.dlen.toNat) (b : Byte) : Handled s (s.payByte p b) := by
  have hd := s.scratch.dlen.isLt
  have hknown : s.ph.payloadKnown = true := by obtain ⟨h, _⟩ | ⟨h, _⟩ := hp <;> rw [h] <;> rfl
  unfold State.payByte
  dsimp only
  split_ifs with hbig hlast
  · refine .absent fun h => ?_
    have hd := h.dlenBound hknown
    have hcur : s.cur.toNat < s.scratch.dlen.toNat := hp.elim (fun hf => h.fPayCur hf.1) fun hr => hc hr.1
    omega
  · have hpb : Mem.Stores Config.pbBytes s.pb (s.pb.write s.cur.toNat b) := .inr ⟨_, b, by omega, rfl⟩
    refine .goesOn (.inr ⟨?_, ?_, rfl⟩) (fun hk => hk.carry (fun _ => hknown) ?_ rfl rfl ?_ ?_ ?_) hpb (.refl _ _) <;>
      obtain ⟨h, rfl⟩ | ⟨h, rfl⟩ := hp <;> simp [h, Phase.leavesTo, Phase.stagingKnown]
  · have hpb : Mem.Stores Config.pbBytes s.pb (s.pb.write s.cur.toNat b) := .inr ⟨_, b, by omega, rfl⟩
    refine .goesOn (.inl ⟨rfl, rfl, by omega⟩) (fun hk => hk.carry id id rfl rfl (fun _ => ?_) hk.got hk.tx) hpb
      (.refl _ _)
    simp [BitVec.toNat_add]
    omega

theorem CrcKind.len_le (c : CrcKind) : c.len ≤ 4 := by cases c <;> decide

/-- A CRC byte (R160, R170): on the last one the taken bytes are the computed ones, or the decode fails. -/
theorem crcByte_handled {s : State} (hp : s.ph = .fCrc ∨ s.ph = .rCrc) (b : Byte) : Handled s (.next (s.crcByte b)) := by
  have hlen := s.scratch.crc.len_le
  have hfield : ({ s.scratch with got := s.scratch.got ++ [b] } : Scratch).crcField = s.scratch.crcField := rfl
  unfold State.crcByte
  dsimp only
  rw [hfield]
  split_ifs with hlast hne hrev
  · rw [raise_with_scratch]
    exact .raised rfl
  · refine .moved (.inr ⟨by simp [hrev, Phase.leavesTo], by simp, rfl⟩) fun hk => ?_
    refine hk.carry (by simp [hrev.1, Phase.payloadKnown]) (by simp [Phase.stagingKnown]) rfl rfl (by simp) ?_ (by simp)
    intro _
    rw [not_not.1 hne]
    simp
  · refine .recorded ?_ (.inr (not_not.1 hne))
    obtain hp | hp := hp <;> simp_all
  · refine .moved (.inl ⟨rfl, rfl, by omega⟩) fun hk => hk.carry id id rfl rfl ?_ ?_ hk.tx <;>
      obtain hp | hp := hp <;> simp [hp]

theorem trailerLen_length_le (k : Scratch) : k.trailerLen.length ≤ 4 := by
  simpa [Scratch.trailerLen] using (vuEnc_length_bounds _ k.le).2

/-- A byte of the trailing length (R163). -/
theorem rlenByte_handled {s : State} (hp : s.ph = .fRlen) (b : Byte) : Handled s (.next (s.rlenByte b)) := by
  have hlen := trailerLen_length_le s.scratch
  unfold State.rlenByte
  dsimp only
  split_ifs with hlast hne
  · rw [raise_with_scratch]
    exact .raised rfl
  · refine .moved (.inr ⟨by simp [hp, Phase.leavesTo], by simp, rfl⟩) fun hk => ?_
    exact hk.carry (by simp [hp, Phase.payloadKnown]) (by simp [Phase.stagingKnown]) rfl rfl (by simp)
      (fun _ => hk.got (.inl hp)) (by simp)
  · exact .moved (.inl ⟨rfl, rfl, by omega⟩) fun hk => hk.carry id id rfl rfl (by simp [hp]) hk.got hk.tx

/-- A staged byte (R171). -/
theorem fillByte_handled {s : State} (hp : s.ph = .rFill) (b : Byte) : Handled s (s.fillByte b) := by
  have ht := s.scratch.tlen.isLt
  unfold State.fillByte
  dsimp only
  split_ifs with hbig hlast
  · exact .absent fun h => absurd (h.tlenBound (by simp [hp, Phase.stagingKnown])) (by omega)
  · refine .goesOn (.inr ⟨by simp [hp, Phase.leavesTo], by simp, rfl⟩) (fun hk => ?_) (.refl _ _)
      (.inr ⟨_, b, not_le.1 hbig, rfl⟩)
    exact hk.carry (by simp [Phase.payloadKnown]) (by simp [hp, Phase.stagingKnown]) rfl rfl (by simp) (by simp) (by simp)
  · exact .goesOn (.inl ⟨rfl, rfl, by omega⟩) (fun hk => hk.carry id id rfl rfl (by simp [hp]) hk.got hk.tx)
      (.refl _ _) (.inr ⟨_, b, not_le.1 hbig, rfl⟩)

/-! ### Sync bytes -/

/-- The phases in which a sync byte is due (30_encoding.md R84). -/
def Phase.awaitsSync (p : Phase) : Prop := p = .fSync ∨ p = .fTail ∨ p = .rTail ∨ p = .rHead

theorem badSync_handled (s : State) : Handled s (.next s.badSync) := by
  unfold State.badSync
  split_ifs <;> exact .raised rfl

theorem headSync_handled {s : State} (hp : s.ph.awaitsSync) (le rev enh : Bool) : Handled s (s.headSync le rev enh) := by
  unfold State.headSync
  split
  next hf => exact .moved (.inr ⟨by simp [hf, Phase.leavesTo], by simp, rfl⟩) fun _ => .of_free rfl rfl (by simp) _ _
  next => exact .raised rfl
  next => exact .raised rfl
  next hr =>
    split_ifs
    · refine .moved (.inr ⟨by simp [hr, Phase.leavesTo], by simp, rfl⟩) fun hk => ?_
      exact hk.carry (by simp [Phase.payloadKnown]) (by simp [hr, Phase.stagingKnown]) rfl rfl (by simp) (by simp) (by simp)
    · exact .raised rfl
  next h1 h2 h3 h4 => exact absurd hp (by simpa [Phase.awaitsSync] using ⟨h1, h2, h3, h4⟩)

theorem tailSync_handled {s : State} (hp : s.ph.awaitsSync) (le enh : Bool) : Handled s (s.tailSync le enh) := by
  unfold State.tailSync
  split
  next => exact .raised rfl
  next hf =>
    split_ifs
    · exact .recorded (.inl hf) (.inl ⟨hf, rfl⟩)
    · exact .raised rfl
  next hr => exact .moved (.inr ⟨by simp [hr, Phase.leavesTo], by simp, rfl⟩) fun _ => .of_free rfl rfl (by simp) _ _
  next => exact .raised rfl
  next h1 h2 h3 h4 => exact absurd hp (by simpa [Phase.awaitsSync] using ⟨h1, h2, h3, h4⟩)

theorem handleByte_sync_handled {s : State} (hs : s.slot = some .sync) (hp : s.ph.awaitsSync) (b : Byte) :
    Handled s (s.handleByte b) := by
  rw [handleByte_sync b hs]
  split
  · exact headSync_handled hp _ _ _
  · split
    · exact tailSync_handled hp _ _
    · exact badSync_handled s

/-! ### Any byte -/

/-- What a phase that works on bytes reads next (30_encoding.md R86). -/
theorem slot_cases {s : State} (h : s.ph.reads = true) :
    (s.slot = some .sync ∧ s.ph.awaitsSync) ∨ s.slot = some (vuSlot s.cur) ∨
    ((s.ph = .vBuf ∨ s.ph = .vIn) ∧ s.cur = 0 ∧ ∃ le, s.slot = some (.vsFirst le)) ∨
    (s.slot = none ∧ (s.ph = .vBuf ∨ s.ph = .vIn ∨ s.ph = .fPay ∨ s.ph = .rPay ∨ s.ph = .fCrc ∨ s.ph = .rCrc ∨
      s.ph = .fRlen ∨ s.ph = .rFill)) := by
  have value : (s.ph = .vBuf ∨ s.ph = .vIn) →
      s.slot = if s.scratch.signed then (if s.cur = 0 then some (.vsFirst s.scratch.le) else none) else some (vuSlot s.cur) := by
    rintro (hp | hp) <;> simp [State.slot, hp]
  by_cases hv : s.ph = .vBuf ∨ s.ph = .vIn
  · rw [value hv]
    split_ifs with hsig hc
    · exact .inr (.inr (.inl ⟨hv, hc, _, rfl⟩))
    · exact .inr (.inr (.inr ⟨rfl, hv.elim .inl (.inr ∘ .inl)⟩))
    · exact .inr (.inl rfl)
  · unfold State.slot
    cases hp : s.ph <;> simp_all [Phase.awaitsSync, Phase.reads, Phase.decoding]

/-- A plain byte (R86). -/
theorem dataByte_handled {s : State} (hp : s.ph = .vBuf ∨ s.ph = .vIn ∨ s.ph = .fPay ∨ s.ph = .rPay ∨
    s.ph = .fCrc ∨ s.ph = .rCrc ∨ s.ph = .fRlen ∨ s.ph = .rFill)
    (hpay : s.ph = .rPay → s.cur.toNat < s.scratch.dlen.toNat) (b : Byte) : Handled s (s.dataByte b) := by
  unfold State.dataByte
  split
  next h => exact vsMore_handled (.inl h) b
  next h => exact vsMore_handled (.inr h) b
  next h => exact payByte_handled (.inl ⟨h, rfl⟩) hpay b
  next h => exact payByte_handled (.inr ⟨h, rfl⟩) hpay b
  next h => exact crcByte_handled (.inl h) b
  next h => exact crcByte_handled (.inr h) b
  next h => exact rlenByte_handled h b
  next h => exact fillByte_handled h b
  next h1 h2 h3 h4 h5 h6 h7 h8 => exact absurd hp (by simpa using ⟨h1, h2, h3, h4, h5, h6, h7, h8⟩)

/-- What the codec does with a byte it has just taken. -/
theorem handleByte_handled {s : State} (h : s.ph.reads = true)
    (hpay : s.ph = .rPay → s.cur.toNat < s.scratch.dlen.toNat) (b : Byte) : Handled s (s.handleByte b) := by
  obtain ⟨hs, hp⟩ | hs | ⟨hp, hc, le, hs⟩ | ⟨hs, hp⟩ := slot_cases h
  · exact handleByte_sync_handled hs hp b
  · exact handleByte_vu_handled hs b
  · rw [handleByte_vsFirst b hs]
    exact vsStart_handled hp hc _ b
  · rw [handleByte_data b hs]
    exact dataByte_handled hp hpay b

/-! ## What a unit of work can do -/

theorem fetchPb_absent {s : State} {a n : Nat} {f : Fault} (h : s.fetchPb a n = .absent f) : Config.pbBytes < n := by
  unfold State.fetchPb at h
  split_ifs at h
  omega

theorem fetchRb_absent {s : State} {p : Nat} {f : Fault} (h : s.fetchRb p = .absent f) :
    Config.rbBytes ≤ s.scratch.tlen.toNat := by
  unfold State.fetchRb at h
  split_ifs at h
  omega

theorem take_ne_absent (s : State) (f : Fault) : s.take ≠ .absent f := by
  unfold State.take
  split
  · simp
  · split_ifs <;> simp

/-- A decode asks for a missing address of PB or RB only in a state no run reaches (A15). -/
theorem nextByte_absent {s : State} {f : Fault} (h : s.nextByte = .absent f) : ¬Inv s := by
  intro hs
  have staged : ∀ p, s.ph.stagingKnown = true → s.fetchRb p ≠ .absent f := fun p hp hf => by
    have h1 := fetchRb_absent hf
    have h2 := hs.tlenBound hp
    omega
  unfold State.nextByte at h
  split at h
  next =>
    have h1 := fetchPb_absent h
    have h2 := hs.plenBound
    omega
  all_goals first
    | exact take_ne_absent s f h
    | cases h
    | exact staged _ (by simp_all [Phase.stagingKnown]) h

/-- `u` is `s`, or `s` with the first byte of IN taken. -/
def State.TakesTo (s u : State) : Prop := u = s ∨ ∃ b q, s.inQ = b :: q ∧ u = s.took q

theorem nextByte_takesTo {s u : State} {b : Byte} (h : s.nextByte = .got b u) : s.TakesTo u :=
  (nextByte_got h).imp id fun ⟨q, hq, hu⟩ => ⟨b, q, hq, hu⟩

/-- A byte on OUT, with the CRC fed: OUT and the running CRC are all that changes (20_memory.md R58, 43_record_framer.md R155). -/
def State.PutsTo (s u : State) : Prop :=
  ∃ (q : List OutByte) (room : Option Nat) (c : U32) (x : Byte),
    u = { s with outQ := q, outRoom := room, scratch := { s.scratch with crcs := c, xors := x } }

theorem State.PutsTo.refl (s : State) : s.PutsTo s := ⟨s.outQ, s.outRoom, s.scratch.crcs, s.scratch.xors, rfl⟩

theorem put_txFeed {s u : State} {b : Byte} {last : Bool} (h : s.put b last = some u) : s.PutsTo (u.txFeed b) := by
  have hu : ∃ room, u = { s with outQ := s.outQ ++ [⟨b, last⟩], outRoom := room } := by
    unfold State.put at h
    split at h <;> simp only [Option.some.injEq, reduceCtorEq] at h <;> exact ⟨_, h.symm⟩
  obtain ⟨room, rfl⟩ := hu
  unfold State.txFeed
  split <;> exact ⟨_, room, _, _, rfl⟩

/-- What one unit of a sending phase can come to: the next byte of its field, its end, or a stop from a state no run reaches. -/
inductive Sent (s : State) : Result → Prop where
  | advanced {u : State} (hu : s.PutsTo u) (hc : s.cur.toNat + 1 < s.txLen) : Sent s (.next u.advance)
  | left {u : State} (hu : s.PutsTo u) : Sent s (.next u.txNext)
  | absent {f : Fault} (h : ¬Inv s) : Sent s (.fault f)

theorem sendUnit_sent {s : State} {r : Result} (h : s.sendUnit = some r) : Sent s r := by
  unfold State.sendUnit at h
  split at h
  next b v hb =>
    obtain ⟨u, hu, rfl⟩ := Option.map_eq_some_iff.1 h
    dsimp only
    split_ifs with hlast
    · exact .left (put_txFeed hu)
    · exact .advanced (put_txFeed hu) (by omega)
  next f hf =>
    cases h
    refine .absent fun hs => ?_
    unfold State.txByte at hf
    split_ifs at hf with hp
    · have h1 := fetchPb_absent hf
      have h2 := hs.dlenBound (by simp [hp, Phase.payloadKnown])
      omega
    · split at hf <;> cases hf
  next =>
    cases h
    exact .left (.refl s)

/-- The end of a sending phase: the phase that follows, or the end of the command (10_state.md R30, 43_record_framer.md R159). -/
theorem txNext_cases {s : State} (hp : s.ph.sending = true) :
    (s.ph = .vOut ∧ s.txNext = s.complete .ok 0 false s.scratch.tx.length) ∨
    ((s.ph = .eTail ∨ s.ph = .eCrc ∧ s.scratch.rev = false) ∧ s.txNext = s.encodeDone) ∨
    (s.ph.leavesTo s.scratch.rev (s.scratch.dlen = 0) ≠ .idle ∧
      s.txNext = s.enter (s.ph.leavesTo s.scratch.rev (s.scratch.dlen = 0))) := by
  unfold State.txNext
  cases h : s.ph <;> simp_all [Phase.sending, Phase.leavesTo]
  · split_ifs <;> simp
  · cases s.scratch.rev <;> simp

/-- What one unit of work can come to. -/
theorem unit_cases {s : State} {r : Result} (h : s.unit = some r) :
    (s.ph.sending = true ∧ Sent s r) ∨ (s.ph.reads = true ∧ ∃ u, s.TakesTo u ∧ Handled u r) := by
  unfold State.unit at h
  split_ifs at h with hidle hsend hpay
  · exact .inl ⟨hsend, sendUnit_sent h⟩
  · cases h
    refine .inr ⟨by simp [hpay.1, Phase.reads, Phase.decoding], s, .inl rfl, ?_⟩
    refine .moved (.inr ⟨by simp [hpay.1, Phase.leavesTo], by simp, rfl⟩) fun hk => ?_
    exact hk.carry (by simp [hpay.1, Phase.payloadKnown]) (by simp [hpay.1, Phase.stagingKnown]) rfl rfl (by simp) (by simp)
      (by simp)
  · have hr : s.ph.reads = true := reads_of_not_sending hidle hsend
    refine .inr ⟨hr, ?_⟩
    split at h
    next => cases h
    next => cases h; exact ⟨s, .inl rfl, .raised rfl⟩
    next f hf => cases h; exact ⟨s, .inl rfl, .absent (nextByte_absent hf)⟩
    next b u hu =>
      cases h
      refine ⟨u, nextByte_takesTo hu, handleByte_handled ?_ ?_ b⟩
      · obtain rfl | ⟨_, q, _, rfl⟩ := nextByte_takesTo hu <;> exact hr
      · obtain rfl | ⟨_, q, _, rfl⟩ := nextByte_takesTo hu <;> exact fun hp => not_le.1 fun hc => hpay ⟨hp, hc⟩

end Sys2Proof.Machine
end

section
/-! What a command can begin with, and the invariant of the registers. -/

namespace Sys2Proof.Machine

open Sys2Proof

/-! ## What a command can begin with -/

/-- The first state of a command that runs phase by phase: a value is sent or read, a record is sent or read. -/
inductive Started (s : State) : State → Prop where
  | sends {bs : List Byte} (hb : bs.length ≤ 8) : Started s { s.accept .vOut with scratch := { Scratch.init with tx := bs } }
  | reads {p : Phase} (hp : p = .vBuf ∨ p = .vIn) (k : Scratch) : Started s { s.accept p with scratch := k }
  | encodes (le rev enh : Bool) (id : U29) (c : CrcKind) : Started s (s.beginEncode le rev enh id c)
  | decodes {p : Phase} (hp : p = .fSync ∨ p = .rTail) : Started s (s.accept p).clearRecord

/-- What a command but NOP does once accepted: it ends at once, or it runs from its first state. -/
inductive Begun (s : State) : Result → Prop where
  | failed {p : Phase} {e : Status} (hp : p.decoding = false) (he : e.isError = true) : Begun s (.next ((s.accept p).raise e))
  | stored {off : U32} {bs : List Byte} {n : Nat} (hw : (s.accept .vBuf).writable off bs.length = true) (hn : n ≤ 8) :
      Begun s (.next (((s.accept .vBuf).writePb off bs).complete .ok 0 false n))
  | fetched {v : U64} : Begun s (.next ((s.accept .vBuf).complete .ok v false 0))
  | cleared : Begun s (.next ((s.accept .vBuf).clearRecord.complete .ok 0 false 0))
  | absent {f : Fault} (h : ¬Inv s) : Begun s (.fault f)
  | runs {u : State} (hu : Started s u) : Begun s u.run

theorem whenFree_free {s : State} (h : s.busy = false) (r : Result) : s.whenFree r = r := by
  simp [State.whenFree, h]

theorem whenFree_begun {s : State} (h : s.busy = false) {r : Result} (hr : Begun s r) : Begun s (s.whenFree r) :=
  (whenFree_free h r).symm ▸ hr

theorem encodeTo_begun (s : State) (strm : Bool) (off : U32) {bs : List Byte} (hb : bs.length ≤ 8) :
    Begun s (s.encodeTo strm off bs) := by
  unfold State.encodeTo
  dsimp only
  split_ifs with hs hw
  · exact .runs (.sends hb)
  · exact .stored hw hb
  · exact .failed rfl rfl

theorem decodeFrom_begun (s : State) (signed le strm : Bool) (off : U32) : Begun s (s.decodeFrom signed le strm off) := by
  unfold State.decodeFrom
  dsimp only
  split_ifs
  · exact .runs (.reads (.inr rfl) _)
  · exact .failed rfl rfl
  · exact .runs (.reads (.inl rfl) _)

/-- A VarSInt has at most 8 bytes (41_varsint.md R122). -/
theorem vsEnc_length_le {le : Bool} {a : U64} {bs : List Byte} (h : vsEnc le a = some bs) : bs.length ≤ 8 := by
  obtain ⟨n, hn, rfl⟩ := Option.map_eq_some_iff.1 (show Option.map _ (vsSize (vsSplit a).2) = some bs from h)
  simpa using (vsSize_bounds hn).2.1

theorem execVuEnc_begun {s : State} (h : s.busy = false) (le strm : Bool) (off : U32) (a : U64) :
    Begun s (execVuEnc le strm off a s) := by
  rw [execVuEnc, whenFree_free h]
  split
  · exact .failed (by cases strm <;> rfl) rfl
  · exact encodeTo_begun s strm off ((vuEnc_length_bounds _ le).2.trans (by norm_num))

theorem execVsEnc_begun {s : State} (h : s.busy = false) (le strm nvf : Bool) (off : U32) (a : U64) :
    Begun s (execVsEnc le strm nvf off a s) := by
  rw [execVsEnc, whenFree_free h]
  split
  · exact .failed (by cases strm <;> rfl) rfl
  · next bs hbs =>
    refine encodeTo_begun s strm off ?_
    split_ifs at hbs
    · cases hbs
      simp
    · exact vsEnc_length_le hbs

theorem execPbGet_begun {s : State} (h : s.busy = false) (off : U32) : Begun s (execPbGet off s) := by
  rw [execPbGet, whenFree_free h]
  dsimp only
  split
  · next b u hu =>
    unfold State.fetchPb at hu
    split_ifs at hu
    cases hu
    exact .fetched
  · next f hf =>
    have h1 := fetchPb_absent hf
    exact .absent fun hs => absurd hs.plenBound (not_le.2 h1)
  · exact .failed rfl rfl

theorem execRecEnc_begun {s : State} (h : s.busy = false) (le rev enh : Bool) (a : U64) :
    Begun s (execRecEnc le rev enh a s) := by
  rw [execRecEnc, whenFree_free h]
  dsimp only
  split_ifs
  · exact .failed rfl rfl
  · split
    · exact .failed rfl rfl
    · exact .runs (.encodes ..)

/-- What each command of a free codec begins with. -/
theorem exec_begun {i : Instr} {s : State} (hi : i.isCommand = true) (hn : i ≠ .nop) (h : s.busy = false) :
    Begun s (exec i s) := by
  cases i with
  | nop => exact absurd rfl hn
  | vuEnc le strm off a => exact execVuEnc_begun h le strm off a
  | vuDec le strm off => exact whenFree_begun h (decodeFrom_begun s false le strm off)
  | vsEnc le strm nvf off a => exact execVsEnc_begun h le strm nvf off a
  | vsDec le strm off => exact whenFree_begun h (decodeFrom_begun s true le strm off)
  | pbPut off b =>
    simp only [exec, execPbPut, whenFree_free h]
    split_ifs with hw
    · exact .stored hw (by norm_num)
    · exact .failed rfl rfl
  | pbGet off => exact execPbGet_begun h off
  | pbClr => exact whenFree_begun h .cleared
  | recEnc le rev enh a => exact execRecEnc_begun h le rev enh a
  | recDecf => exact whenFree_begun h (.runs (.decodes (.inl rfl)))
  | recDecr => exact whenFree_begun h (.runs (.decodes (.inr rfl)))
  | _ => simp [Instr.isCommand, Instr.slot] at hi

/-! ## The invariant -/

/-- What a state goes on to inside a command keeps the invariant where the buffers and the scratch registers do. -/
theorem Inv.goesOn {s : State} (h : Inv s) (hs : s.ph ≠ .idle) {p : Phase} {c : U32} {k : Scratch} {pb rb : Mem}
    (hp : p ≠ .idle) (hk : ScratchFits p c k) (hpb : Mem.wf Config.pbBytes pb) (hrb : Mem.wf Config.rbBytes rb) :
    Inv { s with ph := p, cur := c, scratch := k, pb := pb, rb := rb } :=
  { h with
    pbWf := hpb, rbWf := hrb
    busyPhase := iff_of_true (h.busyPhase.2 hs) hp
    idleCur := fun hi => absurd hi hp
    dlenBound := hk.dlen, fPayCur := hk.payCur, tlenBound := hk.tlen, gotLength := hk.got, txLength := hk.tx }

/-- Accepting a command (10_state.md R27, R32). -/
theorem Inv.accept {s : State} (h : Inv s) {p : Phase} (hp : p ≠ .idle) {k : Scratch} (hk : ScratchFits p 0 k) :
    Inv { s.accept p with scratch := k } :=
  { h with
    busyPhase := iff_of_true rfl hp
    idleCur := fun _ => rfl
    dlenBound := hk.dlen, fPayCur := hk.payCur, tlenBound := hk.tlen, gotLength := hk.got, txLength := hk.tx }

/-- Accepting a command whose first phase bounds nothing: the value and buffer commands and the record decodes. -/
theorem Inv.accept_free {s : State} (h : Inv s) {p : Phase} (hp : p = .vBuf ∨ p = .vIn ∨ p = .fSync ∨ p = .rTail)
    (k : Scratch) : Inv { s.accept p with scratch := k } := by
  obtain rfl | rfl | rfl | rfl := hp <;> exact h.accept (by simp) (.of_free rfl rfl (by simp) _ _)

/-- The empty Record (43_record_framer.md R164). -/
theorem Inv.clearRecord {s : State} (h : Inv s) : Inv s.clearRecord :=
  { h with
    plenBound := Nat.zero_le _, ridBound := Nat.zero_le _, syncLegal := .inl rfl, crclenLegal := .inl rfl
    crcbBound := by simp
    emptyRecord := fun _ => ⟨rfl, rfl, rfl⟩ }

/-- The end of a command leaves IDLE, whatever it was doing. -/
theorem Inv.complete {s : State} (h : Inv s) {st : Status} {v : U64} {nv : Bool} {n : Nat} (hn : n ≤ 8)
    (hnv : nv = true ↔ st = .noValue) : Inv (s.complete st v nv n) :=
  { h with
    cntBound := by simp; omega
    nvStat := hnv
    busyPhase := by simp
    idleCur := fun _ => rfl
    dlenBound := by simp [Phase.payloadKnown]
    fPayCur := by simp
    tlenBound := by simp [Phase.stagingKnown]
    gotLength := by simp
    txLength := by simp }

theorem raise_eq_complete (s : State) (e : Status) :
    s.raise e = (if s.ph.decoding then s.clearRecord else s).complete e 0 false 0 := rfl

/-- An exception (60_exceptions.md R193). -/
theorem Inv.raise {s : State} (h : Inv s) {e : Status} (he : e.isError = true) : Inv (s.raise e) := by
  have hnv : false = true ↔ e = .noValue := by cases e <;> simp_all [Status.isError]
  rw [raise_eq_complete]
  split_ifs
  · exact h.clearRecord.complete (by norm_num) hnv
  · exact h.complete (by norm_num) hnv

/-- The write of a value's bytes within the bound of 20_memory.md R60. -/
theorem Inv.writePb {s : State} (h : Inv s) {off : U32} {bs : List Byte} (hw : s.writable off bs.length = true) :
    Inv (s.writePb off bs) := by
  have hb := h.plenBound
  simp only [State.writable, Bool.and_eq_true, decide_eq_true_eq] at hw
  obtain ⟨hoff, hend⟩ := hw
  have hpb : Config.pbBytes = 1048576 := rfl
  exact
    { h with
      pbWf := Mem.wf_writeList bs h.pbWf hend
      plenBound := by simp; omega }

/-- CRCB as a number: the first byte lowest (10_state.md R35). -/
theorem packCrc_cons_toNat (b : Byte) {bs : List Byte} (h : (packCrc bs).toNat < 2 ^ 24) :
    (packCrc (b :: bs)).toNat = b.toNat + 256 * (packCrc bs).toNat := by
  have hb := b.isLt
  rw [packCrc, BitVec.toNat_or, BitVec.toNat_shiftLeft, BitVec.toNat_setWidth, Nat.shiftLeft_eq, Nat.mod_eq_of_lt (by omega),
    Nat.mod_eq_of_lt (by omega), Nat.mul_comm, ← Nat.two_pow_add_eq_or_of_lt hb, Nat.add_comm]

/-- CRC bytes fit CRCB below their number (10_state.md R35). -/
theorem packCrc_lt {bs : List Byte} (h : bs.length ≤ 4) : (packCrc bs).toNat < 2 ^ (8 * bs.length) := by
  induction bs with
  | nil => simp [packCrc]
  | cons b bs ih =>
    simp only [List.length_cons] at h ⊢
    have hlt := ih (by omega)
    have h24 : 2 ^ (8 * bs.length) ≤ 2 ^ 24 := Nat.pow_le_pow_right (by norm_num) (by omega)
    have hb := b.isLt
    rw [packCrc_cons_toNat b (by omega), show 8 * (bs.length + 1) = 8 * bs.length + 8 by ring, pow_add]
    omega

theorem headByte_mem_headSet (le rev enh : Bool) : headByte le rev enh ∈ headSet := by
  revert le rev enh
  decide

theorem headByte_ne_zero (le rev enh : Bool) : headByte le rev enh ≠ 0 := by
  revert le rev enh
  decide

/-- The record registers of a record that was put or taken (R28, R29, R34, R35). -/
theorem Inv.hold {s : State} (h : Inv s) (le rev enh : Bool) (id : U29) {n : U32} (hn : n.toNat ≤ Config.pbBytes)
    {crc : List Byte} {c : CrcKind} (hc : crc.length = c.len) :
    Inv { s with
      sync := headByte le rev enh, rid := id.setWidth 32, plen := n, crclen := BitVec.ofNat 3 c.len, crcb := packCrc crc } :=
  { h with
    plenBound := hn
    ridBound := by
      have := id.isLt
      simp [vuMax]
      omega
    syncLegal := .inr (headByte_mem_headSet le rev enh)
    crclenLegal := by cases c <;> simp [CrcKind.len]
    crcbBound := by
      have := packCrc_lt (bs := crc) (hc ▸ c.len_le)
      rw [hc] at this
      cases c <;> simpa [CrcKind.len] using this
    emptyRecord := fun h0 => absurd h0 (headByte_ne_zero le rev enh) }

theorem Inv.recordDone {s : State} (h : Inv s) (hd : s.scratch.dlen.toNat ≤ Config.pbBytes) {g : List Byte}
    (hg : g.length = s.scratch.crc.len) : Inv ({ s with scratch := { s.scratch with got := g } } : State).recordDone :=
  (h.hold _ _ _ s.scratch.id (n := s.scratch.dlen.setWidth 32) (by simp; omega) hg).complete (by norm_num) (by simp)

theorem Inv.encodeDone {s : State} (h : Inv s) : Inv s.encodeDone :=
  (h.hold _ _ _ s.scratch.id h.plenBound (crcField_length s.scratch)).complete (by norm_num) (by simp)

/-! ## Every unit keeps the invariant -/

theorem reads_ne_idle {p : Phase} (h : p.reads = true) : p ≠ .idle := by
  rintro rfl
  simp [Phase.reads, Phase.decoding] at h

theorem sending_ne_idle {p : Phase} (h : p.sending = true) : p ≠ .idle := by
  rintro rfl
  simp [Phase.sending] at h

/-- Taking a byte from IN changes no register of the invariant. -/
theorem State.TakesTo.inv {s u : State} (hu : s.TakesTo u) (h : Inv s) : Inv u := by
  obtain rfl | ⟨b, q, _, rfl⟩ := hu
  · exact h
  · exact { h with }

theorem State.TakesTo.ph {s u : State} (hu : s.TakesTo u) : u.ph = s.ph := by
  obtain rfl | ⟨b, q, _, rfl⟩ := hu <;> rfl

theorem State.TakesTo.busy {s u : State} (hu : s.TakesTo u) : u.busy = s.busy := by
  obtain rfl | ⟨b, q, _, rfl⟩ := hu <;> rfl

/-- Putting a byte on OUT changes no register of the invariant. -/
theorem State.PutsTo.inv {s u : State} (hu : s.PutsTo u) (h : Inv s) : Inv u := by
  obtain ⟨q, room, c, x, rfl⟩ := hu
  exact { h with }

theorem State.PutsTo.ph {s u : State} (hu : s.PutsTo u) : u.ph = s.ph := by
  obtain ⟨q, room, c, x, rfl⟩ := hu
  rfl

theorem Handled.inv {s t : State} (ht : Handled s (.next t)) (hp : s.ph ≠ .idle) (h : Inv s) : Inv t := by
  cases ht with
  | raised hk => exact h.raise hk
  | valued _ hn hnv => exact h.complete hn hnv
  | recorded hend hg =>
    refine h.recordDone (h.dlenBound ?_) ?_
    · obtain hp | hp | ⟨hp, _⟩ := hend <;> simp [hp, Phase.payloadKnown]
    · obtain ⟨hf, rfl⟩ | rfl := hg
      · exact h.gotLength (.inr hf)
      · exact crcField_length _
  | goesOn hm hk hpb hrb =>
    refine h.goesOn hp ?_ (hk h.scratchFits) (hpb.wf h.pbWf) (hrb.wf h.rbWf)
    obtain ⟨rfl, _⟩ | ⟨_, hi, _⟩ := hm
    · exact hp
    · exact hi

/-- A sending phase of REC.ENC leaves to another one (10_state.md R30). -/
theorem sending_leavesTo {p : Phase} {rev e : Bool} (hp : p.sending = true) (hi : p.leavesTo rev e ≠ .idle) :
    p.payloadKnown = true ∧ (p.leavesTo rev e).sending = true ∧ p.leavesTo rev e ≠ .vOut := by
  revert hp hi
  cases p <;> cases rev <;> cases e <;> simp [Phase.sending, Phase.payloadKnown, Phase.leavesTo]

/-- A sending phase bounds the payload length and the bytes of a value only. -/
theorem ScratchFits.of_sending {p : Phase} {c : U32} {k : Scratch} (hp : p.sending = true)
    (hd : p ≠ .vOut → k.dlen.toNat ≤ Config.pbBytes) (hv : p = .vOut → k.tx.length ≤ 8) : ScratchFits p c k := by
  cases p <;> simp_all [Phase.sending] <;> constructor <;> simp_all [Phase.payloadKnown, Phase.stagingKnown]

theorem Inv.dlen_of_sending {s : State} (h : Inv s) (hp : s.ph.sending = true) (hv : s.ph ≠ .vOut) :
    s.scratch.dlen.toNat ≤ Config.pbBytes :=
  h.dlenBound (by cases hs : s.ph <;> simp_all [Phase.sending, Phase.payloadKnown])

theorem txNext_inv {s : State} (hp : s.ph.sending = true) (h : Inv s) : Inv s.txNext := by
  obtain ⟨hv, ht⟩ | ⟨_, ht⟩ | ⟨hi, ht⟩ := txNext_cases hp <;> rw [ht]
  · exact h.complete (h.txLength hv) (by simp)
  · exact h.encodeDone
  · obtain ⟨hd, hs, hv⟩ := sending_leavesTo hp hi
    exact h.goesOn (sending_ne_idle hp) hi (.of_sending hs (fun _ => h.dlenBound hd) fun h' => absurd h' hv) h.pbWf h.rbWf

theorem Sent.inv {s t : State} (ht : Sent s (.next t)) (hp : s.ph.sending = true) (h : Inv s) : Inv t := by
  cases ht with
  | advanced hu hc =>
    have h' := hu.inv h
    have hp' := hu.ph ▸ hp
    exact h'.goesOn (sending_ne_idle hp') (sending_ne_idle hp') (.of_sending hp' (h'.dlen_of_sending hp') h'.txLength) h'.pbWf
      h'.rbWf
  | left hu =>
    exact txNext_inv (hu.ph ▸ hp) (hu.inv h)

/-- Every unit of work keeps the invariant. -/
theorem unit_inv {s t : State} (h : Inv s) (ht : s.unit = some (.next t)) : Inv t := by
  obtain ⟨hp, hs⟩ | ⟨hp, u, hu, hh⟩ := unit_cases ht
  · exact hs.inv hp h
  · exact hh.inv (hu.ph ▸ reads_ne_idle hp) (hu.inv h)

theorem run_inv {s t : State} (h : Inv s) (ht : s.run = .next t) : Inv t := by
  obtain ⟨k, hk⟩ := units_of_run ht
  exact hk.induction (fun _ _ => unit_inv) h

/-! ## Every step keeps the invariant -/

theorem raise_accept {p : Phase} (hp : p.decoding = false) (s : State) (e : Status) :
    (s.accept p).raise e = (s.accept .vBuf).raise e := by
  simp only [State.raise, State.accept_ph, hp]
  rfl

theorem Started.inv {s u : State} (hu : Started s u) (h : Inv s) : Inv u := by
  cases hu with
  | sends hb => exact h.accept (by simp) (.of_sending rfl (by simp) fun _ => hb)
  | reads hp k => exact h.accept_free (hp.imp_right .inl) k
  | encodes le rev enh id c =>
    have hd : (s.plen.setWidth 29).toNat ≤ Config.pbBytes := by
      have := h.plenBound
      simp only [BitVec.toNat_setWidth]
      omega
    exact h.accept (p := .eSync) (by simp) (.of_sending rfl (fun _ => hd) (by simp))
  | decodes hp => exact (h.accept_free (.inr (.inr hp)) _).clearRecord

theorem Begun.inv {s t : State} {r : Result} (hr : Begun s r) (ht : r = .next t) (h : Inv s) : Inv t := by
  have hbuf : Inv (s.accept .vBuf) := h.accept_free (.inl rfl) _
  cases hr with
  | failed hp he => cases ht; exact raise_accept hp s _ ▸ hbuf.raise he
  | stored hw hn => cases ht; exact (hbuf.writePb hw).complete hn (by simp)
  | fetched => cases ht; exact hbuf.complete (by norm_num) (by simp)
  | cleared => cases ht; exact hbuf.clearRecord.complete (by norm_num) (by simp)
  | absent => cases ht
  | runs hu => exact run_inv (hu.inv h) ht

/-- A command keeps the invariant. -/
theorem exec_inv {i : Instr} {s t : State} (hi : i.isCommand = true) (hb : s.busy = false) (h : Inv s)
    (ht : exec i s = .next t) : Inv t := by
  by_cases hn : i = .nop
  · subst hn
    rw [exec, execNop, whenFree_free hb] at ht
    cases ht
    exact { h with }
  · exact (exec_begun hi hn hb).inv ht h

/-- An illegal command word (30_encoding.md R83) comes to a codec in IDLE. -/
theorem illegal_inv {s : State} (h : Inv s) (hp : s.ph = .idle) : Inv s.illegal := by
  have h' : Inv { s with cons := 0, ph := .idle } := by
    rw [← hp]
    exact { h with }
  exact h'.raise rfl

/-- The registers after reset (10_state.md R40). -/
theorem reset_inv : Inv State.reset := by
  constructor <;> simp [State.reset, Mem.wf, Phase.payloadKnown, Phase.stagingKnown]

theorem resetRegisters_inv {s : State} (h : Inv s) : Inv s.resetRegisters :=
  { reset_inv with pbWf := h.pbWf, rbWf := h.rbWf }

/-! ## What a step is -/

/-- An idle codec fetches the command word that is presented (10_state.md R27, R32). -/
theorem fetchInstr_command {s : State} {w : CmdWord} {q : List CmdWord} (hp : s.ph = .idle) (hb : s.busy = false)
    (hq : s.cmdQ = w :: q) : s.fetchInstr = .command w { s with cmdQ := q } := by
  rw [State.fetchInstr, if_pos hp]
  split
  next hq' =>
    cases hq.symm.trans hq'
    rfl
  next hno => exact (hno w q hb hq).elim

theorem fetchInstr_idle {s : State} (hp : s.ph = .idle) (hq : s.busy = true ∨ s.cmdQ = []) : s.fetchInstr = .other := by
  rw [State.fetchInstr, if_pos hp]
  split
  next hb hq' => simp [hb, hq'] at hq
  next => rfl

theorem step_reset {s : State} (h : s.rst = true) : step s = .next s.tickOver.resetRegisters := by
  simp [step, h]

section
variable {s : State} (hr : s.rst = false) (hp : s.ph = .idle)
include hr hp

/-- A codec in IDLE takes that word and runs its command. -/
theorem step_command {w : CmdWord} {q : List CmdWord} {i : Instr} (hb : s.busy = false) (hq : s.cmdQ = w :: q)
    (hi : decodeCommand w = .ok i) : step s = exec i { s.tickOver with cmdQ := q } := by
  have hf : s.tickOver.fetchInstr = .command w { s.tickOver with cmdQ := q } := fetchInstr_command hp hb hq
  simp only [step, State.tickOver_rst, hr, hf, hi, Bool.false_eq_true, if_false]

/-- It reports a word that spells no command (30_encoding.md R83). -/
theorem step_illegal {w : CmdWord} {q : List CmdWord} {e : Reject} (hb : s.busy = false) (hq : s.cmdQ = w :: q)
    (hi : decodeCommand w = .error e) : step s = .next ({ s.tickOver with cmdQ := q } : State).illegal := by
  have hf : s.tickOver.fetchInstr = .command w { s.tickOver with cmdQ := q } := fetchInstr_command hp hb hq
  simp only [step, State.tickOver_rst, hr, hf, hi, Bool.false_eq_true, if_false]

/-- With no word it waits. -/
theorem step_noCommand (hq : s.busy = true ∨ s.cmdQ = []) : step s = .next s.tickOver := by
  have hf : s.tickOver.fetchInstr = .other := fetchInstr_idle hp hq
  simp only [step, State.tickOver_rst, hr, hf, unit_idle (s := s.tickOver) hp, Bool.false_eq_true, if_false, Option.getD_none]

end

/-- Every step keeps the invariant. -/
theorem step_inv {s t : State} (h : Inv s) (ht : step s = .next t) : Inv t := by
  have htick : Inv s.tickOver := { h with }
  by_cases hr : s.rst = true
  · cases (step_reset hr).symm.trans ht
    exact resetRegisters_inv htick
  rw [Bool.not_eq_true] at hr
  by_cases hp : s.ph = .idle
  · have hb : s.busy = false := by simpa [hp] using h.busyPhase
    cases hq : s.cmdQ with
    | nil =>
      cases (step_noCommand hr hp (.inr hq)).symm.trans ht
      exact htick
    | cons w q =>
      have hu : Inv { s.tickOver with cmdQ := q } := { htick with }
      cases hi : decodeCommand w with
      | ok i =>
        rw [step_command hr hp hb hq hi] at ht
        exact exec_inv (s := { s.tickOver with cmdQ := q }) (decodeCommand_command hi) hb hu ht
      | error e =>
        cases (step_illegal hr hp hb hq hi).symm.trans ht
        exact illegal_inv hu hp
  · rw [step_busy hr hp] at ht
    cases hu : s.tickOver.unit with
    | none => rw [hu] at ht; cases ht; exact htick
    | some r => rw [hu] at ht; cases ht; exact unit_inv htick hu

/-! ## The statements settled -/

/-- Settles O4. -/
theorem invReset : Obligations.InvReset := reset_inv

/-- Settles O5. -/
theorem invStep : Obligations.InvStep := fun _ _ => step_inv

end Sys2Proof.Machine
end

section
/-! A command runs until it ends or waits for the host: no unit stops the codec, and every unit leaves less work. -/

namespace Sys2Proof.Machine

open Sys2Proof

/-! ## The work that is left -/

/-- How far a phase stands from the end of its command, by the codes of 10_state.md R30, which rise along the "leaves to"
column. -/
def Phase.rank (p : Phase) : Nat := if p = .idle then 0 else 32 - p.code.toNat

/-- A bound on the units that are left: the phases to come, and the rest of CUR in this one. -/
def State.workLeft (s : State) : Nat := s.ph.rank * 2 ^ 32 + (2 ^ 32 - s.cur.toNat)

theorem Phase.rank_le (p : Phase) : p.rank ≤ 32 := by
  unfold Phase.rank
  split_ifs <;> omega

theorem Phase.rank_pos {p : Phase} (h : p ≠ .idle) : 0 < p.rank := by
  rw [Phase.rank, if_neg h]
  have := p.code.isLt
  omega

theorem Phase.rank_leavesTo {p : Phase} {rev e : Bool} (h : p.leavesTo rev e ≠ .idle) : (p.leavesTo rev e).rank < p.rank := by
  revert h
  cases p <;> cases rev <;> cases e <;> simp [Phase.leavesTo] <;> decide

theorem workLeft_le_settleFuel (s : State) : s.workLeft ≤ settleFuel := by
  have := s.ph.rank_le
  unfold State.workLeft settleFuel
  omega

/-- The end of a command leaves less work than any place inside it. -/
theorem workLeft_lt_of_idle {s t : State} (hs : s.ph ≠ .idle) (ht : t.ph = .idle) : t.workLeft < s.workLeft := by
  have h1 := Phase.rank_pos hs
  have h2 := s.cur.isLt
  have h3 : t.ph.rank = 0 := by rw [ht]; rfl
  unfold State.workLeft
  omega

/-- So does the next place of the command. -/
theorem workLeft_lt_of_movesTo {s t : State} {e : Bool} (h : s.MovesTo t.ph t.cur e) : t.workLeft < s.workLeft := by
  have h1 := s.cur.isLt
  unfold State.workLeft
  obtain ⟨hp, hc, hlt⟩ | ⟨hp, hi, hc⟩ := h
  · rw [hp, hc, BitVec.toNat_add, show (1 : U32).toNat = 1 from rfl, Nat.mod_eq_of_lt hlt]
    omega
  · have h2 : t.ph.rank < s.ph.rank := by
      rw [hp] at hi ⊢
      exact Phase.rank_leavesTo hi
    omega

/-! ## Every unit leaves less work -/

/-- The id and length fields of a record that is being put have at most 4 bytes (40_varuint.md R100). -/
def State.FieldsShort (s : State) : Prop :=
  s.ph.sending = true → s.scratch.rawId.length ≤ 4 ∧ s.scratch.rawLen.length ≤ 4

/-- A field on OUT is far shorter than CUR can count. -/
theorem txLen_lt {s : State} (h : Inv s) (hf : s.FieldsShort) (hp : s.ph.sending = true) : s.txLen < 2 ^ 32 := by
  have hd := s.scratch.dlen.isLt
  have hc := s.scratch.crc.len_le
  have ht := trailerLen_length_le s.scratch
  obtain ⟨hi, hl⟩ := hf hp
  have hv := h.txLength
  unfold State.txLen State.txField
  cases hph : s.ph <;> simp [hph, Phase.sending] at hp hv ⊢ <;> omega

theorem Handled.workLeft_lt {s t : State} (ht : Handled s (.next t)) (hp : s.ph ≠ .idle) : t.workLeft < s.workLeft := by
  cases ht with
  | raised => exact workLeft_lt_of_idle hp (State.raise_ph ..)
  | valued => exact workLeft_lt_of_idle hp rfl
  | recorded => exact workLeft_lt_of_idle hp rfl
  | goesOn hm => exact workLeft_lt_of_movesTo hm

theorem reads_not_sending {p : Phase} (h : p.reads = true) : p.sending = false := by
  cases p <;> simp_all [Phase.reads, Phase.decoding, Phase.sending]

/-- A command that reads goes on reading, or ends. -/
theorem reads_leavesTo {p : Phase} (h : p.reads = true) (rev e : Bool) : (p.leavesTo rev e).sending = false := by
  cases p <;> cases rev <;> cases e <;> simp_all [Phase.reads, Phase.decoding, Phase.sending, Phase.leavesTo]

theorem Handled.not_sending {s t : State} (ht : Handled s (.next t)) (hp : s.ph.reads = true) : t.ph.sending = false := by
  cases ht with
  | raised => rw [State.raise_ph]; rfl
  | valued => rfl
  | recorded => rfl
  | goesOn hm =>
    obtain ⟨rfl, _⟩ | ⟨rfl, _⟩ := hm
    · exact reads_not_sending hp
    · exact reads_leavesTo hp _ _

theorem txNext_workLeft_lt {s : State} (hp : s.ph.sending = true) : s.txNext.workLeft < s.workLeft := by
  obtain ⟨_, ht⟩ | ⟨_, ht⟩ | ⟨hi, ht⟩ := txNext_cases hp <;> rw [ht]
  · exact workLeft_lt_of_idle (sending_ne_idle hp) rfl
  · exact workLeft_lt_of_idle (sending_ne_idle hp) rfl
  · exact workLeft_lt_of_movesTo (.inr ⟨rfl, hi, rfl⟩)

theorem txNext_fieldsShort {s : State} (hp : s.ph.sending = true) (h : s.FieldsShort) : s.txNext.FieldsShort := by
  obtain ⟨_, ht⟩ | ⟨_, ht⟩ | ⟨hi, ht⟩ := txNext_cases hp <;> rw [ht] <;> intro hp'
  · cases hp'
  · cases hp'
  · exact h hp

/-- A byte on OUT leaves the place in the command as it is. -/
theorem State.PutsTo.workLeft {s u : State} (hu : s.PutsTo u) : u.workLeft = s.workLeft := by
  obtain ⟨q, room, c, x, rfl⟩ := hu
  rfl

theorem State.PutsTo.fieldsShort {s u : State} (hu : s.PutsTo u) (h : s.FieldsShort) : u.FieldsShort := by
  obtain ⟨q, room, c, x, rfl⟩ := hu
  exact h

theorem Sent.progress {s t : State} (ht : Sent s (.next t)) (hp : s.ph.sending = true) (h : Inv s) (hf : s.FieldsShort) :
    t.FieldsShort ∧ t.workLeft < s.workLeft := by
  have hlen := txLen_lt h hf hp
  cases ht with
  | advanced hu hc =>
    have hm : s.MovesTo s.ph (s.cur + 1) false := .inl ⟨rfl, rfl, lt_trans hc hlen⟩
    refine ⟨hu.fieldsShort hf, ?_⟩
    obtain ⟨q, room, c, x, rfl⟩ := hu
    exact workLeft_lt_of_movesTo hm
  | left hu =>
    have hp' := hu.ph.symm ▸ hp
    exact ⟨txNext_fieldsShort hp' (hu.fieldsShort hf), (txNext_workLeft_lt hp').trans_eq hu.workLeft⟩

theorem Sent.next {s : State} {r : Result} (h : Sent s r) (hs : Inv s) : ∃ t, r = .next t := by
  cases h with
  | absent hn => exact absurd hs hn
  | _ => exact ⟨_, rfl⟩

theorem Handled.next {s : State} {r : Result} (h : Handled s r) (hs : Inv s) : ∃ t, r = .next t := by
  cases h with
  | absent hn => exact absurd hs hn
  | _ => exact ⟨_, rfl⟩

theorem State.TakesTo.workLeft {s u : State} (hu : s.TakesTo u) : u.workLeft = s.workLeft := by
  obtain rfl | ⟨b, q, _, rfl⟩ := hu <;> rfl

/-- A unit is a step of the codec to a state with less work left: it neither stops nor goes on for ever. -/
theorem unit_progress {s : State} {r : Result} (h : Inv s) (hf : s.FieldsShort) (hr : s.unit = some r) :
    ∃ t, r = .next t ∧ Inv t ∧ t.FieldsShort ∧ t.workLeft < s.workLeft := by
  obtain ⟨hp, hs⟩ | ⟨hp, u, hu, hh⟩ := unit_cases hr
  · obtain ⟨t, rfl⟩ := hs.next h
    exact ⟨t, rfl, unit_inv h hr, hs.progress hp h hf⟩
  · obtain ⟨t, rfl⟩ := hh.next (hu.inv h)
    have hp' := hu.ph.symm ▸ hp
    refine ⟨t, rfl, unit_inv h hr, fun ht => ?_, (hh.workLeft_lt (reads_ne_idle hp')).trans_eq hu.workLeft⟩
    rw [hh.not_sending hp'] at ht
    cases ht

/-- With fuel for the work that is left, a run ends in a state that waits or is idle. -/
theorem settle_settles {n : Nat} {s : State} (h : Inv s) (hf : s.FieldsShort) (hn : s.workLeft ≤ n) :
    ∃ t, settle n s = .next t ∧ t.blocked := by
  induction n generalizing s with
  | zero =>
    have hc := s.cur.isLt
    unfold State.workLeft at hn
    omega
  | succ n ih =>
    cases hu : s.unit with
    | none => exact ⟨s, settle_blocked hu _, hu⟩
    | some r =>
      obtain ⟨t, rfl, ht, htf, hlt⟩ := unit_progress h hf hu
      obtain ⟨v, hv, hb⟩ := ih ht htf (by omega)
      exact ⟨v, by rw [settle, hu]; exact hv, hb⟩

theorem Started.fieldsShort {s u : State} (hu : Started s u) : u.FieldsShort := by
  cases hu with
  | sends hb => exact fun _ => ⟨by simp [Scratch.init], by simp [Scratch.init]⟩
  | reads hp k => intro h; obtain rfl | rfl := hp <;> cases h
  | encodes le rev enh id c => exact fun _ => ⟨(vuEnc_length_bounds _ _).2, (vuEnc_length_bounds _ _).2⟩
  | decodes hp => intro h; obtain rfl | rfl := hp <;> cases h

theorem Begun.settles {s : State} {r : Result} (hr : Begun s r) (h : Inv s) : ∃ t, r = .next t ∧ t.blocked := by
  cases hr with
  | failed => exact ⟨_, rfl, unit_idle (State.raise_ph ..)⟩
  | stored => exact ⟨_, rfl, unit_idle rfl⟩
  | fetched => exact ⟨_, rfl, unit_idle rfl⟩
  | cleared => exact ⟨_, rfl, unit_idle rfl⟩
  | absent hn => exact absurd h hn
  | runs hu => exact settle_settles (hu.inv h) hu.fieldsShort (workLeft_le_settleFuel _)

/-! ## The statements settled -/

/-- Settles O53, by induction over the units, each of which leaves less work. -/
theorem commandSettles : Obligations.CommandSettles := by
  intro i s h hb hi
  by_cases hn : i = .nop
  · subst hn
    exact ⟨{ s with resp := true }, whenFree_free hb _, unit_idle (by simpa [hb] using h.busyPhase)⟩
  · exact (exec_begun hi hn hb).settles h

end Sys2Proof.Machine
end

section
/-! A run reads none of the results an earlier command left (60_exceptions.md R196): with other results before, the same units
run, and the command that ends leaves the same state. -/

namespace Sys2Proof.Machine

open Sys2Proof

/-- A test that is the same on both sides of an equation with a function. -/
theorem eq_apply_ite {α β : Type} (f : α → β) {c : Prop} [Decidable c] {a b : α} {a' b' : β} (ha : a' = f a)
    (hb : b' = f b) :
    (if c then a' else b') = f (if c then a else b) := by
  rw [ha, hb, apply_ite f]

/-! ## The end of a command -/

theorem Handled.idle_of_free {s t : State} (ht : Handled s (.next t)) (h : s.busy = true) (hb : t.busy = false) :
    t.ph = .idle := by
  cases ht with
  | raised => exact State.raise_ph ..
  | valued => rfl
  | recorded => rfl
  | goesOn => exact absurd hb (by simp [h])

theorem txNext_idle_of_free {s : State} (hp : s.ph.sending = true) (h : s.busy = true) (hb : s.txNext.busy = false) :
    s.txNext.ph = .idle := by
  obtain ⟨_, ht⟩ | ⟨_, ht⟩ | ⟨_, ht⟩ := txNext_cases hp <;> rw [ht] at hb ⊢
  · rfl
  · rfl
  · exact absurd hb (by simp [h])

theorem State.PutsTo.busy {s u : State} (hu : s.PutsTo u) : u.busy = s.busy := by
  obtain ⟨q, room, c, x, rfl⟩ := hu
  rfl

theorem Sent.idle_of_free {s t : State} (ht : Sent s (.next t)) (hp : s.ph.sending = true) (h : s.busy = true)
    (hb : t.busy = false) : t.ph = .idle := by
  cases ht with
  | advanced hu => exact absurd hb (by simp [hu.busy, h])
  | left hu => exact txNext_idle_of_free (hu.ph.symm ▸ hp) (hu.busy.trans h) hb

/-- A unit that ends the command leaves the codec in IDLE (10_state.md R32). -/
theorem unit_ended {s t : State} (h : s.busy = true) (ht : s.unit = some (.next t)) (hb : t.busy = false) : t.ph = .idle := by
  obtain ⟨hp, hs⟩ | ⟨_, u, hu, hh⟩ := unit_cases ht
  · exact hs.idle_of_free hp h hb
  · exact hh.idle_of_free (hu.busy.trans h) hb

/-! ## Other results in a state -/

/-- The state with the results STAT, VAL, NV and CNT of `o`. -/
def State.overlay (s o : State) : State := { s with stat := o.stat, val := o.val, nv := o.nv, cnt := o.cnt }

/-- The results of `o` stand in a state as long as the command runs; its end writes its own. -/
def State.recast (s o : State) : State := if s.busy then s.overlay o else s

/-- The same of an outcome. -/
def Result.recast (o : State) : Result → Result
  | .next t => .next (t.recast o)
  | r => r

/-- The same of a byte that has been taken. -/
def Fetch.recast (o : State) (f : Fetch) : Fetch :=
  match f with
  | .got b t => .got b (t.overlay o)
  | _ => f

section
variable (o s : State)

@[simp] theorem overlay_ph : (s.overlay o).ph = s.ph := rfl
@[simp] theorem overlay_cur : (s.overlay o).cur = s.cur := rfl
@[simp] theorem overlay_scratch : (s.overlay o).scratch = s.scratch := rfl
@[simp] theorem overlay_plen : (s.overlay o).plen = s.plen := rfl
@[simp] theorem overlay_inQ : (s.overlay o).inQ = s.inQ := rfl
@[simp] theorem overlay_outRoom : (s.overlay o).outRoom = s.outRoom := rfl
@[simp] theorem overlay_complete (st : Status) (v : U64) (nv : Bool) (n : Nat) :
    (s.overlay o).complete st v nv n = s.complete st v nv n := rfl
@[simp] theorem overlay_recordDone : (s.overlay o).recordDone = s.recordDone := rfl
@[simp] theorem overlay_encodeDone : (s.overlay o).encodeDone = s.encodeDone := rfl

@[simp] theorem overlay_raise (e : Status) : (s.overlay o).raise e = s.raise e := by
  rw [raise_eq_complete, raise_eq_complete, overlay_ph]
  split <;> rfl

variable {s}

theorem recast_ended (h : s.busy = false) : s.recast o = s := if_neg (by simp [h])

/-- A command that is still running, with the results of `o`. -/
theorem eq_recast_of_running {t : State} (h : s.busy = true) (ht : t = s.overlay o) : t = s.recast o :=
  ht.trans (if_pos h).symm

@[simp] theorem recast_raise (e : Status) : (s.raise e).recast o = s.raise e := recast_ended o (State.raise_busy ..)
@[simp] theorem recast_complete (st : Status) (v : U64) (nv : Bool) (n : Nat) :
    (s.complete st v nv n).recast o = s.complete st v nv n := rfl
@[simp] theorem recast_recordDone : s.recordDone.recast o = s.recordDone := rfl
@[simp] theorem recast_encodeDone : s.encodeDone.recast o = s.encodeDone := rfl
@[simp] theorem Result.recast_next (t : State) : Result.recast o (.next t) = .next (t.recast o) := rfl
@[simp] theorem Result.recast_fault (f : Fault) : Result.recast o (.fault f) = .fault f := rfl

theorem ite_recast {c : Prop} [Decidable c] {a b a' b' : State} (ha : a' = a.recast o) (hb : b' = b.recast o) :
    (if c then a' else b') = (if c then a else b).recast o :=
  eq_apply_ite (State.recast · o) ha hb

/-- An error in a state with other scratch registers. -/
theorem overlay_raise_with_scratch (k : Scratch) (e : Status) :
    ({ s.overlay o with scratch := k } : State).raise e = (({ s with scratch := k } : State).raise e).recast o :=
  (overlay_raise o { s with scratch := k } e).trans (recast_raise o e).symm

/-! ## The bytes of a decode -/

theorem overlay_vsDone : (s.overlay o).vsDone = s.vsDone.recast o := by
  unfold State.vsDone
  simp only [overlay_scratch]
  split <;> simp

theorem overlay_badSync : (s.overlay o).badSync = s.badSync.recast o :=
  ite_recast o (by simp) (by simp)

variable (h : s.busy = true)
include h

theorem overlay_lengthHandler : (s.overlay o).lengthHandler = s.lengthHandler.recast o := by
  unfold State.lengthHandler
  simp only [overlay_scratch]
  split
  · simp
  · exact ite_recast o (by simp) (ite_recast o (by simp) (eq_recast_of_running o h rfl))

theorem overlay_vuDone (v : U29) (n : Nat) (raw : List Byte) :
    (s.overlay o).vuDone v n raw = Result.recast o (s.vuDone v n raw) := by
  unfold State.vuDone
  simp only [overlay_ph]
  split
  · simp
  · simp
  · exact congrArg _ (eq_recast_of_running o h rfl)
  · exact congrArg _ (eq_recast_of_running o h rfl)
  · exact congrArg _ (overlay_lengthHandler (s := { s with scratch := { s.scratch with dlen := v, rawLen := raw } }) o h)
  · exact congrArg _ (overlay_lengthHandler (s := { s with scratch := { s.scratch with dlen := v, rawLen := raw } }) o h)
  · exact congrArg _ (ite_recast o (overlay_raise_with_scratch o _ _) (eq_recast_of_running o h rfl))
  · rfl

theorem overlay_vsStart (nib : BitVec 4) (b : Byte) : (s.overlay o).vsStart nib b = (s.vsStart nib b).recast o :=
  ite_recast o (overlay_vsDone (s := { s with scratch := { s.scratch with nib := nib, shift := b.setWidth 64 } }) o)
    (eq_recast_of_running o h rfl)

theorem overlay_vsMore (b : Byte) : (s.overlay o).vsMore b = (s.vsMore b).recast o :=
  ite_recast o
    (overlay_vsDone
      (s := { s with scratch := { s.scratch with shift := vsShiftIn s.scratch.le s.scratch.shift s.cur.toNat b } }) o)
    (eq_recast_of_running o h rfl)

theorem overlay_payByte (p : Phase) (b : Byte) : (s.overlay o).payByte p b = Result.recast o (s.payByte p b) :=
  eq_apply_ite (Result.recast o) rfl
    (congrArg _ (ite_recast o (eq_recast_of_running o h rfl) (eq_recast_of_running o h rfl)))

theorem overlay_crcByte (b : Byte) : (s.overlay o).crcByte b = (s.crcByte b).recast o :=
  ite_recast o
    (ite_recast o (overlay_raise_with_scratch o _ _) (ite_recast o (eq_recast_of_running o h rfl) rfl))
    (eq_recast_of_running o h rfl)

theorem overlay_rlenByte (b : Byte) : (s.overlay o).rlenByte b = (s.rlenByte b).recast o :=
  ite_recast o (ite_recast o (overlay_raise_with_scratch o _ _) (eq_recast_of_running o h rfl))
    (eq_recast_of_running o h rfl)

theorem overlay_fillByte (b : Byte) : (s.overlay o).fillByte b = Result.recast o (s.fillByte b) :=
  eq_apply_ite (Result.recast o) rfl
    (congrArg _ (ite_recast o (eq_recast_of_running o h rfl) (eq_recast_of_running o h rfl)))

theorem overlay_headSync (le rev enh : Bool) :
    (s.overlay o).headSync le rev enh = Result.recast o (s.headSync le rev enh) := by
  unfold State.headSync
  simp only [overlay_ph]
  split
  · exact congrArg _ (eq_recast_of_running o h rfl)
  · simp
  · simp
  · exact congrArg _ (ite_recast o (eq_recast_of_running o h rfl) (by simp))
  · rfl

theorem overlay_tailSync (le enh : Bool) : (s.overlay o).tailSync le enh = Result.recast o (s.tailSync le enh) := by
  unfold State.tailSync
  simp only [overlay_ph]
  split
  · simp
  · exact congrArg _ (ite_recast o rfl (by simp))
  · exact congrArg _ (eq_recast_of_running o h rfl)
  · simp
  · rfl

theorem overlay_dataByte (b : Byte) : (s.overlay o).dataByte b = Result.recast o (s.dataByte b) := by
  unfold State.dataByte
  simp only [overlay_ph]
  split
  · exact congrArg _ (overlay_vsMore o h b)
  · exact congrArg _ (overlay_vsMore o h b)
  · exact overlay_payByte o h _ b
  · exact overlay_payByte o h _ b
  · exact congrArg _ (overlay_crcByte o h b)
  · exact congrArg _ (overlay_crcByte o h b)
  · exact congrArg _ (overlay_rlenByte o h b)
  · exact overlay_fillByte o h b
  · rfl

theorem overlay_handleByte (hp : s.ph.reads = true) (b : Byte) :
    (s.overlay o).handleByte b = Result.recast o (s.handleByte b) := by
  obtain ⟨hs, _⟩ | hs | ⟨_, _, le, hs⟩ | ⟨hs, _⟩ := slot_cases hp
  · rw [handleByte_sync b hs, handleByte_sync b (s := s.overlay o) hs]
    split
    · exact overlay_headSync o h _ _ _
    · split
      · exact overlay_tailSync o h _ _
      · exact congrArg _ (overlay_badSync o)
  · rw [handleByte_vu b hs, handleByte_vu b (s := s.overlay o) hs]
    exact eq_apply_ite (Result.recast o)
      (eq_apply_ite (Result.recast o) (congrArg _ (eq_recast_of_running o h rfl)) (overlay_vuDone o h _ _ _))
      (overlay_vuDone o h _ _ _)
  · rw [handleByte_vsFirst b hs, handleByte_vsFirst b (s := s.overlay o) hs]
    exact congrArg _ (overlay_vsStart o h _ b)
  · rw [handleByte_data b hs, handleByte_data b (s := s.overlay o) hs]
    exact overlay_dataByte o h b

/-! ## The bytes of an encode -/

omit h in
theorem overlay_put (b : Byte) (last : Bool) : (s.overlay o).put b last = (s.put b last).map (·.overlay o) := by
  unfold State.put
  rw [overlay_outRoom]
  split <;> rfl

omit h in
theorem overlay_txFeed (b : Byte) : (s.overlay o).txFeed b = (s.txFeed b).overlay o := by
  unfold State.txFeed
  simp only [overlay_ph]
  split <;> rfl

omit h in
theorem overlay_fetchPb (a n : Nat) : (s.overlay o).fetchPb a n = (s.fetchPb a n).recast o :=
  eq_apply_ite (Fetch.recast o) rfl (eq_apply_ite (Fetch.recast o) rfl rfl)

omit h in
theorem overlay_txByte : (s.overlay o).txByte = s.txByte.recast o := by
  unfold State.txByte
  rw [show (s.overlay o).txField = s.txField from rfl]
  simp only [overlay_ph, overlay_cur, overlay_scratch, overlay_fetchPb]
  split_ifs
  · rfl
  · split <;> rfl

theorem overlay_txNext : (s.overlay o).txNext = s.txNext.recast o := by
  unfold State.txNext
  simp only [overlay_ph]
  split
  case h_5 => exact ite_recast o (eq_recast_of_running o h rfl) rfl
  case h_7 => rfl
  case h_8 => rfl
  all_goals exact eq_recast_of_running o h rfl

theorem overlay_sendUnit : (s.overlay o).sendUnit = s.sendUnit.map (Result.recast o) := by
  unfold State.sendUnit
  rw [overlay_txByte, show (s.overlay o).txLen = s.txLen from rfl, show (s.overlay o).txLast = s.txLast from rfl]
  cases s.txByte with
  | got b v =>
    simp only [Fetch.recast, overlay_put, Option.map_map]
    cases hput : s.put b s.txLast with
    | none => rfl
    | some u =>
      have hu : (u.txFeed b).busy = true := (put_txFeed hput).busy.trans h
      simp only [Option.map_some, Function.comp, overlay_txFeed]
      exact congrArg _ (congrArg _ (ite_recast o (overlay_txNext o hu) (eq_recast_of_running o hu rfl)))
  | absent f => rfl
  | waiting => exact congrArg _ (congrArg _ (overlay_txNext o h))
  | ended => exact congrArg _ (congrArg _ (overlay_txNext o h))

/-! ## Units and runs -/

omit h in
theorem overlay_take : (s.overlay o).take = s.take.recast o := by
  unfold State.take
  simp only [overlay_inQ]
  split
  · rfl
  · exact eq_apply_ite (Fetch.recast o) rfl rfl

omit h in
theorem overlay_fetchRb (p : Nat) : (s.overlay o).fetchRb p = (s.fetchRb p).recast o :=
  eq_apply_ite (Fetch.recast o) rfl (eq_apply_ite (Fetch.recast o) rfl rfl)

omit h in
theorem overlay_nextByte : (s.overlay o).nextByte = s.nextByte.recast o := by
  unfold State.nextByte
  simp only [overlay_ph, overlay_scratch, overlay_cur, overlay_fetchPb, overlay_take, overlay_fetchRb]
  split <;> rfl

theorem overlay_unit : (s.overlay o).unit = s.unit.map (Result.recast o) := by
  unfold State.unit
  simp only [overlay_ph, overlay_scratch, overlay_cur, overlay_sendUnit o h, overlay_nextByte]
  split_ifs with hidle hsend hpay
  · rfl
  · rfl
  · exact congrArg _ (congrArg _ (eq_recast_of_running o h rfl))
  · have hr : s.ph.reads = true := reads_of_not_sending hidle hsend
    cases hb : s.nextByte with
    | waiting => rfl
    | ended => simp [Fetch.recast]
    | absent f => rfl
    | got b u =>
      have hu := nextByte_takesTo hb
      exact congrArg _ (overlay_handleByte o (hu.busy.trans h) (hu.ph.symm ▸ hr) b)

/-- A run from a state with other results ends in the same state, or waits with those results. -/
theorem overlay_settle (n : Nat) : settle n (s.overlay o) = Result.recast o (settle n s) := by
  induction n generalizing s with
  | zero => exact congrArg _ (eq_recast_of_running o h rfl)
  | succ n ih =>
    simp only [settle, overlay_unit o h]
    cases hu : s.unit with
    | none => exact congrArg _ (eq_recast_of_running o h rfl)
    | some r =>
      cases r with
      | next t =>
        simp only [Option.map_some, Result.recast_next]
        cases hb : t.busy with
        | true =>
          rw [← eq_recast_of_running o hb rfl]
          exact ih hb
        | false =>
          rw [recast_ended o hb, settle_blocked (unit_idle (unit_ended h hu hb)), Result.recast_next, recast_ended o hb]
      | fault f => rfl
      | refused e => rfl

theorem overlay_run : (s.overlay o).run = Result.recast o s.run := overlay_settle o h _

end

/-! ## Commands -/

/-- `s` and `s'` are free codecs that a command accepts alike, but for the results of `s'`. -/
structure AcceptAlike (s s' : State) : Prop where
  free : s.busy = false
  free' : s'.busy = false
  plen : s'.plen = s.plen
  accept : ∀ p, s'.accept p = (s.accept p).overlay s'

section
variable {s s' : State} (h : AcceptAlike s s')
include h

theorem AcceptAlike.encodeTo (strm : Bool) (off : U32) (bs : List Byte) :
    s'.encodeTo strm off bs = Result.recast s' (s.encodeTo strm off bs) := by
  unfold State.encodeTo
  simp only [h.accept]
  exact eq_apply_ite (Result.recast s')
    (overlay_run (s := { s.accept .vOut with scratch := { Scratch.init with tx := bs } }) s' rfl)
    (eq_apply_ite (Result.recast s') rfl (by simp))

theorem AcceptAlike.decodeFrom (signed le strm : Bool) (off : U32) :
    s'.decodeFrom signed le strm off = Result.recast s' (s.decodeFrom signed le strm off) := by
  unfold State.decodeFrom
  simp only [h.accept]
  exact eq_apply_ite (Result.recast s') (overlay_run (s := { s.accept .vIn with scratch := _ }) s' rfl)
    (eq_apply_ite (Result.recast s') (by simp) (overlay_run (s := { s.accept .vBuf with scratch := _ }) s' rfl))

theorem AcceptAlike.execRecEnc (le rev enh : Bool) (a : U64) :
    execRecEnc le rev enh a s' = Result.recast s' (execRecEnc le rev enh a s) := by
  have begin' : ∀ id c, s'.beginEncode le rev enh id c = (s.beginEncode le rev enh id c).overlay s' := fun id c => by
    unfold State.beginEncode
    rw [h.accept, h.plen]
    rfl
  simp only [Machine.execRecEnc, whenFree_free h.free, whenFree_free h.free', h.accept, h.plen]
  refine eq_apply_ite (Result.recast s') (by simp) ?_
  split
  · simp
  · rw [begin']
    exact overlay_run s' rfl

/-- A command does the same in both, but for the results while it waits. -/
theorem AcceptAlike.exec {i : Instr} (hi : i.isCommand = true) (hn : i ≠ .nop) :
    exec i s' = Result.recast s' (exec i s) := by
  cases i with
  | nop => exact absurd rfl hn
  | vuEnc le strm off a =>
    simp only [Machine.exec, execVuEnc, whenFree_free h.free, whenFree_free h.free', h.accept]
    split
    · simp
    · exact h.encodeTo ..
  | vuDec le strm off =>
    simp only [Machine.exec, execVuDec, whenFree_free h.free, whenFree_free h.free']
    exact h.decodeFrom ..
  | vsEnc le strm nvf off a =>
    simp only [Machine.exec, execVsEnc, whenFree_free h.free, whenFree_free h.free', h.accept]
    split
    · simp
    · exact h.encodeTo ..
  | vsDec le strm off =>
    simp only [Machine.exec, execVsDec, whenFree_free h.free, whenFree_free h.free']
    exact h.decodeFrom ..
  | pbPut off b =>
    simp only [Machine.exec, execPbPut, whenFree_free h.free, whenFree_free h.free', h.accept]
    exact congrArg _ (ite_recast s' rfl (by simp))
  | pbGet off =>
    simp only [Machine.exec, execPbGet, whenFree_free h.free, whenFree_free h.free', h.accept, overlay_fetchPb, overlay_plen]
    cases (s.accept .vBuf).fetchPb off.toNat (s.accept .vBuf).plen.toNat <;> simp [Fetch.recast]
  | pbClr =>
    simp only [Machine.exec, execPbClr, whenFree_free h.free, whenFree_free h.free', h.accept]
    rfl
  | recEnc le rev enh a => exact h.execRecEnc le rev enh a
  | recDecf =>
    simp only [Machine.exec, execRecDecf, whenFree_free h.free, whenFree_free h.free', h.accept]
    exact overlay_run (s := (s.accept .fSync).clearRecord) s' rfl
  | recDecr =>
    simp only [Machine.exec, execRecDecr, whenFree_free h.free, whenFree_free h.free', h.accept]
    exact overlay_run (s := (s.accept .rTail).clearRecord) s' rfl
  | _ => simp [Instr.isCommand, Instr.slot] at hi

end

/-! ## The statement settled -/

/-- Settles O59: the two runs go through the same units, with the old results until the end. -/
theorem resultsForgotten : Obligations.ResultsForgotten := by
  intro i s t st v nv cnt cons cur k ph hi hn hb ht hend
  have h : AcceptAlike s
      { s with stat := st, val := v, nv := nv, cnt := cnt, cons := cons, cur := cur, scratch := k, ph := ph } :=
    ⟨hb, hb, rfl, fun _ => rfl⟩
  rw [h.exec hi hn, ht, Result.recast_next, recast_ended _ hend]

end Sys2Proof.Machine
end

section
/-! Where PH goes inside a command (10_state.md R30, R32), and what CONS counts (R25). -/

namespace Sys2Proof.Machine

open Sys2Proof

/-! ## PH -/

/-- PH stays, goes where the "leaves to" column of 10_state.md R30 says, or to IDLE by an error. -/
def State.PhaseFollows (s t : State) : Prop :=
  t.ph = s.ph ∨ t.ph = s.ph.leavesTo s.scratch.rev (t.scratch.dlen = 0) ∨ (t.ph = .idle ∧ t.stat.isError = true)

theorem Handled.phaseFollows {s t : State} (ht : Handled s (.next t)) : s.PhaseFollows t := by
  cases ht with
  | raised hk => exact .inr (.inr ⟨State.raise_ph .., by simpa using hk⟩)
  | valued hp => obtain hp | hp := hp <;> exact .inr (.inl (by simp [hp, Phase.leavesTo]))
  | recorded hp => obtain hp | hp | ⟨hp, hrev⟩ := hp <;> exact .inr (.inl (by simp [*, Phase.leavesTo]))
  | goesOn hm =>
    obtain ⟨hp, _⟩ | ⟨hp, _⟩ := hm
    · exact .inl hp
    · exact .inr (.inl hp)

theorem txNext_phaseFollows {s : State} (hp : s.ph.sending = true) : s.PhaseFollows s.txNext := by
  obtain ⟨hv, ht⟩ | ⟨he, ht⟩ | ⟨_, ht⟩ := txNext_cases hp <;> rw [ht]
  · exact .inr (.inl (by simp [hv, Phase.leavesTo]))
  · obtain he | ⟨he, hrev⟩ := he <;> exact .inr (.inl (by simp [*, Phase.leavesTo]))
  · exact .inr (.inl rfl)

theorem Sent.phaseFollows {s t : State} (ht : Sent s (.next t)) (hp : s.ph.sending = true) : s.PhaseFollows t := by
  cases ht with
  | advanced hu => exact .inl hu.ph
  | left hu =>
    have h := txNext_phaseFollows (hu.ph.symm ▸ hp)
    obtain ⟨q, room, c, x, rfl⟩ := hu
    exact h

/-- Where PH goes in a unit of work. -/
theorem unit_phaseFollows {s t : State} (ht : s.unit = some (.next t)) : s.PhaseFollows t := by
  obtain ⟨hp, hs⟩ | ⟨_, u, hu, hh⟩ := unit_cases ht
  · exact hs.phaseFollows hp
  · have h := hh.phaseFollows
    obtain rfl | ⟨b, q, _, rfl⟩ := hu <;> exact h

/-! ## CONS -/

theorem Handled.keepsIn {s t : State} (ht : Handled s (.next t)) : t.inQ = s.inQ ∧ t.cons = s.cons := by
  cases ht with
  | raised => exact ⟨State.raise_inQ .., State.raise_cons ..⟩
  | _ => exact ⟨rfl, rfl⟩

theorem txNext_keepsIn {s : State} (hp : s.ph.sending = true) : s.txNext.inQ = s.inQ ∧ s.txNext.cons = s.cons := by
  obtain ⟨_, ht⟩ | ⟨_, ht⟩ | ⟨_, ht⟩ := txNext_cases hp <;> rw [ht] <;> exact ⟨rfl, rfl⟩

theorem Sent.keepsIn {s t : State} (ht : Sent s (.next t)) (hp : s.ph.sending = true) : t.inQ = s.inQ ∧ t.cons = s.cons := by
  cases ht with
  | advanced hu =>
    obtain ⟨q, room, c, x, rfl⟩ := hu
    exact ⟨rfl, rfl⟩
  | left hu =>
    have h := txNext_keepsIn (hu.ph.symm ▸ hp)
    obtain ⟨q, room, c, x, rfl⟩ := hu
    exact h

/-- A unit takes no byte of IN, or the first one, which CONS counts (10_state.md R25). -/
theorem unit_counts {s t : State} (ht : s.unit = some (.next t)) :
    (t.inQ = s.inQ ∧ t.cons = s.cons) ∨ ∃ b, s.inQ = b :: t.inQ ∧ t.cons = s.cons + 1 := by
  obtain ⟨hp, hs⟩ | ⟨_, u, hu, hh⟩ := unit_cases ht
  · exact .inl (hs.keepsIn hp)
  · obtain ⟨hi, hc⟩ := hh.keepsIn
    obtain rfl | ⟨b, q, hq, rfl⟩ := hu
    · exact .inl ⟨hi, hc⟩
    · exact .inr ⟨b, by rw [hq, hi]; rfl, hc⟩

/-- CONS is the number of bytes taken since `q` stood on IN, and these are the first ones of `q`. -/
def State.Counts (q : List Byte) (s : State) : Prop := ∃ taken, q = taken ++ s.inQ ∧ s.cons = BitVec.ofNat 32 taken.length

theorem unit_keeps_counts {q : List Byte} {s t : State} (h : s.Counts q) (ht : s.unit = some (.next t)) : t.Counts q := by
  obtain ⟨taken, hq, hc⟩ := h
  obtain ⟨hi, hc'⟩ | ⟨b, hi, hc'⟩ := unit_counts ht
  · exact ⟨taken, by rw [hq, hi], by rw [hc', hc]⟩
  · refine ⟨taken ++ [b], by simp [hq, hi], ?_⟩
    rw [hc', hc, List.length_append, List.length_singleton, BitVec.ofNat_add]
    rfl

theorem Started.counts {s u : State} (hu : Started s u) : u.Counts s.inQ := by
  cases hu <;> exact ⟨[], rfl, rfl⟩

theorem Begun.counts {s t : State} {r : Result} (hr : Begun s r) (ht : r = .next t) : t.Counts s.inQ := by
  cases hr with
  | failed => cases ht; exact ⟨[], by simp, by simp⟩
  | absent => cases ht
  | runs hu =>
    obtain ⟨k, hk⟩ := units_of_run ht
    exact hk.induction (fun _ _ => unit_keeps_counts) hu.counts
  | _ => cases ht; exact ⟨[], rfl, rfl⟩

/-! ## The statements settled -/

/-- Settles O54, by what a unit does to PH; a step inside a command is a reset, a unit, or a wait. -/
theorem phaseMoves : Obligations.PhaseMoves := by
  intro s t hp ht
  by_cases hr : s.rst = true
  · cases (step_reset hr).symm.trans ht
    exact .inr (.inr ⟨rfl, .inl hr⟩)
  rw [Bool.not_eq_true] at hr
  rw [step_busy hr hp] at ht
  cases hu : s.tickOver.unit with
  | none => rw [hu] at ht; cases ht; exact .inl rfl
  | some r =>
    rw [hu] at ht
    cases ht
    exact (unit_phaseFollows hu).imp_right (.imp_right fun ⟨hi, he⟩ => ⟨hi, .inr he⟩)

/-- Settles O55, by induction over the units of the command. -/
theorem consCounts : Obligations.ConsCounts := by
  intro i s t hi hb ht
  by_cases hn : i = .nop
  · subst hn
    cases (whenFree_free hb _).symm.trans ht
    exact ⟨[], rfl, rfl, rfl⟩
  · obtain ⟨taken, hq, hc⟩ := (exec_begun hi hn hb).counts ht
    exact ⟨taken, hq, by rw [if_neg hn]; exact hc⟩

end Sys2Proof.Machine
end

section
/-! Reset, the status port, and the running CRC. -/

namespace Sys2Proof.Machine

open Sys2Proof

/-! ## The status port -/

theorem port_free {s : State} (h : s.busy = false) :
    s.port =
      { busy := false, ph := s.ph.code, cur := s.cur
        stat := s.stat.code, val := s.val, nv := s.nv, cnt := s.cnt, cons := s.cons, sync := s.sync, rid := s.rid
        plen := s.plen, crclen := s.crclen, crcb := s.crcb } := by
  rw [State.port, if_neg (by simp [h])]

/-- BUSY, PH and CUR stand on the port always (10_state.md R38). -/
theorem port_always (s : State) : s.port.busy = s.busy ∧ s.port.ph = s.ph.code ∧ s.port.cur = s.cur := by
  unfold State.port
  cases hb : s.busy <;> simp

/-- The registers after reset stand on the port whatever the buffers and the host's side hold. -/
theorem port_resetRegisters (s : State) : s.resetRegisters.port = State.reset.port := by
  rw [port_free rfl, port_free rfl]
  rfl

/-! ## The CRC bytes as numbers -/

/-- Byte `i` of a word as a number. -/
theorem toNat_byte {w : Nat} (v : BitVec w) (i : Nat) : (v.extractLsb' (8 * i) 8).toNat = v.toNat / 2 ^ (8 * i) % 256 := by
  rw [BitVec.extractLsb'_toNat, Nat.shiftRight_eq_div_pow]

theorem crc16Layout_toNat (le : Bool) (v : BitVec 16) :
    (crc16Layout le v).map BitVec.toNat =
      if le then [v.toNat % 256, v.toNat / 256] else [v.toNat / 256, v.toNat % 256] := by
  have h0 : (v.extractLsb' 0 8).toNat = v.toNat % 256 := by simp
  have h1 : (v.extractLsb' 8 8).toNat = v.toNat / 256 := by
    have : (v.extractLsb' 8 8).toNat = v.toNat / 256 % 256 := toNat_byte v 1
    have := v.isLt
    omega
  cases le <;> simp [crc16Layout, h0, h1]

theorem crc32Layout_toNat (le : Bool) (v : U32) :
    (crc32Layout le v).map BitVec.toNat =
      if le then [v.toNat % 256, v.toNat / 256 % 256, v.toNat / 65536 % 256, v.toNat / 16777216]
      else [v.toNat / 16777216, v.toNat / 65536 % 256, v.toNat / 256 % 256, v.toNat % 256] := by
  have h0 : (v.extractLsb' 0 8).toNat = v.toNat % 256 := by simp
  have h1 : (v.extractLsb' 8 8).toNat = v.toNat / 256 % 256 := toNat_byte v 1
  have h2 : (v.extractLsb' 16 8).toNat = v.toNat / 65536 % 256 := toNat_byte v 2
  have h3 : (v.extractLsb' 24 8).toNat = v.toNat / 16777216 := by
    have : (v.extractLsb' 24 8).toNat = v.toNat / 16777216 % 256 := toNat_byte v 3
    have := v.isLt
    omega
  cases le <;> simp [crc32Layout, h0, h1, h2, h3]

/-- `CRCBYTES` as numbers: one pass over the concatenation (43_record_framer.md R155, R157). -/
theorem crcBytes_toNat (hdr pay : List Byte) (c : CrcKind) (le : Bool) :
    (crcBytes hdr pay c le).map BitVec.toNat =
      match c with
      | .xor8 => [(xorBytes (hdr ++ pay)).toNat]
      | .crc16 => (crc16Layout le (Config.crc16.fin (crcRun Config.crc16 Config.crc16.init (hdr ++ pay)))).map BitVec.toNat
      | .crc32 => (crc32Layout le (Config.crc32.fin (crcRun Config.crc32 Config.crc32.init (hdr ++ pay)))).map BitVec.toNat := by
  cases c <;> simp [crcBytes, crcBytesWith, crcVal, crcRun_append]

theorem packCrc_nil_toNat : (packCrc []).toNat = 0 := rfl

/-- CRCB of up to 4 CRC bytes, as a base-256 number (10_state.md R35). -/
theorem packCrc_cons_toNat_of_length (b : Byte) {bs : List Byte} (h : bs.length ≤ 3) :
    (packCrc (b :: bs)).toNat = b.toNat + 256 * (packCrc bs).toNat :=
  packCrc_cons_toNat b ((packCrc_lt (by omega)).trans_le (Nat.pow_le_pow_right (by norm_num) (by omega)))

/-! ## The statements settled -/

/-- Settles O1. -/
theorem resetRegisters : Obligations.ResetRegisters := port_free rfl

/-- Settles O2: a step under `rst` is the reset of the registers, and the released codec with no word waits. -/
theorem resetInput : Obligations.ResetInput := by
  intro s hr
  refine ⟨s.tickOver.resetRegisters, step_reset hr, port_resetRegisters _, rfl, rfl, hr, rfl, rfl, rfl, rfl, fun hq => ?_⟩
  let u : State := { s.tickOver.resetRegisters with rst := false }
  exact ⟨u.tickOver, step_noCommand (s := u) rfl rfl (.inr hq), port_resetRegisters s.tickOver⟩

/-- Settles O3. -/
theorem statusPort : Obligations.StatusPort := by
  refine ⟨fun s => ?_, fun p => by cases p <;> rfl, fun k => by cases k <;> rfl⟩
  obtain ⟨hb, hp, hc⟩ := port_always s
  refine ⟨hb, hp, hc, fun h => ?_⟩
  rw [port_free h]
  exact ⟨rfl, rfl, rfl, rfl, rfl, rfl, rfl, rfl, rfl, rfl⟩

/-- Settles O7: fetching takes the word, decoding gives the instruction, and the step is its `exec`. -/
theorem stepRunsCommand : Obligations.StepRunsCommand := fun _ _ _ _ hr hb hp hq hi => step_command hr hp hb hq hi

/-- Settles O20: CRCS and XORS fed byte by byte are the one pass, and the layouts are base-256 digits. -/
theorem runningCrc : Obligations.RunningCrc := by
  refine ⟨fun k c pay => ?_, fun hdr pay c le => ?_, fun a b c d => ⟨rfl, ?_⟩⟩
  · exact crcField_feedAll k c (k.rawId ++ k.rawLen) pay
  · dsimp only
    rw [crcBytes_toNat]
    cases c with
    | xor8 => rfl
    | crc16 => exact crc16Layout_toNat le _
    | crc32 => exact crc32Layout_toNat le _
  · refine ⟨?_, ?_, ?_⟩ <;> simp only [packCrc_cons_toNat_of_length, List.length_cons, List.length_nil, packCrc_nil_toNat,
      Nat.reduceAdd, Nat.reduceLeDiff] <;> omega

end Sys2Proof.Machine
end

section
/-! Steps from a state with the invariant, waiting on IN, what a command that ends in error has put, and the bytes that the
storing commands write (20_memory.md R57, R60, R68). -/

namespace Sys2Proof.Machine

open Sys2Proof

/-! ## Steps of a codec that meets the invariant -/

theorem unit_next {s : State} {r : Result} (h : Inv s) (hr : s.unit = some r) : ∃ t, r = .next t := by
  obtain ⟨_, hs⟩ | ⟨_, u, hu, hh⟩ := unit_cases hr
  · exact hs.next h
  · exact hh.next (hu.inv h)

theorem exec_next {i : Instr} {s : State} (hi : i.isCommand = true) (h : Inv s) (hb : s.busy = false) :
    ∃ t, exec i s = .next t :=
  (commandSettles i s h hb hi).imp fun _ ht => ht.1

/-- Settles O6: a command settles, a unit goes on, and the other steps are resets, waits and reports. -/
theorem stepTotal : Obligations.StepTotal := by
  intro s h
  have htick : Inv s.tickOver := { h with }
  by_cases hr : s.rst = true
  · exact ⟨_, step_reset hr⟩
  rw [Bool.not_eq_true] at hr
  by_cases hp : s.ph = .idle
  · have hb : s.busy = false := by simpa [hp] using h.busyPhase
    cases hq : s.cmdQ with
    | nil => exact ⟨_, step_noCommand hr hp (.inr hq)⟩
    | cons w q =>
      cases hi : decodeCommand w with
      | ok i =>
        rw [step_command hr hp hb hq hi]
        exact exec_next (decodeCommand_command hi) { htick with } hb
      | error e => exact ⟨_, step_illegal hr hp hb hq hi⟩
  · rw [step_busy hr hp]
    cases hu : s.tickOver.unit with
    | none => exact ⟨_, rfl⟩
    | some r => exact unit_next htick hu

/-! ## Waiting on IN -/

theorem takes_ne_idle {p : Phase} (h : p.takes = true) : p ≠ .idle := by
  rintro rfl
  cases h

/-- Of the phases that take from IN only V_IN decodes no record (10_state.md R30). -/
theorem takes_decoding {p : Phase} (h : p.takes = true) : p.decoding = false ↔ p = .vIn := by
  cases p <;> simp_all [Phase.takes, Phase.decoding]

/-- An exception of a phase that takes from IN (60_exceptions.md R193, 43_record_framer.md R164). -/
theorem raise_of_takes {s : State} (h : s.ph.takes = true) (e : Status) :
    s.raise e = (if s.ph = .vIn then s else s.emptied).failed e s.cons.toNat := by
  have hd := takes_decoding h
  rw [raise_eq_complete]
  by_cases hv : s.ph = .vIn
  · rw [if_neg (by simp [hd.2 hv]), if_pos hv]
    simp [State.complete, State.failed, State.ended, State.setResult, State.respond]
  · rw [if_pos (by simpa [hv] using hd), if_neg hv]
    simp [State.complete, State.failed, State.ended, State.setResult, State.respond, State.clearRecord, State.emptied]

/-- Settles O49: the step is a wait, or the exception that end of stream is. -/
theorem inWaits : Obligations.InWaits := by
  intro s hr hp hq
  have hstep := step_busy hr (takes_ne_idle hp)
  refine ⟨fun he => ?_, fun he => ?_⟩
  · rw [hstep, unit_wait (s := s.tickOver) hp hq he]
    rfl
  · rw [hstep, unit_eos (s := s.tickOver) hp hq he, raise_of_takes (s := s.tickOver) hp]
    by_cases hv : s.ph = .vIn
    · simp [hv, State.failed, State.ended, State.tickOver]
    · simp [hv, State.failed, State.ended, State.tickOver, State.emptied]

/-! ## What a command that ends in error has put -/

/-- A run that sends ends with OK only; a run that reads puts nothing (10_state.md R30, 20_memory.md R68). -/
def State.QuietOrOk (s t : State) : Prop :=
  t.ph.sending = true ∧ t.busy = true ∨ t.ph = .idle ∧ t.stat = .ok ∨
    t.ph.sending = false ∧ t.outQ = s.outQ ∧ t.outRoom = s.outRoom

theorem Handled.keepsOut {s t : State} (ht : Handled s (.next t)) : t.outQ = s.outQ ∧ t.outRoom = s.outRoom := by
  cases ht with
  | raised => exact ⟨State.raise_outQ .., State.raise_outRoom ..⟩
  | _ => exact ⟨rfl, rfl⟩

theorem State.TakesTo.keepsOut {s u : State} (hu : s.TakesTo u) : u.outQ = s.outQ ∧ u.outRoom = s.outRoom := by
  obtain rfl | ⟨b, q, _, rfl⟩ := hu <;> exact ⟨rfl, rfl⟩

/-- A sending phase leaves to another one, or ends its command with OK. -/
theorem txNext_sends_or_ok {s : State} (hp : s.ph.sending = true) :
    s.txNext.ph.sending = true ∧ s.txNext.busy = s.busy ∨ s.txNext.ph = .idle ∧ s.txNext.stat = .ok := by
  obtain ⟨_, ht⟩ | ⟨_, ht⟩ | ⟨hi, ht⟩ := txNext_cases hp <;> rw [ht]
  · exact .inr ⟨rfl, rfl⟩
  · exact .inr ⟨rfl, rfl⟩
  · exact .inl ⟨(sending_leavesTo hp hi).2.1, rfl⟩

theorem Sent.sends_or_ok {s t : State} (ht : Sent s (.next t)) (hp : s.ph.sending = true) :
    t.ph.sending = true ∧ t.busy = s.busy ∨ t.ph = .idle ∧ t.stat = .ok := by
  cases ht with
  | advanced hu => exact .inl ⟨hu.ph.symm ▸ hp, hu.busy⟩
  | left hu => exact hu.busy ▸ txNext_sends_or_ok (hu.ph.symm ▸ hp)

theorem unit_quietOrOk {s t u : State} (h : s.QuietOrOk t) (hu : t.unit = some (.next u)) : s.QuietOrOk u := by
  obtain ⟨hp, hs⟩ | ⟨hp, v, hv, hh⟩ := unit_cases hu
  · obtain ⟨_, hb⟩ | ⟨hi, _⟩ | ⟨hn, _⟩ := h
    · exact (hs.sends_or_ok hp).imp (.imp_right (·.trans hb)) .inl
    · exact absurd hi (sending_ne_idle hp)
    · exact absurd hp (by simp [hn])
  · obtain ⟨hs, _⟩ | ⟨hi, _⟩ | ⟨_, ho, hr⟩ := h
    · exact absurd hs (by simp [reads_not_sending hp])
    · exact absurd hi (reads_ne_idle hp)
    · obtain ⟨ho', hr'⟩ := hh.keepsOut
      obtain ⟨ho'', hr''⟩ := hv.keepsOut
      exact .inr (.inr ⟨hh.not_sending (hv.ph.symm ▸ hp), ho'.trans (ho''.trans ho), hr'.trans (hr''.trans hr)⟩)

theorem Started.quietOrOk {s u : State} (hu : Started s u) : s.QuietOrOk u := by
  cases hu with
  | sends => exact .inl ⟨rfl, rfl⟩
  | reads hp => exact .inr (.inr ⟨by obtain rfl | rfl := hp <;> rfl, rfl, rfl⟩)
  | encodes => exact .inl ⟨rfl, rfl⟩
  | decodes hp => exact .inr (.inr ⟨by obtain rfl | rfl := hp <;> rfl, rfl, rfl⟩)

theorem Begun.quietOrOk {s t : State} {r : Result} (hr : Begun s r) (ht : r = .next t) : s.QuietOrOk t := by
  cases hr with
  | failed => cases ht; exact .inr (.inr ⟨by rw [State.raise_ph]; rfl, State.raise_outQ .., State.raise_outRoom ..⟩)
  | absent => cases ht
  | runs hu =>
    obtain ⟨k, hk⟩ := units_of_run ht
    exact hk.induction (fun _ _ => unit_quietOrOk) hu.quietOrOk
  | _ => cases ht; exact .inr (.inl ⟨rfl, rfl⟩)

/-- Settles O56, by induction over the units of the command. -/
theorem errorPutsNothing : Obligations.ErrorPutsNothing := by
  intro i s t hi hn hb ht hfree hstat
  obtain ⟨_, hbusy⟩ | ⟨_, hok⟩ | ⟨_, hout⟩ := (exec_begun hi hn hb).quietOrOk ht
  · simp [hbusy] at hfree
  · exact absurd hok hstat
  · exact hout

/-! ## The bytes of the storing commands -/

/-- The memory frame of a command that stores `bs` at `off` (20_memory.md R60). -/
def State.StoresAt (s t : State) (off : U32) (bs : List Byte) : Prop :=
  (t.stat = .ok →
    t.pb.readList off.toNat bs.length = bs ∧
    (∀ x, x < off.toNat ∨ off.toNat + bs.length ≤ x → t.pb.read x = s.pb.read x) ∧
    t.plen.toNat = max s.plen.toNat (off.toNat + bs.length)) ∧
  (t.stat ≠ .ok → t.pb = s.pb ∧ t.plen = s.plen)

/-- A write within the bound of R60. -/
theorem complete_storesAt {s : State} (h : Inv s) {off : U32} {bs : List Byte}
    (hw : (s.accept .vBuf).writable off bs.length = true) (n : Nat) :
    s.StoresAt (((s.accept .vBuf).writePb off bs).complete .ok 0 false n) off bs := by
  refine ⟨fun _ => ?_, fun hne => absurd rfl hne⟩
  have hb := h.plenBound
  simp only [State.writable, Bool.and_eq_true, decide_eq_true_eq] at hw
  obtain ⟨_, hend⟩ := hw
  have hpb : Config.pbBytes = 1048576 := rfl
  refine ⟨Mem.readList_writeList bs h.pbWf _ hend, fun x hx => Mem.read_writeList_outside bs _ _ _ hx, ?_⟩
  simp
  omega

/-- An exception of a storing command leaves PB and PLEN (60_exceptions.md R193). -/
theorem raise_storesAt (s : State) {e : Status} (he : e.isError = true) (off : U32) (bs : List Byte) :
    s.StoresAt ((s.accept .vBuf).raise e) off bs := by
  refine ⟨fun hok => ?_, fun _ => ⟨by simp, by simp [Phase.decoding]⟩⟩
  rw [State.raise_stat] at hok
  subst hok
  cases he

theorem encodeTo_storesAt {s t : State} (h : Inv s) {off : U32} {bs : List Byte}
    (ht : s.encodeTo false off bs = .next t) : s.StoresAt t off bs := by
  simp only [State.encodeTo, Bool.false_eq_true, if_false] at ht
  split_ifs at ht with hw <;> cases ht
  · exact complete_storesAt h hw _
  · exact raise_storesAt s rfl off bs

/-- Settles O31: each storing command is a write within the bound, or an exception. -/
theorem storeFrame : Obligations.StoreFrame := by
  intro i off bs s t h hb hi ht
  change s.StoresAt t off bs
  obtain ⟨le, a, rfl, rfl⟩ | ⟨le, a, rfl, hbs⟩ | ⟨le, a, rfl, rfl⟩ | ⟨b, rfl, rfl⟩ := hi
  · rw [exec, execVuEnc, whenFree_free hb] at ht
    split at ht
    · cases ht
      exact raise_storesAt s rfl off _
    · exact encodeTo_storesAt h ht
  · simp only [exec, execVsEnc, whenFree_free hb, hbs, Bool.false_eq_true, if_false] at ht
    exact encodeTo_storesAt h ht
  · simp only [exec, execVsEnc, whenFree_free hb, if_true] at ht
    exact encodeTo_storesAt h ht
  · simp only [exec, execPbPut, whenFree_free hb] at ht
    split_ifs at ht with hw <;> cases ht
    · exact complete_storesAt h hw _
    · exact raise_storesAt s rfl off _

end Sys2Proof.Machine
end

section
/-! What a unit of work has to do with the buffers and the ports: the same unit, in another world that serves the codec alike,
does the same to the registers and the corresponding thing to that world. The waits and resumptions of a command
(70_reset_and_hazards.md R230) and what it cannot observe (R221) are derived from this. -/

namespace Sys2Proof.Machine

open Sys2Proof

/-! ## The world around the registers -/

/-- The buffers, the ports, the pulse, and the model's counter: what stands around the registers of a command. -/
structure World where
  pb : Mem
  rb : Mem
  resp : Bool
  rst : Bool
  cmdQ : List CmdWord
  inQ : List Byte
  inEos : Bool
  outQ : List OutByte
  outRoom : Option Nat
  tick : Nat

def State.world (s : State) : World :=
  { pb := s.pb, rb := s.rb, resp := s.resp, rst := s.rst, cmdQ := s.cmdQ, inQ := s.inQ, inEos := s.inEos, outQ := s.outQ
    outRoom := s.outRoom, tick := s.tick }

/-- The registers of `s` in the world `w`. The pulse of a command that has ended is its own (60_exceptions.md R192). -/
def State.inside (s : State) (w : World) : State :=
  { s with
    pb := w.pb, rb := w.rb, resp := if s.busy then w.resp else s.resp, rst := w.rst, cmdQ := w.cmdQ, inQ := w.inQ
    inEos := w.inEos, outQ := w.outQ, outRoom := w.outRoom, tick := w.tick }

/-- The same of an outcome. -/
def Result.inside (w : World) : Result → Result
  | .next t => .next (t.inside w)
  | r => r

/-- The first byte of IN is taken (20_memory.md R57). -/
def World.took (w : World) : World := { w with inQ := w.inQ.tail }

/-- A byte is put on OUT (R58). -/
def World.put (w : World) (o : OutByte) : World := { w with outQ := w.outQ ++ [o], outRoom := w.outRoom.map (· - 1) }

/-- The phase of `s` works on the byte `b`: a payload byte goes to PB, a staged byte to RB (43_record_framer.md R160, R171). -/
def World.stored (w : World) (s : State) (b : Byte) : World :=
  { w with
    pb := if s.ph = .fPay ∨ s.ph = .rPay then w.pb.write s.cur.toNat b else w.pb
    rb := if s.ph = .rFill then w.rb.write (s.scratch.tlen.toNat - s.cur.toNat) b else w.rb }

section
variable (w : World) (s : State)

@[simp] theorem inside_ph : (s.inside w).ph = s.ph := rfl
@[simp] theorem inside_cur : (s.inside w).cur = s.cur := rfl
@[simp] theorem inside_scratch : (s.inside w).scratch = s.scratch := rfl
@[simp] theorem inside_plen : (s.inside w).plen = s.plen := rfl
@[simp] theorem inside_busy : (s.inside w).busy = s.busy := rfl
@[simp] theorem inside_pb : (s.inside w).pb = w.pb := rfl
@[simp] theorem inside_rb : (s.inside w).rb = w.rb := rfl
@[simp] theorem inside_inQ : (s.inside w).inQ = w.inQ := rfl
@[simp] theorem inside_inEos : (s.inside w).inEos = w.inEos := rfl
@[simp] theorem inside_outRoom : (s.inside w).outRoom = w.outRoom := rfl
@[simp] theorem inside_slot : (s.inside w).slot = s.slot := rfl

@[simp] theorem inside_world : s.inside s.world = s := by
  cases h : s.busy <;> simp [State.inside, State.world, h] <;> rw [← h]

@[simp] theorem inside_complete (st : Status) (v : U64) (nv : Bool) (n : Nat) :
    (s.inside w).complete st v nv n = (s.complete st v nv n).inside w := rfl
@[simp] theorem inside_recordDone : (s.inside w).recordDone = s.recordDone.inside w := rfl
@[simp] theorem inside_encodeDone : (s.inside w).encodeDone = s.encodeDone.inside w := rfl

@[simp] theorem inside_raise (e : Status) : (s.inside w).raise e = (s.raise e).inside w := by
  rw [raise_eq_complete, raise_eq_complete, inside_ph]
  split <;> rfl

@[simp] theorem Result.inside_next (t : State) : Result.inside w (.next t) = .next (t.inside w) := rfl

variable {s}

theorem ite_inside {c : Prop} [Decidable c] {a b a' b' : State} (ha : a' = a.inside w) (hb : b' = b.inside w) :
    (if c then a' else b') = (if c then a else b).inside w :=
  eq_apply_ite (State.inside · w) ha hb

/-! ## The bytes of a decode -/

theorem inside_vsDone : (s.inside w).vsDone = s.vsDone.inside w := by
  unfold State.vsDone
  simp only [inside_scratch]
  split <;> simp

theorem inside_badSync : (s.inside w).badSync = s.badSync.inside w :=
  ite_inside w (by simp) (by simp)

/-- An exception in a state with other scratch registers. -/
theorem inside_raise_with_scratch (k : Scratch) (e : Status) :
    ({ s.inside w with scratch := k } : State).raise e = (({ s with scratch := k } : State).raise e).inside w :=
  inside_raise w { s with scratch := k } e

theorem inside_lengthHandler : (s.inside w).lengthHandler = s.lengthHandler.inside w := by
  unfold State.lengthHandler
  simp only [inside_scratch]
  split
  · simp
  · exact ite_inside w (by simp) (ite_inside w (by simp) rfl)

theorem inside_vuDone (v : U29) (n : Nat) (raw : List Byte) :
    (s.inside w).vuDone v n raw = Result.inside w (s.vuDone v n raw) := by
  unfold State.vuDone
  simp only [inside_ph]
  split
  case h_5 => exact congrArg _ (inside_lengthHandler w (s := { s with scratch := { s.scratch with dlen := v, rawLen := raw } }))
  case h_6 => exact congrArg _ (inside_lengthHandler w (s := { s with scratch := { s.scratch with dlen := v, rawLen := raw } }))
  case h_7 => exact congrArg _ (ite_inside w (inside_raise_with_scratch w _ _) rfl)
  all_goals rfl

theorem inside_vsStart (nib : BitVec 4) (b : Byte) : (s.inside w).vsStart nib b = (s.vsStart nib b).inside w :=
  ite_inside w (inside_vsDone w (s := { s with scratch := { s.scratch with nib := nib, shift := b.setWidth 64 } })) rfl

theorem inside_vsMore (b : Byte) : (s.inside w).vsMore b = (s.vsMore b).inside w :=
  ite_inside w
    (inside_vsDone w
      (s := { s with scratch := { s.scratch with shift := vsShiftIn s.scratch.le s.scratch.shift s.cur.toNat b } }))
    rfl

theorem inside_payByte (hp : s.ph = .fPay ∨ s.ph = .rPay) (p : Phase) (b : Byte) :
    (s.inside w).payByte p b = Result.inside (w.stored s b) (s.payByte p b) := by
  have hpb : (w.stored s b).pb = w.pb.write s.cur.toNat b := if_pos hp
  have hrb : (w.stored s b).rb = w.rb := if_neg (by obtain hp | hp := hp <;> simp [hp])
  refine eq_apply_ite (Result.inside (w.stored s b)) rfl (congrArg _ (ite_inside _ ?_ ?_)) <;>
    simp only [State.enter, State.advance, State.inside, hpb, hrb] <;> rfl

theorem inside_crcByte (b : Byte) : (s.inside w).crcByte b = (s.crcByte b).inside w :=
  ite_inside w (ite_inside w (inside_raise_with_scratch w _ _) (ite_inside w rfl rfl)) rfl

theorem inside_rlenByte (b : Byte) : (s.inside w).rlenByte b = (s.rlenByte b).inside w :=
  ite_inside w (ite_inside w (inside_raise_with_scratch w _ _) rfl) rfl

theorem inside_fillByte (hp : s.ph = .rFill) (b : Byte) :
    (s.inside w).fillByte b = Result.inside (w.stored s b) (s.fillByte b) := by
  have hpb : (w.stored s b).pb = w.pb := if_neg (by simp [hp])
  have hrb : (w.stored s b).rb = w.rb.write (s.scratch.tlen.toNat - s.cur.toNat) b := if_pos hp
  refine eq_apply_ite (Result.inside (w.stored s b)) rfl (congrArg _ (ite_inside _ ?_ ?_)) <;>
    simp only [State.enter, State.advance, State.inside, hpb, hrb] <;> rfl

theorem inside_headSync (le rev enh : Bool) : (s.inside w).headSync le rev enh = Result.inside w (s.headSync le rev enh) := by
  unfold State.headSync
  simp only [inside_ph]
  split
  · rfl
  · simp
  · simp
  · exact congrArg _ (ite_inside w rfl (by simp))
  · rfl

theorem inside_tailSync (le enh : Bool) : (s.inside w).tailSync le enh = Result.inside w (s.tailSync le enh) := by
  unfold State.tailSync
  simp only [inside_ph]
  split
  · simp
  · exact congrArg _ (ite_inside w rfl (by simp))
  · rfl
  · simp
  · rfl

/-- A phase that stores no byte leaves the buffers of every world. -/
theorem stored_of_not {b : Byte} (h : s.ph ≠ .fPay ∧ s.ph ≠ .rPay ∧ s.ph ≠ .rFill) : w.stored s b = w := by
  obtain ⟨h1, h2, h3⟩ := h
  simp [World.stored, h1, h2, h3]

theorem stored_of_slot {b : Byte} {sl : Slot} (h : s.slot = some sl) : w.stored s b = w := by
  refine stored_of_not w ⟨?_, ?_, ?_⟩ <;> rintro hp <;> simp [State.slot, hp] at h

theorem inside_dataByte (b : Byte) : (s.inside w).dataByte b = Result.inside (w.stored s b) (s.dataByte b) := by
  unfold State.dataByte
  simp only [inside_ph]
  split
  next hp => rw [stored_of_not w (by simp [hp])]; exact congrArg _ (inside_vsMore w b)
  next hp => rw [stored_of_not w (by simp [hp])]; exact congrArg _ (inside_vsMore w b)
  next hp => exact inside_payByte w (.inl hp) _ b
  next hp => exact inside_payByte w (.inr hp) _ b
  next hp => rw [stored_of_not w (by simp [hp])]; exact congrArg _ (inside_crcByte w b)
  next hp => rw [stored_of_not w (by simp [hp])]; exact congrArg _ (inside_crcByte w b)
  next hp => rw [stored_of_not w (by simp [hp])]; exact congrArg _ (inside_rlenByte w b)
  next hp => exact inside_fillByte w hp b
  next => rfl

theorem inside_handleByte (hp : s.ph.reads = true) (b : Byte) :
    (s.inside w).handleByte b = Result.inside (w.stored s b) (s.handleByte b) := by
  obtain ⟨hs, _⟩ | hs | ⟨_, _, le, hs⟩ | ⟨hs, _⟩ := slot_cases hp
  · rw [stored_of_slot w hs, handleByte_sync b hs, handleByte_sync b (s := s.inside w) hs]
    split
    · exact inside_headSync w _ _ _
    · split
      · exact inside_tailSync w _ _
      · exact congrArg _ (inside_badSync w)
  · rw [stored_of_slot w hs, handleByte_vu b hs, handleByte_vu b (s := s.inside w) hs]
    exact eq_apply_ite (Result.inside w) (eq_apply_ite (Result.inside w) rfl (inside_vuDone w _ _ _)) (inside_vuDone w _ _ _)
  · rw [stored_of_slot w hs, handleByte_vsFirst b hs, handleByte_vsFirst b (s := s.inside w) hs]
    exact congrArg _ (inside_vsStart w _ b)
  · rw [handleByte_data b hs, handleByte_data b (s := s.inside w) hs]
    exact inside_dataByte w b

/-! ## The bytes of an encode -/

theorem inside_put {o : OutByte} (h : w.outRoom ≠ some 0) :
    (s.inside w).put o.data o.last = some (s.inside (w.put o)) := by
  unfold State.put
  rw [inside_outRoom]
  split
  next hr => simp only [State.inside, World.put, hr, Option.map_none]
  next hr => exact absurd hr h
  next n hr =>
    simp only [State.inside, World.put, hr, Option.map_some]
    rfl

theorem put_none {s : State} (h : s.outRoom = some 0) (b : Byte) (last : Bool) : s.put b last = none := by
  simp [State.put, h]

theorem inside_txFeed (b : Byte) : (s.inside w).txFeed b = (s.txFeed b).inside w := by
  unfold State.txFeed
  simp only [inside_ph]
  split <;> rfl

theorem inside_txNext : (s.inside w).txNext = s.txNext.inside w := by
  unfold State.txNext
  simp only [inside_ph]
  split
  case h_5 => exact ite_inside w rfl rfl
  all_goals rfl

end

/-! ## Units of work -/

/-- The last world is the one that stands. -/
@[simp] theorem inside_inside (s : State) (w w' : World) : (s.inside w).inside w' = s.inside w' := by
  simp only [State.inside]
  split_ifs <;> rfl

/-- What a unit does to the world: nothing, it works on a byte of PB or RB or on the first byte of IN, it puts a byte on OUT. -/
inductive Effect where
  | quiet
  | works (b : Byte)
  | takes (b : Byte)
  | puts (o : OutByte)

/-- The world `w` after a unit of work of `s` with that effect. -/
def World.after (w : World) (s : State) : Effect → World
  | .quiet => w
  | .works b => w.stored s b
  | .takes b => w.took.stored s b
  | .puts o => w.put o

/-- The phase asks for a byte: R_PAY has an end of its own (43_record_framer.md R170). -/
def State.Fetches (s : State) : Prop := s.ph.reads = true ∧ ¬(s.ph = .rPay ∧ s.scratch.dlen.toNat ≤ s.cur.toNat)

/-- The effect is one that a unit from `s` to `t` has on its own ports. A phase that asks for a byte works on one, unless the
command ends. -/
def Effect.Fits (s t : State) : Effect → Prop
  | .quiet => s.Fetches → t.busy = false
  | .works _ => True
  | .takes b => ∃ q, s.inQ = b :: q
  | .puts _ => s.ph.sending = true ∧ s.outRoom ≠ some 0

/-- The world `w` gives the next unit of `s` what the world of `s` gives it: the same next byte of IN, the same readable bytes
of PB and RB, room on OUT. -/
structure World.Serves (w : World) (s : State) : Prop where
  input : s.ph.takes = true → w.inQ.head? = s.inQ.head? ∧ (s.inQ = [] → w.inEos = s.inEos)
  value : s.ph = .vBuf → ∀ x, x < s.plen.toNat → w.pb.read x = s.pb.read x
  payload : s.ph = .ePay → ∀ x, x < s.scratch.dlen.toNat → w.pb.read x = s.pb.read x
  staged : s.ph.stagingKnown = true → s.ph ≠ .rFill → ∀ x, x ≤ s.scratch.tlen.toNat → w.rb.read x = s.rb.read x
  room : s.ph.sending = true → s.outRoom ≠ some 0 → w.outRoom ≠ some 0

theorem World.serves_self (s : State) : s.world.Serves s :=
  ⟨fun _ => ⟨rfl, fun _ => rfl⟩, fun _ _ _ => rfl, fun _ _ _ => rfl, fun _ _ _ _ => rfl, fun _ h => h⟩

/-- What the codec finds when it needs a byte, in the world of `s` and in the world `w`. -/
inductive FetchedAlike (s : State) (w : World) : Fetch → Fetch → Prop where
  | waiting : FetchedAlike s w .waiting .waiting
  | ended : FetchedAlike s w .ended .ended
  | absent (f : Fault) : FetchedAlike s w (.absent f) (.absent f)
  | read (b : Byte) : FetchedAlike s w (.got b s) (.got b (s.inside w))
  | taken {b : Byte} {q : List Byte} (hq : s.inQ = b :: q) :
      FetchedAlike s w (.got b (s.took q)) (.got b ((s.took q).inside w.took))

section
variable {s : State} {w : World}

theorem take_cons {b : Byte} {q : List Byte} (h : s.inQ = b :: q) : s.take = .got b (s.took q) := by
  unfold State.take
  rw [h]
  rfl

theorem take_nil (h : s.inQ = []) : s.take = if s.inEos then .ended else .waiting := by
  unfold State.take
  rw [h]

theorem take_alike (hq : w.inQ.head? = s.inQ.head?) (he : s.inQ = [] → w.inEos = s.inEos) :
    FetchedAlike s w s.take (s.inside w).take := by
  cases hs : s.inQ with
  | nil =>
    rw [hs] at hq
    rw [take_nil hs, take_nil (s := s.inside w) (List.head?_eq_none_iff.1 hq)]
    simp only [inside_inEos, he hs]
    split_ifs
    · exact .ended
    · exact .waiting
  | cons b q =>
    rw [hs] at hq
    obtain ⟨q', hq'⟩ := List.head?_eq_some_iff.1 hq
    have htook : w.took.inQ = q' := by rw [World.took, hq']; rfl
    rw [take_cons hs, take_cons (s := s.inside w) hq', ← htook]
    exact .taken hs

theorem fetchPb_alike {a n : Nat} (h : ∀ x, x < n → w.pb.read x = s.pb.read x) :
    FetchedAlike s w (s.fetchPb a n) ((s.inside w).fetchPb a n) := by
  unfold State.fetchPb
  split_ifs with h1 h2
  · exact .ended
  · exact .absent _
  · rw [inside_pb, h a (by omega)]
    exact .read _

theorem fetchRb_alike {p : Nat} (h : ∀ x, x ≤ s.scratch.tlen.toNat → w.rb.read x = s.rb.read x) :
    FetchedAlike s w (s.fetchRb p) ((s.inside w).fetchRb p) := by
  unfold State.fetchRb
  rw [inside_scratch]
  split_ifs with h1 h2
  · exact .ended
  · exact .absent _
  · rw [inside_rb, h p (by omega)]
    exact .read _

theorem took_ne {b : Byte} {q : List Byte} (h : s.inQ = b :: q) : s.took q ≠ s := fun hs => by
  have : q = b :: q := (congrArg State.inQ hs).trans h
  simp at this

theorem FetchedAlike.got {b : Byte} {u : State} {f : Fetch} (h : FetchedAlike s w (.got b u) f) :
    (u = s ∧ f = .got b (s.inside w)) ∨ ∃ q, s.inQ = b :: q ∧ u = s.took q ∧ f = .got b ((s.took q).inside w.took) := by
  generalize hg : Fetch.got b u = g at h
  cases h with
  | read => injection hg with hb hu; exact .inl ⟨hu, hb ▸ rfl⟩
  | taken hq => injection hg with hb hu; subst hb; exact .inr ⟨_, hq, hu, rfl⟩
  | _ => cases hg

/-- A byte that stays where it is. -/
theorem FetchedAlike.got_read {b : Byte} {f : Fetch} (h : FetchedAlike s w (.got b s) f) : f = .got b (s.inside w) := by
  obtain ⟨_, hf⟩ | ⟨q, hq, hs, _⟩ := h.got
  · exact hf
  · exact absurd hs.symm (took_ne hq)

/-- A byte that is taken from IN. -/
theorem FetchedAlike.got_taken {b : Byte} {q : List Byte} {f : Fetch} (hq : s.inQ = b :: q)
    (h : FetchedAlike s w (.got b (s.took q)) f) : f = .got b ((s.took q).inside w.took) := by
  obtain ⟨hs, _⟩ | ⟨q', hq', hs, hf⟩ := h.got
  · exact absurd hs (took_ne hq)
  · rw [hf, ← hs]

theorem nextByte_alike (hw : w.Serves s) : FetchedAlike s w s.nextByte (s.inside w).nextByte := by
  have input : s.ph.takes = true → FetchedAlike s w s.take (s.inside w).take := fun h =>
    take_alike (hw.input h).1 (hw.input h).2
  have staged : s.ph.stagingKnown = true → s.ph ≠ .rFill → ∀ p, FetchedAlike s w (s.fetchRb p) ((s.inside w).fetchRb p) :=
    fun h h' p => fetchRb_alike (hw.staged h h')
  unfold State.nextByte
  simp only [inside_ph, inside_scratch, inside_cur, inside_plen]
  split
  next hp => exact fetchPb_alike (hw.value hp)
  all_goals first
    | exact .waiting
    | exact input (by simp_all [Phase.takes])
    | exact staged (by simp_all [Phase.stagingKnown]) (by simp_all) _

theorem txByte_alike (hw : s.ph = .ePay → ∀ x, x < s.scratch.dlen.toNat → w.pb.read x = s.pb.read x) :
    FetchedAlike s w s.txByte (s.inside w).txByte := by
  by_cases hp : s.ph = .ePay
  · rw [State.txByte, if_pos hp, State.txByte, if_pos (show (s.inside w).ph = .ePay from hp)]
    exact fetchPb_alike (hw hp)
  · rw [State.txByte, if_neg hp, State.txByte, if_neg (show (s.inside w).ph ≠ .ePay from hp)]
    rw [show (s.inside w).txField = s.txField from rfl, inside_cur]
    split
    · exact .read _
    · exact .ended

/-- The byte `b` has been put from the state `s`, `u` being the state after the put (43_record_framer.md R159). -/
def State.afterPut (s u : State) (b : Byte) : State :=
  if s.txLen ≤ s.cur.toNat + 1 then (u.txFeed b).txNext else (u.txFeed b).advance

theorem sendUnit_got {b : Byte} {v : State} (h : s.txByte = .got b v) :
    s.sendUnit = (s.put b s.txLast).map fun u => .next (s.afterPut u b) := by
  unfold State.sendUnit
  rw [h]
  rfl

theorem sendUnit_ended (h : s.txByte = .ended ∨ s.txByte = .waiting) : s.sendUnit = some (.next s.txNext) := by
  unfold State.sendUnit
  obtain h | h := h <;> rw [h]

theorem sendUnit_absent {f : Fault} (h : s.txByte = .absent f) : s.sendUnit = some (.fault f) := by
  unfold State.sendUnit
  rw [h]

theorem inside_afterPut (w' : World) : s.afterPut (s.inside w') = fun b => (s.afterPut s b).inside w' := by
  funext b
  unfold State.afterPut
  rw [inside_txFeed]
  exact ite_inside w' (inside_txNext w') rfl

/-- A byte that is put in a world with room for it. -/
theorem sendUnit_got_inside {b : Byte} {v : State} (h : (s.inside w).txByte = .got b v) (hr : w.outRoom ≠ some 0) :
    (s.inside w).sendUnit = some (.next ((s.afterPut s b).inside (w.put ⟨b, s.txLast⟩))) := by
  have hput := inside_put w (s := s) (o := ⟨b, s.txLast⟩) hr
  rw [sendUnit_got h, show (s.inside w).txLast = s.txLast from rfl, hput, Option.map_some]
  exact congrArg (some ∘ Host.Outcome.next) (congrFun (inside_afterPut (s := s) (w.put ⟨b, s.txLast⟩)) b)

/-- A unit of a sending phase, in its own world and in any that serves it alike. -/
theorem sendUnit_inside {t : State} (hp : s.ph.sending = true) (h : s.sendUnit = some (.next t)) :
    ∃ f : Effect, f.Fits s t ∧ ∀ w : World, w.Serves s → (s.inside w).sendUnit = some (.next (t.inside (w.after s f))) := by
  have alike : ∀ w : World, w.Serves s → FetchedAlike s w s.txByte (s.inside w).txByte := fun _ hw => txByte_alike hw.payload
  have reads : ¬s.Fetches := fun hf => by simp [reads_not_sending hf.1] at hp
  have quiet : s.txByte = .ended ∨ s.txByte = .waiting → s.txNext = t := fun h' => by
    simpa using (sendUnit_ended h').symm.trans h
  cases hb : s.txByte with
  | waiting =>
    refine ⟨.quiet, fun hf => absurd hf reads, fun w hw => ?_⟩
    have ha := alike w hw
    rw [hb] at ha
    cases hb' : (s.inside w).txByte <;> rw [hb'] at ha <;> cases ha
    rw [sendUnit_ended (.inr hb'), inside_txNext, quiet (.inr hb)]
    rfl
  | ended =>
    refine ⟨.quiet, fun hf => absurd hf reads, fun w hw => ?_⟩
    have ha := alike w hw
    rw [hb] at ha
    cases hb' : (s.inside w).txByte <;> rw [hb'] at ha <;> cases ha
    rw [sendUnit_ended (.inl hb'), inside_txNext, quiet (.inl hb)]
    rfl
  | absent f => simp [sendUnit_absent hb] at h
  | got b v =>
    have hr : s.outRoom ≠ some 0 := fun hr => by simp [sendUnit_got hb, put_none hr] at h
    have ht := sendUnit_got_inside (s := s) (w := s.world) (by rwa [inside_world]) hr
    rw [inside_world, h] at ht
    injection ht with ht
    injection ht with ht
    refine ⟨.puts ⟨b, s.txLast⟩, ⟨hp, hr⟩, fun w hw => ?_⟩
    have ha := alike w hw
    rw [hb] at ha
    obtain ⟨v', hb'⟩ : ∃ v', (s.inside w).txByte = .got b v' := by
      obtain ⟨_, hf⟩ | ⟨q, _, _, hf⟩ := ha.got <;> exact ⟨_, hf⟩
    rw [sendUnit_got_inside hb' (hw.room hp hr), ht, inside_inside]
    rfl

/-! ### Units of every phase -/

theorem unit_payEnded (hp : s.ph = .rPay) (hc : s.scratch.dlen.toNat ≤ s.cur.toNat) : s.unit = some (.next (s.enter .rCrc)) := by
  rw [State.unit, if_neg (by simp [hp]), if_neg (by simp [hp, Phase.sending]), if_pos ⟨hp, hc⟩]

/-- What a phase that asks for a byte does with what it finds (20_memory.md R57, R59). -/
def State.onFetch (s : State) : Fetch → Option Result
  | .waiting => none
  | .ended => some (.next (s.raise .truncatedRead))
  | .absent f => some (.fault f)
  | .got b t => some (t.handleByte b)

theorem State.Fetches.unit (h : s.Fetches) : s.unit = s.onFetch s.nextByte := by
  rw [State.unit, if_neg (reads_ne_idle h.1), if_neg (by simp [reads_not_sending h.1]), if_neg h.2]
  rfl

theorem unit_waiting (h : s.Fetches) (hb : s.nextByte = .waiting) : s.unit = none := by
  rw [h.unit, hb, State.onFetch]

theorem unit_ended_byte (h : s.Fetches) (hb : s.nextByte = .ended) : s.unit = some (.next (s.raise .truncatedRead)) := by
  rw [h.unit, hb, State.onFetch]

theorem unit_absent (h : s.Fetches) {f : Fault} (hb : s.nextByte = .absent f) : s.unit = some (.fault f) := by
  rw [h.unit, hb, State.onFetch]

theorem unit_got (h : s.Fetches) {b : Byte} {u : State} (hb : s.nextByte = .got b u) : s.unit = some (u.handleByte b) := by
  rw [h.unit, hb, State.onFetch]

/-- A unit that works on a byte, in any world that serves it alike. -/
theorem unit_got_inside {b : Byte} {u t : State} (hf : s.Fetches) (hb : s.nextByte = .got b u)
    (h : u.handleByte b = .next t) :
    ∃ f : Effect, f.Fits s t ∧ ∀ w : World, w.Serves s → (s.inside w).unit = some (.next (t.inside (w.after s f))) := by
  have alike : ∀ w : World, w.Serves s → FetchedAlike s w (.got b u) (s.inside w).nextByte := fun _ hw => hb ▸ nextByte_alike hw
  obtain rfl | ⟨q, hq, rfl⟩ := nextByte_got hb
  · refine ⟨.works b, trivial, fun w hw => ?_⟩
    rw [unit_got (s := u.inside w) hf (alike w hw).got_read, inside_handleByte w hf.1, h]
    rfl
  · refine ⟨.takes b, ⟨q, hq⟩, fun w hw => ?_⟩
    rw [unit_got (s := s.inside w) hf ((alike w hw).got_taken hq), inside_handleByte (s := s.took q) _ hf.1, h]
    rfl

/-- What a unit of work does in its own world, it does in any world that serves it alike. -/
theorem unit_inside {t : State} (h : s.unit = some (.next t)) :
    ∃ f : Effect, f.Fits s t ∧ ∀ w : World, w.Serves s → (s.inside w).unit = some (.next (t.inside (w.after s f))) := by
  by_cases hi : s.ph = .idle
  · simp [hi] at h
  by_cases hs : s.ph.sending = true
  · rw [unit_sending hs] at h
    obtain ⟨f, hf, hw⟩ := sendUnit_inside hs h
    exact ⟨f, hf, fun w hsv => (unit_sending (s := s.inside w) hs).trans (hw w hsv)⟩
  by_cases hpay : s.ph = .rPay ∧ s.scratch.dlen.toNat ≤ s.cur.toNat
  · cases (unit_payEnded hpay.1 hpay.2).symm.trans h
    exact ⟨.quiet, fun hf => absurd hpay hf.2, fun w _ => unit_payEnded (s := s.inside w) hpay.1 hpay.2⟩
  have hf : s.Fetches := ⟨reads_of_not_sending hi hs, hpay⟩
  cases hb : s.nextByte with
  | waiting => simp [unit_waiting hf hb] at h
  | absent f => simp [unit_absent hf hb] at h
  | got b u =>
    rw [unit_got hf hb] at h
    injection h with h
    exact unit_got_inside hf hb h
  | ended =>
    cases (unit_ended_byte hf hb).symm.trans h
    refine ⟨.quiet, fun _ => State.raise_busy .., fun w hw => ?_⟩
    have ha := nextByte_alike hw
    rw [hb] at ha
    generalize hb' : (s.inside w).nextByte = f at ha
    cases ha
    rw [unit_ended_byte (s := s.inside w) hf hb', inside_raise]
    rfl

/-- The effect on its own world is what the unit leaves there. -/
theorem unit_effect {t : State} (h : s.unit = some (.next t)) :
    ∃ f : Effect, f.Fits s t ∧ t = t.inside (s.world.after s f) ∧
      ∀ w : World, w.Serves s → (s.inside w).unit = some (.next (t.inside (w.after s f))) := by
  obtain ⟨f, hf, hw⟩ := unit_inside h
  have ht := hw _ (World.serves_self s)
  rw [inside_world, h] at ht
  injection ht with ht
  injection ht with ht
  exact ⟨f, hf, ht, hw⟩

/-- A sending phase waits only where the host takes no byte (20_memory.md R58). -/
theorem sendUnit_eq_none (h : s.sendUnit = none) : ∃ b v, s.txByte = .got b v ∧ s.outRoom = some 0 := by
  cases hb : s.txByte with
  | waiting => simp [sendUnit_ended (.inr hb)] at h
  | ended => simp [sendUnit_ended (.inl hb)] at h
  | absent f => simp [sendUnit_absent hb] at h
  | got b v =>
    refine ⟨b, v, rfl, by_contra fun hr => ?_⟩
    have hu := sendUnit_got_inside (s := s) (w := s.world) (by rwa [inside_world]) hr
    rw [inside_world, h] at hu
    cases hu

theorem sendUnit_none_inside (hw : w.Serves s) (hr : s.outRoom = some 0 → w.outRoom = some 0) (h : s.sendUnit = none) :
    (s.inside w).sendUnit = none := by
  obtain ⟨b, v, hb, h0⟩ := sendUnit_eq_none h
  have ha := txByte_alike hw.payload
  rw [hb] at ha
  obtain ⟨_, hb'⟩ | ⟨q, _, _, hb'⟩ := ha.got <;>
    rw [sendUnit_got hb', put_none (s := s.inside w) (hr h0)] <;> rfl

/-- What waits in its own world waits in any world that serves it alike and has no more room on OUT. -/
theorem unit_none_inside (hw : w.Serves s) (hr : s.outRoom = some 0 → w.outRoom = some 0) (h : s.unit = none) :
    (s.inside w).unit = none := by
  by_cases hi : s.ph = .idle
  · exact unit_idle (s := s.inside w) hi
  by_cases hs : s.ph.sending = true
  · rw [unit_sending hs] at h
    exact (unit_sending (s := s.inside w) hs).trans (sendUnit_none_inside hw hr h)
  have hf : s.Fetches :=
    ⟨reads_of_not_sending hi hs, fun hpay => by simp [unit_payEnded hpay.1 hpay.2] at h⟩
  have ha := nextByte_alike hw
  cases hb : s.nextByte with
  | waiting =>
    rw [hb] at ha
    generalize hb' : (s.inside w).nextByte = f at ha
    cases ha
    exact unit_waiting (s := s.inside w) hf hb'
  | ended => simp [unit_ended_byte hf hb] at h
  | absent f => simp [unit_absent hf hb] at h
  | got b u => simp [unit_got hf hb] at h

end

/-! ## What a command begins with, in any world -/

section
variable {s : State} (hb : s.busy = false) {w : World} (hw : w.resp = s.resp)
include hb hw

theorem inside_accept (p : Phase) : (s.inside w).accept p = (s.accept p).inside w := by
  simp [State.inside, State.accept, hb, hw]

end

theorem inside_writable (s : State) (w : World) (off : U32) (n : Nat) : (s.inside w).writable off n = s.writable off n := rfl

/-- What a command but NOP comes to, as a function of the world that the free codec `s` stands in: it runs from a first state
that its registers fix, or it ends at once. -/
inductive BegunIn (s : State) : (World → Result) → Prop where
  | runs {v : State} (hv : Started s v) : BegunIn s fun w => (v.inside w).run
  | failed {p : Phase} {e : Status} (hp : p.decoding = false) : BegunIn s fun w => .next (((s.accept p).raise e).inside w)
  | stored {off : U32} {bs : List Byte} {n : Nat} (hw : (s.accept .vBuf).writable off bs.length = true) :
      BegunIn s fun w =>
        .next ((((s.accept .vBuf).writePb off bs).complete .ok 0 false n).inside { w with pb := w.pb.writeList off.toNat bs })
  | fetched {off : U32} (ho : off.toNat < s.plen.toNat) :
      BegunIn s fun w => .next (((s.accept .vBuf).complete .ok ((w.pb.read off.toNat).setWidth 64) false 0).inside w)
  | cleared : BegunIn s fun w => .next (((s.accept .vBuf).clearRecord.complete .ok 0 false 0).inside w)
  | absent {f : Fault} : BegunIn s fun _ => .fault f

/-- The command `g` does in every world what it begins with in `s`. -/
def State.BeginsAlike (s : State) (g : State → Result) : Prop :=
  ∃ F, BegunIn s F ∧ ∀ w : World, w.resp = s.resp → g (s.inside w) = F w

section
variable {s : State} (hb : s.busy = false)
include hb

theorem whenFree_beginsAlike {g : State → Result} (h : s.BeginsAlike g) : s.BeginsAlike fun x => x.whenFree (g x) := by
  obtain ⟨F, hF, hg⟩ := h
  exact ⟨F, hF, fun w hw => (whenFree_free (s := s.inside w) hb _).trans (hg w hw)⟩

theorem raise_beginsAlike {p : Phase} (hp : p.decoding = false) (e : Status) :
    s.BeginsAlike fun x => .next ((x.accept p).raise e) :=
  ⟨_, .failed (e := e) hp, fun w hw => by simp only [inside_accept hb hw, inside_raise]⟩

theorem store_beginsAlike (off : U32) (bs : List Byte) (n : Nat) :
    s.BeginsAlike fun x =>
      if (x.accept .vBuf).writable off bs.length then .next (((x.accept .vBuf).writePb off bs).complete .ok 0 false n)
      else .next ((x.accept .vBuf).raise .invalidOffset) := by
  by_cases hwr : (s.accept .vBuf).writable off bs.length = true
  · refine ⟨_, .stored (n := n) hwr, fun w hw => ?_⟩
    simp only [inside_accept hb hw, inside_writable, if_pos hwr]
    rfl
  · refine ⟨_, .failed (p := .vBuf) (e := .invalidOffset) rfl, fun w hw => ?_⟩
    simp only [inside_accept hb hw, inside_writable, if_neg hwr, inside_raise]

omit hb in
theorem run_beginsAlike {f : State → State} (hf : ∀ w : World, w.resp = s.resp → f (s.inside w) = (f s).inside w)
    (hv : Started s (f s)) : s.BeginsAlike fun x => (f x).run :=
  ⟨_, .runs hv, fun w hw => by simp only [hf w hw]⟩

theorem encodeTo_beginsAlike (strm : Bool) (off : U32) {bs : List Byte} (hlen : bs.length ≤ 8) :
    s.BeginsAlike fun x => x.encodeTo strm off bs := by
  cases strm with
  | false => exact store_beginsAlike hb off bs bs.length
  | true =>
    refine run_beginsAlike (f := fun x => { x.accept .vOut with scratch := { Scratch.init with tx := bs } })
      (fun w hw => ?_) (.sends hlen)
    simp only [inside_accept hb hw]
    rfl

theorem decodeFrom_beginsAlike (signed le strm : Bool) (off : U32) :
    s.BeginsAlike fun x => x.decodeFrom signed le strm off := by
  cases strm with
  | true =>
    refine run_beginsAlike
      (f := fun x => { x.accept .vIn with scratch := { Scratch.init with signed := signed, le := le } })
      (fun w hw => ?_) (.reads (.inr rfl) _)
    simp only [inside_accept hb hw]
    rfl
  | false =>
    by_cases ho : s.plen.toNat ≤ off.toNat
    · refine ⟨_, .failed (p := .vBuf) (e := .invalidOffset) rfl, fun w hw => ?_⟩
      simp only [State.decodeFrom, Bool.false_eq_true, if_false, inside_accept hb hw, inside_raise, inside_plen,
        State.accept_plen, if_pos ho]
    · refine ⟨_, .runs (.reads (.inl rfl) { Scratch.init with signed := signed, le := le, off := off }), fun w hw => ?_⟩
      simp only [State.decodeFrom, Bool.false_eq_true, if_false, inside_accept hb hw, inside_plen, State.accept_plen, if_neg ho]
      rfl

theorem execPbGet_beginsAlike (off : U32) : s.BeginsAlike (execPbGet off) := by
  refine whenFree_beginsAlike hb (g := fun x =>
    match (x.accept .vBuf).fetchPb off.toNat (x.accept .vBuf).plen.toNat with
    | .got b u => .next (u.complete .ok (b.setWidth 64) false 0)
    | .absent f => .fault f
    | _ => .next ((x.accept .vBuf).raise .invalidOffset)) ?_
  by_cases ho : s.plen.toNat ≤ off.toNat
  · refine ⟨_, .failed (p := .vBuf) (e := .invalidOffset) rfl, fun w hw => ?_⟩
    simp only [inside_accept hb hw, State.fetchPb, inside_plen, State.accept_plen, if_pos ho, inside_raise]
  by_cases hbig : Config.pbBytes ≤ off.toNat
  · refine ⟨_, .absent (f := .noPbAddress off.toNat), fun w hw => ?_⟩
    simp only [inside_accept hb hw, State.fetchPb, inside_plen, State.accept_plen, if_neg ho, if_pos hbig]
  · refine ⟨_, .fetched (not_le.1 ho), fun w hw => ?_⟩
    simp only [inside_accept hb hw, State.fetchPb, inside_plen, State.accept_plen, if_neg ho, if_neg hbig]
    rfl

theorem execRecEnc_beginsAlike (le rev enh : Bool) (a : U64) : s.BeginsAlike (execRecEnc le rev enh a) := by
  refine whenFree_beginsAlike hb (g := fun x =>
    if vuMax < a.toNat then .next ((x.accept .idle).raise .overflow)
    else
      match crcKind ((vuEnc (a.setWidth 29) le).length + (vuEnc (x.plen.setWidth 29) le).length + x.plen.toNat) enh with
      | none => .next ((x.accept .idle).raise .unsupported)
      | some k => (x.beginEncode le rev enh (a.setWidth 29) k).run) ?_
  by_cases ha : vuMax < a.toNat
  · simp only [if_pos ha]
    exact raise_beginsAlike hb rfl _
  simp only [if_neg ha]
  cases hk : crcKind ((vuEnc (a.setWidth 29) le).length + (vuEnc (s.plen.setWidth 29) le).length + s.plen.toNat) enh with
  | none =>
    refine ⟨_, .failed (p := .idle) (e := .unsupported) rfl, fun w hw => ?_⟩
    simp only [inside_plen, hk, inside_accept hb hw, inside_raise]
  | some k =>
    refine ⟨_, .runs (.encodes le rev enh (a.setWidth 29) k), fun w hw => ?_⟩
    simp only [inside_plen, hk, State.beginEncode, inside_accept hb hw]
    rfl

theorem execRecDec_beginsAlike {p : Phase} (hp : p = .fSync ∨ p = .rTail) :
    s.BeginsAlike fun x => x.whenFree (x.accept p).clearRecord.run := by
  refine whenFree_beginsAlike hb (run_beginsAlike (f := fun x => (x.accept p).clearRecord) (fun w hw => ?_) (.decodes hp))
  simp only [inside_accept hb hw]
  rfl

/-- What each command of a free codec begins with, in any world. -/
theorem exec_beginsAlike {i : Instr} (hi : i.isCommand = true) (hn : i ≠ .nop) : s.BeginsAlike (exec i) := by
  cases i with
  | nop => exact absurd rfl hn
  | vuEnc le strm off a =>
    refine whenFree_beginsAlike hb (g := fun x =>
      match vuSize a.toNat with
      | none => .next ((x.accept (if strm then .vOut else .vBuf)).raise .overflow)
      | some _ => x.encodeTo strm off (vuEnc (a.setWidth 29) le)) ?_
    cases vuSize a.toNat with
    | none => exact raise_beginsAlike hb (by cases strm <;> rfl) _
    | some _ => exact encodeTo_beginsAlike hb strm off ((vuEnc_length_bounds _ le).2.trans (by norm_num))
  | vuDec le strm off => exact whenFree_beginsAlike hb (decodeFrom_beginsAlike hb false le strm off)
  | vsEnc le strm nvf off a =>
    refine whenFree_beginsAlike hb (g := fun x =>
      match if nvf then some [vsSentinel le] else vsEnc le a with
      | none => .next ((x.accept (if strm then .vOut else .vBuf)).raise .overflow)
      | some bs => x.encodeTo strm off bs) ?_
    cases hbs : (if nvf then some [vsSentinel le] else vsEnc le a) with
    | none => exact raise_beginsAlike hb (by cases strm <;> rfl) _
    | some bs =>
      refine encodeTo_beginsAlike hb strm off ?_
      split_ifs at hbs
      · cases hbs
        simp
      · exact vsEnc_length_le hbs
  | vsDec le strm off => exact whenFree_beginsAlike hb (decodeFrom_beginsAlike hb true le strm off)
  | pbPut off b =>
    have h := store_beginsAlike hb off [b] 0
    refine whenFree_beginsAlike hb (g := fun x => .next (if (x.accept .vBuf).writable off 1 then
      ((x.accept .vBuf).writePb off [b]).complete .ok 0 false 0 else (x.accept .vBuf).raise .invalidOffset)) ?_
    simp only [apply_ite Host.Outcome.next]
    exact h
  | pbGet off => exact execPbGet_beginsAlike hb off
  | pbClr =>
    refine whenFree_beginsAlike hb (g := fun x => .next ((x.accept .vBuf).clearRecord.complete .ok 0 false 0)) ?_
    exact ⟨_, .cleared, fun w hw => by simp only [inside_accept hb hw]; rfl⟩
  | recEnc le rev enh a => exact execRecEnc_beginsAlike hb le rev enh a
  | recDecf => exact execRecDec_beginsAlike hb (.inl rfl)
  | recDecr => exact execRecDec_beginsAlike hb (.inr rfl)
  | _ => simp [Instr.isCommand, Instr.slot] at hi

end

end Sys2Proof.Machine
end

section
/-! What a command can observe of PB and RB (70_reset_and_hazards.md R221): the bytes below PLEN, and of a record in progress
those that the command itself has stored or staged. -/

namespace Sys2Proof.Machine

open Sys2Proof

/-! ## The lengths of a command in progress -/

/-- What a unit keeps of the lengths inside a command, and when it leaves a phase that stores bytes. -/
structure State.CarriesOn (s t : State) : Prop where
  dlen : s.ph ≠ .fLen → s.ph ≠ .rLen → t.scratch.dlen = s.scratch.dlen
  tlen : s.ph ≠ .rRlen → t.scratch.tlen = s.scratch.tlen
  pay : s.ph = .fPay ∨ s.ph = .rPay → t.ph ≠ s.ph → s.scratch.dlen.toNat ≤ s.cur.toNat + 1
  fill : s.ph = .rFill → t.ph ≠ s.ph → s.scratch.tlen.toNat ≤ s.cur.toNat

/-- The same of an outcome, where the command goes on. -/
def State.CarriesOnTo (s : State) (r : Result) : Prop := ∀ t, r = .next t → t.busy = true → s.CarriesOn t

/-- A phase that stores no byte, with the lengths as they were. -/
theorem State.CarriesOn.of_kept {s t : State} (hd : t.scratch.dlen = s.scratch.dlen) (ht : t.scratch.tlen = s.scratch.tlen)
    (hp : s.ph ≠ .fPay ∧ s.ph ≠ .rPay ∧ s.ph ≠ .rFill) : s.CarriesOn t := by
  obtain ⟨h1, h2, h3⟩ := hp
  exact ⟨fun _ _ => hd, fun _ => ht, fun h => absurd h (by simp [h1, h2]), fun h => absurd h h3⟩

section
variable {s : State}

theorem carriesOnTo_next {t : State} (h : s.CarriesOn t) : s.CarriesOnTo (.next t) := fun _ hu _ => by cases hu; exact h

/-- The end of a command. -/
theorem carriesOnTo_free {t : State} (h : t.busy = false) : s.CarriesOnTo (.next t) := fun _ hu hb => by
  cases hu
  simp [h] at hb

theorem carriesOnTo_raise (u : State) (e : Status) : s.CarriesOnTo (.next (u.raise e)) := carriesOnTo_free (State.raise_busy ..)

theorem carriesOnTo_ite {c : Prop} [Decidable c] {t u : State} (ht : c → s.CarriesOnTo (.next t))
    (hu : ¬c → s.CarriesOnTo (.next u)) : s.CarriesOnTo (.next (if c then t else u)) := by
  split_ifs with h
  · exact ht h
  · exact hu h

theorem vsDone_busy (u : State) : u.vsDone.busy = false := by
  unfold State.vsDone
  split
  · rfl
  · rfl
  · exact State.raise_busy ..

theorem lengthHandler_carriesOn (hp : s.ph = .fLen ∨ s.ph = .rLen) (v : U29) (raw : List Byte) :
    s.CarriesOnTo (.next ({ s with scratch := { s.scratch with dlen := v, rawLen := raw } } : State).lengthHandler) := by
  obtain ⟨e, _, h⟩ | ⟨c, _, h⟩ :=
    lengthHandler_cases ({ s with scratch := { s.scratch with dlen := v, rawLen := raw } } : State) <;> rw [h]
  · exact carriesOnTo_raise _ _
  · refine carriesOnTo_next ⟨?_, fun _ => by simp, ?_, ?_⟩ <;> obtain hp | hp := hp <;> simp [hp]

theorem vuDone_carriesOn (v : U29) (n : Nat) (raw : List Byte) : s.CarriesOnTo (s.vuDone v n raw) := by
  unfold State.vuDone
  split
  next => exact carriesOnTo_free rfl
  next => exact carriesOnTo_free rfl
  next hp => exact carriesOnTo_next (.of_kept rfl rfl (by simp [hp]))
  next hp => exact carriesOnTo_next (.of_kept rfl rfl (by simp [hp]))
  next hp => exact lengthHandler_carriesOn (.inl hp) v raw
  next hp => exact lengthHandler_carriesOn (.inr hp) v raw
  next hp =>
    exact carriesOnTo_ite (fun _ => carriesOnTo_raise _ _)
      fun _ => carriesOnTo_next ⟨fun _ _ => rfl, fun h => absurd hp h, by simp [hp], by simp [hp]⟩
  next => intro t ht; cases ht

theorem headSync_carriesOn (hp : s.ph.awaitsSync) (le rev enh : Bool) : s.CarriesOnTo (s.headSync le rev enh) := by
  have hp' : s.ph ≠ .fPay ∧ s.ph ≠ .rPay ∧ s.ph ≠ .rFill := by obtain hp | hp | hp | hp := hp <;> simp [hp]
  unfold State.headSync
  split
  · exact carriesOnTo_next (.of_kept rfl rfl hp')
  · exact carriesOnTo_raise _ _
  · exact carriesOnTo_raise _ _
  · exact carriesOnTo_ite (fun _ => carriesOnTo_next (.of_kept rfl rfl hp')) fun _ => carriesOnTo_raise _ _
  · intro t ht; cases ht

theorem tailSync_carriesOn (hp : s.ph.awaitsSync) (le enh : Bool) : s.CarriesOnTo (s.tailSync le enh) := by
  have hp' : s.ph ≠ .fPay ∧ s.ph ≠ .rPay ∧ s.ph ≠ .rFill := by obtain hp | hp | hp | hp := hp <;> simp [hp]
  unfold State.tailSync
  split
  · exact carriesOnTo_raise _ _
  · exact carriesOnTo_ite (fun _ => carriesOnTo_free rfl) fun _ => carriesOnTo_raise _ _
  · exact carriesOnTo_next (.of_kept rfl rfl hp')
  · exact carriesOnTo_raise _ _
  · intro t ht; cases ht

theorem payByte_carriesOn (hp : s.ph = .fPay ∨ s.ph = .rPay) (p : Phase) (b : Byte) : s.CarriesOnTo (s.payByte p b) := by
  unfold State.payByte
  dsimp only
  split_ifs with hbig hlast
  · intro t ht; cases ht
  · exact carriesOnTo_next ⟨fun _ _ => rfl, fun _ => rfl, fun _ _ => hlast, by obtain hp | hp := hp <;> simp [hp]⟩
  · exact carriesOnTo_next ⟨fun _ _ => rfl, fun _ => rfl, fun _ h => absurd rfl h, fun _ h => absurd rfl h⟩

theorem fillByte_carriesOn (hp : s.ph = .rFill) (b : Byte) : s.CarriesOnTo (s.fillByte b) := by
  unfold State.fillByte
  dsimp only
  split_ifs with hbig hlast
  · intro t ht; cases ht
  · exact carriesOnTo_next ⟨fun _ _ => rfl, fun _ => rfl, by simp [hp], fun _ _ => hlast⟩
  · exact carriesOnTo_next ⟨fun _ _ => rfl, fun _ => rfl, fun _ h => absurd rfl h, fun _ h => absurd rfl h⟩

theorem dataByte_carriesOn (b : Byte) : s.CarriesOnTo (s.dataByte b) := by
  have vs : s.ph = .vBuf ∨ s.ph = .vIn → s.CarriesOnTo (.next (s.vsMore b)) := fun hp =>
    carriesOnTo_ite (fun _ => carriesOnTo_free (vsDone_busy _))
      fun _ => carriesOnTo_next (.of_kept rfl rfl (by obtain hp | hp := hp <;> simp [hp]))
  have crc : s.ph = .fCrc ∨ s.ph = .rCrc → s.CarriesOnTo (.next (s.crcByte b)) := fun hp => by
    have hp' : s.ph ≠ .fPay ∧ s.ph ≠ .rPay ∧ s.ph ≠ .rFill := by obtain hp | hp := hp <;> simp [hp]
    exact carriesOnTo_ite
      (fun _ => carriesOnTo_ite (fun _ => carriesOnTo_raise _ _)
        fun _ => carriesOnTo_ite (fun _ => carriesOnTo_next (.of_kept rfl rfl hp')) fun _ => carriesOnTo_free rfl)
      fun _ => carriesOnTo_next (.of_kept rfl rfl hp')
  have rlen : s.ph = .fRlen → s.CarriesOnTo (.next (s.rlenByte b)) := fun hp => by
    have hp' : s.ph ≠ .fPay ∧ s.ph ≠ .rPay ∧ s.ph ≠ .rFill := by simp [hp]
    exact carriesOnTo_ite
      (fun _ => carriesOnTo_ite (fun _ => carriesOnTo_raise _ _) fun _ => carriesOnTo_next (.of_kept rfl rfl hp'))
      fun _ => carriesOnTo_next (.of_kept rfl rfl hp')
  unfold State.dataByte
  split
  next hp => exact vs (.inl hp)
  next hp => exact vs (.inr hp)
  next hp => exact payByte_carriesOn (.inl hp) _ b
  next hp => exact payByte_carriesOn (.inr hp) _ b
  next hp => exact crc (.inl hp)
  next hp => exact crc (.inr hp)
  next hp => exact rlen hp
  next hp => exact fillByte_carriesOn hp b
  next => intro t ht; cases ht

theorem handleByte_carriesOn (hp : s.ph.reads = true) (b : Byte) : s.CarriesOnTo (s.handleByte b) := by
  obtain ⟨hs, hp⟩ | hs | ⟨hp, _, le, hs⟩ | ⟨hs, _⟩ := slot_cases hp
  · rw [handleByte_sync b hs]
    split
    · exact headSync_carriesOn hp _ _ _
    · split
      · exact tailSync_carriesOn hp _ _
      · exact carriesOnTo_ite (fun _ => carriesOnTo_raise _ _) fun _ => carriesOnTo_raise _ _
  · have hp' : s.ph ≠ .fPay ∧ s.ph ≠ .rPay ∧ s.ph ≠ .rFill := by
      refine ⟨?_, ?_, ?_⟩ <;> intro hp <;> simp [State.slot, hp] at hs
    rw [handleByte_vu b hs]
    split_ifs
    · exact carriesOnTo_next (.of_kept rfl rfl hp')
    · exact vuDone_carriesOn _ _ _
    · exact vuDone_carriesOn _ _ _
  · rw [handleByte_vsFirst b hs]
    exact carriesOnTo_ite (fun _ => carriesOnTo_free (vsDone_busy _))
      fun _ => carriesOnTo_next (.of_kept rfl rfl (by obtain hp | hp := hp <;> simp [hp]))
  · rw [handleByte_data b hs]
    exact dataByte_carriesOn b

theorem sent_carriesOn {t : State} (hp : s.ph.sending = true) (h : Sent s (.next t)) (hb : t.busy = true) : s.CarriesOn t := by
  have hp' : s.ph ≠ .fPay ∧ s.ph ≠ .rPay ∧ s.ph ≠ .rFill := by refine ⟨?_, ?_, ?_⟩ <;> intro h' <;> simp [h', Phase.sending] at hp
  cases h with
  | advanced hu =>
    obtain ⟨q, room, c, x, rfl⟩ := hu
    exact .of_kept rfl rfl hp'
  | left hu =>
    obtain ⟨q, room, c, x, rfl⟩ := hu
    obtain ⟨_, ht⟩ | ⟨_, ht⟩ | ⟨_, ht⟩ := txNext_cases (s := { s with outQ := q, outRoom := room, scratch := _ }) hp <;>
      rw [ht] at hb ⊢
    · cases hb
    · cases hb
    · exact .of_kept rfl rfl hp'

/-- Every unit carries on with the lengths of its command. -/
theorem unit_carriesOn {t : State} (h : s.unit = some (.next t)) (hb : t.busy = true) : s.CarriesOn t := by
  by_cases hi : s.ph = .idle
  · simp [hi] at h
  by_cases hs : s.ph.sending = true
  · rw [unit_sending hs] at h
    exact sent_carriesOn hs (sendUnit_sent h) hb
  by_cases hpay : s.ph = .rPay ∧ s.scratch.dlen.toNat ≤ s.cur.toNat
  · cases (unit_payEnded hpay.1 hpay.2).symm.trans h
    exact ⟨fun _ _ => rfl, fun _ => rfl, fun _ _ => Nat.le_succ_of_le hpay.2, by simp [hpay.1]⟩
  have hf : s.Fetches := ⟨reads_of_not_sending hi hs, hpay⟩
  cases hn : s.nextByte with
  | waiting => simp [unit_waiting hf hn] at h
  | absent f => simp [unit_absent hf hn] at h
  | ended =>
    cases (unit_ended_byte hf hn).symm.trans h
    simp at hb
  | got b u =>
    rw [unit_got hf hn] at h
    injection h with h
    obtain rfl | ⟨_, q, _, rfl⟩ := nextByte_takesTo hn
    · exact handleByte_carriesOn hf.1 b t h hb
    · have hc := handleByte_carriesOn (s := s.took q) hf.1 b t h hb
      exact ⟨hc.dlen, hc.tlen, hc.pay, hc.fill⟩

end

/-! ## What a command can observe of PB and RB -/

/-- Below this address the codec has stored the payload in progress, or reads it (43_record_framer.md R159, R160, R170). -/
def State.storedTo (s : State) : Nat :=
  if s.ph = .fPay ∨ s.ph = .rPay then s.cur.toNat else if s.ph.payloadKnown then s.scratch.dlen.toNat else 0

/-- At this address REC.DECR has staged a byte of the record in progress (43_record_framer.md R171). -/
def State.Staged (s : State) (x : Nat) : Prop :=
  s.ph.stagingKnown = true ∧ x ≤ s.scratch.tlen.toNat ∧ (s.ph = .rFill → s.scratch.tlen.toNat < x + s.cur.toNat)

/-- With `pb` and `rb` in its buffers the codec sees what it sees in `s`: the same bytes below PLEN, of the payload in progress,
and of the staged record. -/
structure State.SeesAlike (s : State) (pb rb : Mem) : Prop where
  pbWf : Mem.wf Config.pbBytes pb
  rbWf : Mem.wf Config.rbBytes rb
  below : ∀ x, x < s.plen.toNat → pb.read x = s.pb.read x
  stored : ∀ x, x < s.storedTo → pb.read x = s.pb.read x
  staged : ∀ x, s.Staged x → rb.read x = s.rb.read x

/-- Other buffers in a world. -/
def World.withBuffers (w : World) (pb rb : Mem) : World := { w with pb := pb, rb := rb }

theorem inside_withBuffers (s : State) (w : World) (pb rb : Mem) :
    s.inside (w.withBuffers pb rb) = { s.inside w with pb := pb, rb := rb } := rfl

theorem inside_world_withBuffers (s : State) (pb rb : Mem) :
    s.inside (s.world.withBuffers pb rb) = { s with pb := pb, rb := rb } := by
  rw [inside_withBuffers, inside_world]

/-- A state that stands in a world, with other buffers. -/
theorem inside_withBuffers_of_inside {t : State} {w : World} (ht : t = t.inside w) (pb rb : Mem) :
    t.inside (w.withBuffers pb rb) = { t with pb := pb, rb := rb } := by
  rw [inside_withBuffers, ← ht]

section
variable {s t : State} {pb rb : Mem}

theorem State.SeesAlike.serves (h : s.SeesAlike pb rb) : (s.world.withBuffers pb rb).Serves s where
  input _ := ⟨rfl, fun _ => rfl⟩
  value _ := h.below
  payload hp x hx := h.stored x (by simpa [State.storedTo, hp, Phase.payloadKnown] using hx)
  staged hp hf x hx := h.staged x ⟨hp, hx, fun h' => absurd h' hf⟩
  room _ hr := hr

/-! ### The buffers after a unit -/

/-- The byte that a unit works on. -/
def Effect.byte : Effect → Option Byte
  | .quiet | .puts _ => none
  | .works b | .takes b => some b

/-- A memory in which a byte, if there is one, is stored where the phase stores bytes. -/
def Mem.storedIf (m : Mem) (c : Prop) [Decidable c] (a : Nat) : Option Byte → Mem
  | none => m
  | some b => if c then m.write a b else m

theorem after_pb (w : World) (s : State) (f : Effect) :
    (w.after s f).pb = w.pb.storedIf (s.ph = .fPay ∨ s.ph = .rPay) s.cur.toNat f.byte := by cases f <;> rfl

theorem after_rb (w : World) (s : State) (f : Effect) :
    (w.after s f).rb = w.rb.storedIf (s.ph = .rFill) (s.scratch.tlen.toNat - s.cur.toNat) f.byte := by cases f <;> rfl

theorem after_withBuffers (w : World) (f : Effect) :
    (w.withBuffers pb rb).after s f =
      (w.after s f).withBuffers ((w.withBuffers pb rb).after s f).pb ((w.withBuffers pb rb).after s f).rb := by
  cases f <;> rfl

section
variable {size : Nat} {m m' : Mem} (hm : m.wf size) (hm' : m'.wf size) {c : Prop} [Decidable c] {a : Nat} {o : Option Byte}
include hm hm'

omit hm' in
theorem Mem.wf_storedIf (ha : c → o.isSome = true → a < size) : (m.storedIf c a o).wf size := by
  cases o with
  | none => exact hm
  | some b =>
    unfold Mem.storedIf
    split_ifs with hc
    · exact Mem.wf_write hm b (ha hc rfl)
    · exact hm

/-- Alike before, alike after: both are written with the same byte, or neither. -/
theorem Mem.read_storedIf {x : Nat} (h : m'.read x = m.read x) : (m'.storedIf c a o).read x = (m.storedIf c a o).read x := by
  cases o with
  | none => exact h
  | some b =>
    unfold Mem.storedIf
    split_ifs
    · rw [Mem.read_write _ _ _ _ hm.1, Mem.read_write _ _ _ _ hm'.1, h]
    · exact h

/-- The byte that was stored is alike. -/
theorem Mem.read_storedIf_at (hc : c) (ho : o.isSome = true) : (m'.storedIf c a o).read a = (m.storedIf c a o).read a := by
  obtain ⟨b, rfl⟩ := Option.isSome_iff_exists.1 ho
  simp only [Mem.storedIf, if_pos hc]
  rw [Mem.read_write_eq _ _ _ hm.1, Mem.read_write_eq _ _ _ hm'.1]

end

/-! ### What has been stored after a unit -/

/-- A reading phase stores no more than the byte it works on of the payload. -/
theorem storedTo_of_movesTo (hr : s.ph.reads = true) (hm : s.MovesTo t.ph t.cur (t.scratch.dlen = 0)) (hc : s.CarriesOn t)
    {x : Nat} (hx : x < t.storedTo) : x < s.storedTo ∨ (s.ph = .fPay ∨ s.ph = .rPay) ∧ x = s.cur.toNat := by
  obtain ⟨hd, _, hpay, _⟩ := hc
  unfold State.storedTo at hx ⊢
  obtain ⟨hp, hcur, hlt⟩ | ⟨hp, _, hcur⟩ := hm
  · rw [hp, hcur, BitVec.toNat_add, show (1 : U32).toNat = 1 from rfl, Nat.mod_eq_of_lt hlt] at hx
    cases hs : s.ph <;> simp_all [Phase.payloadKnown] <;> omega
  · rw [hp, hcur] at hx
    by_cases h0 : t.scratch.dlen = 0 <;> cases hs : s.ph <;>
      simp_all [Phase.payloadKnown, Phase.leavesTo, Phase.reads, Phase.decoding] <;> omega

/-- So does R_FILL of the staged record. -/
theorem staged_of_movesTo (hr : s.ph.reads = true) (hm : s.MovesTo t.ph t.cur (t.scratch.dlen = 0)) (hc : s.CarriesOn t)
    {x : Nat} (hx : t.Staged x) : s.Staged x ∨ s.ph = .rFill ∧ x = s.scratch.tlen.toNat - s.cur.toNat := by
  obtain ⟨_, ht, _, hfill⟩ := hc
  unfold State.Staged at hx ⊢
  obtain ⟨hp, hcur, hlt⟩ | ⟨hp, _, hcur⟩ := hm
  · rw [hp, hcur, BitVec.toNat_add, show (1 : U32).toNat = 1 from rfl, Nat.mod_eq_of_lt hlt] at hx
    cases hs : s.ph <;> simp_all [Phase.stagingKnown]
    omega
  · rw [hp, hcur] at hx
    by_cases h0 : t.scratch.dlen = 0 <;> cases hs : s.ph <;>
      simp_all [Phase.stagingKnown, Phase.leavesTo, Phase.reads, Phase.decoding] <;> omega

theorem Handled.movesTo (h : Handled s (.next t)) (hb : t.busy = true) : s.MovesTo t.ph t.cur (t.scratch.dlen = 0) := by
  cases h with
  | raised => simp at hb
  | valued => cases hb
  | recorded => cases hb
  | goesOn hm => exact hm

/-- Where a reading phase goes on to. -/
theorem unit_movesTo (hr : s.ph.reads = true) (h : s.unit = some (.next t)) (hb : t.busy = true) :
    s.MovesTo t.ph t.cur (t.scratch.dlen = 0) := by
  obtain ⟨hs, _⟩ | ⟨_, u, hu, hh⟩ := unit_cases h
  · simp [reads_not_sending hr] at hs
  · have hm := hh.movesTo hb
    obtain rfl | ⟨b, q, _, rfl⟩ := hu <;> exact hm

theorem storedTo_of_sending (hs : s.ph.sending = true) :
    s.storedTo = if s.ph.payloadKnown then s.scratch.dlen.toNat else 0 :=
  if_neg (by rintro (hp | hp) <;> simp [hp, Phase.sending] at hs)

theorem not_stagingKnown_of_sending {p : Phase} (hs : p.sending = true) : p.stagingKnown = false := by
  cases p <;> simp_all [Phase.sending, Phase.stagingKnown]

/-- An encode stores nothing. -/
theorem sent_storedTo_le (hs : s.ph.sending = true) (h : Sent s (.next t)) (hb : t.busy = true) :
    t.storedTo ≤ s.storedTo ∧ t.ph.stagingKnown = false := by
  cases h with
  | advanced hu =>
    obtain ⟨q, room, c, x, rfl⟩ := hu
    refine ⟨?_, not_stagingKnown_of_sending hs⟩
    rw [storedTo_of_sending hs]
    exact (storedTo_of_sending (s := State.advance _) hs).le
  | left hu =>
    obtain ⟨q, room, c, x, rfl⟩ := hu
    obtain ⟨_, ht⟩ | ⟨_, ht⟩ | ⟨hi, ht⟩ := txNext_cases (s := { s with outQ := q, outRoom := room, scratch := _ }) hs <;>
      rw [ht] at hb ⊢
    · cases hb
    · cases hb
    · obtain ⟨hd, hs', _⟩ := sending_leavesTo hs hi
      refine ⟨?_, not_stagingKnown_of_sending hs'⟩
      rw [storedTo_of_sending hs, if_pos hd]
      exact (storedTo_of_sending (s := State.enter _ _) hs').le.trans (by split_ifs <;> simp)

/-- PLEN after a unit is PLEN before it, or the length of the record that is done (43_record_framer.md R160, R164, R170). -/
theorem unit_plen_le (h : s.unit = some (.next t)) : t.plen.toNat ≤ s.plen.toNat ∨ t.plen.toNat ≤ s.storedTo := by
  obtain ⟨hs, hh⟩ | ⟨_, u, hu, hh⟩ := unit_cases h
  · refine .inl (le_of_eq (congrArg _ ?_))
    cases hh with
    | advanced hu => obtain ⟨q, room, c, x, rfl⟩ := hu; rfl
    | left hu =>
      obtain ⟨q, room, c, x, rfl⟩ := hu
      obtain ⟨_, ht⟩ | ⟨_, ht⟩ | ⟨_, ht⟩ := txNext_cases (s := { s with outQ := q, outRoom := room, scratch := _ }) hs <;>
        rw [ht] <;> rfl
  · have hu' : u.plen = s.plen ∧ u.storedTo = s.storedTo := by obtain rfl | ⟨b, q, _, rfl⟩ := hu <;> exact ⟨rfl, rfl⟩
    rw [← hu'.1, ← hu'.2]
    cases hh with
    | raised => rw [State.raise_plen]; split_ifs <;> simp
    | valued => exact .inl le_rfl
    | recorded hp _ =>
      refine .inr ?_
      have hle : (u.scratch.dlen.setWidth 32).toNat ≤ u.scratch.dlen.toNat := by simp [Nat.mod_le]
      unfold State.storedTo
      obtain hp | hp | ⟨hp, _⟩ := hp <;> simpa [hp, Phase.payloadKnown] using hle
    | goesOn => exact .inl le_rfl

/-! ### Units and runs with other buffers -/

theorem storedTo_of_free (hi : Inv t) (hb : t.busy = false) : t.storedTo = 0 ∧ t.ph.stagingKnown = false := by
  have hp : t.ph = .idle := by simpa [hb] using hi.busyPhase
  simp [State.storedTo, hp, Phase.payloadKnown, Phase.stagingKnown]

/-- A unit stores no more than the byte it works on: of the payload, or of the staged record. -/
theorem unit_stored (hi : Inv s) (hu : s.unit = some (.next t)) :
    (∀ x, x < t.storedTo → x < s.storedTo ∨ (s.ph = .fPay ∨ s.ph = .rPay) ∧ x = s.cur.toNat ∧ t.busy = true) ∧
    ∀ x, t.Staged x → s.Staged x ∨ s.ph = .rFill ∧ x = s.scratch.tlen.toNat - s.cur.toNat ∧ t.busy = true := by
  cases hb : t.busy with
  | false =>
    obtain ⟨h0, hk⟩ := storedTo_of_free (unit_inv hi hu) hb
    exact ⟨fun x hx => absurd hx (by simp [h0]), fun x hx => absurd hx.1 (by simp [hk])⟩
  | true =>
    have hidle : s.ph ≠ .idle := fun hp => by simp [hp] at hu
    by_cases hs : s.ph.sending = true
    · obtain ⟨hle, hk⟩ := sent_storedTo_le hs (sendUnit_sent (unit_sending hs ▸ hu)) hb
      exact ⟨fun x hx => .inl (hx.trans_le hle), fun x hx => absurd hx.1 (by simp [hk])⟩
    · have hr := reads_of_not_sending hidle hs
      have hm := unit_movesTo hr hu hb
      have hc := unit_carriesOn hu hb
      exact ⟨fun x hx => (storedTo_of_movesTo hr hm hc hx).imp_right fun h => ⟨h.1, h.2, rfl⟩,
        fun x hx => (staged_of_movesTo hr hm hc hx).imp_right fun h => ⟨h.1, h.2, rfl⟩⟩

/-- R_PAY at the end of the payload leaves to R_CRC (10_state.md R30). -/
theorem seesAlike_payEnded (hp : s.ph = .rPay) (hc : s.scratch.dlen.toNat ≤ s.cur.toNat) (h : s.SeesAlike pb rb) :
    (s.enter .rCrc).SeesAlike pb rb where
  pbWf := h.pbWf
  rbWf := h.rbWf
  below := h.below
  stored x hx := h.stored x (by simp [State.storedTo, hp, Phase.payloadKnown] at hx ⊢; omega)
  staged x hx := h.staged x ⟨by simp [hp, Phase.stagingKnown], hx.2.1, by simp [hp]⟩

/-- The address of a byte that a phase stores exists (20_memory.md R56). -/
theorem pay_lt_pbBytes (hi : Inv s) (hf : s.Fetches) (hp : s.ph = .fPay ∨ s.ph = .rPay) : s.cur.toNat < Config.pbBytes := by
  have hd := hi.dlenBound (by obtain hp | hp := hp <;> simp [hp, Phase.payloadKnown])
  obtain hp | hp := hp
  · exact (hi.fPayCur hp).trans_le hd
  · exact (not_le.1 fun hc => hf.2 ⟨hp, hc⟩).trans_le hd

theorem fill_lt_rbBytes (hi : Inv s) (hp : s.ph = .rFill) : s.scratch.tlen.toNat - s.cur.toNat < Config.rbBytes := by
  have := hi.tlenBound (by simp [hp, Phase.stagingKnown])
  omega

/-- The byte of a phase that asks for one. -/
theorem byte_isSome {f : Effect} (hfit : f.Fits s t) (hf : s.Fetches) (hb : t.busy = true) : f.byte.isSome = true := by
  cases f with
  | quiet => simp [hfit hf] at hb
  | works b => rfl
  | takes b => rfl
  | puts o =>
    obtain ⟨hs, _⟩ := hfit
    simp [reads_not_sending hf.1] at hs

/-- After a unit that is no end of R_PAY the codec sees the same in the two pairs of buffers. -/
theorem seesAlike_after {f : Effect} (hi : Inv s) (hpay : ¬(s.ph = .rPay ∧ s.scratch.dlen.toNat ≤ s.cur.toNat))
    (hu : s.unit = some (.next t)) (hfit : f.Fits s t) (ht : t = t.inside (s.world.after s f)) (h : s.SeesAlike pb rb) :
    t.SeesAlike ((s.world.withBuffers pb rb).after s f).pb ((s.world.withBuffers pb rb).after s f).rb := by
  obtain ⟨hstored, hstaged⟩ := unit_stored hi hu
  have htpb : t.pb = s.pb.storedIf (s.ph = .fPay ∨ s.ph = .rPay) s.cur.toNat f.byte :=
    (congrArg State.pb ht).trans (after_pb s.world s f)
  have htrb : t.rb = s.rb.storedIf (s.ph = .rFill) (s.scratch.tlen.toNat - s.cur.toNat) f.byte :=
    (congrArg State.rb ht).trans (after_rb s.world s f)
  have fetches : s.ph.reads = true → s.Fetches := fun hr => ⟨hr, hpay⟩
  rw [after_pb, after_rb]
  have pbAlike : ∀ x, pb.read x = s.pb.read x →
      (pb.storedIf (s.ph = .fPay ∨ s.ph = .rPay) s.cur.toNat f.byte).read x = t.pb.read x := fun x hx =>
    htpb ▸ Mem.read_storedIf hi.pbWf h.pbWf hx
  have rbAlike : ∀ x, rb.read x = s.rb.read x →
      (rb.storedIf (s.ph = .rFill) (s.scratch.tlen.toNat - s.cur.toNat) f.byte).read x = t.rb.read x := fun x hx =>
    htrb ▸ Mem.read_storedIf hi.rbWf h.rbWf hx
  refine ⟨Mem.wf_storedIf h.pbWf fun hp _ => ?_, Mem.wf_storedIf h.rbWf fun hp _ => fill_lt_rbBytes hi hp, fun x hx => ?_,
    fun x hx => ?_, fun x hx => ?_⟩
  · exact pay_lt_pbBytes hi (fetches (by obtain hp | hp := hp <;> simp [hp, Phase.reads, Phase.decoding])) hp
  · exact pbAlike x ((unit_plen_le hu).elim (fun hle => h.below x (hx.trans_le hle)) fun hle => h.stored x (hx.trans_le hle))
  · obtain hx | ⟨hp, rfl, hb⟩ := hstored x hx
    · exact pbAlike x (h.stored x hx)
    · have hf := fetches (by obtain hp | hp := hp <;> simp [hp, Phase.reads, Phase.decoding])
      exact htpb ▸ Mem.read_storedIf_at hi.pbWf h.pbWf hp (byte_isSome hfit hf hb)
  · obtain hx | ⟨hp, rfl, hb⟩ := hstaged x hx
    · exact rbAlike x (h.staged x hx)
    · have hf := fetches (by simp [hp, Phase.reads, Phase.decoding])
      exact htrb ▸ Mem.read_storedIf_at hi.rbWf h.rbWf hp (byte_isSome hfit hf hb)

/-- A unit does the same with other buffers that the codec sees alike. -/
theorem unit_seesAlike (hi : Inv s) (hu : s.unit = some (.next t)) (h : s.SeesAlike pb rb) :
    ∃ pb' rb', State.unit { s with pb := pb, rb := rb } = some (.next { t with pb := pb', rb := rb' }) ∧ t.SeesAlike pb' rb' := by
  by_cases hpay : s.ph = .rPay ∧ s.scratch.dlen.toNat ≤ s.cur.toNat
  · cases (unit_payEnded hpay.1 hpay.2).symm.trans hu
    exact ⟨pb, rb, unit_payEnded (s := { s with pb := pb, rb := rb }) hpay.1 hpay.2, seesAlike_payEnded hpay.1 hpay.2 h⟩
  obtain ⟨f, hfit, ht, hw⟩ := unit_effect hu
  refine ⟨_, _, ?_, seesAlike_after hi hpay hu hfit ht h⟩
  rw [← inside_world_withBuffers, hw _ h.serves, ← inside_withBuffers_of_inside ht, ← after_withBuffers]

theorem settle_seesAlike {n : Nat} (hi : Inv s) (ht : settle n s = .next t) (h : s.SeesAlike pb rb) :
    ∃ pb' rb', settle n { s with pb := pb, rb := rb } = .next { t with pb := pb', rb := rb' } ∧ t.SeesAlike pb' rb' := by
  induction n generalizing s pb rb with
  | zero => cases ht; exact ⟨pb, rb, rfl, h⟩
  | succ n ih =>
    cases hu : s.unit with
    | none =>
      rw [settle_blocked hu] at ht
      cases ht
      refine ⟨pb, rb, settle_blocked ?_ _, h⟩
      have := unit_none_inside h.serves id hu
      rwa [inside_world_withBuffers] at this
    | some r =>
      simp only [settle, hu] at ht
      cases r with
      | next u =>
        obtain ⟨pb', rb', hu', h'⟩ := unit_seesAlike hi hu h
        obtain ⟨pb'', rb'', ht', h''⟩ := ih (unit_inv hi hu) ht h'
        exact ⟨pb'', rb'', by simp only [settle, hu']; exact ht', h''⟩
      | fault f => cases ht
      | refused e => cases ht

end

/-! ### Commands -/

section
variable {s t : State} {pb rb : Mem}

/-- A state that has stored no more than PLEN covers, and staged nothing. -/
theorem seesAlike_of_storedTo_le (hle : s.storedTo ≤ s.plen.toNat) (hk : s.ph.stagingKnown = false)
    (hpb : Mem.wf Config.pbBytes pb) (hrb : Mem.wf Config.rbBytes rb) (h : ∀ x, x < s.plen.toNat → pb.read x = s.pb.read x) :
    s.SeesAlike pb rb :=
  ⟨hpb, hrb, h, fun x hx => h x (hx.trans_le hle), fun x hx => absurd hx.1 (by simp [hk])⟩

/-- The first state of a command sees alike what the codec can read of PB before it. -/
theorem Started.seesAlike {v : State} (hv : Started s v) (hpb : Mem.wf Config.pbBytes pb) (hrb : Mem.wf Config.rbBytes rb)
    (h : ∀ x, x < s.plen.toNat → pb.read x = s.pb.read x) : v.SeesAlike pb rb := by
  cases hv with
  | sends => exact seesAlike_of_storedTo_le (Nat.zero_le _) rfl hpb hrb h
  | reads hp => obtain rfl | rfl := hp <;> exact seesAlike_of_storedTo_le (Nat.zero_le _) rfl hpb hrb h
  | encodes le rev enh id c =>
    have hle : (s.plen.setWidth 29).toNat ≤ s.plen.toNat := by simp [Nat.mod_le]
    exact seesAlike_of_storedTo_le (s := s.beginEncode le rev enh id c) hle rfl hpb hrb h
  | decodes hp =>
    obtain rfl | rfl := hp <;>
      exact seesAlike_of_storedTo_le (Nat.zero_le _) rfl hpb hrb fun x hx => absurd hx (Nat.not_lt_zero x)

theorem Started.world {v : State} (hv : Started s v) : v.world = s.world := by cases hv <;> rfl

/-- A write within the bound of 20_memory.md R60 makes the bytes it covers alike. -/
theorem writeList_alike (hs : Mem.wf Config.pbBytes s.pb) (hpb : Mem.wf Config.pbBytes pb)
    (h : ∀ x, x < s.plen.toNat → pb.read x = s.pb.read x) {off : U32} {bs : List Byte} (hw : s.writable off bs.length = true)
    {x : Nat} (hx : x < max s.plen.toNat (off.toNat + bs.length)) :
    (pb.writeList off.toNat bs).read x = (s.pb.writeList off.toNat bs).read x := by
  simp only [State.writable, Bool.and_eq_true, decide_eq_true_eq] at hw
  obtain ⟨hoff, hend⟩ := hw
  by_cases hin : off.toNat ≤ x ∧ x < off.toNat + bs.length
  · obtain ⟨i, rfl⟩ := Nat.exists_eq_add_of_le hin.1
    rw [Mem.read_writeList_inside bs hpb _ i hend (by omega), Mem.read_writeList_inside bs hs _ i hend (by omega)]
  · rw [Mem.read_writeList_outside bs _ _ _ (by omega), Mem.read_writeList_outside bs _ _ _ (by omega)]
    exact h x (by omega)

/-- What a command does with other buffers that are alike below PLEN. -/
theorem BegunIn.seesAlike {F : World → Result} (hF : BegunIn s F) (hi : Inv s) (hpb : Mem.wf Config.pbBytes pb)
    (hrb : Mem.wf Config.rbBytes rb) (h : ∀ x, x < s.plen.toNat → pb.read x = s.pb.read x) (ht : F s.world = .next t) :
    ∃ pb' rb', F (s.world.withBuffers pb rb) = .next { t with pb := pb', rb := rb' } ∧
      ∀ x, x < t.plen.toNat → pb'.read x = t.pb.read x := by
  cases hF with
  | runs hv =>
    dsimp only at ht ⊢
    rw [← hv.world, inside_world] at ht
    obtain ⟨pb', rb', ht', hv'⟩ := settle_seesAlike (hv.inv hi) ht (hv.seesAlike hpb hrb h)
    refine ⟨pb', rb', ?_, hv'.below⟩
    rw [← hv.world, inside_world_withBuffers]
    exact ht'
  | failed hp =>
    cases ht
    refine ⟨pb, rb, rfl, fun x hx => h x ?_⟩
    rwa [inside_plen, State.raise_plen, State.accept_ph, hp] at hx
  | stored hw =>
    cases ht
    refine ⟨_, rb, rfl, fun x hx => writeList_alike hi.pbWf hpb h hw ?_⟩
    exact lt_of_lt_of_le hx (Nat.mod_le _ _)
  | fetched ho =>
    cases ht
    exact ⟨pb, rb, congrArg (fun b : Byte =>
      Host.Outcome.next (((s.accept .vBuf).complete .ok (b.setWidth 64) false 0).inside (s.world.withBuffers pb rb))) (h _ ho), h⟩
  | cleared =>
    cases ht
    exact ⟨pb, rb, rfl, fun x hx => absurd hx (Nat.not_lt_zero x)⟩
  | absent => cases ht

/-- Settles O60: the command goes through the same units, which see the buffers alike. -/
theorem unwrittenUnobservable : Obligations.UnwrittenUnobservable := by
  intro i s t pb rb hi h hb hpb hrb hsame ht
  by_cases hn : i = .nop
  · subst hn
    cases (whenFree_free hb _).symm.trans ht
    exact ⟨pb, rb, whenFree_free (s := { s with pb := pb, rb := rb }) hb _, hsame⟩
  obtain ⟨F, hF, hexec⟩ := exec_beginsAlike hb hi hn
  have hself := hexec s.world rfl
  rw [inside_world, ht] at hself
  have hother := hexec (s.world.withBuffers pb rb) rfl
  rw [inside_world_withBuffers] at hother
  rw [hother]
  exact hF.seesAlike h hpb hrb hsame hself.symm

end

end Sys2Proof.Machine
end

section
/-! A command that has waited goes on as if it had not (70_reset_and_hazards.md R230, R231): what the host gives later reaches
the units that come later only, and each of them is then a step of its own. -/

namespace Sys2Proof.Machine

open Sys2Proof

/-! ## What the host can give to a command that runs -/

/-- The state in the world that the host has changed. -/
def State.given (γ : World → World) (s : State) : State := s.inside (γ s.world)

/-- The world with another pulse. -/
def World.withPulse (w : World) (r : Bool) : World := { w with resp := r }

theorem inside_withPulse_of_free {s : State} (hb : s.busy = false) (w : World) (r : Bool) :
    s.inside (w.withPulse r) = s.inside w := by
  simp [State.inside, World.withPulse, hb]

theorem world_inside (s : State) (w : World) : (s.inside w).world = w.withPulse (if s.busy then w.resp else s.resp) := rfl

/-- A change of the ports that no unit of a state with `P` notices: it goes on as before, and leaves the changed ports as it
would have left its own. -/
structure Gift (γ : World → World) (P : State → Prop) : Prop where
  pulse : ∀ (w : World) (r : Bool), γ (w.withPulse r) = (γ w).withPulse r
  buffers : ∀ w : World, (γ w).pb = w.pb ∧ (γ w).rb = w.rb ∧ (γ w).rst = w.rst
  kept : ∀ s t : State, P s → s.unit = some (.next t) → P t
  serves : ∀ s t : State, P s → s.unit = some (.next t) → (γ s.world).Serves s
  after : ∀ (s t : State) (f : Effect), P s → f.Fits s t → (γ s.world).after s f = γ (s.world.after s f)

/-- A unit keeps what its effect keeps. -/
theorem unit_keeps_ports {s t : State} (h : s.unit = some (.next t)) :
    t.rst = s.rst ∧ t.inEos = s.inEos ∧ (t.outRoom = s.outRoom ∨ t.outRoom = s.outRoom.map (· - 1)) := by
  obtain ⟨f, _, ht, _⟩ := unit_effect h
  rw [ht]
  cases f with
  | puts o => exact ⟨rfl, rfl, .inr rfl⟩
  | _ => exact ⟨rfl, rfl, .inl rfl⟩

section
variable {γ : World → World} {P : State → Prop} (hγ : Gift γ P)
include hγ

/-- The world that an outcome stands in, changed before or after. -/
theorem Gift.inside_eq_given {t : State} {w : World} (ht : t = t.inside w) : t.inside (γ w) = t.given γ := by
  have hw : t.world = w.withPulse (if t.busy then w.resp else t.resp) := by
    conv_lhs => rw [ht]
    exact world_inside t w
  rw [State.given, hw]
  cases hb : t.busy with
  | true => rfl
  | false => rw [hγ.pulse, inside_withPulse_of_free hb]

theorem Gift.unit {s t : State} (hs : P s) (h : s.unit = some (.next t)) : (s.given γ).unit = some (.next (t.given γ)) := by
  obtain ⟨f, hfit, ht, hw⟩ := unit_effect h
  rw [State.given, hw _ (hγ.serves s t hs h), hγ.after s t f hs hfit, hγ.inside_eq_given ht]

theorem Gift.units {k : Nat} {s t : State} (h : Units k s t) (hs : P s) : Units k (s.given γ) (t.given γ) := by
  induction h with
  | refl s => exact .refl _
  | head hu _ ih => exact .head (hγ.unit hs hu) (ih (hγ.kept _ _ hs hu))

end

/-- The invariant speaks of the registers and the buffers only. -/
theorem Inv.inside {s : State} (h : Inv s) {w : World} (hpb : w.pb = s.pb) (hrb : w.rb = s.rb) : Inv (s.inside w) :=
  { h with
    pbWf := by rw [inside_pb, hpb]; exact h.pbWf
    rbWf := by rw [inside_rb, hrb]; exact h.rbWf }

theorem Gift.inv {γ : World → World} {P : State → Prop} (hγ : Gift γ P) {s : State} (h : Inv s) : Inv (s.given γ) :=
  h.inside (hγ.buffers _).1 (hγ.buffers _).2.1

/-! ## Units as steps -/

/-- Two runs from one state, the second of which ends in a state that is blocked: the first one is its beginning. -/
theorem Units.rest {j m : Nat} {s t u : State} (h : Units j s t) (h' : Units m s u) (hu : u.unit = none) :
    ∃ n, Units n t u := by
  induction h generalizing m with
  | refl s => exact ⟨m, h'⟩
  | head hs _ ih =>
    cases h' with
    | refl => simp [hs] at hu
    | head hs' h' =>
      rw [hs] at hs'
      injection hs' with hs'
      injection hs' with hs'
      subst hs'
      exact ih h'

theorem Handled.pulse {s t : State} (h : Handled s (.next t)) (hb : s.busy = true) (ht : t.busy = false) : t.resp = true := by
  cases h with
  | raised => exact State.raise_resp ..
  | valued => rfl
  | recorded => rfl
  | goesOn => exact absurd ht (by simp [hb])

theorem Sent.pulse {s t : State} (h : Sent s (.next t)) (hp : s.ph.sending = true) (hb : s.busy = true) (ht : t.busy = false) :
    t.resp = true := by
  cases h with
  | advanced hu => exact absurd ht (by simp [hu.busy, hb])
  | left hu =>
    have hb' := hu.busy.trans hb
    obtain ⟨_, hn⟩ | ⟨_, hn⟩ | ⟨_, hn⟩ := txNext_cases (hu.ph.symm ▸ hp) <;> rw [hn] at ht ⊢
    · rfl
    · rfl
    · exact absurd ht (by simp [hb'])

/-- A unit that ends the command signals its response (60_exceptions.md R192). -/
theorem unit_pulse {s t : State} (h : s.unit = some (.next t)) (hb : s.busy = true) (ht : t.busy = false) : t.resp = true := by
  obtain ⟨hp, hs⟩ | ⟨_, u, hu, hh⟩ := unit_cases h
  · exact hs.pulse hp hb ht
  · exact hh.pulse (hu.busy.trans hb) ht

/-- A command that has waited, at some later time: other words on the command port, another count of steps. -/
def State.later (s : State) (q : List CmdWord) (k : Nat) (r : Bool) : State := { s with cmdQ := q, tick := k, resp := r }

/-- A step of a command that has waited is its unit, at the next count. -/
theorem step_later {s t : State} (hr : s.rst = false) (hb : s.busy = true) (h : s.unit = some (.next t)) (q : List CmdWord)
    (k : Nat) (r : Bool) :
    step (s.later q k r) = .next (t.later q (k + 1) (if t.busy then false else t.resp)) := by
  have hp : s.ph ≠ .idle := fun hp => by simp [hp] at h
  have hin : (s.later q k r).tickOver = s.inside { s.world with cmdQ := q, tick := k + 1, resp := false } := by
    rw [State.inside, if_pos hb]
    rfl
  have hserves : World.Serves { s.world with cmdQ := q, tick := k + 1, resp := false } s :=
    ⟨fun _ => ⟨rfl, fun _ => rfl⟩, fun _ _ _ => rfl, fun _ _ _ => rfl, fun _ _ _ _ => rfl, fun _ h => h⟩
  obtain ⟨f, _, ht, hw⟩ := unit_effect h
  rw [step_busy (s := s.later q k r) hr hp, hin, hw _ hserves, Option.getD_some]
  refine congrArg _ ?_
  have hafter : ∀ w : World, World.after { w with cmdQ := q, tick := k + 1, resp := false } s f =
      { w.after s f with cmdQ := q, tick := k + 1, resp := false } := fun w => by cases f <;> rfl
  rw [hafter]
  conv_rhs => rw [ht]
  cases hb' : t.busy <;> simp [State.inside, State.later, hb']

/-- The units of a command that has waited are its steps. -/
theorem stepTimes_of_units {n : Nat} {s u : State} (h : Units n s u) (hi : Inv s) (hr : s.rst = false) (hb : s.busy = true)
    (q : List CmdWord) (k : Nat) (r : Bool) :
    ∃ r', stepTimes n (s.later q k r) = .next (u.later q (k + n) r') ∧ (u.busy = false → r' = true) := by
  induction h generalizing k r with
  | refl s => exact ⟨r, rfl, fun hf => by simp [hb] at hf⟩
  | @head n s t u hu hs ih =>
    have hstep := step_later hr hb hu q k r
    cases hb' : t.busy with
    | true =>
      rw [hb', if_pos rfl] at hstep
      obtain ⟨r', hn, hr'⟩ := ih (unit_inv hi hu) ((unit_keeps_ports hu).1.trans hr) hb' (k + 1) false
      refine ⟨r', ?_, hr'⟩
      rw [stepTimes, hstep, ← Nat.add_right_comm, Nat.add_assoc] at *
      exact hn
    | false =>
      have hidle := unit_idle (unit_ended hb hu hb')
      cases hs with
      | refl =>
        refine ⟨t.resp, ?_, fun _ => unit_pulse hu hb hb'⟩
        rw [stepTimes, hstep, hb']
        rfl
      | head hu' _ => simp [hidle] at hu'

/-! ## Commands that have waited -/

theorem BegunIn.runs_of_busy {s t : State} {F : World → Result} (hF : BegunIn s F) (ht : F s.world = .next t)
    (hb : t.busy = true) : ∃ v, Started s v ∧ ∀ w, F w = (v.inside w).run := by
  cases hF with
  | runs hv => exact ⟨_, hv, fun _ => rfl⟩
  | absent => cases ht
  | failed => cases ht; simp at hb
  | _ => cases ht; cases hb

/-- A command that waits, and is then given what no unit before has noticed. -/
theorem Gift.resumes {γ : World → World} {P : State → Prop} (hγ : Gift γ P) {i : Instr} {s : State} (hi : Inv s)
    (hr : s.rst = false) (hb : s.busy = false) (hc : i.isCommand = true) (hP : ∀ v, Started s v → P v) :
    Resumes i s (s.given γ) (State.given γ) := by
  intro t u q k r ht htb hu
  by_cases hn : i = .nop
  · subst hn
    cases (whenFree_free hb _).symm.trans ht
    simp [hb] at htb
  obtain ⟨F, hF, hexec⟩ := exec_beginsAlike hb hc hn
  have hself := hexec s.world rfl
  rw [inside_world, ht] at hself
  obtain ⟨v, hv, hrun⟩ := hF.runs_of_busy hself.symm htb
  rw [hrun, ← hv.world, inside_world] at hself
  obtain ⟨j, hj⟩ := units_of_run hself.symm
  have hwhole : exec i (s.given γ) = (v.given γ).run := by
    rw [State.given, hexec (γ s.world) (congrArg World.resp (hγ.pulse s.world s.world.resp)), hrun, State.given, hv.world]
  rw [hwhole] at hu
  obtain ⟨m, hm⟩ := units_of_run hu
  obtain ⟨u', hu', hblocked⟩ := commandSettles i _ (hγ.inv hi) hb hc
  rw [hwhole, hu] at hu'
  cases hu'
  obtain ⟨n, hn⟩ := (hγ.units hj (hP v hv)).rest hm hblocked
  have hv' : v.rst = false := (congrArg World.rst hv.world).trans hr
  have ht' : Inv t ∧ t.rst = false :=
    hj.induction (P := fun x => Inv x ∧ x.rst = false)
      (fun x y hx hu => ⟨unit_inv hx.1 hu, (unit_keeps_ports hu).1.trans hx.2⟩) ⟨hv.inv hi, hv'⟩
  obtain ⟨r', hsteps, hr'⟩ :=
    stepTimes_of_units hn (hγ.inv ht'.1) ((hγ.buffers _).2.2.trans ht'.2) htb q k r
  exact ⟨n, r', hsteps, hr'⟩

/-! ## More bytes on IN, more room on OUT -/

/-- The host presents the bytes `b` as well, and end of stream or not after them (20_memory.md R57). -/
def World.withMoreIn (b : List Byte) (eos : Bool) (w : World) : World := { w with inQ := w.inQ ++ b, inEos := eos }

/-- The host takes `more` bytes as well, every byte where there is no number (R58). -/
def World.withMoreRoom (more : Option Nat) (w : World) : World := { w with outRoom := more.map (w.outRoom.getD 0 + ·) }

theorem gift_moreIn (b : List Byte) (eos : Bool) : Gift (World.withMoreIn b eos) fun s => s.inEos = false where
  pulse _ _ := rfl
  buffers _ := ⟨rfl, rfl, rfl⟩
  kept s t hs h := (unit_keeps_ports h).2.1.trans hs
  serves s t hs h := by
    refine ⟨fun hp => ?_, fun _ _ _ => rfl, fun _ _ _ => rfl, fun _ _ _ _ => rfl, fun _ h => h⟩
    cases hq : s.inQ with
    | nil => simp [unit_wait hp hq hs] at h
    | cons c q => exact ⟨by simp [World.withMoreIn, State.world, hq], fun h => by cases h⟩
  after s t f _ hf := by
    cases f with
    | takes c =>
      obtain ⟨q, hq⟩ := hf
      simp [World.after, World.withMoreIn, World.took, World.stored, State.world, hq]
    | _ => rfl

theorem gift_moreRoom (more : Option Nat) : Gift (World.withMoreRoom more) fun s => s.outRoom.isSome = true where
  pulse _ _ := rfl
  buffers _ := ⟨rfl, rfl, rfl⟩
  kept s t hs h := by
    obtain ho | ho := (unit_keeps_ports h).2.2 <;> simp [ho, hs]
  serves s t hs h := by
    refine ⟨fun _ => ⟨rfl, fun _ => rfl⟩, fun _ _ _ => rfl, fun _ _ _ => rfl, fun _ _ _ _ => rfl, fun _ hr => ?_⟩
    obtain ⟨n, hn⟩ := Option.isSome_iff_exists.1 hs
    have h0 : n ≠ 0 := fun h0 => hr (h0 ▸ hn)
    cases more <;> simp [World.withMoreRoom, State.world, hn]
    omega
  after s t f hs hf := by
    cases f with
    | puts o =>
      obtain ⟨n, hn⟩ := Option.isSome_iff_exists.1 hs
      have h0 : n ≠ 0 := fun h0 => hf.2 (h0 ▸ hn)
      cases more <;> simp [World.after, World.withMoreRoom, World.put, State.world, hn]
      omega
    | _ => rfl

theorem given_moreIn (b : List Byte) (eos : Bool) (s : State) :
    s.given (World.withMoreIn b eos) = { s with inQ := s.inQ ++ b, inEos := eos } :=
  congrArg (fun x : State => { x with inQ := x.inQ ++ b, inEos := eos }) (inside_world s)

theorem given_moreRoom (more : Option Nat) (s : State) :
    s.given (World.withMoreRoom more) = { s with outRoom := more.map (s.outRoom.getD 0 + ·) } :=
  congrArg (fun x : State => { x with outRoom := more.map (x.outRoom.getD 0 + ·) }) (inside_world s)

/-- A decode that waits for bytes. -/
theorem resumes_moreIn {i : Instr} {s : State} (hi : Inv s) (hr : s.rst = false) (hb : s.busy = false)
    (hc : i.isCommand = true) (a b : List Byte) (eos : Bool) :
    Resumes i { s with inQ := a, inEos := false } { s with inQ := a ++ b, inEos := eos }
      (fun t => { t with inQ := t.inQ ++ b, inEos := eos }) := by
  have h := (gift_moreIn b eos).resumes (i := i) (s := { s with inQ := a, inEos := false }) { hi with } hr hb hc
    fun v hv => congrArg World.inEos hv.world
  rw [given_moreIn, funext (given_moreIn b eos)] at h
  exact h

/-- An encode that waits for room. -/
theorem resumes_moreRoom {i : Instr} {s : State} (hi : Inv s) (hr : s.rst = false) (hb : s.busy = false)
    (hc : i.isCommand = true) (room : Nat) (more : Option Nat) :
    Resumes i { s with outRoom := some room } { s with outRoom := more.map (room + ·) }
      (fun t => { t with outRoom := more.map (t.outRoom.getD 0 + ·) }) := by
  have h := (gift_moreRoom more).resumes (i := i) (s := { s with outRoom := some room }) { hi with } hr hb hc
    fun v hv => congrArg Option.isSome (congrArg World.outRoom hv.world)
  rw [given_moreRoom, funext (given_moreRoom more)] at h
  exact h

end Sys2Proof.Machine
end

section
/-! A stream decode takes the bytes there are, and waits (20_memory.md R57). -/

namespace Sys2Proof.Machine

open Sys2Proof

/-! ## Runs of reading units -/

/-- Every unit of a command that reads leaves less work, whatever the registers hold. -/
theorem units_workLeft {k : Nat} {s t : State} (h : Units k s t) (hs : s.ph.sending = false) :
    k + t.workLeft ≤ s.workLeft := by
  induction h with
  | refl => omega
  | @head k s t u hu _ ih =>
    obtain ⟨hp, _⟩ | ⟨hp, v, hv, hh⟩ := unit_cases hu
    · simp [hs] at hp
    · have hp' := hv.ph.symm ▸ hp
      have hlt := (hh.workLeft_lt (reads_ne_idle hp')).trans_eq hv.workLeft
      have := ih (hh.not_sending hp')
      omega

/-- A command that reads, and comes to a state that is blocked. -/
theorem run_of_reading_units {k : Nat} {s t : State} (h : Units k s t) (hs : s.ph.sending = false) (ht : t.unit = none) :
    s.run = .next t :=
  run_of_units h ((Nat.le_add_right _ _).trans ((units_workLeft h hs).trans (workLeft_le_settleFuel s))) ht

/-! ## The bytes of a value -/

/-- `n` bytes of IN have been taken, the whole of it, and each was one of the value in progress (10_state.md R25, R31). -/
def State.tookAll (s : State) (n : Nat) (k : Scratch) : State :=
  { s with inQ := [], cons := s.cons + BitVec.ofNat 32 n, cur := s.cur + BitVec.ofNat 32 n, scratch := k }

theorem tookAll_zero {s : State} (hq : s.inQ = []) : s.tookAll 0 s.scratch = s := by
  simp [State.tookAll, ← hq]

/-- One byte taken, then `n` others. -/
theorem tookAll_succ (s : State) (q : List Byte) (k k' : Scratch) (n : Nat) :
    ({ s.took q with cur := s.cur + 1, scratch := k } : State).tookAll n k' = s.tookAll (n + 1) k' := by
  have h : ∀ c : U32, c + 1 + BitVec.ofNat 32 n = c + BitVec.ofNat 32 (n + 1) := fun c => by
    rw [BitVec.add_assoc, Nat.add_comm n 1, BitVec.ofNat_add]
    rfl
  simp only [State.tookAll, State.took_cons, h]
  rfl

theorem toNat_add_one {c : U32} (h : c.toNat + 1 < 2 ^ 32) : (c + 1).toNat = c.toNat + 1 := by
  rw [BitVec.toNat_add]
  exact Nat.mod_eq_of_lt h

/-- A VarUInt whose bytes run out: all of them are taken (40_varuint.md R105, R106). -/
theorem units_vu_short {bs : List Byte} {s : State} (hp : s.ph = .vIn) (hs : s.scratch.signed = false) (hq : s.inQ = bs)
    (hd : vuDecFrom s.scratch.le s.cur.toNat s.scratch.acc bs = none) :
    ∃ k, Units bs.length s (s.tookAll bs.length k) := by
  induction bs generalizing s with
  | nil => exact ⟨s.scratch, by rw [List.length_nil, tookAll_zero hq]; exact .refl s⟩
  | cons b bs ih =>
    have hslot : (s.took bs).slot = some (vuSlot (s.took bs).cur) := by simp [State.slot, hp, hs]
    have hu := unit_take (s := s) (by simp [hp, Phase.takes]) hq
    rw [handleByte_vu b hslot] at hu
    simp only [vuDecFrom] at hd
    split_ifs at hd with h3 h7
    rw [if_pos (show (s.took bs).cur.toNat < 3 from h3), if_pos h7] at hu
    have hcur : (s.cur + 1).toNat = s.cur.toNat + 1 := toNat_add_one (by omega)
    obtain ⟨k, hk⟩ := ih (s := { s.took bs with
        cur := s.cur + 1
        scratch := { s.scratch with
          acc := vuJoin s.scratch.le s.scratch.acc s.cur.toNat (b.extractLsb' 0 7), raw := s.scratch.raw ++ [b] } })
      hp hs rfl (by simpa only [hcur] using hd)
    exact ⟨k, tookAll_succ s bs _ k _ ▸ .head hu hk⟩

theorem dataByte_vIn {s : State} (hp : s.ph = .vIn) (b : Byte) : s.dataByte b = .next (s.vsMore b) := by
  unfold State.dataByte
  rw [hp]

/-- A byte of a VarSInt after which another one is due. -/
theorem vsMore_of_lt {s : State} (h : s.cur.toNat + 1 < nibSize s.scratch.nib) (b : Byte) :
    s.vsMore b = { s with
      cur := s.cur + 1
      scratch := { s.scratch with shift := vsShiftIn s.scratch.le s.scratch.shift s.cur.toNat b } } :=
  if_neg (by omega)

theorem vsStart_of_ne {s : State} {nib : BitVec 4} (h : nibSize nib ≠ 1) (b : Byte) :
    s.vsStart nib b = { s with cur := s.cur + 1, scratch := { s.scratch with nib := nib, shift := b.setWidth 64 } } :=
  if_neg h

/-- The later bytes of a VarSInt, which run out (41_varsint.md R127, R128). -/
theorem units_vsMore_short {bs : List Byte} {s : State} (hp : s.ph = .vIn) (hs : s.scratch.signed = true) (hq : s.inQ = bs)
    (hc : 0 < s.cur.toNat) (hlen : s.cur.toNat + bs.length < nibSize s.scratch.nib) :
    ∃ k, Units bs.length s (s.tookAll bs.length k) := by
  induction bs generalizing s with
  | nil => exact ⟨s.scratch, by rw [List.length_nil, tookAll_zero hq]; exact .refl s⟩
  | cons b bs ih =>
    simp only [List.length_cons] at hlen
    have hn := nibSize_le s.scratch.nib
    have hcur : (s.cur + 1).toNat = s.cur.toNat + 1 := toNat_add_one (by omega)
    have hne : s.cur ≠ 0 := fun h0 => by simp [h0] at hc
    have hslot : (s.took bs).slot = none := by
      simp only [State.slot, State.took_ph, hp, State.took_scratch, hs, if_true]
      exact if_neg hne
    have hu := unit_take (s := s) (by simp [hp, Phase.takes]) hq
    rw [handleByte_data b hslot, dataByte_vIn (s := s.took bs) hp, vsMore_of_lt (s := s.took bs) (by simp only [State.took_cur, State.took_scratch]; omega)] at hu
    obtain ⟨k, hk⟩ := ih (s := { s.took bs with
        cur := s.cur + 1
        scratch := { s.scratch with shift := vsShiftIn s.scratch.le s.scratch.shift s.cur.toNat b } })
      hp hs rfl (by simp only [hcur]; omega) (by simp only [hcur]; omega)
    exact ⟨k, tookAll_succ s bs _ k _ ▸ .head hu hk⟩

/-- A VarSInt whose bytes run out (R128). -/
theorem units_vs_short {bs : List Byte} {s : State} (hp : s.ph = .vIn) (hs : s.scratch.signed = true) (hq : s.inQ = bs)
    (hc : s.cur = 0) (hd : vsDec s.scratch.le bs = none) : ∃ k, Units bs.length s (s.tookAll bs.length k) := by
  cases bs with
  | nil => exact ⟨s.scratch, by rw [List.length_nil, tookAll_zero hq]; exact .refl s⟩
  | cons b bs =>
    have hlen : bs.length < nibSize (firstNibble s.scratch.le b) - 1 := by
      simp only [vsDec] at hd
      split_ifs at hd with h
      exact h
    have hslot : (s.took bs).slot = some (.vsFirst s.scratch.le) := by simp [State.slot, hp, hs, hc]
    have hu := unit_take (s := s) (by simp [hp, Phase.takes]) hq
    rw [handleByte_vsFirst b hslot, vsStart_of_ne (by omega)] at hu
    obtain ⟨k, hk⟩ := units_vsMore_short (s := { s.took bs with
        cur := s.cur + 1
        scratch := { s.scratch with nib := firstNibble s.scratch.le b, shift := b.setWidth 64 } })
      hp hs rfl (by simp [hc]) (by simp [hc]; omega)
    exact ⟨k, tookAll_succ s bs _ k _ ▸ .head hu hk⟩

/-! ## The statement settled -/

/-- A value decode from IN that has taken all there is (20_memory.md R57). -/
theorem decodeFrom_waits {s : State} (hb : s.busy = false) (he : s.inEos = false) (signed le : Bool) (off : U32)
    (h : ∃ k, Units s.inQ.length { s.accept .vIn with scratch := { Scratch.init with signed := signed, le := le } }
      (State.tookAll { s.accept .vIn with scratch := { Scratch.init with signed := signed, le := le } } s.inQ.length k)) :
    ∃ t, s.whenFree (s.decodeFrom signed le true off) = .next t ∧ t.blocked ∧ t.busy = true ∧ t.ph = .vIn ∧ t.inQ = [] ∧
        t.cons = BitVec.ofNat 32 s.inQ.length ∧ t.cur = BitVec.ofNat 32 s.inQ.length ∧ t.pb = s.pb ∧ t.plen = s.plen ∧
        t.outQ = s.outQ ∧ s.keepsRecord t := by
  obtain ⟨k, hk⟩ := h
  have hwait : (State.tookAll { s.accept .vIn with scratch := { Scratch.init with signed := signed, le := le } }
      s.inQ.length k).unit = none := unit_wait rfl rfl he
  refine ⟨_, (whenFree_free hb _).trans (run_of_reading_units hk rfl hwait), hwait, rfl, rfl, rfl, ?_, ?_, rfl, rfl, rfl, rfl, rfl,
    rfl, rfl, rfl, rfl, rfl, rfl, rfl⟩ <;>
    exact BitVec.zero_add _

/-- Settles O51: the bytes of a value that run out are taken one by one, and what the host gives later reaches the later units
only. -/
theorem decodeWaits : Obligations.DecodeWaits := by
  refine ⟨fun i s hb he hi => ?_, fun i a b eos s h hr hb hc => resumes_moreIn h hr hb hc a b eos⟩
  obtain ⟨le, off, rfl, hd⟩ | ⟨le, off, rfl, hd⟩ := hi
  · exact decodeFrom_waits hb he false le off (units_vu_short rfl rfl rfl hd)
  · exact decodeFrom_waits hb he true le off (units_vs_short rfl rfl rfl rfl hd)

end Sys2Proof.Machine
end

section
/-! A stream encode puts the bytes the host takes, and waits (20_memory.md R58). -/

namespace Sys2Proof.Machine

open Sys2Proof

/-! ## The bytes that are still to be put -/

/-- The next byte of an encode, with the place in the command after it, and so on to the last byte of its output, which alone
is marked. What the host takes of them does not matter. -/
inductive State.Sends : State → List Byte → Prop where
  | last {s v : State} {b : Byte} (hp : s.ph.sending = true) (h : s.txByte = .got b v) : s.Sends [b]
  | more {s v : State} {b : Byte} {w : List Byte} {p : Phase} {c : U32} {k : Scratch} (hp : s.ph.sending = true)
      (h : s.txByte = .got b v) (hl : s.txLast = false) (ha : s.afterPut s b = { s with ph := p, cur := c, scratch := k })
      (ht : State.Sends { s with ph := p, cur := c, scratch := k } w) : s.Sends (b :: w)

/-- A sending phase finds the same byte in every world with the same PB. -/
theorem txByte_inside {s v : State} {w : World} {b : Byte} (h : s.txByte = .got b v) (hw : w.pb = s.pb) :
    ∃ v', (s.inside w).txByte = .got b v' := by
  have ha := txByte_alike (s := s) (w := w) fun _ x _ => by rw [hw]
  rw [h] at ha
  obtain ⟨_, hf⟩ | ⟨q, _, _, hf⟩ := ha.got <;> exact ⟨_, hf⟩

/-- The world after the unmarked bytes `bs` have been put, in which the host takes no more. -/
def World.full (w : World) (bs : List Byte) : World := { w with outQ := w.outQ ++ unmarked bs, outRoom := some 0 }

theorem full_nil {w : World} (h : w.outRoom = some 0) : w.full [] = w := by
  simp [World.full, unmarked, ← h]

theorem full_put (w : World) (b : Byte) (bs : List Byte) : (w.put ⟨b, false⟩).full bs = w.full (b :: bs) := by
  simp [World.full, World.put, unmarked]

/-- An encode waits while the host takes no byte. -/
theorem unit_sending_full {s v : State} {w : World} {b : Byte} (hp : s.ph.sending = true) (h : (s.inside w).txByte = .got b v)
    (hw : w.outRoom = some 0) : (s.inside w).unit = none := by
  rw [unit_sending (s := s.inside w) hp, sendUnit_got h, put_none (s := s.inside w) hw, Option.map_none]

/-- A codec that stays where it is, in a world that takes no byte. -/
theorem sends_none {s v : State} {w : World} {b : Byte} (hp : s.ph.sending = true) (h : s.txByte = .got b v)
    (hw : w.outRoom = some 0) (hpb : w.pb = s.pb) :
    ∃ p c k, Units 0 (s.inside w) (State.inside { s with ph := p, cur := c, scratch := k } (w.full [])) ∧
      State.unit (State.inside { s with ph := p, cur := c, scratch := k } (w.full [])) = none := by
  obtain ⟨v', hv⟩ := txByte_inside h hpb
  rw [full_nil hw]
  exact ⟨s.ph, s.cur, s.scratch, .refl _, unit_sending_full hp hv hw⟩

/-- An encode in a world that takes fewer bytes than it has left puts those, and waits with nothing else done. -/
theorem State.Sends.units {s : State} {bs : List Byte} (h : s.Sends bs) {n : Nat} (hn : n < bs.length) {w : World}
    (hw : w.outRoom = some n) (hpb : w.pb = s.pb) :
    ∃ p c k, Units n (s.inside w) (State.inside { s with ph := p, cur := c, scratch := k } (w.full (bs.take n))) ∧
      State.unit (State.inside { s with ph := p, cur := c, scratch := k } (w.full (bs.take n))) = none := by
  induction h generalizing n w with
  | last hp h =>
    obtain rfl : n = 0 := by simpa using hn
    exact sends_none hp h hw hpb
  | @more s v b bs p c k hp h hl ha _ ih =>
    cases n with
    | zero => exact sends_none hp h hw hpb
    | succ n =>
      obtain ⟨v', hv⟩ := txByte_inside h hpb
      obtain ⟨p', c', k', hunits, hnone⟩ := ih (n := n) (w := w.put ⟨b, false⟩) (by simpa using hn)
        (by simp [World.put, hw]) hpb
      rw [full_put] at hunits hnone
      have hu := sendUnit_got_inside hv (by simp [hw])
      rw [ha, hl, ← unit_sending (s := s.inside w) hp] at hu
      exact ⟨p', c', k', .head hu hunits, hnone⟩

/-! ## The fields of an encode -/

/-- The phases that feed the running CRC (43_record_framer.md R155). -/
def Phase.feeds (p : Phase) : Bool := p = .eId || p = .eLen || p = .ePay

/-- The scratch registers after the bytes `bs` of the phase have been put. -/
def State.fed (s : State) (bs : List Byte) : Scratch := if s.ph.feeds then s.scratch.feedAll bs else s.scratch

/-- What is left of the field of a sending phase. -/
def State.txRest (s : State) : List Byte :=
  if s.ph = .ePay then s.pb.readList s.cur.toNat (s.scratch.dlen.toNat - s.cur.toNat) else s.txField.drop s.cur.toNat

theorem txFeed_eq (s : State) (b : Byte) : s.txFeed b = { s with scratch := s.fed [b] } := by
  unfold State.txFeed State.fed
  split
  next hp => rw [hp]; rfl
  next hp => rw [hp]; rfl
  next hp => rw [hp]; rfl
  next h1 h2 h3 => rw [if_neg (by simpa [Phase.feeds] using ⟨⟨h1, h2⟩, h3⟩)]

theorem fed_cons (s : State) (c : U32) (b : Byte) (bs : List Byte) :
    State.fed { s with cur := c, scratch := s.fed [b] } bs = s.fed (b :: bs) := by
  unfold State.fed
  cases s.ph.feeds <;> simp

/-- Feeding changes CRCS and XORS only. -/
theorem fed_eq (s : State) (bs : List Byte) : ∃ c x, s.fed bs = { s.scratch with crcs := c, xors := x } := by
  unfold State.fed
  split_ifs
  · exact ⟨_, _, Scratch.feedAll_eq _ _⟩
  · exact ⟨_, _, rfl⟩

theorem txField_fed (s : State) (c : U32) (bs : List Byte) : State.txField { s with cur := c, scratch := s.fed bs } = s.txField := by
  obtain ⟨x, y, h⟩ := fed_eq s bs
  have hcrc : s.ph = .eCrc → s.fed bs = s.scratch := fun hp => if_neg (by simp [Phase.feeds, hp])
  unfold State.txField
  cases hp : s.ph
  case eCrc => exact congrArg Scratch.crcField (hcrc hp)
  case eRlen =>
    rw [h]
    rfl
  all_goals rw [h]

section
variable {s : State} {b : Byte} {bs : List Byte}

/-- The next byte of a field. -/
theorem txByte_of_txRest (hd : s.ph = .ePay → s.scratch.dlen.toNat ≤ Config.pbBytes) (h : s.txRest = b :: bs) :
    s.txByte = .got b s ∧ s.txLen = s.cur.toNat + 1 + bs.length := by
  unfold State.txRest at h
  unfold State.txByte State.txLen
  split_ifs at h ⊢ with hp
  · obtain ⟨n, hn⟩ : ∃ n, s.scratch.dlen.toNat - s.cur.toNat = n + 1 :=
      Nat.exists_eq_succ_of_ne_zero fun h0 => by simp [h0, Mem.readList] at h
    rw [hn, Mem.readList] at h
    injection h with hb hbs
    have hlen := congrArg List.length hbs
    have hle := hd hp
    rw [Mem.length_readList] at hlen
    rw [State.fetchPb, if_neg (by omega), if_neg (by omega), hb]
    exact ⟨rfl, by omega⟩
  · have hlen := congrArg List.length h
    simp only [List.length_drop, List.length_cons] at hlen
    have hget : s.txField[s.cur.toNat]? = some b := by
      rw [← List.head?_drop, h]
      rfl
    rw [hget]
    exact ⟨rfl, by omega⟩

/-- The field after it. -/
theorem txRest_next (hc : s.cur.toNat + 1 < 2 ^ 32) (h : s.txRest = b :: bs) :
    State.txRest { s with cur := s.cur + 1, scratch := s.fed [b] } = bs := by
  obtain ⟨x, y, hfed⟩ := fed_eq s [b]
  have hdlen : (s.fed [b]).dlen = s.scratch.dlen := by rw [hfed]
  unfold State.txRest at h ⊢
  rw [txField_fed]
  simp only [toNat_add_one hc, hdlen]
  split_ifs at h ⊢ with hp
  · obtain ⟨n, hn⟩ : ∃ n, s.scratch.dlen.toNat - s.cur.toNat = n + 1 :=
      Nat.exists_eq_succ_of_ne_zero fun h0 => by simp [h0, Mem.readList] at h
    rw [hn, Mem.readList] at h
    injection h with hb hbs
    rw [show s.scratch.dlen.toNat - (s.cur.toNat + 1) = n by omega, hbs]
  · rw [← List.tail_drop, h]
    rfl

/-! ### From one field to the next -/

theorem txNext_of_leavesTo (hp : s.ph.sending = true) (hl : s.ph.leavesTo s.scratch.rev (s.scratch.dlen = 0) ≠ .idle) :
    s.txNext = s.enter (s.ph.leavesTo s.scratch.rev (s.scratch.dlen = 0)) := by
  obtain ⟨hv, _⟩ | ⟨he, _⟩ | ⟨_, ht⟩ := txNext_cases hp
  · simp [hv, Phase.leavesTo] at hl
  · obtain he | ⟨he, hrev⟩ := he <;> simp [*, Phase.leavesTo] at hl
  · exact ht

/-- The last byte of a field that another field follows is not the last one of the command. -/
theorem txLast_of_leavesTo (hl : s.ph.leavesTo s.scratch.rev (s.scratch.dlen = 0) ≠ .idle) : s.txLast = false := by
  unfold State.txLast
  split
  next hp => simp [hp, Phase.leavesTo] at hl
  next hp =>
    cases hrev : s.scratch.rev
    · simp [hp, hrev, Phase.leavesTo] at hl
    · rfl
  next hp => simp [hp, Phase.leavesTo] at hl
  next => rfl

/-- A byte of a field that has another one after it is not the last one of the command. -/
theorem txLast_of_lt (hp : s.ph ≠ .eTail) (h : s.cur.toNat + 1 < s.txLen) : s.txLast = false := by
  unfold State.txLast
  split
  next => simpa using h
  next => simp [h]
  next hp' => exact absurd hp' hp
  next => rfl

/-- The place after a byte that has another one of its field after it. -/
theorem afterPut_advance (h : s.cur.toNat + 1 < s.txLen) (b : Byte) :
    s.afterPut s b = { s with cur := s.cur + 1, scratch := s.fed [b] } := by
  rw [State.afterPut, if_neg (by omega), txFeed_eq]
  rfl

/-- The place after the last byte of a field that another field follows. -/
theorem afterPut_next (hp : s.ph.sending = true) (h : s.txLen ≤ s.cur.toNat + 1) (b : Byte)
    (hl : s.ph.leavesTo s.scratch.rev (s.scratch.dlen = 0) ≠ .idle) :
    s.afterPut s b =
      { s with ph := s.ph.leavesTo s.scratch.rev (s.scratch.dlen = 0), cur := 0, scratch := s.fed [b] } := by
  obtain ⟨x, y, hfed⟩ := fed_eq s [b]
  have hd : (s.fed [b]).dlen = s.scratch.dlen ∧ (s.fed [b]).rev = s.scratch.rev := by rw [hfed]; exact ⟨rfl, rfl⟩
  rw [State.afterPut, if_pos h, txFeed_eq, txNext_of_leavesTo (s := { s with scratch := s.fed [b] }) hp (by rwa [hd.1, hd.2])]
  dsimp only
  rw [hd.1, hd.2]
  rfl

/-- A field that another one follows is put byte by byte, and then the rest. -/
theorem sends_field {w : List Byte} (hp : s.ph.sending = true)
    (hl : s.ph.leavesTo s.scratch.rev (s.scratch.dlen = 0) ≠ .idle)
    (hd : s.ph = .ePay → s.scratch.dlen.toNat ≤ Config.pbBytes) (hbs : s.txRest = bs) (hne : bs ≠ [])
    (hlen : s.cur.toNat + bs.length < 2 ^ 32)
    (H : ∀ u : State, u.ph = s.ph.leavesTo s.scratch.rev (s.scratch.dlen = 0) → u.cur = 0 → u.scratch = s.fed bs →
      u.pb = s.pb → u.Sends w) : s.Sends (bs ++ w) := by
  induction bs generalizing s with
  | nil => exact absurd rfl hne
  | cons b bs ih =>
    obtain ⟨hb, htx⟩ := txByte_of_txRest hd hbs
    have hlast := txLast_of_leavesTo hl
    cases bs with
    | nil => exact .more hp hb hlast (afterPut_next hp htx.le b hl) (H _ rfl rfl rfl rfl)
    | cons b' bs =>
      simp only [List.length_cons] at htx hlen
      refine .more hp hb hlast (afterPut_advance (by omega) b) ?_
      obtain ⟨x, y, hfed⟩ := fed_eq s [b]
      have hd' : (s.fed [b]).dlen = s.scratch.dlen ∧ (s.fed [b]).rev = s.scratch.rev := by rw [hfed]; exact ⟨rfl, rfl⟩
      refine ih (s := { s with cur := s.cur + 1, scratch := s.fed [b] }) hp (by rwa [hd'.1, hd'.2]) (by rwa [hd'.1])
        (txRest_next (by omega) hbs) (by simp) ?_ fun u hu hc hk hpb => H u ?_ hc (hk.trans (fed_cons ..)) hpb
      · simp only [List.length_cons, toNat_add_one (show s.cur.toNat + 1 < 2 ^ 32 by omega)]
        omega
      · rwa [hd'.1, hd'.2] at hu

/-- The last field of an output, put byte by byte. -/
theorem sends_last_field (hp : s.ph.sending = true) (htail : s.ph ≠ .eTail)
    (hd : s.ph = .ePay → s.scratch.dlen.toNat ≤ Config.pbBytes) (hbs : s.txRest = bs) (hne : bs ≠ [])
    (hlen : s.cur.toNat + bs.length < 2 ^ 32) : s.Sends bs := by
  induction bs generalizing s with
  | nil => exact absurd rfl hne
  | cons b bs ih =>
    obtain ⟨hb, htx⟩ := txByte_of_txRest hd hbs
    cases bs with
    | nil => exact .last hp hb
    | cons b' bs =>
      simp only [List.length_cons] at htx hlen
      refine .more hp hb (txLast_of_lt htail (by omega)) (afterPut_advance (by omega) b) ?_
      obtain ⟨x, y, hfed⟩ := fed_eq s [b]
      refine ih (s := { s with cur := s.cur + 1, scratch := s.fed [b] }) hp htail ?_ (txRest_next (by omega) hbs) (by simp) ?_
      · rw [show (s.fed [b]).dlen = s.scratch.dlen by rw [hfed]]
        exact hd
      · simp only [List.length_cons, toNat_add_one (show s.cur.toNat + 1 < 2 ^ 32 by omega)]
        omega

end

/-! ## The bytes of a value, and of a record -/

/-- A value on OUT (40_varuint.md R103, 41_varsint.md R125). -/
theorem value_sends (s : State) {bs : List Byte} (hne : bs ≠ []) (hlen : bs.length ≤ 8) :
    State.Sends { s.accept .vOut with scratch := { Scratch.init with tx := bs } } bs :=
  sends_last_field rfl (by simp) (by simp) (by rfl) hne (by simp; omega)

section
variable (k : Scratch) (bs : List Byte)

@[simp] theorem Scratch.feedAll_le : (k.feedAll bs).le = k.le := by rw [Scratch.feedAll_eq]
@[simp] theorem Scratch.feedAll_rev : (k.feedAll bs).rev = k.rev := by rw [Scratch.feedAll_eq]
@[simp] theorem Scratch.feedAll_enh : (k.feedAll bs).enh = k.enh := by rw [Scratch.feedAll_eq]
@[simp] theorem Scratch.feedAll_rawId : (k.feedAll bs).rawId = k.rawId := by rw [Scratch.feedAll_eq]
@[simp] theorem Scratch.feedAll_rawLen : (k.feedAll bs).rawLen = k.rawLen := by rw [Scratch.feedAll_eq]
@[simp] theorem Scratch.feedAll_dlen : (k.feedAll bs).dlen = k.dlen := by rw [Scratch.feedAll_eq]
@[simp] theorem Scratch.feedAll_crc : (k.feedAll bs).crc = k.crc := by rw [Scratch.feedAll_eq]
@[simp] theorem Scratch.feedAll_got : (k.feedAll bs).got = k.got := by rw [Scratch.feedAll_eq]
@[simp] theorem Scratch.feedAll_gotLen : (k.feedAll bs).gotLen = k.gotLen := by rw [Scratch.feedAll_eq]

end

/-- What follows the CRC of a record: nothing, or the trailing length and the tail byte (30_encoding.md R80). -/
def recordTail (le rev enh : Bool) (total : Nat) : List Byte :=
  if rev then (vuEnc (BitVec.ofNat 29 total) le).reverse ++ [tailByte le enh] else []

/-- A record by its fields (30_encoding.md R79, R80). -/
theorem recordWire_eq (le rev enh : Bool) (id : U29) (pay : List Byte) (k : CrcKind) :
    recordWire le rev enh id pay k =
      [headByte le rev enh] ++ (vuEnc id le ++ (vuEnc (BitVec.ofNat 29 pay.length) le ++ (pay ++
        (crcBytes (header le id pay.length) pay k le ++
          recordTail le rev enh ((header le id pay.length).length + pay.length + k.len))))) := by
  unfold recordWire recordTail header
  cases rev <;> simp

theorem txRest_start {u : State} (hc : u.cur = 0) (hp : u.ph ≠ .ePay) : u.txRest = u.txField := by
  rw [State.txRest, if_neg hp, hc]
  rfl

theorem vuEnc_ne_nil (v : U29) (le : Bool) : vuEnc v le ≠ [] := by
  have := (vuEnc_length_bounds v le).1
  rintro h
  simp [h] at this

/-- The bytes after the CRC. -/
theorem trailer_sends {u : State} (hp : u.ph = .eRlen) (hc : u.cur = 0) :
    u.Sends (u.scratch.trailerLen ++ [tailByte u.scratch.le u.scratch.enh]) := by
  have hlen := trailerLen_length_le u.scratch
  refine sends_field (by rw [hp]; rfl) (by simp [hp, Phase.leavesTo]) (by simp [hp])
    ((txRest_start hc (by simp [hp])).trans (by simp [State.txField, hp])) (by simp [Scratch.trailerLen, vuEnc_ne_nil])
    (by simp [hc]; omega) fun v hv hcv hk _ => ?_
  have hph : v.ph = .eTail := by simpa [hp, Phase.leavesTo] using hv
  have hk' : v.scratch = u.scratch := hk.trans (if_neg (by simp [hp, Phase.feeds]))
  refine .last (v := v) (by rw [hph]; rfl) ?_
  simp [State.txByte, hph, State.txField, hcv, hk']

/-- The CRC bytes, and what follows them. -/
theorem crc_sends {u : State} (hp : u.ph = .eCrc) (hc : u.cur = 0) :
    u.Sends (u.scratch.crcField ++ recordTail u.scratch.le u.scratch.rev u.scratch.enh u.scratch.totalLen) := by
  have hfield : u.txRest = u.scratch.crcField := (txRest_start hc (by simp [hp])).trans (by simp [State.txField, hp])
  have hlen := u.scratch.crc.len_le
  have hne : u.scratch.crcField ≠ [] := fun h => by
    have := congrArg List.length h
    rw [crcField_length] at this
    cases hk : u.scratch.crc <;> simp [hk, CrcKind.len] at this
  have hbound : u.cur.toNat + u.scratch.crcField.length < 2 ^ 32 := by simp [hc]; omega
  cases hrev : u.scratch.rev with
  | false =>
    rw [recordTail, if_neg (by simp), List.append_nil]
    exact sends_last_field (by rw [hp]; rfl) (by simp [hp]) (by simp [hp]) hfield hne hbound
  | true =>
    refine sends_field (by rw [hp]; rfl) (by simp [hp, hrev, Phase.leavesTo]) (by simp [hp]) hfield hne hbound
      fun v hv hcv hk _ => ?_
    have hph : v.ph = .eRlen := by simpa [hp, hrev, Phase.leavesTo] using hv
    have hk' : v.scratch = u.scratch := hk.trans (if_neg (by simp [hp, Phase.feeds]))
    have h := trailer_sends hph hcv
    rw [hk'] at h
    exact h

/-- The payload, and what follows it. -/
theorem payload_sends {u : State} (hp : u.ph = if u.scratch.dlen = 0 then .eCrc else .ePay) (hc : u.cur = 0)
    (hd : u.scratch.dlen.toNat ≤ Config.pbBytes) :
    u.Sends (u.pb.readList 0 u.scratch.dlen.toNat ++ ((u.scratch.feedAll (u.pb.readList 0 u.scratch.dlen.toNat)).crcField ++
      recordTail u.scratch.le u.scratch.rev u.scratch.enh u.scratch.totalLen)) := by
  have hpb : Config.pbBytes = 1048576 := rfl
  by_cases h0 : u.scratch.dlen = 0
  · rw [if_pos h0] at hp
    have h := crc_sends hp hc
    simpa [h0, Mem.readList] using h
  · rw [if_neg h0] at hp
    have hpos : u.scratch.dlen.toNat ≠ 0 := fun h => h0 (BitVec.eq_of_toNat_eq h)
    refine sends_field (by rw [hp]; rfl) (by simp [hp, Phase.leavesTo]) (fun _ => hd) (by simp [State.txRest, hp, hc])
      (fun h => hpos (by simpa using congrArg List.length h)) (by simp [hc]; omega) fun v hv hcv hk _ => ?_
    have hph : v.ph = .eCrc := by simpa [hp, Phase.leavesTo] using hv
    have hk' : v.scratch = u.scratch.feedAll (u.pb.readList 0 u.scratch.dlen.toNat) :=
      hk.trans (if_pos (by simp [hp, Phase.feeds]))
    have h := crc_sends hph hcv
    rw [hk'] at h
    simpa [Scratch.totalLen, Scratch.dataLen] using h

/-- The id and the length, and what follows them. -/
theorem header_sends {u : State} {w : List Byte} (hp : u.ph = .eId) (hc : u.cur = 0) (hid : u.scratch.rawId ≠ [])
    (hlen : u.scratch.rawLen ≠ []) (hshort : u.scratch.rawId.length ≤ 4 ∧ u.scratch.rawLen.length ≤ 4)
    (H : ∀ v : State, v.ph = (if u.scratch.dlen = 0 then .eCrc else .ePay) → v.cur = 0 → v.scratch = u.scratch.crcHeader →
      v.pb = u.pb → v.Sends w) : u.Sends (u.scratch.rawId ++ (u.scratch.rawLen ++ w)) := by
  refine sends_field (by rw [hp]; rfl) (by simp [hp, Phase.leavesTo]) (by simp [hp])
    ((txRest_start hc (by simp [hp])).trans (by simp [State.txField, hp])) hid (by simp [hc]; omega) fun v hv hcv hk hpb => ?_
  have hph : v.ph = .eLen := by simpa [hp, Phase.leavesTo] using hv
  have hk' : v.scratch = u.scratch.feedAll u.scratch.rawId := hk.trans (if_pos (by simp [hp, Phase.feeds]))
  refine sends_field (s := v) (bs := u.scratch.rawLen) (by rw [hph]; rfl)
    (by simp only [hph, Phase.leavesTo]; split_ifs <;> simp) (by simp [hph])
    ((txRest_start hcv (by simp [hph])).trans (by simp [State.txField, hph, hk'])) hlen (by simp [hcv]; omega)
    fun x hx hcx hkx hpbx => H x ?_ hcx ?_ (hpbx.trans hpb)
  · simpa [hph, hk', Phase.leavesTo] using hx
  · rw [hkx, State.fed, if_pos (by simp [hph, Phase.feeds]), hk', ← Scratch.feedAll_append]
    rfl

/-- The scratch registers of a record on its way out. -/
theorem beginEncode_scratch (s : State) (le rev enh : Bool) (id : U29) (k : CrcKind) :
    ∃ c : Scratch, (s.beginEncode le rev enh id k).scratch = c.crcBegin k ∧ c.le = le ∧ c.rev = rev ∧ c.enh = enh ∧
      c.dlen = s.plen.setWidth 29 ∧ c.rawId = vuEnc id le ∧ c.rawLen = vuEnc (s.plen.setWidth 29) le :=
  ⟨_, rfl, rfl, rfl, rfl, rfl, rfl, rfl⟩

/-- A record on OUT (43_record_framer.md R159). -/
theorem beginEncode_sends (s : State) (le rev enh : Bool) (id : U29) (k : CrcKind) (hplen : s.plen.toNat ≤ Config.pbBytes) :
    (s.beginEncode le rev enh id k).Sends (recordWire le rev enh id (s.pb.readList 0 s.plen.toNat) k) := by
  have hpb : Config.pbBytes = 1048576 := rfl
  have hd : (s.plen.setWidth 29).toNat = s.plen.toNat := by simp; omega
  have hof : BitVec.ofNat 29 s.plen.toNat = s.plen.setWidth 29 := BitVec.eq_of_toNat_eq (by simp)
  obtain ⟨c, hk, hle, hrev, henh, hdlen, hid, hlen⟩ := beginEncode_scratch s le rev enh id k
  rw [recordWire_eq, Mem.length_readList, header, hof]
  refine sends_field rfl (by simp [State.beginEncode, Phase.leavesTo]) (by simp [State.beginEncode]) (by rfl) (by simp)
    (by simp [State.beginEncode]) fun u hu hc hku hupb => ?_
  have hku' : u.scratch = c.crcBegin k := Eq.trans hku hk
  rw [← hid, ← hlen, show c.rawId = u.scratch.rawId by rw [hku']; rfl, show c.rawLen = u.scratch.rawLen by rw [hku']; rfl]
  have hids := vuEnc_length_bounds id le
  have hlens := vuEnc_length_bounds (s.plen.setWidth 29) le
  have hid' : u.scratch.rawId = vuEnc id le := by rw [hku']; exact hid
  have hlen' : u.scratch.rawLen = vuEnc (s.plen.setWidth 29) le := by rw [hku']; exact hlen
  refine header_sends hu hc (by rw [hid']; exact vuEnc_ne_nil _ _) (by rw [hlen']; exact vuEnc_ne_nil _ _)
    (by rw [hid', hlen']; exact ⟨hids.2, hlens.2⟩) fun v hv hcv hkv hpbv => ?_
  have hdv : v.scratch.dlen = s.plen.setWidth 29 := by rw [hkv, crcHeader_dlen, hku']; exact hdlen
  have hpbs : v.pb = s.pb := hpbv.trans hupb
  have h := payload_sends (u := v) (by rw [hdv, ← hdlen, hv, hku']; rfl) hcv (by rw [hdv, hd]; exact hplen)
  rw [hpbs, hdv, hd, hkv, crcHeader_eq, hku', crcField_feedAll] at h
  simpa [Scratch.totalLen, Scratch.dataLen, hle, hrev, henh, hdlen, hd, hku'] using h

/-! ## The encodes -/

/-- A record is checked only below the reserved tier (43_record_framer.md R150). -/
theorem crcKind_some_lt {d : Nat} {enh : Bool} {k : CrcKind} (h : crcKind d enh = some k) : d < 1048576 := by
  by_contra hd
  rw [crcKind, if_pos (by omega)] at h
  cases h

theorem recordWire_length_le (le rev enh : Bool) (id : U29) (pay : List Byte) (k : CrcKind) :
    (recordWire le rev enh id pay k).length ≤ pay.length + 18 := by
  have hid := (vuEnc_length_bounds id le).2
  have hlen := (vuEnc_length_bounds (BitVec.ofNat 29 pay.length) le).2
  have htrail := (vuEnc_length_bounds (BitVec.ofNat 29 ((header le id pay.length).length + pay.length + k.len)) le).2
  have hcrc := k.len_le
  rw [recordWire_eq, recordTail]
  split_ifs <;> simp only [List.length_append, List.length_reverse, List.length_singleton, List.length_nil, crcBytes_length] <;>
    omega

/-- A command that has put the bytes `bs`, none of them the last, and waits for the host with nothing else done. -/
def State.WaitsAfter (s t : State) (bs : List Byte) : Prop :=
  t.blocked ∧ t.busy = true ∧ t.outQ = s.outQ ++ unmarked bs ∧ t.outRoom = some 0 ∧ t.cons = 0 ∧ t.inQ = s.inQ ∧ t.pb = s.pb ∧
    t.plen = s.plen ∧ s.keepsRecord t

/-- An encode that the host does not let put all of its bytes puts those that the host takes, and waits (20_memory.md R58). -/
theorem accepted_waits {i : Instr} {s : State} {p : Phase} {k : Scratch} {bs : List Byte} {room : Nat}
    (he : exec i s = State.run { s.accept p with scratch := k }) (hs : State.Sends { s.accept p with scratch := k } bs)
    (hr : s.outRoom = some room) (hlt : room < bs.length) (hk : room ≤ settleFuel) :
    ∃ t, exec i s = .next t ∧ s.WaitsAfter t (bs.take room) := by
  obtain ⟨p', c, k', hunits, hnone⟩ := hs.units hlt (w := State.world { s.accept p with scratch := k }) hr rfl
  rw [inside_world] at hunits
  exact ⟨_, he.trans (run_of_units hunits hk hnone), hnone, rfl, rfl, rfl, rfl, rfl, rfl, rfl,
    rfl, rfl, rfl, rfl, rfl, rfl, rfl, rfl, rfl⟩

theorem exec_value_waits {i : Instr} {s : State} {off : U32} {bs : List Byte} {room : Nat}
    (he : exec i s = s.encodeTo true off bs) (hr : s.outRoom = some room) (hlt : room < bs.length) (hlen : bs.length ≤ 8) :
    ∃ t, exec i s = .next t ∧ s.WaitsAfter t (bs.take room) := by
  have hne : bs ≠ [] := List.ne_nil_of_length_pos (by omega)
  exact accepted_waits (he.trans rfl) (value_sends s hne hlen) hr hlt (by rw [settleFuel]; omega)

theorem exec_vuEnc_stream {s : State} (hb : s.busy = false) (le : Bool) (off : U32) {a : U64} (ha : a.toNat ≤ vuMax) :
    exec (.vuEnc le true off a) s = s.encodeTo true off (vuEnc (a.setWidth 29) le) := by
  obtain ⟨n, hn⟩ := Option.isSome_iff_exists.1 ((vuSize_isSome _).2 ha)
  refine (whenFree_free hb _).trans ?_
  rw [hn]

theorem exec_vsEnc_stream {s : State} (hb : s.busy = false) {le : Bool} (off : U32) {a : U64} {bs : List Byte}
    (h : vsEnc le a = some bs) : exec (.vsEnc le true false off a) s = s.encodeTo true off bs := by
  refine (whenFree_free hb _).trans ?_
  rw [if_neg (by simp), h]

theorem exec_recEnc_start {s : State} (hb : s.busy = false) (le rev enh : Bool) {a : U64} {k : CrcKind} (ha : a.toNat ≤ vuMax)
    (hk : crcKind ((header le (a.setWidth 29) s.plen.toNat).length + s.plen.toNat) enh = some k) :
    exec (.recEnc le rev enh a) s = (s.beginEncode le rev enh (a.setWidth 29) k).run := by
  refine (whenFree_free hb _).trans ?_
  rw [if_neg (by omega)]
  dsimp only
  rw [header, List.length_append,
    show BitVec.ofNat 29 s.plen.toNat = s.plen.setWidth 29 from BitVec.eq_of_toNat_eq (by simp)] at hk
  rw [hk]

/-- Settles O50: the encode puts the bytes of its output one by one while the host takes them, and given more room its run goes
on from the state it waited in. -/
theorem encodeWaits : Obligations.EncodeWaits := by
  refine ⟨fun i bs room s hb hr hlt hi => ?_, fun i room more s h hrst hb hi => resumes_moreRoom h hrst hb hi room more⟩
  obtain ⟨le, off, a, rfl, ha, rfl⟩ | ⟨le, off, a, rfl, ha⟩ | ⟨le, off, a, rfl, rfl⟩ |
    ⟨le, rev, enh, a, k, rfl, ha, hk, rfl⟩ := hi
  · exact exec_value_waits (exec_vuEnc_stream hb le off ha) hr hlt ((vuEnc_length_bounds _ _).2.trans (by norm_num))
  · exact exec_value_waits (exec_vsEnc_stream hb off ha) hr hlt (vsEnc_length_le ha)
  · exact exec_value_waits (off := off) (whenFree_free hb _) hr hlt (by simp)
  · have hd := crcKind_some_lt hk
    have hlen := recordWire_length_le le rev enh (a.setWidth 29) (s.pb.readList 0 s.plen.toNat) k
    rw [Mem.length_readList] at hlen
    exact accepted_waits (exec_recEnc_start hb le rev enh ha hk)
      (beginEncode_sends s le rev enh (a.setWidth 29) k (by rw [show Config.pbBytes = 1048576 from rfl]; omega)) hr hlt
      (by rw [settleFuel]; omega)

end Sys2Proof.Machine
end

section
/-! A record cut short (20_memory.md R57, 43_record_framer.md R160, R170). -/

namespace Sys2Proof.Machine

open Sys2Proof

/-! ## Records that are still to be taken -/

/-- The state at another place in the command. -/
def State.at (s : State) (p : Phase) (c : U32) (k : Scratch) : State := { s with ph := p, cur := c, scratch := k }

/-- The state with other bytes presented on IN, and another number of them taken. -/
def State.onIn (s : State) (q : List Byte) (n : U32) : State := { s with inQ := q, cons := n }

/-- The phases of a record decode that take from IN. -/
def Phase.takesRecord (p : Phase) : Bool := p.takes && p ≠ .vIn

/-- What a byte of a record changes before the last one: the place in the command, and PB in a forward decode (`fwd`), RB in a
reverse one. -/
def State.Within (fwd : Bool) (s t : State) : Prop :=
  ∃ p c k m r, t = { s with ph := p, cur := c, scratch := k, pb := m, rb := r } ∧ (m = s.pb ∨ fwd = true) ∧
    (r = s.rb ∨ fwd = false)

theorem within_at (fwd : Bool) (s : State) (p p' : Phase) (c c' : U32) (k k' : Scratch) :
    (s.at p c k).Within fwd (s.at p' c' k') :=
  ⟨_, _, _, _, _, rfl, .inl rfl, .inl rfl⟩

/-- The codec takes all of the bytes before its decode can end, and goes on after each but the last, whatever stands on IN. -/
inductive State.Expects (fwd : Bool) : State → List Byte → Prop where
  | last {s : State} {b : Byte} (hp : s.ph.takesRecord = true) : s.Expects fwd [b]
  | more {s t : State} {b : Byte} {w : List Byte} (hp : s.ph.takesRecord = true)
      (h : ∀ q n, (s.onIn q n).handleByte b = .next (t.onIn q n)) (hw : s.Within fwd t) (ht : State.Expects fwd t w) :
      s.Expects fwd (b :: w)

/-- The state a truncated decode ends in (60_exceptions.md R193, 43_record_framer.md R164). -/
def State.truncated (s : State) (m r : Mem) (n : Nat) : State :=
  ({ s.emptied with inQ := [], pb := m, rb := r } : State).failed .truncatedRead n

theorem unit_truncated {s : State} (hp : s.ph.takesRecord = true) (he : s.inEos = true) (n : U32) :
    (s.onIn [] n).unit = some (.next (s.truncated s.pb s.rb n.toNat)) := by
  obtain ⟨ht, hv⟩ : s.ph.takes = true ∧ s.ph ≠ .vIn := by simpa [Phase.takesRecord] using hp
  rw [unit_eos (s := s.onIn [] n) ht rfl he, raise_of_takes (s := s.onIn [] n) ht,
    if_neg (show (s.onIn [] n).ph ≠ .vIn from hv)]
  rfl

/-- Fewer bytes than the codec expects, and then end of stream: TruncatedRead, with every byte taken. -/
theorem State.Expects.units {fwd : Bool} {s : State} {w : List Byte} (h : s.Expects fwd w) {n : Nat} (hn : n < w.length)
    (he : s.inEos = true) (c : U32) :
    ∃ m r, (m = s.pb ∨ fwd = true) ∧ (r = s.rb ∨ fwd = false) ∧
      Units (n + 1) (s.onIn (w.take n) c) (s.truncated m r (c + BitVec.ofNat 32 n).toNat) := by
  induction h generalizing n c with
  | last hp =>
    obtain rfl : n = 0 := by simpa using hn
    exact ⟨_, _, .inl rfl, .inl rfl, .head (unit_truncated hp he _) (by simpa using .refl _)⟩
  | @more s t b w hp h hw _ ih =>
    obtain ⟨p, c', k, m, r, rfl, hm, hr⟩ := hw
    cases n with
    | zero => exact ⟨_, _, .inl rfl, .inl rfl, .head (unit_truncated hp he _) (by simpa using .refl _)⟩
    | succ n =>
      obtain ⟨m', r', hm', hr', hu⟩ := ih (n := n) (by simpa using hn) he (c + 1)
      have ht : (s.onIn (b :: w.take n) c).ph.takes = true := by
        simp only [Phase.takesRecord, Bool.and_eq_true] at hp
        exact hp.1
      refine ⟨m', r', ?_, ?_, ?_⟩
      · exact hm'.elim (fun h' => hm.imp_left h'.trans) .inr
      · exact hr'.elim (fun h' => hr.imp_left h'.trans) .inr
      · rw [show c + BitVec.ofNat 32 (n + 1) = c + 1 + BitVec.ofNat 32 n by
          rw [BitVec.add_assoc, Nat.add_comm n 1, BitVec.ofNat_add]; rfl]
        exact .head ((unit_take ht rfl).trans (congrArg some (h _ _))) hu

/-! ## The fields of a record -/

section
variable {fwd : Bool} {s : State} {k : Scratch} {c : U32} {w : List Byte}

/-- A byte that changes no buffer. -/
theorem expects_cons {p p' : Phase} {c' : U32} {k' : Scratch} {b : Byte} (hp : p.takesRecord = true)
    (h : ∀ q n, ((s.at p c k).onIn q n).handleByte b = .next ((s.at p' c' k').onIn q n)) (ht : (s.at p' c' k').Expects fwd w) :
    (s.at p c k).Expects fwd (b :: w) :=
  .more hp h (within_at ..) ht

/-- The head sync byte of a forward decode (43_record_framer.md R160). -/
theorem expects_head {le rev enh : Bool}
    (H : (s.at .fId 0 { k with le := le, rev := rev, enh := enh, acc := 0, raw := [] }).Expects fwd w) :
    (s.at .fSync c k).Expects fwd (headByte le rev enh :: w) := by
  have hparse : parseHead (headByte le rev enh) = some (le, rev, enh) := by
    clear H
    revert le rev enh
    decide
  refine expects_cons rfl (fun q n => ?_) H
  rw [handleByte_sync _ rfl, hparse]
  rfl

/-- The tail sync byte of a reverse decode (R170). -/
theorem expects_tail {le enh : Bool}
    (H : (s.at .rRlen 0 { k with le := le, rev := true, enh := enh, acc := 0, raw := [] }).Expects fwd w) :
    (s.at .rTail c k).Expects fwd (tailByte le enh :: w) := by
  have hparse : parseHead (tailByte le enh) = none ∧ parseTail (tailByte le enh) = some (le, enh) := by
    clear H
    revert le enh
    decide
  refine expects_cons rfl (fun q n => ?_) H
  rw [handleByte_sync _ rfl, hparse.1, hparse.2]
  rfl

/-- A VarUInt that is read to its end, where `H` says what the codec goes on with (40_varuint.md R105). -/
theorem expects_vu {p : Phase} (hp : p = .fId ∨ p = .fLen ∨ p = .rRlen) {bs : List Byte} {v : U29}
    (hd : vuDecFrom k.le c.toNat k.acc bs = some (v, c.toNat + bs.length))
    (H : ∀ c a r m, ∃ p' k', (∀ q n, ((s.at p c { k with acc := a, raw := r }).onIn q n).vuDone v m (k.raw ++ bs) =
      .next ((s.at p' 0 k').onIn q n)) ∧ (s.at p' 0 k').Expects fwd w) : (s.at p c k).Expects fwd (bs ++ w) := by
  have htakes : p.takesRecord = true := by obtain rfl | rfl | rfl := hp <;> rfl
  induction bs generalizing c k with
  | nil => cases hd
  | cons b bs ih =>
    have hslot : ∀ q n, ((s.at p c k).onIn q n).slot = some (vuSlot c) := by
      obtain rfl | rfl | rfl := hp <;> exact fun _ _ => rfl
    have last {x : U29} {m : Nat} (hx : x = v) (hbs : bs = [])
        (h : ∀ q n, ((s.at p c k).onIn q n).handleByte b = ((s.at p c k).onIn q n).vuDone x m (k.raw ++ [b])) :
        (s.at p c k).Expects fwd (b :: bs ++ w) := by
      subst hx hbs
      obtain ⟨p', k', hv, ht⟩ := H c k.acc k.raw m
      exact expects_cons htakes (fun q n => (h q n).trans (hv q n)) ht
    simp only [vuDecFrom, List.length_cons] at hd
    split_ifs at hd with h3 h7
    · have hcur : (c + 1).toNat = c.toNat + 1 := toNat_add_one (by omega)
      refine expects_cons htakes (fun q n => (handleByte_vu b (hslot q n)).trans ?_) (ih (c := c + 1)
        (k := { k with acc := vuJoin k.le k.acc c.toNat (b.extractLsb' 0 7), raw := k.raw ++ [b] })
        (by rw [hcur]; simpa [Nat.add_assoc, Nat.add_comm 1] using hd) fun c a r m => ?_)
      · exact (if_pos h3).trans (if_pos h7)
      · obtain ⟨p', k', hv, ht⟩ := H c a r m
        refine ⟨p', k', fun q n => ?_, ht⟩
        rw [List.append_assoc]
        exact hv q n
    · obtain ⟨hx, hn⟩ := Prod.mk.inj (Option.some.inj hd)
      exact last (m := c.toNat + 1) hx (List.length_eq_zero_iff.1 (by omega)) fun q n =>
        (handleByte_vu b (hslot q n)).trans ((if_pos h3).trans (if_neg h7))
    · obtain ⟨hx, hn⟩ := Prod.mk.inj (Option.some.inj hd)
      exact last (m := 4) hx (List.length_eq_zero_iff.1 (by omega)) fun q n => (handleByte_vu b (hslot q n)).trans (if_neg h3)

/-- A VarUInt of the record, from its first byte. -/
theorem expects_vuEnc {p : Phase} (hp : p = .fId ∨ p = .fLen ∨ p = .rRlen) {v : U29} (hacc : k.acc = 0) (hraw : k.raw = [])
    (H : ∀ c a r m, ∃ p' k', (∀ q n, ((s.at p c { k with acc := a, raw := r }).onIn q n).vuDone v m (vuEnc v k.le) =
      .next ((s.at p' 0 k').onIn q n)) ∧ (s.at p' 0 k').Expects fwd w) : (s.at p 0 k).Expects fwd (vuEnc v k.le ++ w) := by
  refine expects_vu hp ?_ (by simpa [hraw] using H)
  simpa [vuDec, hacc] using vuDec_vuEnc v k.le []

theorem expects_id {id : U29} (hacc : k.acc = 0) (hraw : k.raw = [])
    (H : (s.at .fLen 0 { k with id := id, rawId := vuEnc id k.le }).Expects fwd w) :
    (s.at .fId 0 k).Expects fwd (vuEnc id k.le ++ w) := by
  refine expects_vuEnc (.inl rfl) hacc hraw fun c a r m => ⟨.fLen, _, fun q n => ?_, H⟩
  show Host.Outcome.next _ = Host.Outcome.next (State.onIn (s.at .fLen 0 { k with id := id, rawId := vuEnc id k.le }) q n)
  rw [hacc, hraw]
  rfl

/-- The payload-length handler where it refuses nothing, in a forward decode (43_record_framer.md R162). -/
theorem lengthHandler_goes {u : State} {x : CrcKind} (hp : u.ph = .fLen)
    (hk : crcKind u.scratch.dataLen u.scratch.enh = some x) (hd : u.scratch.dlen.toNat ≤ Config.pbBytes) :
    u.lengthHandler = u.at (if u.scratch.dlen = 0 then .fCrc else .fPay) 0 (u.scratch.crcBegin x).crcHeader := by
  unfold State.lengthHandler
  rw [hk]
  dsimp only
  rw [if_neg (by omega), if_neg (by simp [hp]), if_neg (by simp [hp])]
  rfl

theorem expects_len {v : U29} {x : CrcKind} (hacc : k.acc = 0) (hraw : k.raw = [])
    (hk : crcKind (k.rawId.length + (vuEnc v k.le).length + v.toNat) k.enh = some x) (hd : v.toNat ≤ Config.pbBytes)
    (H : ∀ a r, (s.at (if v = 0 then .fCrc else .fPay) 0
      (({ k with acc := a, raw := r, dlen := v, rawLen := vuEnc v k.le } : Scratch).crcBegin x).crcHeader).Expects fwd w) :
    (s.at .fLen 0 k).Expects fwd (vuEnc v k.le ++ w) := by
  refine expects_vuEnc (.inr (.inl rfl)) hacc hraw fun c a r m => ⟨_, _, fun q n => ?_, H a r⟩
  exact congrArg Host.Outcome.next (lengthHandler_goes (u := State.onIn (s.at .fLen c
    { k with acc := a, raw := r, dlen := v, rawLen := vuEnc v k.le }) q n) rfl hk hd)

/-- The trailing length of a reverse decode, where it is not above what RB holds (R170). -/
theorem expects_rlen {v : U29} (hacc : k.acc = 0) (hraw : k.raw = []) (hv : v.toNat + 1 ≤ Config.rbBytes)
    (H : ∀ a r, (s.at .rFill 0 { k with acc := a, raw := r, tlen := v }).Expects fwd w) :
    (s.at .rRlen 0 k).Expects fwd (vuEnc v k.le ++ w) := by
  refine expects_vuEnc (.inr (.inr rfl)) hacc hraw fun c a r m => ⟨_, _, fun q n => ?_, H a r⟩
  exact congrArg Host.Outcome.next (if_neg (by omega))

/-- A payload byte in a forward decode, and the place after it (43_record_framer.md R160 F_PAY). -/
theorem expects_payByte {p : Phase} {c' : U32} {b : Byte} (hc : c.toNat < Config.pbBytes)
    (h : (k.dlen.toNat ≤ c.toNat + 1 ∧ p = .fCrc ∧ c' = 0) ∨ (c.toNat + 1 < k.dlen.toNat ∧ p = .fPay ∧ c' = c + 1))
    (H : (State.at { s with pb := s.pb.write c.toNat b } p c' (k.feed b)).Expects true w) :
    (s.at .fPay c k).Expects true (b :: w) := by
  refine .more rfl (fun q n => (handleByte_data b rfl).trans ((if_neg (show ¬Config.pbBytes ≤ c.toNat by omega)).trans ?_))
    ⟨_, _, _, _, s.rb, rfl, .inr rfl, .inl rfl⟩ H
  obtain ⟨hd, rfl, rfl⟩ | ⟨hd, rfl, rfl⟩ := h
  · exact congrArg Host.Outcome.next (if_pos hd)
  · exact congrArg Host.Outcome.next (if_neg (show ¬k.dlen.toNat ≤ c.toNat + 1 by omega))

/-- The payload of a forward decode. -/
theorem expects_payload {pay : List Byte} (hne : pay ≠ []) (hlen : c.toNat + pay.length = k.dlen.toNat)
    (hd : k.dlen.toNat ≤ Config.pbBytes)
    (H : ∀ m, (State.at { s with pb := m } .fCrc 0 (k.feedAll pay)).Expects true w) :
    (s.at .fPay c k).Expects true (pay ++ w) := by
  induction pay generalizing s c k with
  | nil => exact absurd rfl hne
  | cons b pay ih =>
    have hpb : Config.pbBytes = 1048576 := rfl
    cases pay with
    | nil =>
      simp only [List.length_cons, List.length_nil] at hlen
      exact expects_payByte (by omega) (.inl ⟨by omega, rfl, rfl⟩) (H _)
    | cons b' pay =>
      simp only [List.length_cons] at hlen ih
      have hcur : (c + 1).toNat = c.toNat + 1 := toNat_add_one (by omega)
      refine expects_payByte (by omega) (.inr ⟨by omega, rfl, rfl⟩) (ih (by simp) ?_ hd H)
      rw [hcur, show (k.feed b).dlen = k.dlen from rfl]
      omega

/-- The CRC bytes of a forward decode; the trailing length follows in a reverse-readable record (R163). -/
theorem expects_crc {bs : List Byte} (hne : bs ≠ []) (hgot : k.got ++ bs = k.crcField) (hlen : c.toNat + bs.length = k.crc.len)
    (hw : k.rev = false → w = []) (H : k.rev = true → (s.at .fRlen 0 { k with got := k.crcField }).Expects fwd w) :
    (s.at .fCrc c k).Expects fwd (bs ++ w) := by
  induction bs generalizing c k with
  | nil => exact absurd rfl hne
  | cons b bs ih =>
    have hle := k.crc.len_le
    cases bs with
    | nil =>
      cases hrev : k.rev with
      | false => rw [hw hrev]; exact .last rfl
      | true =>
        refine expects_cons rfl (fun q n => (handleByte_data b rfl).trans (congrArg Host.Outcome.next ?_)) (H hrev)
        simp only [List.length_cons, List.length_nil] at hlen
        rw [← hgot]
        refine (if_pos (show k.crc.len ≤ c.toNat + 1 by omega)).trans ((if_neg (not_not_intro hgot)).trans ?_)
        exact if_pos ⟨rfl, hrev⟩
    | cons b' bs =>
      simp only [List.length_cons] at hlen ih
      have hcur : (c + 1).toNat = c.toNat + 1 := toNat_add_one (by omega)
      refine expects_cons rfl (fun q n => (handleByte_data b rfl).trans (congrArg Host.Outcome.next ?_))
        (ih (k := { k with got := k.got ++ [b] }) (by simp) ((List.append_assoc ..).trans hgot)
          (by rw [hcur]; simp only; omega) hw H)
      exact if_neg (show ¬k.crc.len ≤ c.toNat + 1 by omega)

/-- The trailing length of a forward decode (R163). -/
theorem expects_rlenBytes {bs : List Byte} (hne : bs ≠ []) (hgot : k.gotLen ++ bs = k.trailerLen)
    (hlen : c.toNat + bs.length = k.trailerLen.length)
    (H : (s.at .fTail 0 { k with gotLen := k.trailerLen }).Expects fwd w) : (s.at .fRlen c k).Expects fwd (bs ++ w) := by
  induction bs generalizing c k with
  | nil => exact absurd rfl hne
  | cons b bs ih =>
    have hle := trailerLen_length_le k
    cases bs with
    | nil =>
      refine expects_cons rfl (fun q n => (handleByte_data b rfl).trans (congrArg Host.Outcome.next ?_)) H
      simp only [List.length_cons, List.length_nil] at hlen
      rw [← hgot]
      exact (if_pos (show k.trailerLen.length ≤ c.toNat + 1 by omega)).trans (if_neg (not_not_intro hgot))
    | cons b' bs =>
      simp only [List.length_cons] at hlen ih
      have hcur : (c + 1).toNat = c.toNat + 1 := toNat_add_one (by omega)
      refine expects_cons rfl (fun q n => (handleByte_data b rfl).trans (congrArg Host.Outcome.next ?_))
        (ih (c := c + 1) (k := { k with gotLen := k.gotLen ++ [b] }) (by simp) ((List.append_assoc ..).trans hgot) ?_ H)
      · exact if_neg (show ¬k.trailerLen.length ≤ c.toNat + 1 by omega)
      · rw [hcur]
        exact (show c.toNat + 1 + (bs.length + 1) = k.trailerLen.length by omega)

/-- The bytes that a reverse decode stages (R171). -/
theorem expects_fill {bs : List Byte} (hne : bs ≠ []) (hlen : c.toNat + bs.length = k.tlen.toNat + 1)
    (hk : k.tlen.toNat < Config.rbBytes) : (s.at .rFill c k).Expects false bs := by
  induction bs generalizing s c with
  | nil => exact absurd rfl hne
  | cons b bs ih =>
    cases bs with
    | nil => exact .last rfl
    | cons b' bs =>
      simp only [List.length_cons] at hlen ih
      have hcur : (c + 1).toNat = c.toNat + 1 := toNat_add_one (by omega)
      refine .more rfl (fun q n => (handleByte_data b rfl).trans ?_) ⟨_, _, _, s.pb, _, rfl, .inl rfl, .inr rfl⟩
        (ih (s := { s with rb := s.rb.write (k.tlen.toNat - c.toNat) b }) (by simp) (by rw [hcur]; omega))
      refine (if_neg (show ¬Config.rbBytes ≤ k.tlen.toNat - c.toNat by omega)).trans (congrArg Host.Outcome.next ?_)
      exact if_neg (show ¬k.tlen.toNat ≤ c.toNat by omega)

/-- The CRC and what follows it, in a forward decode. -/
theorem expects_crcTail (hgot : k.got = []) (hgotLen : k.gotLen = []) :
    (s.at .fCrc 0 k).Expects fwd (k.crcField ++ recordTail k.le k.rev k.enh k.totalLen) := by
  have hlen : k.crcField.length = k.crc.len := crcField_length k
  refine expects_crc (fun h => ?_) (by rw [hgot, List.nil_append]) (by rw [hlen]; simp) (fun hrev => by simp [recordTail, hrev])
    fun hrev => ?_
  · rw [h] at hlen
    cases hc : k.crc <;> simp [hc, CrcKind.len] at hlen
  · rw [recordTail, if_pos hrev]
    exact expects_rlenBytes (bs := k.trailerLen) (by simp [Scratch.trailerLen, vuEnc_ne_nil]) (by rw [hgotLen]; rfl)
      (Nat.zero_add _) (.last rfl)

/-- The payload and what follows it, in a forward decode. -/
theorem expects_body {pay : List Byte} (hgot : k.got = []) (hgotLen : k.gotLen = []) (hlen : k.dlen.toNat = pay.length)
    (hd : pay.length ≤ Config.pbBytes) :
    (s.at (if k.dlen = 0 then .fCrc else .fPay) 0 k).Expects true
      (pay ++ ((k.feedAll pay).crcField ++ recordTail k.le k.rev k.enh k.totalLen)) := by
  have after : ∀ u : State, (u.at .fCrc 0 (k.feedAll pay)).Expects true
      ((k.feedAll pay).crcField ++ recordTail k.le k.rev k.enh k.totalLen) := fun u => by
    have h := expects_crcTail (fwd := true) (s := u) (k := k.feedAll pay) (by simp [hgot]) (by simp [hgotLen])
    simpa [Scratch.totalLen, Scratch.dataLen] using h
  split_ifs with h0
  · obtain rfl : pay = [] := List.length_eq_zero_iff.1 (by rw [← hlen, h0]; rfl)
    exact after s
  · refine expects_payload (fun h => h0 (BitVec.eq_of_toNat_eq ?_)) (by simp [hlen]) (by rwa [hlen]) fun m => after _
    simp [hlen, h]

end

/-! ## Whole records -/

section
variable {le rev enh : Bool} {id : U29} {pay : List Byte} {x : CrcKind}

/-- A record of the encoder, as a forward decode takes it (43_record_framer.md R160). -/
theorem expects_forward (s : State) (c : U32) (k : Scratch)
    (hx : crcKind ((header le id pay.length).length + pay.length) enh = some x) :
    (s.at .fSync c k).Expects true (recordWire le rev enh id pay x) := by
  have hpb : Config.pbBytes = 1048576 := rfl
  have hlt := crcKind_some_lt hx
  have hv : (BitVec.ofNat 29 pay.length).toNat = pay.length := by simp; omega
  rw [recordWire_eq]
  rw [header, List.length_append] at hx
  refine expects_head (expects_id rfl rfl (expects_len rfl rfl (by rw [hv]; exact hx) (by omega) fun a r => ?_))
  have h := expects_body (s := s) (pay := pay) (k := Scratch.crcHeader (Scratch.crcBegin
    { k with le := le, rev := rev, enh := enh, id := id, rawId := vuEnc id le, acc := a, raw := r
             dlen := BitVec.ofNat 29 pay.length, rawLen := vuEnc (BitVec.ofNat 29 pay.length) le } x))
    (by rw [crcHeader_eq, Scratch.feedAll_got]; rfl) (by rw [crcHeader_eq, Scratch.feedAll_gotLen]; rfl)
    (by rw [crcHeader_dlen]; exact hv) (by omega)
  rw [crcHeader_eq, crcField_feedAll] at h
  rw [crcHeader_eq]
  simpa [Scratch.totalLen, Scratch.dataLen, header, Nat.mod_eq_of_lt (show pay.length < 536870912 by omega)] using h

/-- A reverse-readable record from its end (30_encoding.md R80). -/
theorem recordWire_reverse : (recordWire le true enh id pay x).reverse =
    tailByte le enh :: (vuEnc (BitVec.ofNat 29 ((header le id pay.length).length + pay.length + x.len)) le ++
      (headByte le true enh :: (header le id pay.length ++ pay ++ crcBytes (header le id pay.length) pay x le)).reverse) := by
  simp [recordWire, header]

/-- A reverse-readable record of the encoder, as a reverse decode takes it (R170, R171). -/
theorem expects_reverse (s : State) (c : U32) (k : Scratch)
    (hx : crcKind ((header le id pay.length).length + pay.length) enh = some x) :
    (s.at .rTail c k).Expects false (recordWire le true enh id pay x).reverse := by
  have hrb : Config.rbBytes = 1048592 := rfl
  have hlt := crcKind_some_lt hx
  have hlen := x.len_le
  have hv : (BitVec.ofNat 29 ((header le id pay.length).length + pay.length + x.len)).toNat =
      (header le id pay.length).length + pay.length + x.len := by
    simp only [BitVec.toNat_ofNat]
    omega
  rw [recordWire_reverse]
  refine expects_tail (expects_rlen rfl rfl (by omega) fun a r => expects_fill (by simp) ?_ (by simp only; omega))
  simp only [hv, List.length_reverse, List.length_cons, List.length_append, crcBytes_length,
    show (0 : U32).toNat = 0 from rfl]
  omega

/-- A record decode that runs out of bytes at end of stream. -/
theorem decode_truncated {fwd : Bool} {s : State} {p : Phase} {w : List Byte} {n : Nat} (hp : p.sending = false)
    (h : State.Expects fwd ((s.accept p).clearRecord) w) (hn : n < w.length) (he : s.inEos = true) (hq : s.inQ = w.take n) :
    ∃ m r, (m = s.pb ∨ fwd = true) ∧ (r = s.rb ∨ fwd = false) ∧
      ((s.accept p).clearRecord).run = .next (s.truncated m r n) := by
  obtain ⟨m, r, hm, hr, hu⟩ := h.units hn he 0
  refine ⟨m, r, hm, hr, ?_⟩
  have ht : (s.accept p).clearRecord.onIn (w.take n) 0 = (s.accept p).clearRecord := by rw [← hq]; rfl
  rw [ht] at hu
  refine (run_of_reading_units hu hp (unit_idle rfl)).trans (congrArg Host.Outcome.next ?_)
  have hcount : BitVec.ofNat 32 (0 + BitVec.ofNat 32 n : U32).toNat = BitVec.ofNat 32 n := by
    rw [BitVec.ofNat_toNat, BitVec.setWidth_eq]
    exact BitVec.zero_add _
  rw [State.truncated, State.failed, State.ended, hcount]
  rfl

/-- Settles O40: the codec takes every byte of a record before its decode can end, so it meets the end of stream first. -/
theorem truncatedRecord : Obligations.TruncatedRecord := by
  intro le rev enh id pay k s n hb he hk hn
  constructor
  · intro hq
    obtain ⟨m, r, -, hr, hrun⟩ := decode_truncated (p := .fSync) rfl
      (expects_forward (rev := rev) (s.accept .fSync).clearRecord 0 Scratch.init hk) hn he hq
    obtain rfl : r = s.rb := by simpa using hr
    exact ⟨m, (whenFree_free hb _).trans hrun⟩
  · rintro rfl hq
    obtain ⟨m, r, hm, -, hrun⟩ := decode_truncated (p := .rTail) rfl
      (expects_reverse (s.accept .rTail).clearRecord 0 Scratch.init hk) (by simpa using hn) he hq
    obtain rfl : m = s.pb := by simpa using hm
    exact ⟨r, (whenFree_free hb _).trans hrun⟩

end

end Sys2Proof.Machine
end

section
/-! Decoding and encoding (30_encoding.md): the decoder of command words is the table of R82, read at the row that the control
byte fits, and what it reads from an encoding is the instruction encoded. -/

namespace Sys2Proof.Machine

open Sys2Proof

/-! ## The row of a control byte -/

/-- The place of the first row of 30_encoding.md R82 that a control byte fits; 11, the number of rows, where it fits none. -/
def rowIndex (c : Byte) : Nat := commandRows.findIdx fun r => c &&& r.2.2 = r.2.1

/-- What a word spells by a row of R82: the row's command with the word's fields. -/
def rowCommand (w : CmdWord) : Nat → Except Reject Instr
  | 0 => .ok .nop
  | 1 => .ok (.vuEnc (CmdWord.le w) (CmdWord.strm w) (CmdWord.off w) (CmdWord.operand w))
  | 2 => .ok (.vuDec (CmdWord.le w) (CmdWord.strm w) (CmdWord.off w))
  | 3 => .ok (.vsEnc (CmdWord.le w) (CmdWord.strm w) (CmdWord.m0 w) (CmdWord.off w) (CmdWord.operand w))
  | 4 => .ok (.vsDec (CmdWord.le w) (CmdWord.strm w) (CmdWord.off w))
  | 5 => .ok (.pbPut (CmdWord.off w) ((CmdWord.operand w).extractLsb' 0 8))
  | 6 => .ok (.pbGet (CmdWord.off w))
  | 7 => .ok .pbClr
  | 8 => .ok (.recEnc (CmdWord.le w) (CmdWord.m0 w) (CmdWord.m1 w) (CmdWord.operand w))
  | 9 => .ok .recDecf
  | 10 => .ok .recDecr
  | _ => .error .illegalCommand

/-- The row of R82 a decoded command belongs to. -/
def rowOf : Except Reject Instr → Nat
  | .ok .nop => 0
  | .ok (.vuEnc ..) => 1
  | .ok (.vuDec ..) => 2
  | .ok (.vsEnc ..) => 3
  | .ok (.vsDec ..) => 4
  | .ok (.pbPut ..) => 5
  | .ok (.pbGet ..) => 6
  | .ok .pbClr => 7
  | .ok (.recEnc ..) => 8
  | .ok .recDecf => 9
  | .ok .recDecr => 10
  | _ => 11

theorem rowOf_rowCommand (w : CmdWord) {k : Nat} (hk : k ≤ 11) : rowOf (rowCommand w k) = k := by
  interval_cases k <;> rfl

theorem rowIndex_le (c : Byte) : rowIndex c ≤ 11 := List.findIdx_le_length

/-- The rows of R82 are disjoint: the first row that fits is the only one. -/
theorem rowIndex_eq_iff (k : Fin 11) (c : Byte) :
    rowIndex c = k ↔ c &&& (commandRows[k]'k.isLt).2.2 = (commandRows[k]'k.isLt).2.1 := by
  revert k c
  decide +kernel

/-- The decoder reads the table of R82. -/
theorem decodeCommand_eq (w : CmdWord) : decodeCommand w = rowCommand w (rowIndex (CmdWord.ctl w)) := by
  have fits (k : Fin 11) (h : CmdWord.ctl w &&& (commandRows[k]'k.isLt).2.2 = (commandRows[k]'k.isLt).2.1) :
      rowCommand w k = rowCommand w (rowIndex (CmdWord.ctl w)) := by
    rw [(rowIndex_eq_iff k _).2 h]
  have fitsNone (h : ∀ r ∈ commandRows, decide (CmdWord.ctl w &&& r.2.2 = r.2.1) = false) :
      .error .illegalCommand = rowCommand w (rowIndex (CmdWord.ctl w)) := by
    rw [rowIndex, List.findIdx_eq_length.2 h]
    rfl
  refine ite_eq_iff'.2 ⟨fits 0, fun h0 => ite_eq_iff'.2 ⟨fits 1, fun h1 => ite_eq_iff'.2 ⟨fits 2, fun h2 =>
    ite_eq_iff'.2 ⟨fits 3, fun h3 => ite_eq_iff'.2 ⟨fits 4, fun h4 => ite_eq_iff'.2 ⟨fits 5, fun h5 =>
    ite_eq_iff'.2 ⟨fits 6, fun h6 => ite_eq_iff'.2 ⟨fits 7, fun h7 => ite_eq_iff'.2 ⟨fits 8, fun h8 =>
    ite_eq_iff'.2 ⟨fits 9, fun h9 => ite_eq_iff'.2 ⟨fits 10, fun h10 => fitsNone ?_⟩⟩⟩⟩⟩⟩⟩⟩⟩⟩⟩
  simp only [commandRows, List.forall_mem_cons, decide_eq_false_iff_not]
  exact ⟨h0, h1, h2, h3, h4, h5, h6, h7, h8, h9, h10, by simp⟩

/-- A word spells the command of a row, or no command, exactly where its control byte stands at that row, or at none. -/
theorem decodeCommand_eq_iff (w : CmdWord) {k : Nat} (hk : k ≤ 11) :
    decodeCommand w = rowCommand w k ↔ rowIndex (CmdWord.ctl w) = k := by
  rw [decodeCommand_eq]
  refine ⟨fun h => ?_, fun h => by rw [h]⟩
  simpa only [rowOf_rowCommand w (rowIndex_le _), rowOf_rowCommand w hk] using congrArg rowOf h

theorem decodeCommand_iff_fits (w : CmdWord) (k : Fin 11) :
    decodeCommand w = rowCommand w k ↔
      CmdWord.ctl w &&& (commandRows[k]'k.isLt).2.2 = (commandRows[k]'k.isLt).2.1 :=
  (decodeCommand_eq_iff w (by omega)).trans (rowIndex_eq_iff k _)

/-! ## The fields of the control byte -/

theorem le_eq_ctl (w : CmdWord) : CmdWord.le w = (CmdWord.ctl w).getLsbD 4 := by simp [CmdWord.le, CmdWord.ctl]
theorem strm_eq_ctl (w : CmdWord) : CmdWord.strm w = (CmdWord.ctl w).getLsbD 5 := by simp [CmdWord.strm, CmdWord.ctl]
theorem m0_eq_ctl (w : CmdWord) : CmdWord.m0 w = (CmdWord.ctl w).getLsbD 6 := by simp [CmdWord.m0, CmdWord.ctl]
theorem m1_eq_ctl (w : CmdWord) : CmdWord.m1 w = (CmdWord.ctl w).getLsbD 7 := by simp [CmdWord.m1, CmdWord.ctl]

/-- Whether a word is illegal is a matter of its control byte (R83). -/
theorem illegalControl_ctl (w : CmdWord) : IllegalControl w ↔ IllegalControl ((CmdWord.ctl w).setWidth 104) := by
  have hop : w.extractLsb' 0 4 = ((CmdWord.ctl w).setWidth 104).extractLsb' 0 4 := by
    ext i hi
    simp [CmdWord.ctl, show i < 8 by omega, show i < 104 by omega]
  unfold IllegalControl
  rw [hop]
  simp [CmdWord.ctl]

/-- The control bytes that fit no row are those R83 lists. -/
theorem rowIndex_eq_none_iff (c : Byte) : rowIndex c = 11 ↔ IllegalControl (c.setWidth 104) := by
  unfold IllegalControl
  revert c
  decide +kernel

theorem decodeCommand_illegal_iff (w : CmdWord) : decodeCommand w = .error .illegalCommand ↔ IllegalControl w :=
  (decodeCommand_eq_iff w le_rfl).trans ((rowIndex_eq_none_iff _).trans (illegalControl_ctl w).symm)

/-- Settles O10: each clause is a row of the table, and the last one says which control bytes fit none. -/
theorem commandMap : Obligations.CommandMap := fun w =>
  ⟨decodeCommand_iff_fits w 0, decodeCommand_iff_fits w 1, decodeCommand_iff_fits w 2, decodeCommand_iff_fits w 3,
    decodeCommand_iff_fits w 4, decodeCommand_iff_fits w 5, decodeCommand_iff_fits w 6, decodeCommand_iff_fits w 7,
    decodeCommand_iff_fits w 8, decodeCommand_iff_fits w 9, decodeCommand_iff_fits w 10, decodeCommand_illegal_iff w⟩

/-! ## Illegal words and ignored fields -/

/-- An idle codec that reports a word changes STAT, VAL, NV, CNT and CONS, and signals its response (R83,
60_exceptions.md R192). -/
theorem illegal_endsIn {s : State} (hb : s.busy = false) (hp : s.ph = .idle) (hc : s.cur = 0) :
    EndsIn (.next s.illegal)
      { s with resp := true, stat := .illegalCommand, val := 0, nv := false, cnt := 0, cons := 0 } := by
  refine ⟨Scratch.init, congrArg Host.Outcome.next ?_⟩
  rw [State.illegal, raise_eq_complete, if_neg (by simp [Phase.decoding])]
  simp [State.complete, State.setResult, State.respond, hb, hp, hc]

/-- Settles O9: no row fits the word, so the step reports it. -/
theorem illegalWord : Obligations.IllegalWord := by
  intro s w q hr hb hp hc hq hw
  rw [step_illegal hr hp hb hq ((decodeCommand_illegal_iff w).2 hw)]
  exact illegal_endsIn (s := { s.tickOver with cmdQ := q }) hb hp hc

/-- A row stands at the place of its own OP (R82). -/
theorem op_of_rowIndex (c : Byte) : rowIndex c < 11 → c.extractLsb' 0 4 = BitVec.ofNat 4 (rowIndex c) := by
  revert c
  decide +kernel

/-- PB.PUT and PB.GET have no stream form (R82). -/
theorem strm_of_rowIndex (c : Byte) : rowIndex c = 5 ∨ rowIndex c = 6 → c.getLsbD 5 = false := by
  revert c
  decide +kernel

section
variable (s : State) {strm : Bool} {off off' : U32} (h : strm = false → off = off')
include h

/-- The stream forms of the value commands take no OFF (R82). -/
theorem encodeTo_congr_off (bs : List Byte) : s.encodeTo strm off bs = s.encodeTo strm off' bs := by
  cases strm
  · rw [h rfl]
  · rfl

theorem decodeFrom_congr_off (signed le : Bool) : s.decodeFrom signed le strm off = s.decodeFrom signed le strm off' := by
  cases strm
  · rw [h rfl]
  · rfl

end

/-- The no-value form of VS.ENC takes no number (41_varsint.md R125). -/
theorem execVsEnc_congr_operand (s : State) (le strm : Bool) {nvf : Bool} (off : U32) {a a' : U64}
    (h : nvf = false → a = a') : execVsEnc le strm nvf off a s = execVsEnc le strm nvf off a' s := by
  cases nvf
  · rw [h rfl]
  · rfl

/-- Settles O11: the two words stand at one row, and the row's command does not use the fields in which they differ. -/
theorem ignoredFields : Obligations.IgnoredFields := by
  intro w v i j s hi hj hctl hoff ha hnum hbyte
  have hk := rowIndex_le (CmdWord.ctl w)
  have hop := op_of_rowIndex (CmdWord.ctl w)
  have hstream := strm_of_rowIndex (CmdWord.ctl w)
  rw [decodeCommand_eq] at hi hj
  rw [← hctl] at hj
  rw [← strm_eq_ctl] at hstream
  have hle : CmdWord.le v = CmdWord.le w := by rw [le_eq_ctl, le_eq_ctl, hctl]
  have hstrm : CmdWord.strm v = CmdWord.strm w := by rw [strm_eq_ctl, strm_eq_ctl, hctl]
  have hm0 : CmdWord.m0 v = CmdWord.m0 w := by rw [m0_eq_ctl, m0_eq_ctl, hctl]
  have hm1 : CmdWord.m1 v = CmdWord.m1 w := by rw [m1_eq_ctl, m1_eq_ctl, hctl]
  generalize rowIndex (CmdWord.ctl w) = k at *
  generalize (CmdWord.ctl w).extractLsb' 0 4 = op at *
  interval_cases k <;> simp only [rowCommand, Except.ok.injEq, reduceCtorEq] at hi hj <;> subst hi hj
  all_goals obtain rfl := hop (by norm_num)
  · rfl -- NOP
  · -- VU.ENC
    have hout := encodeTo_congr_off s fun h => hoff h (by decide)
    simp only [exec, execVuEnc, hle, hstrm, ha (by decide), hout]
  · -- VU.DEC
    have hin := decodeFrom_congr_off s fun h => hoff h (by decide)
    simp only [exec, execVuDec, hle, hstrm, hin]
  · -- VS.ENC
    have hout := encodeTo_congr_off s fun h => hoff h (by decide)
    have hnumber := execVsEnc_congr_operand s (CmdWord.le w) (CmdWord.strm w) (CmdWord.off w) (hnum rfl)
    simp only [exec, hle, hstrm, hm0, hnumber]
    simp only [execVsEnc, hout]
  · -- VS.DEC
    have hin := decodeFrom_congr_off s fun h => hoff h (by decide)
    simp only [exec, execVsDec, hle, hstrm, hin]
  · -- PB.PUT
    rw [hoff (hstream (.inl rfl)) (by decide), hbyte rfl]
  · -- PB.GET
    rw [hoff (hstream (.inr rfl)) (by decide)]
  · rfl -- PB.CLR
  · -- REC.ENC
    rw [hle, hm0, hm1, ha (by decide)]
  · rfl -- REC.DECF
  · rfl -- REC.DECR

/-! ## Encodings read back -/

section
variable (a : U64) (off : U32) (op : BitVec 4) (le strm m0 m1 : Bool)

/-- The bits of a control byte (30_encoding.md R70). -/
theorem controlByte_le : (controlByte op le strm m0 m1).getLsbD 4 = le := by
  revert op le strm m0 m1
  decide +kernel

theorem controlByte_strm : (controlByte op le strm m0 m1).getLsbD 5 = strm := by
  revert op le strm m0 m1
  decide +kernel

theorem controlByte_m0 : (controlByte op le strm m0 m1).getLsbD 6 = m0 := by
  revert op le strm m0 m1
  decide +kernel

theorem controlByte_m1 : (controlByte op le strm m0 m1).getLsbD 7 = m1 := by
  revert op le strm m0 m1
  decide +kernel

@[simp] theorem le_commandWord : CmdWord.le (commandWord a off (controlByte op le strm m0 m1)) = le := by
  rw [le_eq_ctl, Laws.ctl_commandWord, controlByte_le]

@[simp] theorem strm_commandWord : CmdWord.strm (commandWord a off (controlByte op le strm m0 m1)) = strm := by
  rw [strm_eq_ctl, Laws.ctl_commandWord, controlByte_strm]

@[simp] theorem m0_commandWord : CmdWord.m0 (commandWord a off (controlByte op le strm m0 m1)) = m0 := by
  rw [m0_eq_ctl, Laws.ctl_commandWord, controlByte_m0]

@[simp] theorem m1_commandWord : CmdWord.m1 (commandWord a off (controlByte op le strm m0 m1)) = m1 := by
  rw [m1_eq_ctl, Laws.ctl_commandWord, controlByte_m1]

@[simp] theorem off_commandWord (c : Byte) : CmdWord.off (commandWord a off c) = off := by
  ext i hi
  simp only [CmdWord.off, commandWord, BitVec.getElem_extractLsb', BitVec.getLsbD_append]
  simp [hi]

@[simp] theorem operand_commandWord (c : Byte) : CmdWord.operand (commandWord a off c) = a := by
  ext i hi
  simp only [CmdWord.operand, commandWord, BitVec.getElem_extractLsb', BitVec.getLsbD_append]
  simp [show ¬40 + i < 8 by omega, show ¬40 + i - 8 < 32 by omega, show 40 + i - 8 - 32 = i by omega,
    BitVec.getLsbD_eq_getElem hi]

end

/-- The decoder reads an encoded command at the row of its control byte. -/
theorem decode_commandWord {c : Byte} {k : Nat} (hc : rowIndex c = k) (a : U64) (off : U32) :
    decode .command (.word (commandWord a off c)) = rowCommand (commandWord a off c) k := by
  have h := decodeCommand_eq (commandWord a off c)
  rwa [Laws.ctl_commandWord, hc] at h

/-- Settles O12: a command's control byte stands at its row and its fields read back, a wire format is a byte at its slot. -/
theorem decodeEncode : Obligations.DecodeEncode := by
  intro i
  cases i with
  | nop => exact decode_commandWord (k := 0) (by decide) _ _
  | vuEnc le strm off a =>
    refine (decode_commandWord (k := 1) (by revert le strm; decide) _ _).trans ?_
    simp [rowCommand]
  | vuDec le strm off =>
    refine (decode_commandWord (k := 2) (by revert le strm; decide) _ _).trans ?_
    simp [rowCommand]
  | vsEnc le strm nvf off a =>
    refine (decode_commandWord (k := 3) (by revert le strm nvf; decide) _ _).trans ?_
    simp [rowCommand]
  | vsDec le strm off =>
    refine (decode_commandWord (k := 4) (by revert le strm; decide) _ _).trans ?_
    simp [rowCommand]
  | pbPut off b =>
    refine (decode_commandWord (k := 5) (by decide) _ _).trans ?_
    simp [rowCommand, BitVec.extractLsb'_setWidth_of_le]
  | pbGet off =>
    refine (decode_commandWord (k := 6) (by decide) _ _).trans ?_
    simp [rowCommand]
  | pbClr => exact decode_commandWord (k := 7) (by decide) _ _
  | recEnc le rev enh a =>
    refine (decode_commandWord (k := 8) (by revert le rev enh; decide) _ _).trans ?_
    simp [rowCommand]
  | recDecf => exact decode_commandWord (k := 9) (by decide) _ _
  | recDecr => exact decode_commandWord (k := 10) (by decide) _ _
  | vuCont d =>
    simp only [decode, Instr.slot, encode, decodeByte, append_one_msb, append_low, if_true]
  | vuTerm d =>
    simp only [decode, Instr.slot, encode, decodeByte, append_zero_msb, append_low, Bool.false_eq_true, if_false]
  | vuByte4 d => rfl
  | vsFirstLe d g n => revert d g n; decide +kernel
  | vsFirstBe g n d => revert g n d; decide +kernel
  | _ => rfl

/-! ## Words written out, and the sync alphabet -/

theorem decode_of_encode {i : Instr} {c : Code} (h : encode i = c) : decode i.slot c = .ok i := h ▸ decodeEncode i

/-- Settles O14: each word or byte is the encoding of its instruction. -/
theorem wordsDecode : Obligations.WordsDecode :=
  ⟨decode_of_encode (i := .nop) (by decide), decode_of_encode (i := .vuEnc false false 0 300) (by decide),
    decode_of_encode (i := .vsEnc true false false 7 (-100)) (by decide),
    decode_of_encode (i := .recEnc false true true 42) (by decide), decode_of_encode (i := .pbPut 5 0x47) (by decide),
    decode_of_encode (i := .syncHeadE2) (by decide), decode_of_encode (i := .syncTailB4) (by decide),
    decode_of_encode (i := .vuCont 0b0101100) (by decide), decode_of_encode (i := .vuTerm 0b0000010) (by decide),
    decode_of_encode (i := .vuByte4 0b11111111) (by decide),
    decode_of_encode (i := .vsFirstLe 0b0100 true 0b001) (by decide),
    decode_of_encode (i := .vsFirstBe true 0b001 0b0000) (by decide)⟩

/-- A byte that is a sync byte is one of the twelve (30_encoding.md R84). -/
theorem decodeSync_ok_iff (b : Byte) : (∃ i, decodeSync b = .ok i) ↔ b ∈ headSet ∨ b ∈ tailSet := by
  have h : (decodeSync b).isOk = true ↔ b ∈ headSet ∨ b ∈ tailSet := by
    revert b
    decide +kernel
  rw [← h]
  cases decodeSync b <;> simp [Except.isOk, Except.toBool]

theorem parseHead_headByte (le rev enh : Bool) : parseHead (headByte le rev enh) = some (le, rev, enh) := by
  revert le rev enh
  decide

theorem headOf_tailByte (le enh : Bool) : headOf (tailByte le enh) = some (headByte le true enh) := by
  revert le enh
  decide

/-- A tail sync byte names its byte order and CRC mode: `HEAD_OF` and `PARSE_HEAD` give them back (R74, R75). -/
theorem tailByte_injective {le enh le' enh' : Bool} (h : tailByte le enh = tailByte le' enh') : le = le' ∧ enh = enh' := by
  have hh := congrArg headOf h
  rw [headOf_tailByte, headOf_tailByte, Option.some.injEq] at hh
  have hp := congrArg parseHead hh
  simp only [parseHead_headByte, Option.some.injEq, Prod.mk.injEq] at hp
  obtain ⟨hle, -, henh⟩ := hp
  exact ⟨hle, henh⟩

/-- The eight head values are the values of `HEAD` (R74). -/
theorem mem_headSet_iff (b : Byte) : b ∈ headSet ↔ ∃ le rev enh, b = headByte le rev enh := by
  constructor
  · revert b
    decide
  · rintro ⟨le, rev, enh, rfl⟩
    exact headByte_mem_headSet le rev enh

/-- The four tail values are the partners of the reverse-readable heads (R75). -/
theorem mem_tailSet_iff (b : Byte) : b ∈ tailSet ↔ ∃ le enh, b = tailByte le enh := by
  constructor
  · revert b
    decide
  · rintro ⟨le, enh, rfl⟩
    revert le enh
    decide

theorem not_mem_headSet_of_mem_tailSet : ∀ b ∈ tailSet, b ∉ headSet := by decide

/-- Settles O13: the rows of the two tables one by one, then the laws of the alphabet. -/
theorem syncAlphabet : Obligations.SyncAlphabet := by
  refine ⟨⟨rfl, rfl, ?_⟩, ⟨rfl, rfl, ?_⟩, by decide, rfl, by decide, rfl, by decide, mem_headSet_iff, mem_tailSet_iff,
    fun _ _ _ _ => tailByte_injective, headOf_tailByte, by decide, by decide, not_mem_headSet_of_mem_tailSet,
    parseHead_headByte, decodeSync_ok_iff⟩
  · decide
  · decide

end Sys2Proof.Machine
end

section
/-! The wire formats where the codec reads them (30_encoding.md R86): a step runs the format at the position of its phase, and
what each format does there. -/

namespace Sys2Proof.Machine

open Sys2Proof

/-! ## Steps that read a wire format -/

/-- A byte is decoded by its slot alone; the command port gives none. -/
theorem decode_byte (sl : Slot) (b : Byte) : decode sl (.byte b) = decodeByte sl b := by
  cases sl <;> rfl

/-- The codec fetches the wire format at the position of its phase, and takes the byte. -/
theorem fetchInstr_wire {s u : State} {sl : Slot} {b : Byte} {i : Instr} (hp : s.ph ≠ .idle) (hs : s.slot = some sl)
    (hb : s.nextByte = .got b u) (hi : decodeByte sl b = .ok i) : s.fetchInstr = .wire i u := by
  simp only [State.fetchInstr, if_neg hp, hs, hb, hi]

/-- Settles O8: the step fetches the format and runs it. -/
theorem stepRunsWire : Obligations.StepRunsWire := by
  intro s u sl b i hr hp hs hb hi
  have hf : s.tickOver.fetchInstr = .wire i u := fetchInstr_wire (s := s.tickOver) hp hs hb ((decode_byte sl b).symm.trans hi)
  simp only [step, State.tickOver_rst, hr, hf, Bool.false_eq_true, if_false]

/-! ## The end of a command as the statements write it -/

theorem complete_eq_ended (s : State) (st : Status) (v : U64) (nv : Bool) (n : Nat) :
    s.complete st v nv n = s.ended st v nv n s.cons.toNat := by
  simp [State.complete, State.ended, State.setResult, State.respond]

/-- An error of a record decode leaves the empty Record (60_exceptions.md R193, 43_record_framer.md R164). -/
theorem raise_of_decoding {s : State} (h : s.ph.decoding = true) (e : Status) :
    s.raise e = s.emptied.failed e s.cons.toNat := by
  rw [raise_eq_complete, if_pos h]
  exact complete_eq_ended ..

/-- A whole record leaves the registers of its fields (43_record_framer.md R160, R170). -/
theorem recordDone_eq_ended (s : State) :
    s.recordDone =
      ({ s with
          sync := headByte s.scratch.le s.scratch.rev s.scratch.enh, rid := s.scratch.id.setWidth 32
          plen := s.scratch.dlen.setWidth 32, crclen := BitVec.ofNat 3 s.scratch.crc.len
          crcb := packCrc s.scratch.got } : State).ended .ok 0 false 0 s.cons.toNat :=
  complete_eq_ended ..

/-! ## Sync bytes -/

/-- A sync byte is read where one is due (30_encoding.md R84). -/
theorem slot_of_awaitsSync {s : State} (h : s.ph.awaitsSync) : s.slot = some .sync := by
  obtain h | h | h | h := h <;> simp [State.slot, h]

theorem awaitsSync_decoding {p : Phase} (h : p.awaitsSync) : p.decoding = true := by
  obtain rfl | rfl | rfl | rfl := h <;> rfl

theorem exec_headSync {r : Instr × Bool × Bool × Bool} (hr : r ∈ headTable) {s : State} (h : s.ph.awaitsSync) :
    exec r.1 s = s.headSync r.2.1 r.2.2.1 r.2.2.2 := by
  have hw : ∀ r ∈ headTable, r.1.isCommand = false := by decide
  rw [← runWire_eq_exec _ _ (hw r hr), exec_head hr (slot_of_awaitsSync h)]

theorem exec_tailSync {r : Instr × Bool × Bool} (hr : r ∈ tailTable) {s : State} (h : s.ph.awaitsSync) :
    exec r.1 s = s.tailSync r.2.1 r.2.2 := by
  have hw : ∀ r ∈ tailTable, r.1.isCommand = false := by decide
  rw [← runWire_eq_exec _ _ (hw r hr), exec_tail hr (slot_of_awaitsSync h)]

section
variable {s : State} (le rev enh : Bool)

/-- REC.DECF goes on with the flags of its head (43_record_framer.md R160). -/
theorem headSync_fSync (hp : s.ph = .fSync) :
    s.headSync le rev enh =
      .next (({ s with scratch := { s.scratch with le := le, rev := rev, enh := enh } } : State).enterField .fId) := by
  rw [State.headSync, hp]

/-- The staged byte 0 is the head paired with the tail, or the ends do not match (R172). -/
theorem headSync_rHead (hp : s.ph = .rHead) :
    s.headSync le rev enh =
      .next (if le = s.scratch.le ∧ rev = s.scratch.rev ∧ enh = s.scratch.enh then s.enterField .rId
        else s.raise .headTailMismatch) := by
  rw [State.headSync, hp]

/-- A head is no tail (30_encoding.md R84). -/
theorem headSync_fTail (hp : s.ph = .fTail) : s.headSync le rev enh = .next (s.raise .malformedSync) := by
  rw [State.headSync, hp]

theorem headSync_rTail (hp : s.ph = .rTail) : s.headSync le rev enh = .next (s.raise .malformedSync) := by
  rw [State.headSync, hp]

/-- REC.DECR goes on with the flags of the paired head (R170). -/
theorem tailSync_rTail (hp : s.ph = .rTail) :
    s.tailSync le enh =
      .next (({ s with scratch := { s.scratch with le := le, rev := true, enh := enh } } : State).enterField .rRlen) := by
  rw [State.tailSync, hp]

/-- The tail of a forward read is the partner of the head, or the ends do not match (R160, R163). -/
theorem tailSync_fTail (hp : s.ph = .fTail) :
    s.tailSync le enh =
      .next (if le = s.scratch.le ∧ enh = s.scratch.enh then s.recordDone else s.raise .headTailMismatch) := by
  rw [State.tailSync, hp]

/-- A tail is no head (30_encoding.md R84, R172). -/
theorem tailSync_fSync (hp : s.ph = .fSync) : s.tailSync le enh = .next (s.raise .malformedSync) := by
  rw [State.tailSync, hp]

theorem tailSync_rHead (hp : s.ph = .rHead) : s.tailSync le enh = .next (s.raise .headTailMismatch) := by
  rw [State.tailSync, hp]

end

/-- Settles O43, phase by phase. -/
theorem headSyncByte : Obligations.HeadSyncByte := by
  intro r hr s
  have meaning (hp : s.ph.awaitsSync) := exec_headSync hr hp
  refine ⟨fun hp => ?_, fun hp => ?_, fun hp => ?_⟩
  · rw [meaning (.inl hp), headSync_fSync _ _ _ hp]
    rfl
  · rw [meaning (.inr (.inr (.inr hp))), headSync_rHead _ _ _ hp, raise_of_decoding (by rw [hp]; rfl)]
    rfl
  · have hsync : s.ph.awaitsSync := .inr (hp.imp_right .inl)
    rw [meaning hsync, ← raise_of_decoding (awaitsSync_decoding hsync)]
    exact hp.elim (headSync_fTail _ _ _) (headSync_rTail _ _ _)

/-- Settles O44, phase by phase. -/
theorem tailSyncByte : Obligations.TailSyncByte := by
  intro r hr s
  have meaning (hp : s.ph.awaitsSync) := exec_tailSync hr hp
  have raised (hp : s.ph.awaitsSync) (e : Status) := raise_of_decoding (awaitsSync_decoding hp) e
  refine ⟨fun hp => ?_, fun hp => ?_, fun hp => ?_, fun hp => ?_⟩
  · rw [meaning (.inr (.inr (.inl hp))), tailSync_rTail _ _ hp]
    rfl
  · rw [meaning (.inr (.inl hp)), tailSync_fTail _ _ hp, raised (.inr (.inl hp)), recordDone_eq_ended]
  · rw [meaning (.inl hp), tailSync_fSync _ _ hp, raised (.inl hp)]
  · rw [meaning (.inr (.inr (.inr hp))), tailSync_rHead _ _ hp, raised (.inr (.inr (.inr hp)))]

/-! ## A first byte that is no sync byte of the direction -/

theorem badSync_eq {s : State} (hp : s.ph ≠ .rHead) : s.badSync = s.raise .malformedSync := if_neg hp

/-- A byte outside the head set where a record begins (30_encoding.md R84). -/
theorem handleByte_fSync_bad {s : State} {b : Byte} (hp : s.ph = .fSync) (hb : b ∉ headSet) :
    s.handleByte b = .next (s.raise .malformedSync) := by
  rw [handleByte_sync b (slot_of_awaitsSync (.inl hp)), show parseHead b = none from if_neg hb]
  dsimp only
  split
  · exact tailSync_fSync _ _ hp
  · rw [badSync_eq (by simp [hp])]

theorem parseTail_eq_none : ∀ {b : Byte}, b ∉ tailSet → parseTail b = none := by decide +kernel

/-- A byte outside the tail set where a reverse decode begins (R84). -/
theorem handleByte_rTail_bad {s : State} {b : Byte} (hp : s.ph = .rTail) (hb : b ∉ tailSet) :
    s.handleByte b = .next (s.raise .malformedSync) := by
  rw [handleByte_sync b (slot_of_awaitsSync (.inr (.inr (.inl hp)))), parseTail_eq_none hb]
  split
  · exact headSync_rTail _ _ _ hp
  · rw [badSync_eq (by simp [hp])]

/-- A record decode whose first byte is refused takes that byte and leaves the empty Record (43_record_framer.md R164). -/
theorem decode_bad_first {s : State} {p : Phase} {b : Byte} {q : List Byte} (hp : p.takes = true) (hd : p.decoding = true)
    (hq : s.inQ = b :: q)
    (hbad : ∀ t : State, t.ph = p → t.handleByte b = .next (t.raise .malformedSync)) :
    ((s.accept p).clearRecord).run = .next (({ s.emptied with inQ := q } : State).failed .malformedSync 1) := by
  have hu : ((s.accept p).clearRecord).unit = some (.next ((((s.accept p).clearRecord).took q).raise .malformedSync)) := by
    rw [unit_take (s := (s.accept p).clearRecord) hp hq, hbad _ rfl]
  rw [run_of_units (.single hu) (by norm_num [settleFuel]) (unit_idle (State.raise_ph ..)),
    raise_of_decoding (s := ((s.accept p).clearRecord).took q) hd]
  rfl

/-- Settles O39: the one unit of the decode is the error. -/
theorem badFirstByte : Obligations.BadFirstByte := by
  refine ⟨fun s b q hb hq => ⟨fun hbad => ?_, fun hbad => ?_⟩, by decide +kernel⟩
  · exact ⟨_, (whenFree_free hb _).trans (decode_bad_first rfl rfl hq fun t ht => handleByte_fSync_bad ht hbad)⟩
  · exact ⟨_, (whenFree_free hb _).trans (decode_bad_first rfl rfl hq fun t ht => handleByte_rTail_bad ht hbad)⟩

/-! ## The bytes of a VarUInt -/

/-- A wire format has its meaning where its slot is read (R86). -/
theorem readsAt_eq {s : State} {sl : Slot} (h : s.slot = some sl) (r : Result) : s.readsAt sl r = r := if_pos h

/-- Settles O45: the meaning of VU-CONT at its slot is the update of R105. -/
theorem vuCont : Obligations.VuCont := fun _ _ h => readsAt_eq h _

/-- The last byte of a VarUInt hands its value, length and bytes to the phase (40_varuint.md R105). -/
theorem exec_of_endsVarUInt {s : State} {i : Instr} {v : U29} {n : Nat} {raw : List Byte} (h : EndsVarUInt s i v n raw) :
    exec i s = s.vuDone v n raw := by
  cases h with
  | term d h => exact readsAt_eq h _
  | fourth d h => exact readsAt_eq h _

section
variable {s : State} (v : U29) (n : Nat) (raw : List Byte)

/-- The value of VU.DEC (40_varuint.md R104). -/
theorem vuDone_value (hp : s.ph = .vBuf ∨ s.ph = .vIn) :
    s.vuDone v n raw = .next (s.complete .ok (v.setWidth 64) false n) := by
  obtain hp | hp := hp <;> rw [State.vuDone, hp]

/-- A record's id: the length field follows (43_record_framer.md R160, R170). -/
theorem vuDone_id (hp : s.ph = .fId ∨ s.ph = .rId) :
    s.vuDone v n raw =
      .next (({ s with scratch := { s.scratch with id := v, rawId := raw } } : State).enterField
        (if s.ph = .fId then .fLen else .rLen)) := by
  obtain hp | hp := hp <;> simp only [State.vuDone, hp] <;> rfl

/-- A trailing length: staging follows, where it fits RB (R171). -/
theorem vuDone_trailing (hp : s.ph = .rRlen) :
    s.vuDone v n raw =
      .next (if Config.rbBytes < v.toNat + 1 then s.raise .unsupported
        else ({ s with scratch := { s.scratch with tlen := v } } : State).enter .rFill) := by
  rw [← raise_with_scratch s { s.scratch with tlen := v }, State.vuDone, hp]

end

/-- Settles O46: the end of the value, by the phase that reads it. -/
theorem varUIntEnds : Obligations.VarUIntEnds := by
  intro i v n raw s h
  rw [exec_of_endsVarUInt h]
  refine ⟨fun hp => ?_, fun hp => ?_, fun hp => ?_⟩
  · rw [vuDone_value _ _ _ hp, complete_eq_ended]
  · rw [vuDone_id _ _ _ hp]
    rfl
  · rw [vuDone_trailing _ _ _ hp, raise_of_decoding (by rw [hp]; rfl)]
    rfl

/-! ## The first byte of a VarSInt -/

theorem vuSlot_ne_vsFirst (c : U32) (le : Bool) : vuSlot c ≠ .vsFirst le := by
  unfold vuSlot
  split_ifs <;> simp

/-- The format of a VarSInt's first byte stands where its byte order is in force (30_encoding.md R78). -/
theorem le_of_slot_vsFirst {s : State} {le : Bool} (h : s.slot = some (.vsFirst le)) : s.scratch.le = le := by
  have hp : s.ph = .vBuf ∨ s.ph = .vIn := by
    cases hp : s.ph <;> simp [State.slot, hp, vuSlot_ne_vsFirst] at h ⊢
  have hslot : s.slot = if s.scratch.signed then (if s.cur = 0 then some (.vsFirst s.scratch.le) else none)
      else some (vuSlot s.cur) := by
    obtain hp | hp := hp <;> simp [State.slot, hp]
  rw [hslot] at h
  split_ifs at h
  · simpa using h
  · simp [vuSlot_ne_vsFirst] at h

/-- The byte whose flag nibble is `g`, `n` and whose other four bits are `d` (R78). -/
def vsFirstByte (le g : Bool) (n : BitVec 3) (d : BitVec 4) : Byte :=
  if le then d ++ BitVec.ofBool g ++ n else BitVec.ofBool g ++ n ++ d

theorem exec_vsFirst {s : State} {le : Bool} (h : s.slot = some (.vsFirst le)) (g : Bool) (n : BitVec 3) (d : BitVec 4) :
    exec (if le then .vsFirstLe d g n else .vsFirstBe g n d) s =
      .next (s.vsStart (BitVec.ofBool g ++ n) (vsFirstByte le g n d)) := by
  cases le <;> exact readsAt_eq h _

/-- The size that a flag nibble declares (41_varsint.md R127). -/
theorem nibSize_append (g : Bool) (n : BitVec 3) : nibSize (BitVec.ofBool g ++ n) = n.toNat + 1 := by
  revert g n
  decide

/-- A 1-byte VarSInt is the sentinel or its signed payload (R127, R129). -/
theorem vsFinish_one_byte (le g : Bool) (d : BitVec 4) :
    vsFinish le (BitVec.ofBool g ++ 0#3) ((vsFirstByte le g 0 d).setWidth 64) =
      if g = true ∧ d = 0 then .noValue else .value (if g then -(d.setWidth 64) else d.setWidth 64) := by
  revert le g d
  decide

/-- A 1-byte VarSInt ends at its first byte. -/
theorem vsStart_one_byte (s : State) (g : Bool) (d : BitVec 4) :
    s.vsStart (BitVec.ofBool g ++ 0#3) (vsFirstByte s.scratch.le g 0 d) =
      if g = true ∧ d = 0 then s.ended .noValue 0 true 1 s.cons.toNat
      else s.ended .ok (if g then -(d.setWidth 64) else d.setWidth 64) false 1 s.cons.toNat := by
  have hsize : nibSize (BitVec.ofBool g ++ 0#3) = 1 := nibSize_append g 0
  rw [State.vsStart, if_pos hsize, State.vsDone, vsFinish_one_byte, hsize]
  split_ifs <;> exact complete_eq_ended ..

/-- Settles O48: a longer value goes on with its flag nibble and first byte, a 1-byte value is finished. -/
theorem vsFirst : Obligations.VsFirst := by
  intro le g n d s h
  obtain rfl := le_of_slot_vsFirst h
  rw [exec_vsFirst h]
  by_cases hn : n = 0
  · subst hn
    rw [if_neg (not_not.2 rfl)]
    exact congrArg _ (vsStart_one_byte s g d)
  · have hsize : nibSize (BitVec.ofBool g ++ n) ≠ 1 := by
      rw [nibSize_append]
      simpa [BitVec.toNat_eq] using hn
    rw [vsStart_of_ne hsize, if_pos hn]
    rfl

end Sys2Proof.Machine
end

section
/-! What VU.DEC comes to (40_varuint.md R104 to R106), said once for the bytes of PB below PLEN and those of IN, and what VU.ENC
wrote to PB read back (R103, R108). -/

namespace Sys2Proof.Machine

open Sys2Proof

/-! ## The bytes a value decode reads -/

/-- `MemRead` that reads a byte (00_scope.md R9). -/
theorem Mem.readList_eq_cons {m : Mem} {a n : Nat} {b : Byte} {bs : List Byte} (h : m.readList a n = b :: bs) :
    m.read a = b ∧ n = bs.length + 1 ∧ m.readList (a + 1) bs.length = bs := by
  cases n with
  | zero => cases h
  | succ n =>
    injection h with hb hbs
    obtain rfl : n = bs.length := by simpa using congrArg List.length hbs
    exact ⟨hb, rfl, hbs⟩

/-- The codec reads a value from PB, with PLEN inside it (10_state.md R34), or from IN (R30). -/
def State.ReadsValue (s : State) : Prop := s.ph = .vBuf ∧ s.plen.toNat ≤ Config.pbBytes ∨ s.ph = .vIn

/-- The bytes still to come: those of PB below PLEN (20_memory.md R59), or those of IN (R57). -/
def State.upcoming (s : State) : List Byte :=
  if s.ph = .vIn then s.inQ
  else s.pb.readList (s.scratch.off.toNat + s.cur.toNat) (s.plen.toNat - (s.scratch.off.toNat + s.cur.toNat))

/-- The state with `n` of them read: those of IN are taken and counted (10_state.md R25), those of PB stay. -/
def State.passed (s : State) (n : Nat) : State :=
  if s.ph = .vIn then { s with inQ := s.inQ.drop n, cons := s.cons + BitVec.ofNat 32 n } else s

/-- The state at the next byte of its value (R31), with what the scratch registers hold there. -/
def State.nextPlace (s : State) (k : Scratch) : State := { s with cur := s.cur + 1, scratch := k }

section
variable {s : State} {b : Byte} {bs : List Byte} (n : Nat) (k : Scratch)

@[simp] theorem passed_ph : (s.passed n).ph = s.ph := by unfold State.passed; split_ifs <;> rfl
@[simp] theorem passed_cur : (s.passed n).cur = s.cur := by unfold State.passed; split_ifs <;> rfl
@[simp] theorem passed_scratch : (s.passed n).scratch = s.scratch := by unfold State.passed; split_ifs <;> rfl
@[simp] theorem passed_plen : (s.passed n).plen = s.plen := by unfold State.passed; split_ifs <;> rfl
@[simp] theorem passed_inEos : (s.passed n).inEos = s.inEos := by unfold State.passed; split_ifs <;> rfl

@[simp] theorem nextPlace_cur : (s.nextPlace k).cur = s.cur + 1 := rfl
@[simp] theorem nextPlace_ph : (s.nextPlace k).ph = s.ph := rfl
@[simp] theorem nextPlace_plen : (s.nextPlace k).plen = s.plen := rfl
@[simp] theorem nextPlace_inEos : (s.nextPlace k).inEos = s.inEos := rfl

theorem passed_zero : s.passed 0 = s := by unfold State.passed; split_ifs <;> simp

/-- An error forgets the place in the value (60_exceptions.md R193). -/
theorem raise_at_place (s : State) (c : U32) (k : Scratch) (e : Status) :
    ({ s with cur := c, scratch := k } : State).raise e = s.raise e := by
  unfold State.raise
  split <;> rfl

/-- One byte read, then `n` others. -/
theorem passed_succ : ((s.passed 1).nextPlace k).passed n = { s.passed (n + 1) with cur := s.cur + 1, scratch := k } := by
  by_cases hp : s.ph = .vIn
  · have hc : s.cons + 1#32 + BitVec.ofNat 32 n = s.cons + BitVec.ofNat 32 (n + 1) := by
      rw [BitVec.add_assoc, Nat.add_comm n 1, BitVec.ofNat_add]
    simp [State.passed, State.nextPlace, hp, hc]
  · simp [State.passed, State.nextPlace, hp]

variable {n k}

/-- A unit works on the next of the bytes. -/
theorem unit_upcoming_cons (h : s.ReadsValue) (hbs : s.upcoming = b :: bs) : s.unit = some ((s.passed 1).handleByte b) := by
  obtain ⟨hp, hplen⟩ | hp := h
  · rw [State.upcoming, if_neg (by simp [hp])] at hbs
    obtain ⟨hb, hlen, _⟩ := Mem.readList_eq_cons hbs
    rw [unit_vBuf hp hplen, if_neg (by omega), hb, State.passed, if_neg (by simp [hp])]
  · simp only [State.upcoming, hp, if_true] at hbs
    rw [unit_take (by simp [hp, Phase.takes]) hbs, State.passed, if_pos hp, hbs]
    rfl

/-- With no byte to come, and none to follow, the value is cut short (40_varuint.md R106). -/
theorem unit_upcoming_nil (h : s.ReadsValue) (he : s.ph = .vIn → s.inEos = true) (hbs : s.upcoming = []) :
    s.unit = some (.next (s.raise .truncatedRead)) := by
  obtain ⟨hp, hplen⟩ | hp := h
  · have hlen := congrArg List.length hbs
    simp only [State.upcoming, hp, reduceCtorEq, if_false, Mem.length_readList, List.length_nil] at hlen
    rw [unit_vBuf hp hplen, if_pos (by omega)]
  · exact unit_eos (by simp [hp, Phase.takes]) (by simpa [State.upcoming, hp] using hbs) (he hp)

theorem upcoming_nextPlace (hbs : s.upcoming = b :: bs) (hc : s.cur.toNat + 1 < 2 ^ 32) (hk : k.off = s.scratch.off) :
    ((s.passed 1).nextPlace k).upcoming = bs := by
  by_cases hp : s.ph = .vIn
  · simp only [State.upcoming, hp, if_true] at hbs
    simp [State.upcoming, State.nextPlace, State.passed, hp, hbs]
  · rw [State.upcoming, if_neg hp] at hbs
    obtain ⟨_, hlen, hbs⟩ := Mem.readList_eq_cons hbs
    simp only [State.upcoming, State.nextPlace, State.passed, hp, if_false, hk, toNat_add_one hc, ← Nat.add_assoc]
    rw [show s.plen.toNat - (s.scratch.off.toNat + s.cur.toNat + 1) = bs.length by omega, hbs]

end

/-! ## VarUInts -/

/-- The scratch registers after one of the first three bytes of a VarUInt, which `n` others precede (40_varuint.md R105). -/
def Scratch.joined (k : Scratch) (n : Nat) (b : Byte) : Scratch :=
  { k with acc := vuJoin k.le k.acc n (b.extractLsb' 0 7), raw := k.raw ++ [b] }

/-- A VarUInt byte in a value decode: the value goes on with the bytes joined so far, or is complete (40_varuint.md R105). -/
theorem handleByte_vu_value {s : State} (h : s.ReadsValue) (hs : s.scratch.signed = false) (b : Byte) :
    s.handleByte b =
      if s.cur.toNat < 3 then
        if b.getLsbD 7 then
          .next (s.nextPlace (s.scratch.joined s.cur.toNat b))
        else
          .next (s.complete .ok ((vuJoin s.scratch.le s.scratch.acc s.cur.toNat (b.extractLsb' 0 7)).setWidth 64) false
            (s.cur.toNat + 1))
      else .next (s.complete .ok ((vuJoinFourth s.scratch.le s.scratch.acc b).setWidth 64) false 4) := by
  have hp : s.ph = .vBuf ∨ s.ph = .vIn := h.imp_left And.left
  have hslot : s.slot = some (vuSlot s.cur) := by obtain hp | hp := hp <;> simp [State.slot, hp, hs]
  simp only [handleByte_vu b hslot, vuDone_value _ _ _ hp]
  rfl

theorem State.ReadsValue.passed {s : State} (h : s.ReadsValue) (n : Nat) : (s.passed n).ReadsValue := by
  simpa [State.ReadsValue] using h

/-- How a VarUInt decode from the place of `s` ends, by what `VU_DEC` makes of the bytes to come: with a value (R104), or cut
short (R106). -/
def State.vuEnd (s : State) : Option (U29 × Nat) → State
  | some (v, n) => (s.passed (n - s.cur.toNat)).complete .ok (v.setWidth 64) false n
  | none => (s.passed s.upcoming.length).raise .truncatedRead

/-- The end is the same from the next place on. -/
theorem vuEnd_nextPlace {s : State} {b : Byte} {bs : List Byte} (hbs : s.upcoming = b :: bs)
    (hc : s.cur.toNat + 1 < 2 ^ 32) {k : Scratch} (hk : k.off = s.scratch.off) {r : Option (U29 × Nat)}
    (hr : ∀ v n, r = some (v, n) → s.cur.toNat + 1 < n) :
    ((s.passed 1).nextPlace k).vuEnd r = s.vuEnd r := by
  cases r with
  | none =>
    simp only [State.vuEnd, upcoming_nextPlace hbs hc hk, hbs, passed_succ, List.length_cons]
    exact raise_at_place _ _ _ _
  | some r =>
    obtain ⟨v, n⟩ := r
    have hlt := hr v n rfl
    have hcur : ((s.passed 1).nextPlace k).cur.toNat = s.cur.toNat + 1 := by
      rw [nextPlace_cur, passed_cur, toNat_add_one hc]
    simp only [State.vuEnd, hcur, passed_succ]
    rw [show n - (s.cur.toNat + 1) + 1 = n - s.cur.toNat by omega]
    rfl

/-- A VarUInt is read byte by byte to its end (R105). -/
theorem units_vu {bs : List Byte} {s : State} (h : s.ReadsValue) (hs : s.scratch.signed = false) (hbs : s.upcoming = bs)
    (hc : s.cur.toNat ≤ 3)
    (he : vuDecFrom s.scratch.le s.cur.toNat s.scratch.acc bs = none → s.ph = .vIn → s.inEos = true) :
    ∃ j, Units j s (s.vuEnd (vuDecFrom s.scratch.le s.cur.toNat s.scratch.acc bs)) := by
  induction bs generalizing s with
  | nil =>
    refine ⟨1, .single ?_⟩
    rw [unit_upcoming_nil h (he rfl) hbs, vuDecFrom, State.vuEnd, hbs, List.length_nil, passed_zero]
  | cons b bs ih =>
    have hu := unit_upcoming_cons h hbs
    rw [handleByte_vu_value (h.passed 1) (by simpa using hs)] at hu
    simp only [vuDecFrom] at he ⊢
    simp only [passed_cur, passed_scratch] at hu
    split_ifs at he hu ⊢ with h3 h7
    · have hnext : ((s.passed 1).nextPlace (s.scratch.joined s.cur.toNat b)).cur.toNat = s.cur.toNat + 1 := by
        rw [nextPlace_cur, passed_cur, toNat_add_one (by omega)]
      obtain ⟨j, hj⟩ := ih (s := (s.passed 1).nextPlace (s.scratch.joined s.cur.toNat b))
        (by simpa [State.ReadsValue] using h) hs (upcoming_nextPlace hbs (by omega) rfl) (by omega)
        (by rw [hnext, nextPlace_ph, passed_ph, nextPlace_inEos, passed_inEos]; exact he)
      rw [hnext] at hj
      exact ⟨j + 1, .head hu (vuEnd_nextPlace (k := s.scratch.joined s.cur.toNat b) hbs (by omega) rfl
        (fun v n hd => (vuDecFrom_count hd).1) ▸ hj)⟩
    · exact ⟨1, .single (hu.trans (by simp [State.vuEnd]))⟩
    · exact ⟨1, .single (hu.trans (by simp [State.vuEnd, show s.cur.toNat = 3 by omega]))⟩

/-- A value decode that has been accepted runs to that end. -/
theorem run_vu {s : State} (h : s.ReadsValue) (hs : s.scratch.signed = false) (ha : s.scratch.acc = 0) (hc : s.cur = 0)
    (he : vuDec s.scratch.le s.upcoming = none → s.ph = .vIn → s.inEos = true) :
    s.run = .next (s.vuEnd (vuDec s.scratch.le s.upcoming)) := by
  have hvu : vuDec s.scratch.le s.upcoming = vuDecFrom s.scratch.le s.cur.toNat s.scratch.acc s.upcoming := by rw [ha, hc]; rfl
  rw [hvu] at he ⊢
  obtain ⟨j, hj⟩ := units_vu h hs rfl (by simp [hc]) he
  refine run_of_reading_units hj ?_ (unit_idle ?_)
  · obtain ⟨hp, _⟩ | hp := h <;> rw [hp] <;> rfl
  · unfold State.vuEnd
    split
    · rfl
    · exact State.raise_ph ..

/-! ## VU.DEC -/

/-- VU.DEC accepted, from IN. -/
def State.vuFromIn (s : State) (le : Bool) : State :=
  { s.accept .vIn with scratch := { Scratch.init with signed := false, le := le } }

/-- VU.DEC accepted, from PB at OFF. -/
def State.vuFromPb (s : State) (le : Bool) (off : U32) : State :=
  { s.accept .vBuf with scratch := { Scratch.init with signed := false, le := le, off := off } }

section
variable {s : State} (hb : s.busy = false) (le : Bool) {off : U32}
include hb

/-- VU.DEC from IN runs to the end of its value (R104). -/
theorem exec_vuDec_stream (h : (vuDec le s.inQ).isSome = true ∨ s.inEos = true) :
    exec (.vuDec le true off) s = .next ((s.vuFromIn le).vuEnd (vuDec le s.inQ)) :=
  (whenFree_free hb _).trans <| run_vu (s := s.vuFromIn le) (.inr rfl) rfl rfl rfl fun hd _ =>
    h.resolve_left (by rw [show vuDec le s.inQ = none from hd]; simp)

/-- So does VU.DEC from PB, with a valid byte at OFF. -/
theorem exec_vuDec_buffer (hp : s.plen.toNat ≤ Config.pbBytes) (ho : off.toNat < s.plen.toNat) :
    exec (.vuDec le false off) s = .next
      ((s.vuFromPb le off).vuEnd (vuDec le (s.pb.readList off.toNat (s.plen.toNat - off.toNat)))) := by
  refine (whenFree_free hb _).trans (.trans ?_ (run_vu (s := s.vuFromPb le off) (.inl ⟨rfl, hp⟩) rfl rfl rfl ?_))
  · exact if_neg (not_le.2 ho)
  · rintro - ⟨⟩

/-- With no valid byte at OFF nothing is read (R104). -/
theorem exec_vuDec_invalid (ho : s.plen.toNat ≤ off.toNat) :
    exec (.vuDec le false off) s = .next (s.failed .invalidOffset 0) :=
  (whenFree_free hb _).trans (if_pos ho)

end

section
variable (s : State) (le : Bool) (off : U32) (v : U29) (n : Nat)

theorem vuFromIn_value :
    (s.vuFromIn le).vuEnd (some (v, n)) = ({ s with inQ := s.inQ.drop n } : State).ended .ok (v.setWidth 64) false n n := by
  simp [State.vuEnd, State.vuFromIn, State.passed, State.complete, State.setResult, State.respond, State.ended]

theorem vuFromIn_short : (s.vuFromIn le).vuEnd none = ({ s with inQ := [] } : State).failed .truncatedRead s.inQ.length := by
  simp [State.vuEnd, State.vuFromIn, State.passed, State.upcoming, State.raise, Phase.decoding, State.setResult, State.respond,
    State.failed, State.ended]

theorem vuFromPb_value : (s.vuFromPb le off).vuEnd (some (v, n)) = s.ended .ok (v.setWidth 64) false n 0 := rfl

theorem vuFromPb_short : (s.vuFromPb le off).vuEnd none = s.failed .truncatedRead 0 := rfl

end

theorem endsIn_of_eq {r : Result} {t : State} (h : r = .next t) : EndsIn r t := ⟨t.scratch, h⟩

/-- Settles O26: the run of VU.DEC, in both forms. -/
theorem vuDecResult : Obligations.VuDecResult := by
  intro le strm off s hb hp hq
  refine endsIn_of_eq ?_
  cases strm with
  | true =>
    rw [exec_vuDec_stream hb le (hq rfl), if_pos rfl]
    cases vuDec le s.inQ with
    | none => exact congrArg _ (vuFromIn_short s le)
    | some r => exact congrArg _ (vuFromIn_value s le r.1 r.2)
  | false =>
    rw [if_neg (by simp)]
    by_cases ho : s.plen.toNat ≤ off.toNat
    · rw [exec_vuDec_invalid hb le ho, if_pos ho]
    · rw [exec_vuDec_buffer hb le (hp rfl) (by omega), if_neg ho]
      cases vuDec le (s.pb.readList off.toNat (s.plen.toNat - off.toNat)) with
      | none => exact congrArg _ (vuFromPb_short s le off)
      | some r => exact congrArg _ (vuFromPb_value s le off r.1 r.2)

/-! ## VU.ENC to PB -/

section
variable (s : State)

/-- An exception of a command just accepted that decodes no record (60_exceptions.md R193). -/
theorem raise_accept_eq_failed {p : Phase} (hp : p.decoding = false) (e : Status) : (s.accept p).raise e = s.failed e 0 := by
  rw [raise_accept hp]
  rfl

/-- A value's bytes to PB (20_memory.md R60, 40_varuint.md R103): within the write bound, or InvalidOffset. -/
theorem encodeTo_buffer (off : U32) (bs : List Byte) :
    s.encodeTo false off bs =
      .next (if s.writable off bs.length then (s.writePb off bs).ended .ok 0 false bs.length 0
        else s.failed .invalidOffset 0) :=
  (apply_ite Host.Outcome.next ..).symm

end

section
variable {s : State} (hb : s.busy = false) (le : Bool) {off : U32} {a : U64}
include hb

/-- A number out of range (R103). -/
theorem exec_vuEnc_overflow (strm : Bool) (ha : vuMax < a.toNat) :
    exec (.vuEnc le strm off a) s = .next (s.failed .overflow 0) := by
  have hsize : vuSize a.toNat = none := Option.not_isSome_iff_eq_none.1 ((vuSize_isSome _).not.2 (by omega))
  refine (whenFree_free hb _).trans ?_
  rw [hsize]
  exact congrArg _ (raise_accept_eq_failed s (by cases strm <;> rfl) _)

/-- A number in range to PB (R103). -/
theorem exec_vuEnc_buffer (ha : a.toNat ≤ vuMax) :
    exec (.vuEnc le false off a) s =
      .next (if s.writable off (vuEnc (a.setWidth 29) le).length then
        (s.writePb off (vuEnc (a.setWidth 29) le)).ended .ok 0 false (vuEnc (a.setWidth 29) le).length 0
      else s.failed .invalidOffset 0) := by
  obtain ⟨n, hn⟩ := Option.isSome_iff_exists.1 ((vuSize_isSome _).2 ha)
  rw [← encodeTo_buffer]
  refine (whenFree_free hb _).trans ?_
  rw [hn]

end

/-! ## What VU.ENC wrote, read back -/

/-- VU.ENC to PB that ends in OK has encoded a number in range, and stored its bytes (R103). -/
theorem exec_vuEnc_ok {s t : State} (hb : s.busy = false) {le : Bool} {off : U32} {a : U64}
    (ht : exec (.vuEnc le false off a) s = .next t) (hok : t.stat = .ok) :
    a.toNat ≤ vuMax ∧
      t = (s.writePb off (vuEnc (a.setWidth 29) le)).ended .ok 0 false (vuEnc (a.setWidth 29) le).length 0 := by
  by_cases ha : vuMax < a.toNat
  · cases (exec_vuEnc_overflow hb le false ha).symm.trans ht
    cases hok
  · rw [exec_vuEnc_buffer hb le (by omega)] at ht
    split_ifs at ht <;> cases ht
    · exact ⟨by omega, rfl⟩
    · cases hok

/-- Settles O29: the bytes stored stand first of those below PLEN from OFF on, and decode to the number. -/
theorem varUIntRoundTrip : Obligations.VarUIntRoundTrip := by
  intro le off a s t h hb ht hok
  have hi : Inv t := exec_inv rfl hb h ht
  obtain ⟨hread, _, hplen⟩ := (storeFrame _ off _ s t h hb (.inl ⟨le, a, rfl, rfl⟩) ht).1 hok
  obtain ⟨ha, hend⟩ := exec_vuEnc_ok hb ht hok
  have hn := vuEnc_length_bounds (a.setWidth 29) le
  have hrest : t.plen.toNat - off.toNat =
      (vuEnc (a.setWidth 29) le).length + (t.plen.toNat - (off.toNat + (vuEnc (a.setWidth 29) le).length)) := by omega
  have hval : ((a.setWidth 29).setWidth 64 : U64) = a := by
    apply BitVec.eq_of_toNat_eq
    rw [BitVec.toNat_setWidth, setWidth_29_toNat ha, Nat.mod_eq_of_lt a.isLt]
  refine ⟨?_, ?_⟩
  · rw [exec_vuDec_buffer (by rw [hend]; rfl) le hi.plenBound (by omega), hrest, Mem.readList_add, hread, vuDec_vuEnc,
      vuFromPb_value, hval, hend]
    rfl
  · rw [← setWidth_29_toNat ha, vuSize_eq_length _ le, hend]
    have hcnt : (BitVec.ofNat 4 (vuEnc (a.setWidth 29) le).length).toNat = (vuEnc (a.setWidth 29) le).length := by
      rw [BitVec.toNat_ofNat]
      omega
    exact congrArg some hcnt

end Sys2Proof.Machine
end

section
/-! The bytes of a VarUInt as numbers (40_varuint.md R100 to R102), and VU.ENC in both forms (R103). -/

namespace Sys2Proof.Machine

open Sys2Proof

/-! ## The bytes of a VarUInt as numbers -/

/-- A 7-bit group of a number with its continuation bit `c` above it (30_encoding.md R77). -/
theorem toNat_vuGroup (c : BitVec 1) (v : U29) (i : Nat) :
    (c ++ v.extractLsb' i 7 : BitVec 8).toNat = 128 * c.toNat + v.toNat / 2 ^ i % 128 := by
  rw [BitVec.toNat_append, BitVec.extractLsb'_toNat, ← Nat.shiftLeft_add_eq_or_of_lt (Nat.mod_lt _ (by norm_num)),
    Nat.shiftLeft_eq, Nat.shiftRight_eq_div_pow, Nat.mul_comm]

/-- The fourth byte, all of whose bits are the number's (R101, R102). -/
theorem toNat_vuFourth (v : U29) (i : Nat) : (v.extractLsb' i 8).toNat = v.toNat / 2 ^ i % 256 := by
  rw [BitVec.extractLsb'_toNat, Nat.shiftRight_eq_div_pow]

/-- The little-endian layout in base 128, least significant group first (R101). -/
theorem vuEncLe_toNat (v : U29) :
    (vuEncLe v).map BitVec.toNat =
      if v.toNat < 128 then [v.toNat]
      else if v.toNat < 16384 then [128 + v.toNat % 128, v.toNat / 128]
      else if v.toNat < 2097152 then [128 + v.toNat % 128, 128 + v.toNat / 128 % 128, v.toNat / 16384]
      else [128 + v.toNat % 128, 128 + v.toNat / 128 % 128, 128 + v.toNat / 16384 % 128, v.toNat / 2097152] := by
  have hv := v.isLt
  unfold vuEncLe
  split_ifs <;> simp [toNat_vuGroup, toNat_vuFourth, -BitVec.toNat_append, -BitVec.extractLsb'_toNat] <;> omega

/-- The big-endian layout, most significant group first (R102). -/
theorem vuEncBe_toNat (v : U29) :
    (vuEncBe v).map BitVec.toNat =
      if v.toNat < 128 then [v.toNat]
      else if v.toNat < 16384 then [128 + v.toNat / 128, v.toNat % 128]
      else if v.toNat < 2097152 then [128 + v.toNat / 16384, 128 + v.toNat / 128 % 128, v.toNat % 128]
      else [128 + v.toNat / 4194304, 128 + v.toNat / 32768 % 128, 128 + v.toNat / 256 % 128, v.toNat % 256] := by
  have hv := v.isLt
  unfold vuEncBe
  split_ifs <;> simp [toNat_vuGroup, toNat_vuFourth, -BitVec.toNat_append, -BitVec.extractLsb'_toNat] <;> omega

/-- Settles O15. -/
theorem varUIntLayout : Obligations.VarUIntLayout :=
  ⟨fun _ => rfl, fun v => ⟨vuEncLe_toNat v, vuEncBe_toNat v⟩⟩

/-! ## The bytes of a value on OUT -/

section
variable {s : State} {b : Byte} {bs : List Byte}

/-- A byte that the host takes (20_memory.md R58), with room left for the others. -/
theorem put_of_roomFor {n : Nat} (h : s.roomFor (n + 1) = true) (last : Bool) :
    s.put b last = some (s.putAll [⟨b, last⟩]) ∧ (s.putAll [⟨b, last⟩]).roomFor n = true := by
  unfold State.roomFor at h
  unfold State.put State.putAll State.roomFor
  cases hr : s.outRoom with
  | none => exact ⟨rfl, rfl⟩
  | some r =>
    rw [hr] at h
    cases r with
    | zero => simp at h
    | succ r => exact ⟨rfl, by simpa using h⟩

/-- One byte put, then the others. -/
theorem putAll_cons (o : OutByte) (os : List OutByte) : (s.putAll [o]).putAll os = s.putAll (o :: os) := by
  have hroom : ∀ r : Nat, r - 1 - os.length = r - (os.length + 1) := fun r => by omega
  simp [State.putAll, Function.comp_def, hroom]

/-- The end of a command forgets the place in it (10_state.md R32). -/
theorem putAll_advance_complete (os : List OutByte) (st : Status) (v : U64) (nv : Bool) (n : Nat) :
    (s.advance.putAll os).complete st v nv n = (s.putAll os).complete st v nv n := rfl

/-- After a byte of a value, the next one or the end of the command (10_state.md R30). -/
theorem afterPut_vOut {u : State} (hu : u.ph = .vOut) :
    s.afterPut u b = if s.txLen ≤ s.cur.toNat + 1 then u.complete .ok 0 false u.scratch.tx.length else u.advance := by
  simp only [State.afterPut, State.txFeed, State.txNext, hu]

theorem txLast_vOut (hp : s.ph = .vOut) : s.txLast = decide (s.txLen ≤ s.cur.toNat + 1) := by
  rw [State.txLast, hp]

/-- A value on OUT where the host takes its bytes: they are put, the last one marked, and the command completes (R103). -/
theorem units_value_sent (hp : s.ph = .vOut) (hbs : s.txRest = bs) (hne : bs ≠ [])
    (hlen : s.cur.toNat + bs.length < 2 ^ 32) (hroom : s.roomFor bs.length = true) :
    Units bs.length s ((s.putAll (marked bs)).complete .ok 0 false s.scratch.tx.length) := by
  induction bs generalizing s with
  | nil => exact absurd rfl hne
  | cons b bs ih =>
    obtain ⟨hb, htx⟩ := txByte_of_txRest (by simp [hp]) hbs
    obtain ⟨hput, hrest⟩ := put_of_roomFor (b := b) hroom s.txLast
    have hu : s.unit = some (.next (s.afterPut (s.putAll [⟨b, s.txLast⟩]) b)) := by
      rw [unit_sending (by rw [hp]; rfl), sendUnit_got hb, hput, Option.map_some]
    rw [afterPut_vOut (show (s.putAll _).ph = .vOut from hp)] at hu
    simp only [List.length_cons] at hlen
    cases bs with
    | nil =>
      have hlast : s.txLen ≤ s.cur.toNat + 1 := htx.le
      rw [if_pos hlast, txLast_vOut hp, decide_eq_true hlast] at hu
      exact .single hu
    | cons b' bs =>
      have hlast : ¬s.txLen ≤ s.cur.toNat + 1 := by rw [htx, List.length_cons]; omega
      rw [if_neg hlast, txLast_vOut hp, decide_eq_false hlast] at hu
      rw [txLast_vOut hp, decide_eq_false hlast] at hrest
      have hnext := txRest_next (by omega) hbs
      rw [State.fed, if_neg (by simp [Phase.feeds, hp])] at hnext
      have hcur : ((s.putAll [⟨b, false⟩]).advance).cur.toNat = s.cur.toNat + 1 :=
        toNat_add_one (c := s.cur) (by omega)
      have h := ih (s := (s.putAll [⟨b, false⟩]).advance) hp hnext (by simp) (by rw [hcur]; omega) hrest
      rw [putAll_advance_complete, putAll_cons] at h
      exact .head hu h

/-- A value's bytes to OUT (40_varuint.md R103, 41_varsint.md R125). -/
theorem encodeTo_stream (off : U32) (hne : bs ≠ []) (hlen : bs.length ≤ 8) (hroom : s.roomFor bs.length = true) :
    s.encodeTo true off bs = .next ((s.putAll (marked bs)).ended .ok 0 false bs.length 0) :=
  run_of_units (units_value_sent (s := { s.accept .vOut with scratch := { Scratch.init with tx := bs } }) rfl rfl hne
    (by simp; omega) hroom) (by rw [settleFuel]; omega) (unit_idle rfl)

/-- The write bound (20_memory.md R60). -/
theorem writable_iff (off : U32) (n : Nat) :
    s.writable off n = true ↔ ¬(s.plen.toNat < off.toNat ∨ Config.pbBytes < off.toNat + n) := by
  simp [State.writable]

end

/-! ## VU.ENC -/

/-- Settles O25: a number out of range, the stream form, and the write to PB or its refusal. -/
theorem vuEncResult : Obligations.VuEncResult := by
  intro le strm off a s hb bs hroom
  have hlen := (vuEnc_length_bounds (a.setWidth 29) le).2
  refine endsIn_of_eq ?_
  by_cases ha : 536870911 < a.toNat
  · rw [if_pos ha]
    exact exec_vuEnc_overflow hb le strm ha
  rw [if_neg ha]
  have ha' : a.toNat ≤ vuMax := not_lt.1 ha
  cases strm with
  | true =>
    rw [if_pos rfl, exec_vuEnc_stream hb le off ha']
    exact encodeTo_stream off (vuEnc_ne_nil _ _) (by omega) (hroom (not_lt.1 ha) rfl)
  | false =>
    rw [if_neg (by simp), exec_vuEnc_buffer hb le ha']
    by_cases hw : s.writable off bs.length = true
    · rw [if_pos hw, if_neg ((writable_iff off _).1 hw)]
      rfl
    · rw [if_neg hw, if_pos (not_not.1 ((writable_iff off _).not.1 hw))]

end Sys2Proof.Machine
end

section
/-! What each command leaves unchanged: a frame for each kind of run, from what one unit leaves unchanged in the phases that the
run can be in (10_state.md R30). -/

namespace Sys2Proof.Machine

open Sys2Proof

/-! ## What one unit leaves unchanged -/

/-- The host's side of the ports but IN and OUT, and the model's counter. -/
def State.hostSide (s : State) : Bool × List CmdWord × Bool × Nat := (s.rst, s.cmdQ, s.inEos, s.tick)

/-- The record registers but PLEN (10_state.md R28, R29, R35). -/
def State.recordRegs (s : State) : Byte × U32 × BitVec 3 × U32 := (s.sync, s.rid, s.crclen, s.crcb)

/-- A phase of VU.ENC, VU.DEC, VS.ENC or VS.DEC (R30). -/
def Phase.OfValue (p : Phase) : Prop := p = .vBuf ∨ p = .vIn ∨ p = .vOut

/-- Outside a record decode a byte that is read changes no record register (10_state.md R28, R29, R34, R35). -/
theorem Handled.keepsRegs {s t : State} (ht : Handled s (.next t)) (hp : s.ph.decoding = false) :
    t.plen = s.plen ∧ t.recordRegs = s.recordRegs := by
  cases ht with
  | raised =>
    rw [raise_eq_complete, if_neg (by simp [hp])]
    exact ⟨rfl, rfl⟩
  | recorded hend => obtain hf | hr | ⟨hf, _⟩ := hend <;> simp [*, Phase.decoding] at hp
  | _ => exact ⟨rfl, rfl⟩

theorem State.TakesTo.keepsRegs {s u : State} (hu : s.TakesTo u) : u.plen = s.plen ∧ u.recordRegs = s.recordRegs := by
  obtain rfl | ⟨b, q, _, rfl⟩ := hu <;> exact ⟨rfl, rfl⟩

/-- A byte put leaves PLEN, and the record registers but at the end of a record (43_record_framer.md R159). -/
theorem Sent.keepsRegs {s t : State} (ht : Sent s (.next t)) (hp : s.ph.sending = true) :
    t.plen = s.plen ∧ (s.ph = .vOut → t.recordRegs = s.recordRegs) := by
  cases ht with
  | advanced hu =>
    obtain ⟨q, room, c, x, rfl⟩ := hu
    exact ⟨rfl, fun _ => rfl⟩
  | left hu =>
    obtain ⟨q, room, c, x, rfl⟩ := hu
    obtain ⟨_, hn⟩ | ⟨he, hn⟩ | ⟨_, hn⟩ := txNext_cases (s := { s with outQ := q, outRoom := room, scratch := _ }) hp <;>
      rw [hn]
    · exact ⟨rfl, fun _ => rfl⟩
    · exact ⟨rfl, fun hv => by simp [hv] at he⟩
    · exact ⟨rfl, fun _ => rfl⟩

section
variable {s t : State} (h : s.unit = some (.next t))
include h

theorem unit_keeps_hostSide : t.hostSide = s.hostSide := by
  obtain ⟨f, _, ht, _⟩ := unit_effect h
  rw [ht]
  cases f <;> rfl

/-- Only a payload byte of a decode is stored in PB (43_record_framer.md R160, R170). -/
theorem unit_keeps_pb (hf : s.ph ≠ .fPay) (hr : s.ph ≠ .rPay) : t.pb = s.pb := by
  obtain ⟨f, _, ht, _⟩ := unit_effect h
  rw [ht, inside_pb, after_pb]
  cases f <;> simp [Effect.byte, Mem.storedIf, State.world, hf, hr]

/-- Only a staged byte is stored in RB (R171). -/
theorem unit_keeps_rb (hf : s.ph ≠ .rFill) : t.rb = s.rb := by
  obtain ⟨f, _, ht, _⟩ := unit_effect h
  rw [ht, inside_rb, after_rb]
  cases f <;> simp [Effect.byte, Mem.storedIf, State.world, hf]

/-- A unit that reads puts nothing on OUT. -/
theorem unit_keeps_out (hp : s.ph.sending = false) : t.outQ = s.outQ ∧ t.outRoom = s.outRoom := by
  obtain ⟨hs, _⟩ | ⟨_, u, hu, hh⟩ := unit_cases h
  · simp [hp] at hs
  · obtain ⟨hq, hr⟩ := hh.keepsOut
    obtain ⟨hq', hr'⟩ := hu.keepsOut
    exact ⟨hq.trans hq', hr.trans hr'⟩

/-- A unit that sends takes nothing from IN. -/
theorem unit_keeps_in_of_sending (hp : s.ph.sending = true) : t.inQ = s.inQ := by
  obtain ⟨_, hs⟩ | ⟨hr, _⟩ := unit_cases h
  · exact (hs.keepsIn hp).1
  · simp [reads_not_sending hr] at hp

/-- Nor does one that reads PB (20_memory.md R59). -/
theorem unit_keeps_in_of_vBuf (hp : s.ph = .vBuf) : t.inQ = s.inQ := by
  have hf : s.Fetches := ⟨by simp [hp, Phase.reads], by simp [hp]⟩
  have hn : s.nextByte = s.fetchPb (s.scratch.off.toNat + s.cur.toNat) s.plen.toNat := by simp only [State.nextByte, hp]
  rw [hf.unit, hn] at h
  unfold State.fetchPb at h
  split_ifs at h
  · cases h
    exact State.raise_inQ ..
  · cases h
  · injection h with h
    exact (h ▸ handleByte_handled hf.1 (by simp [hp]) _ : Handled s (.next t)).keepsIn.1

/-- PLEN changes in record decodes only. -/
theorem unit_keeps_plen (hp : s.ph.decoding = false) : t.plen = s.plen := by
  obtain ⟨hs, ht⟩ | ⟨_, u, hu, hh⟩ := unit_cases h
  · exact (ht.keepsRegs hs).1
  · exact (hh.keepsRegs (hu.ph ▸ hp)).1.trans hu.keepsRegs.1

/-- A value command leaves the record registers. -/
theorem unit_keeps_recordRegs (hp : s.ph.OfValue) : t.recordRegs = s.recordRegs := by
  obtain ⟨hs, ht⟩ | ⟨_, u, hu, hh⟩ := unit_cases h
  · exact (ht.keepsRegs hs).2 (by obtain hp | hp | hp := hp <;> simp [hp, Phase.sending] at hs ⊢)
  · refine (hh.keepsRegs (hu.ph ▸ ?_)).2.trans hu.keepsRegs.2
    obtain hp | hp | hp := hp <;> rw [hp] <;> rfl

end

/-! ## What a run leaves unchanged -/

/-- Phases that a command leaves only for others of them, until it ends (10_state.md R30). -/
def Phase.Closed (A : Phase → Prop) : Prop := ∀ p rev e, A p → A (p.leavesTo rev e) ∨ p.leavesTo rev e = .idle

section
variable {A : Phase → Prop} (hA : Phase.Closed A) {s t : State}
include hA

theorem Phase.Closed.unit (hs : A s.ph) (h : s.unit = some (.next t)) : A t.ph ∨ t.ph = .idle := by
  obtain hp | hp | ⟨hp, _⟩ := unit_phaseFollows h
  · exact .inl (hp ▸ hs)
  · rw [hp]
    exact hA _ _ _ hs
  · exact .inr hp

/-- What every unit in such phases leaves unchanged, a run that begins in them leaves unchanged. -/
theorem Phase.Closed.run {α : Type} {f : State → α} (hf : ∀ u v : State, A u.ph → u.unit = some (.next v) → f v = f u)
    (hs : A s.ph) (h : s.run = .next t) : f t = f s := by
  obtain ⟨k, hk⟩ := units_of_run h
  refine (hk.induction (P := fun u => (A u.ph ∨ u.ph = .idle) ∧ f u = f s) (fun u v hu huv => ?_) ⟨.inl hs, rfl⟩).2
  obtain ⟨hp | hp, hfu⟩ := hu
  · exact ⟨hA.unit hp huv, (hf u v hp huv).trans hfu⟩
  · simp [hp] at huv

end

theorem sending_not_decoding {p : Phase} (h : p.sending = true) : p.decoding = false := by
  cases p <;> simp_all [Phase.sending, Phase.decoding]

theorem closed_ofValue : Phase.Closed Phase.OfValue := by
  rintro p rev e (rfl | rfl | rfl) <;> exact .inr rfl

theorem closed_vBuf : Phase.Closed (· = .vBuf) := by
  rintro p rev e rfl
  exact .inr rfl

theorem closed_sending : Phase.Closed (·.sending = true) := fun _ _ _ hp =>
  or_iff_not_imp_right.2 fun hi => (sending_leavesTo hp hi).2.1

theorem closed_reads : Phase.Closed (·.reads = true) := by
  intro p rev e hp
  cases p <;> cases rev <;> cases e <;> simp_all [Phase.reads, Phase.decoding, Phase.leavesTo]

/-- A phase of REC.DECF (R30). -/
def Phase.Forward (p : Phase) : Prop := p ∈ [.fSync, .fId, .fLen, .fPay, .fCrc, .fRlen, .fTail]

theorem closed_forward : Phase.Closed Phase.Forward := by
  intro p rev e hp
  cases p <;> cases rev <;> cases e <;> simp_all [Phase.Forward, Phase.leavesTo]

section
variable {s t : State} (h : s.run = .next t)
include h

theorem run_keeps_hostSide : t.hostSide = s.hostSide :=
  Phase.Closed.run (A := fun _ => True) (fun _ _ _ _ => .inl trivial) (fun _ _ _ => unit_keeps_hostSide) trivial h

/-- A run of a value command leaves the record registers, PLEN and the buffers. -/
theorem run_keeps_of_value (hp : s.ph.OfValue) :
    t.recordRegs = s.recordRegs ∧ t.plen = s.plen ∧ t.pb = s.pb ∧ t.rb = s.rb := by
  refine ⟨closed_ofValue.run (fun _ _ hu huv => unit_keeps_recordRegs huv hu) hp h,
    closed_ofValue.run (fun _ _ hu huv => unit_keeps_plen huv ?_) hp h,
    closed_ofValue.run (fun _ _ hu huv => unit_keeps_pb huv ?_ ?_) hp h,
    closed_ofValue.run (fun _ _ hu huv => unit_keeps_rb huv ?_) hp h⟩ <;>
    obtain hu | hu | hu := hu <;> simp [hu, Phase.decoding]

/-- A run that reads puts nothing on OUT. -/
theorem run_keeps_out (hp : s.ph.reads = true) : t.outQ = s.outQ ∧ t.outRoom = s.outRoom :=
  ⟨closed_reads.run (fun _ _ hu huv => (unit_keeps_out huv (reads_not_sending hu)).1) hp h,
    closed_reads.run (fun _ _ hu huv => (unit_keeps_out huv (reads_not_sending hu)).2) hp h⟩

/-- A run that sends leaves IN, PLEN and the buffers. -/
theorem run_keeps_of_sending (hp : s.ph.sending = true) : t.inQ = s.inQ ∧ t.plen = s.plen ∧ t.pb = s.pb ∧ t.rb = s.rb := by
  refine ⟨closed_sending.run (fun _ _ hu huv => unit_keeps_in_of_sending huv hu) hp h,
    closed_sending.run (fun _ _ hu huv => unit_keeps_plen huv (sending_not_decoding hu)) hp h,
    closed_sending.run (fun _ _ hu huv => unit_keeps_pb huv ?_ ?_) hp h,
    closed_sending.run (fun _ _ hu huv => unit_keeps_rb huv ?_) hp h⟩ <;>
    intro hv <;> simp [hv, Phase.sending] at hu

theorem run_keeps_in_of_vBuf (hp : s.ph = .vBuf) : t.inQ = s.inQ :=
  closed_vBuf.run (fun _ _ hu huv => unit_keeps_in_of_vBuf huv hu) hp h

theorem run_keeps_rb_of_forward (hp : s.ph.Forward) : t.rb = s.rb :=
  closed_forward.run (fun _ _ hu huv => unit_keeps_rb huv (by rintro hv; simp [hv, Phase.Forward] at hu)) hp h

end

/-! ## What a command leaves unchanged -/

theorem keepsRecord_of {s t : State} (hregs : t.recordRegs = s.recordRegs) (hrb : t.rb = s.rb)
    (hhost : t.hostSide = s.hostSide) : s.keepsRecord t := by
  simp only [State.recordRegs, State.hostSide, Prod.mk.injEq] at hregs hhost
  obtain ⟨hsync, hrid, hlen, hcrc⟩ := hregs
  obtain ⟨hrst, hq, heos, htick⟩ := hhost
  exact ⟨hsync, hrid, hlen, hcrc, hrb, hrst, hq, htick, heos⟩

/-- A command of a codec that is not free leaves the state as it is (70_reset_and_hazards.md R224). -/
theorem whenFree_cases {s t : State} {r : Result} (h : s.whenFree r = .next t) : t = s ∨ r = .next t := by
  unfold State.whenFree at h
  split_ifs at h
  · cases h
    exact .inl rfl
  · exact .inr h

/-- What an encode of a value leaves unchanged (40_varuint.md R103, 41_varsint.md R125). -/
def State.EncodeFrame (s t : State) (strm : Bool) : Prop :=
  s.keepsRecord t ∧ t.inQ = s.inQ ∧ (if strm then t.plen = s.plen ∧ t.pb = s.pb else t.outQ = s.outQ ∧ t.outRoom = s.outRoom)

/-- What a decode of a value leaves unchanged (40_varuint.md R104, 41_varsint.md R126). -/
def State.DecodeFrame (s t : State) (strm : Bool) : Prop :=
  s.keepsRecord t ∧ t.plen = s.plen ∧ t.pb = s.pb ∧ t.outQ = s.outQ ∧ t.outRoom = s.outRoom ∧ (strm = false → t.inQ = s.inQ)

section
variable {s t : State} {strm : Bool} {off : U32}

theorem encodeFrame_failed (e : Status) : s.EncodeFrame (s.failed e 0) strm :=
  ⟨keepsRecord_of rfl rfl rfl, rfl, by cases strm <;> exact ⟨rfl, rfl⟩⟩

theorem encodeTo_frame {bs : List Byte} (h : s.encodeTo strm off bs = .next t) : s.EncodeFrame t strm := by
  cases strm with
  | true =>
    have hrun : State.run { s.accept .vOut with scratch := { Scratch.init with tx := bs } } = .next t := h
    obtain ⟨hregs, hplen, hpb, hrb⟩ := run_keeps_of_value hrun (.inr (.inr rfl))
    obtain ⟨hin, _⟩ := run_keeps_of_sending hrun rfl
    have hhost := run_keeps_hostSide hrun
    exact ⟨keepsRecord_of hregs hrb hhost, hin, hplen, hpb⟩
  | false =>
    rw [encodeTo_buffer] at h
    split_ifs at h <;> cases h
    · exact ⟨keepsRecord_of rfl rfl rfl, rfl, rfl, rfl⟩
    · exact encodeFrame_failed _

/-- An encode of a value is an Overflow, or its bytes go to PB or to OUT. -/
theorem encode_frame {r : Result}
    (hr : r = .next ((s.accept (if strm then .vOut else .vBuf)).raise .overflow) ∨ ∃ bs, r = s.encodeTo strm off bs)
    (h : s.whenFree r = .next t) : s.EncodeFrame t strm := by
  obtain rfl | h := whenFree_cases h
  · exact ⟨keepsRecord_of rfl rfl rfl, rfl, by cases strm <;> exact ⟨rfl, rfl⟩⟩
  · obtain rfl | ⟨bs, rfl⟩ := hr
    · rw [raise_accept_eq_failed s (by cases strm <;> rfl)] at h
      cases h
      exact encodeFrame_failed _
    · exact encodeTo_frame h

theorem execVuEnc_frame {le : Bool} {a : U64} (h : exec (.vuEnc le strm off a) s = .next t) : s.EncodeFrame t strm := by
  refine encode_frame (off := off) ?_ h
  split
  · exact .inl rfl
  · exact .inr ⟨_, rfl⟩

theorem execVsEnc_frame {le nvf : Bool} {a : U64} (h : exec (.vsEnc le strm nvf off a) s = .next t) :
    s.EncodeFrame t strm := by
  refine encode_frame (off := off) ?_ h
  split
  · exact .inl rfl
  · exact .inr ⟨_, rfl⟩

/-- A value read from PB, or from IN in the stream form. -/
theorem reading_frame {p : Phase} {k : Scratch} (hp : p = .vIn ∧ strm = true ∨ p = .vBuf)
    (h : State.run { s.accept p with scratch := k } = .next t) : s.DecodeFrame t strm := by
  have hv : p.OfValue ∧ p.reads = true := by obtain ⟨rfl, _⟩ | rfl := hp <;> simp [Phase.OfValue, Phase.reads]
  obtain ⟨hregs, hplen, hpb, hrb⟩ := run_keeps_of_value h hv.1
  obtain ⟨hq, hroom⟩ := run_keeps_out h hv.2
  have hhost := run_keeps_hostSide h
  have hin := run_keeps_in_of_vBuf h
  refine ⟨keepsRecord_of hregs hrb hhost, hplen, hpb, hq, hroom, fun hs => hin ?_⟩
  exact hp.resolve_left fun hv => by simp [hs] at hv

theorem decode_frame {signed le : Bool} (h : s.whenFree (s.decodeFrom signed le strm off) = .next t) :
    s.DecodeFrame t strm := by
  obtain rfl | h := whenFree_cases h
  · exact ⟨keepsRecord_of rfl rfl rfl, rfl, rfl, rfl, rfl, fun _ => rfl⟩
  unfold State.decodeFrom at h
  dsimp only at h
  split_ifs at h with hs
  · exact reading_frame (.inl ⟨rfl, hs⟩) h
  · cases h
    exact ⟨keepsRecord_of rfl rfl rfl, rfl, rfl, rfl, rfl, fun _ => rfl⟩
  · exact reading_frame (.inr rfl) h

theorem execPbPut_frame {b : Byte} (h : exec (.pbPut off b) s = .next t) :
    s.keepsRecord t ∧ t.inQ = s.inQ ∧ t.outQ = s.outQ ∧ t.outRoom = s.outRoom := by
  obtain rfl | h := whenFree_cases h
  · exact ⟨keepsRecord_of rfl rfl rfl, rfl, rfl, rfl⟩
  · split_ifs at h <;> cases h <;> exact ⟨keepsRecord_of rfl rfl rfl, rfl, rfl, rfl⟩

theorem execPbGet_frame (h : exec (.pbGet off) s = .next t) :
    s.keepsRecord t ∧ t.plen = s.plen ∧ t.pb = s.pb ∧ t.inQ = s.inQ ∧ t.outQ = s.outQ ∧ t.outRoom = s.outRoom := by
  obtain rfl | h := whenFree_cases h
  · exact ⟨keepsRecord_of rfl rfl rfl, rfl, rfl, rfl, rfl, rfl⟩
  · unfold State.fetchPb at h
    split_ifs at h <;> cases h <;> exact ⟨keepsRecord_of rfl rfl rfl, rfl, rfl, rfl, rfl, rfl⟩

theorem execPbClr_frame (h : exec .pbClr s = .next t) :
    t.pb = s.pb ∧ t.rb = s.rb ∧ t.inQ = s.inQ ∧ t.outQ = s.outQ ∧ t.outRoom = s.outRoom := by
  obtain rfl | h := whenFree_cases h
  · exact ⟨rfl, rfl, rfl, rfl, rfl⟩
  · cases h
    exact ⟨rfl, rfl, rfl, rfl, rfl⟩

theorem execRecEnc_frame {le rev enh : Bool} {a : U64} (h : exec (.recEnc le rev enh a) s = .next t) :
    t.pb = s.pb ∧ t.rb = s.rb ∧ t.plen = s.plen ∧ t.inQ = s.inQ := by
  obtain rfl | h := whenFree_cases h
  · exact ⟨rfl, rfl, rfl, rfl⟩
  dsimp only at h
  split_ifs at h
  · cases h
    exact ⟨rfl, rfl, rfl, rfl⟩
  · split at h
    · cases h
      exact ⟨rfl, rfl, rfl, rfl⟩
    · obtain ⟨hq, hplen, hpb, hrb⟩ := run_keeps_of_sending h rfl
      exact ⟨hpb, hrb, hplen, hq⟩

theorem execRecDecf_frame (h : exec .recDecf s = .next t) : t.rb = s.rb ∧ t.outQ = s.outQ ∧ t.outRoom = s.outRoom := by
  obtain rfl | h := whenFree_cases h
  · exact ⟨rfl, rfl, rfl⟩
  · have hrb := run_keeps_rb_of_forward h (by simp [Phase.Forward])
    have hout := run_keeps_out h rfl
    exact ⟨hrb, hout⟩

theorem execRecDecr_frame (h : exec .recDecr s = .next t) : t.outQ = s.outQ ∧ t.outRoom = s.outRoom := by
  obtain rfl | h := whenFree_cases h
  · exact ⟨rfl, rfl⟩
  · have hout := run_keeps_out h rfl
    exact hout

theorem execNop_frame (h : exec .nop s = .next t) : t.keepsRecord s ∧ t = { s with resp := t.resp } := by
  obtain rfl | h := whenFree_cases h
  · exact ⟨keepsRecord_of rfl rfl rfl, rfl⟩
  · cases h
    exact ⟨keepsRecord_of rfl rfl rfl, rfl⟩

end

/-- Settles O33, command by command. -/
theorem commandFrame : Obligations.CommandFrame := by
  intro i s t h
  cases i with
  | nop => exact execNop_frame h
  | vuEnc => exact execVuEnc_frame h
  | vuDec => exact decode_frame h
  | vsEnc => exact execVsEnc_frame h
  | vsDec => exact decode_frame h
  | pbPut => exact execPbPut_frame h
  | pbGet => exact execPbGet_frame h
  | pbClr => exact execPbClr_frame h
  | recEnc => exact execRecEnc_frame h
  | recDecf => exact execRecDecf_frame h
  | recDecr => exact execRecDecr_frame h
  | _ => trivial

end Sys2Proof.Machine
end

section
/-! VarSInts as numbers: the bands and their sizes (41_varsint.md R121, R122), the bytes in base 256 (R123, R124), and how the
decoding of one ends (R127, R129, R130). -/

namespace Sys2Proof.Machine

open Sys2Proof

/-! ## The size of a magnitude -/

theorem vsSize_eq_none_iff (mag : Nat) : vsSize mag = none ↔ vsMax < mag := by
  unfold vsSize
  split_ifs with h <;> simp [h]

theorem bandFloor_mono : ∀ r ≤ 8, ∀ s ≤ r, bandFloor s ≤ bandFloor r := by decide

/-- No band above the one of a magnitude starts at or below it (R122). -/
theorem le_vsSize {mag s r : Nat} (hs : vsSize mag = some s) (hr : r ≤ 8) (hf : bandFloor r ≤ mag) : r ≤ s := by
  by_contra hlt
  have hnext : bandFloor (s + 1) ≤ mag := (bandFloor_mono r hr (s + 1) (by omega)).trans hf
  unfold vsSize at hs
  split_ifs at hs <;> cases hs
  · exact hlt hr
  all_goals contradiction

/-- "The largest s in 1..8 with F[s] <= mag", Overflow above VS_MAX (R122). -/
theorem vsSize_eq_some_iff (mag s : Nat) :
    vsSize mag = some s ↔
      mag ≤ vsMax ∧ 1 ≤ s ∧ s ≤ 8 ∧ bandFloor s ≤ mag ∧ ∀ r, 1 ≤ r → r ≤ 8 → bandFloor r ≤ mag → r ≤ s := by
  constructor
  · intro h
    obtain ⟨h1, h8, hf, hmax, _⟩ := vsSize_bounds h
    exact ⟨hmax, h1, h8, hf, fun r _ hr => le_vsSize h hr⟩
  · rintro ⟨hmax, h1, h8, hf, hlargest⟩
    obtain ⟨t, ht⟩ := Option.ne_none_iff_exists'.1 ((vsSize_eq_none_iff mag).not.2 (not_lt.2 hmax))
    obtain ⟨ht1, ht8, htf, _⟩ := vsSize_bounds ht
    rw [ht, le_antisymm (hlargest t ht1 ht8 htf) (le_vsSize ht h8 hf)]

/-- The payload of a magnitude fits the field of its size (R122, R123). -/
theorem vsSize_payload_lt {mag s : Nat} (h : vsSize mag = some s) : mag - bandFloor s < 2 ^ (8 * s - 4) := by
  obtain ⟨_, _, _, _, hp⟩ := vsSize_bounds h
  have := Nat.two_pow_pos (8 * s - 4)
  split at hp <;> omega

/-- The floors of the table of R121. -/
def floorTable : List Nat := [0, 16, 4110, 1052685, 269488140, 68988964875, 17661175009290, 4521260802379785]

theorem floorTable_getD {s : Nat} (h1 : 1 ≤ s) (h8 : s ≤ 8) : floorTable.getD (s - 1) 0 = bandFloor s := by
  interval_cases s <;> rfl

/-- Settles O16: the floors written out are those of the bands the size is chosen by. -/
theorem varSIntSize : Obligations.VarSIntSize := by
  refine ⟨rfl, fun mag s => ⟨?_, vsSize_eq_none_iff mag, fun h => ?_⟩⟩
  · rw [vsSize_eq_some_iff]
    refine and_congr_right' (and_congr_right fun h1 => and_congr_right fun h8 => and_congr ?_ ?_)
    · rw [← floorTable_getD h1 h8]
      rfl
    · refine forall_congr' fun r => forall₂_congr fun hr1 hr8 => ?_
      rw [← floorTable_getD hr1 hr8]
      rfl
  · obtain ⟨h1, h8, _⟩ := vsSize_bounds h
    have hp := vsSize_payload_lt h
    rwa [← floorTable_getD h1 h8] at hp

/-! ## The bytes of a VarSInt as numbers -/

/-- The flag nibble `N = {g, (s-1)[2:0]}` (R123). -/
theorem toNat_vsNibble (g : Bool) {s : Nat} (h1 : 1 ≤ s) (h8 : s ≤ 8) :
    (vsNibble g s).toNat = (if g then 8 else 0) + (s - 1) := by
  interval_cases s <;> cases g <;> rfl

/-- The little-endian word `W = (P << 4) | N` (R123). -/
theorem toNat_wordLe (nib : BitVec 4) {p : U64} (hp : p.toNat < 2 ^ 60) :
    ((p <<< 4) ||| nib.setWidth 64).toNat = p.toNat * 16 + nib.toNat := by
  have hn := nib.isLt
  rw [BitVec.toNat_or, BitVec.toNat_shiftLeft, BitVec.toNat_setWidth, Nat.mod_eq_of_lt (by omega : nib.toNat < 2 ^ 64),
    Nat.mod_eq_of_lt (by rw [Nat.shiftLeft_eq]; omega), ← Nat.shiftLeft_add_eq_or_of_lt hn, Nat.shiftLeft_eq]

/-- The big-endian word `W = (N << (8s-4)) | P` (R124), the payload field being `k` bits. -/
theorem toNat_wordBe (nib : BitVec 4) {p : U64} {k : Nat} (hk : k ≤ 60) (hp : p.toNat < 2 ^ k) :
    ((nib.setWidth 64 <<< k) ||| p).toNat = nib.toNat * 2 ^ k + p.toNat := by
  have hn : nib.toNat * 2 ^ k < 2 ^ 64 :=
    calc nib.toNat * 2 ^ k < 2 ^ 4 * 2 ^ k := Nat.mul_lt_mul_of_pos_right nib.isLt (Nat.two_pow_pos k)
      _ ≤ 2 ^ 4 * 2 ^ 60 := Nat.mul_le_mul_left _ (Nat.pow_le_pow_right (by norm_num) hk)
  rw [BitVec.toNat_or, BitVec.toNat_shiftLeft, BitVec.toNat_setWidth,
    Nat.mod_eq_of_lt (nib.isLt.trans (by norm_num) : nib.toNat < 2 ^ 64), Nat.mod_eq_of_lt (by rwa [Nat.shiftLeft_eq]),
    ← Nat.shiftLeft_add_eq_or_of_lt hp, Nat.shiftLeft_eq]

/-- Byte `i` of a word is its base-256 digit `i`. -/
theorem toNat_wordByte (w : U64) (i : Nat) : (w.extractLsb' (8 * i) 8).toNat = w.toNat / 256 ^ i % 256 := by
  rw [BitVec.extractLsb'_toNat, Nat.shiftRight_eq_div_pow, pow_mul]
  rfl

/-- Settles O17: the bytes are the digits of the word of each byte order. -/
theorem varSIntLayout : Obligations.VarSIntLayout := by
  intro g s p h1 h8 hp nib
  have hk : 8 * s - 4 ≤ 60 := by omega
  have hp60 : p < 2 ^ 60 := hp.trans_le (Nat.pow_le_pow_right (by norm_num) hk)
  have hpv : (BitVec.ofNat 64 p).toNat = p := Nat.mod_eq_of_lt (by omega)
  have hnib : (vsNibble g s).toNat = nib := toNat_vsNibble g h1 h8
  constructor
  · have hw := toNat_wordLe (vsNibble g s) (p := BitVec.ofNat 64 p) (by rwa [hpv])
    rw [hpv, hnib] at hw
    rw [vsLayout, if_pos rfl, vsEncLe, List.map_map]
    exact List.map_congr_left fun i _ => by rw [Function.comp, toNat_wordByte, hw]
  · have hw := toNat_wordBe (vsNibble g s) (p := BitVec.ofNat 64 p) hk (by rwa [hpv])
    rw [hpv, hnib] at hw
    rw [vsLayout, if_neg (by simp), vsEncBe, List.map_map]
    exact List.map_congr_left fun i _ => by rw [Function.comp, toNat_wordByte, hw]

/-! ## How a VarSInt ends -/

theorem nibSize_pos (nib : BitVec 4) : 1 ≤ nibSize nib := Nat.succ_pos _

/-- A payload field has at most 60 bits (R123, R127). -/
theorem vsPayload_lt (le : Bool) {s : Nat} (h8 : s ≤ 8) (w : U64) : (vsPayload le s w).toNat < 2 ^ 60 := by
  cases le
  · have hk : 2 ^ (8 * s - 4) ≤ 2 ^ 60 := Nat.pow_le_pow_right (by norm_num) (by omega)
    have hmask : (2 ^ (8 * s - 4) - 1) % 2 ^ 64 ≤ 2 ^ (8 * s - 4) - 1 := Nat.mod_le _ _
    have hand := Nat.and_le_right (n := w.toNat) (m := (2 ^ (8 * s - 4) - 1) % 2 ^ 64)
    have hpos := Nat.two_pow_pos (8 * s - 4)
    rw [vsPayload, if_neg (by simp), BitVec.toNat_and, BitVec.toNat_ofNat]
    omega
  · have hw := w.isLt
    rw [vsPayload, if_pos rfl, BitVec.toNat_ushiftRight, Nat.shiftRight_eq_div_pow]
    omega

/-- Only the 8-byte payload of 60 ones lies above VS_MAX (R121, R130). -/
theorem vsMax_lt_iff {s p : Nat} (h1 : 1 ≤ s) (h8 : s ≤ 8) (hp : p < 2 ^ 60) :
    vsMax < bandFloor s + p ↔ s = 8 ∧ p = 2 ^ 60 - 1 := by
  have hfloor : s < 8 ∧ bandFloor s ≤ bandFloor 7 ∨ s = 8 := by interval_cases s <;> decide
  rw [show bandFloor 7 = 17661175009290 from rfl] at hfloor
  rw [vsMax]
  obtain ⟨hlt, hf⟩ | rfl := hfloor
  · omega
  · rw [show bandFloor 8 = 4521260802379785 from rfl]
    omega

/-- A magnitude with its sign (R127). -/
theorem toInt_signed {mag : Nat} (h : mag ≤ vsMax) (g : Bool) :
    (if g then -(BitVec.ofNat 64 mag) else BitVec.ofNat 64 mag).toInt = if g then -(mag : Int) else mag := by
  have hmax : mag < 2 ^ 62 := h.trans_lt (by decide)
  have hmag : (BitVec.ofNat 64 mag).toInt = mag := by
    rw [BitVec.toInt_eq_toNat_bmod, BitVec.toNat_ofNat, Nat.mod_eq_of_lt (by omega)]
    exact Int.bmod_eq_of_le (by omega) (by omega)
  cases g
  · exact hmag
  · rw [if_pos rfl, if_pos rfl, BitVec.toInt_neg, hmag]
    exact Int.bmod_eq_of_le (by omega) (by omega)

/-- Settles O18: the three branches of the end of `VS_DEC`. -/
theorem varSIntEnd : Obligations.VarSIntEnd := by
  intro le nib w s p
  have h1 : 1 ≤ s := nibSize_pos nib
  have h8 : s ≤ 8 := nibSize_le nib
  have hover : vsMax < bandFloor s + p ↔ s = 8 ∧ p = 2 ^ 60 - 1 := vsMax_lt_iff h1 h8 (vsPayload_lt le h8 w)
  have hzero : vsPayload le s w = 0 ↔ p = 0 := BitVec.toNat_eq
  have hfinish : vsFinish le nib w = if s = 1 ∧ nibSign nib = true ∧ vsPayload le s w = 0 then .noValue
      else if vsMax < bandFloor s + p then .overflow
      else .value (if nibSign nib then -(BitVec.ofNat 64 (bandFloor s + p)) else BitVec.ofNat 64 (bandFloor s + p)) := rfl
  rw [hfinish, ← hzero, ← hover]
  by_cases hn : s = 1 ∧ nibSign nib = true ∧ vsPayload le s w = 0
  · have hfits : ¬vsMax < bandFloor s + p := fun ho => by have := hover.1 ho; omega
    rw [if_pos hn]
    exact ⟨iff_of_true rfl hn, iff_of_false nofun hfits, nofun⟩
  rw [if_neg hn]
  by_cases ho : vsMax < bandFloor s + p
  · rw [if_pos ho]
    exact ⟨iff_of_false nofun hn, iff_of_true rfl ho, nofun⟩
  rw [if_neg ho]
  refine ⟨iff_of_false nofun hn, iff_of_false nofun ho, ?_⟩
  rintro v ⟨⟩
  exact toInt_signed (not_lt.1 ho) _

end Sys2Proof.Machine
end

section
/-! What VS.DEC comes to (41_varsint.md R126 to R130), for the bytes of PB below PLEN and those of IN alike, what VS.ENC comes to
(R125), and what it wrote to PB read back (R132). -/

namespace Sys2Proof.Machine

open Sys2Proof

/-! ## VarSInts from any byte on -/

/-- `VS_DEC` from byte `i` on, with the flag nibble and the shift register as they stand (41_varsint.md R127). -/
def vsDecFrom (le : Bool) (nib : BitVec 4) (w : U64) (i : Nat) (bs : List Byte) : Option (VsValue × Nat) :=
  if bs.length < nibSize nib - i then none
  else some (vsFinish le nib (vsShiftAll le w i (bs.take (nibSize nib - i))), nibSize nib)

section
variable {le : Bool} {nib : BitVec 4} {w : U64} {i : Nat} {b : Byte} {bs : List Byte}

theorem vsDec_cons : vsDec le (b :: bs) = vsDecFrom le (firstNibble le b) (b.setWidth 64) 1 bs := rfl

theorem vsDecFrom_nil (h : i < nibSize nib) : vsDecFrom le nib w i [] = none := if_pos (Nat.sub_pos_of_lt h)

theorem vsDecFrom_cons (h : i < nibSize nib) :
    vsDecFrom le nib w i (b :: bs) = vsDecFrom le nib (vsShiftIn le w i b) (i + 1) bs := by
  have hm : nibSize nib - i = nibSize nib - (i + 1) + 1 := by omega
  simp [vsDecFrom, vsShiftAll, hm]

theorem vsDecFrom_complete (h : nibSize nib ≤ i) : vsDecFrom le nib w i bs = some (vsFinish le nib w, nibSize nib) := by
  simp [vsDecFrom, vsShiftAll, Nat.sub_eq_zero_of_le h]

/-- A VarSInt has the size that its flag nibble declares. -/
theorem vsDecFrom_size {v : VsValue} {n : Nat} (h : vsDecFrom le nib w i bs = some (v, n)) : n = nibSize nib := by
  unfold vsDecFrom at h
  split_ifs at h
  cases h
  rfl

end

/-! ## The bytes of a VarSInt decode -/

/-- The scratch registers after the byte of a VarSInt at `cur` (R127). -/
def Scratch.vsJoined (k : Scratch) (cur : U32) (b : Byte) : Scratch :=
  if cur = 0 then { k with nib := firstNibble k.le b, shift := b.setWidth 64 }
  else { k with shift := vsShiftIn k.le k.shift cur.toNat b }

section
variable (k : Scratch) (cur : U32) (b : Byte)

@[simp] theorem vsJoined_le : (k.vsJoined cur b).le = k.le := by unfold Scratch.vsJoined; split_ifs <;> rfl
@[simp] theorem vsJoined_signed : (k.vsJoined cur b).signed = k.signed := by unfold Scratch.vsJoined; split_ifs <;> rfl
@[simp] theorem vsJoined_off : (k.vsJoined cur b).off = k.off := by unfold Scratch.vsJoined; split_ifs <;> rfl

end

/-- The codec reads a VarSInt, and its next byte is the first one or one that the flag nibble declares. -/
structure State.ReadsVarSInt (s : State) : Prop where
  reads : s.ReadsValue
  signed : s.scratch.signed = true
  place : s.cur = 0 ∨ s.cur.toNat < nibSize s.scratch.nib

/-- What `VS_DEC` makes of the bytes `bs` from the place of `s` on. -/
def State.vsRest (s : State) (bs : List Byte) : Option (VsValue × Nat) :=
  if s.cur = 0 then vsDec s.scratch.le bs else vsDecFrom s.scratch.le s.scratch.nib s.scratch.shift s.cur.toNat bs

/-- The command ends with a VarSInt of `n` bytes (R126). -/
def State.vsClosed (s : State) : VsValue → Nat → State
  | .value v, n => s.complete .ok v false n
  | .noValue, _ => s.complete .noValue 0 true 1
  | .overflow, _ => s.raise .overflow

/-- How a VarSInt decode from the place of `s` ends, by what `VS_DEC` makes of the bytes to come: as R126 says, or cut short
(R128). -/
def State.vsEnd (s : State) : Option (VsValue × Nat) → State
  | some (v, n) => (s.passed (n - s.cur.toNat)).vsClosed v n
  | none => (s.passed s.upcoming.length).raise .truncatedRead

section
variable {s : State} {b : Byte} {bs : List Byte}

theorem State.ReadsVarSInt.cur_lt (h : s.ReadsVarSInt) : s.cur.toNat < 8 := by
  obtain h0 | hlt := h.place
  · simp [h0]
  · exact hlt.trans_le (nibSize_le _)

theorem State.ReadsVarSInt.cur_lt_size (h : s.ReadsVarSInt) : s.cur.toNat < nibSize (s.scratch.vsJoined s.cur b).nib := by
  by_cases h0 : s.cur = 0
  · rw [h0]
    exact nibSize_pos _
  · rw [Scratch.vsJoined, if_neg h0]
    exact h.place.resolve_left h0

theorem vsRest_nil (h : s.ReadsVarSInt) : s.vsRest [] = none := by
  unfold State.vsRest
  split_ifs with h0
  · rfl
  · exact vsDecFrom_nil (h.place.resolve_left h0)

theorem vsRest_cons (h : s.ReadsVarSInt) :
    s.vsRest (b :: bs) =
      vsDecFrom s.scratch.le (s.scratch.vsJoined s.cur b).nib (s.scratch.vsJoined s.cur b).shift (s.cur.toNat + 1) bs := by
  unfold State.vsRest Scratch.vsJoined
  split_ifs with h0
  · rw [vsDec_cons, h0]
    rfl
  · exact vsDecFrom_cons (h.place.resolve_left h0)

/-- After the last byte the command ends (R126, R127). -/
theorem vsDone_eq_vsClosed (k : Scratch) :
    ({ s with scratch := k } : State).vsDone = s.vsClosed (vsFinish k.le k.nib k.shift) (nibSize k.nib) := by
  unfold State.vsDone
  cases vsFinish k.le k.nib k.shift with
  | value v => rfl
  | noValue => rfl
  | overflow => exact raise_at_place s s.cur k .overflow

/-- A VarSInt byte in a value decode: its bytes are complete, or another one is due (R127). -/
theorem handleByte_vs_value (h : s.ReadsVarSInt) (b : Byte) :
    s.handleByte b = .next
      (if nibSize (s.scratch.vsJoined s.cur b).nib ≤ s.cur.toNat + 1 then
        s.vsClosed (vsFinish s.scratch.le (s.scratch.vsJoined s.cur b).nib (s.scratch.vsJoined s.cur b).shift)
          (nibSize (s.scratch.vsJoined s.cur b).nib)
      else s.nextPlace (s.scratch.vsJoined s.cur b)) := by
  have hp : s.ph = .vBuf ∨ s.ph = .vIn := h.reads.imp_left And.left
  have hslot : s.slot = if s.cur = 0 then some (.vsFirst s.scratch.le) else none := by
    obtain hp | hp := hp <;> simp [State.slot, hp, h.signed]
  by_cases h0 : s.cur = 0
  · have hone : nibSize (firstNibble s.scratch.le b) = 1 ↔ nibSize (firstNibble s.scratch.le b) ≤ s.cur.toNat + 1 := by
      have := nibSize_pos (firstNibble s.scratch.le b)
      have hz : s.cur.toNat = 0 := congrArg BitVec.toNat h0
      omega
    rw [if_pos h0] at hslot
    rw [handleByte_vsFirst b hslot, Scratch.vsJoined, if_pos h0]
    exact congrArg _ (if_congr hone (vsDone_eq_vsClosed _) rfl)
  · have hdata : s.dataByte b = .next (s.vsMore b) := by obtain hp | hp := hp <;> rw [State.dataByte, hp]
    rw [if_neg h0] at hslot
    rw [handleByte_data b hslot, hdata, Scratch.vsJoined, if_neg h0]
    exact congrArg _ (if_congr Iff.rfl (vsDone_eq_vsClosed _) rfl)

/-- The end of a command forgets the place in the value. -/
theorem vsClosed_at_place (c : U32) (k : Scratch) (v : VsValue) (n : Nat) :
    ({ s with cur := c, scratch := k } : State).vsClosed v n = s.vsClosed v n := by
  cases v with
  | value v => rfl
  | noValue => rfl
  | overflow => exact raise_at_place s c k .overflow

/-- The end is the same from the next place on. -/
theorem vsEnd_nextPlace (hbs : s.upcoming = b :: bs) (hc : s.cur.toNat + 1 < 2 ^ 32) {k : Scratch} (hk : k.off = s.scratch.off)
    {r : Option (VsValue × Nat)} (hr : ∀ v n, r = some (v, n) → s.cur.toNat + 1 < n) :
    ((s.passed 1).nextPlace k).vsEnd r = s.vsEnd r := by
  cases r with
  | none => exact vuEnd_nextPlace (r := none) hbs hc hk (by simp)
  | some r =>
    obtain ⟨v, n⟩ := r
    have hlt := hr v n rfl
    have hcur : ((s.passed 1).nextPlace k).cur.toNat = s.cur.toNat + 1 := by
      rw [nextPlace_cur, passed_cur, toNat_add_one hc]
    simp only [State.vsEnd, hcur, passed_succ, vsClosed_at_place]
    rw [show n - (s.cur.toNat + 1) + 1 = n - s.cur.toNat by omega]

/-- One place on, the codec reads the same VarSInt. -/
theorem State.ReadsVarSInt.nextPlace (h : s.ReadsVarSInt) (hlt : s.cur.toNat + 1 < nibSize (s.scratch.vsJoined s.cur b).nib) :
    ((s.passed 1).nextPlace (s.scratch.vsJoined s.cur b)).ReadsVarSInt ∧
      ∀ bs, ((s.passed 1).nextPlace (s.scratch.vsJoined s.cur b)).vsRest bs = s.vsRest (b :: bs) := by
  have hcur : (s.cur + 1).toNat = s.cur.toNat + 1 := toNat_add_one (by have := h.cur_lt; omega)
  have hne : s.cur + 1 ≠ 0 := fun h0 => by rw [h0] at hcur; simp at hcur
  refine ⟨⟨by simpa [State.ReadsValue] using h.reads, (vsJoined_signed ..).trans h.signed, .inr ?_⟩, fun bs => ?_⟩
  · rw [nextPlace_cur, passed_cur, hcur]
    exact hlt
  · rw [vsRest_cons h, State.vsRest, nextPlace_cur, passed_cur, if_neg hne, hcur, State.nextPlace, vsJoined_le]

end

/-- A VarSInt is read byte by byte to its end (R127). -/
theorem units_vs {bs : List Byte} {s : State} (h : s.ReadsVarSInt) (hbs : s.upcoming = bs)
    (he : s.vsRest bs = none → s.ph = .vIn → s.inEos = true) : ∃ j, Units j s (s.vsEnd (s.vsRest bs)) := by
  induction bs generalizing s with
  | nil =>
    refine ⟨1, .single ?_⟩
    rw [unit_upcoming_nil h.reads (he (vsRest_nil h)) hbs, vsRest_nil h, State.vsEnd, hbs, List.length_nil, passed_zero]
  | cons b bs ih =>
    have hu := unit_upcoming_cons h.reads hbs
    have hpassed : (s.passed 1).ReadsVarSInt := ⟨h.reads.passed 1, by simpa using h.signed, by simpa using h.place⟩
    rw [handleByte_vs_value hpassed, passed_cur, passed_scratch] at hu
    split_ifs at hu with hfull
    · refine ⟨1, .single (hu.trans ?_)⟩
      have hsize : nibSize (s.scratch.vsJoined s.cur b).nib - s.cur.toNat = 1 := by
        have := h.cur_lt_size (b := b)
        omega
      rw [vsRest_cons h, vsDecFrom_complete hfull, State.vsEnd, hsize]
    · obtain ⟨hnext, hrest⟩ := h.nextPlace (b := b) (by omega)
      have hc : s.cur.toNat + 1 < 2 ^ 32 := by have := h.cur_lt; omega
      obtain ⟨j, hj⟩ := ih hnext (upcoming_nextPlace hbs hc (vsJoined_off ..)) (by simpa [hrest] using he)
      rw [hrest, vsEnd_nextPlace hbs hc (vsJoined_off ..)] at hj
      · exact ⟨j + 1, .head hu hj⟩
      · intro v n hd
        rw [vsRest_cons h] at hd
        have := vsDecFrom_size hd
        omega

/-- A VarSInt decode that has been accepted runs to that end. -/
theorem run_vs {s : State} (h : s.ReadsValue) (hs : s.scratch.signed = true) (hc : s.cur = 0)
    (he : vsDec s.scratch.le s.upcoming = none → s.ph = .vIn → s.inEos = true) :
    s.run = .next (s.vsEnd (vsDec s.scratch.le s.upcoming)) := by
  have hrest : s.vsRest s.upcoming = vsDec s.scratch.le s.upcoming := if_pos hc
  rw [← hrest] at he ⊢
  obtain ⟨j, hj⟩ := units_vs ⟨h, hs, .inl hc⟩ rfl he
  refine run_of_reading_units hj ?_ (unit_idle ?_)
  · obtain ⟨hp, _⟩ | hp := h <;> rw [hp] <;> rfl
  · cases s.vsRest s.upcoming with
    | none => exact State.raise_ph ..
    | some r =>
      obtain ⟨v, n⟩ := r
      cases v with
      | value v => rfl
      | noValue => rfl
      | overflow => exact State.raise_ph ..

/-! ## VS.DEC -/

/-- VS.DEC accepted, from IN. -/
def State.vsFromIn (s : State) (le : Bool) : State :=
  { s.accept .vIn with scratch := { Scratch.init with signed := true, le := le } }

/-- VS.DEC accepted, from PB at OFF. -/
def State.vsFromPb (s : State) (le : Bool) (off : U32) : State :=
  { s.accept .vBuf with scratch := { Scratch.init with signed := true, le := le, off := off } }

section
variable {s : State} (hb : s.busy = false) (le : Bool) {off : U32}
include hb

/-- VS.DEC from IN runs to the end of its value (R126). -/
theorem exec_vsDec_stream (h : (vsDec le s.inQ).isSome = true ∨ s.inEos = true) :
    exec (.vsDec le true off) s = .next ((s.vsFromIn le).vsEnd (vsDec le s.inQ)) :=
  (whenFree_free hb _).trans <| run_vs (s := s.vsFromIn le) (.inr rfl) rfl rfl fun hd _ =>
    h.resolve_left (by rw [show vsDec le s.inQ = none from hd]; simp)

/-- So does VS.DEC from PB, with a valid byte at OFF. -/
theorem exec_vsDec_buffer (hp : s.plen.toNat ≤ Config.pbBytes) (ho : off.toNat < s.plen.toNat) :
    exec (.vsDec le false off) s = .next
      ((s.vsFromPb le off).vsEnd (vsDec le (s.pb.readList off.toNat (s.plen.toNat - off.toNat)))) := by
  refine (whenFree_free hb _).trans (.trans ?_ (run_vs (s := s.vsFromPb le off) (.inl ⟨rfl, hp⟩) rfl rfl ?_))
  · exact if_neg (not_le.2 ho)
  · rintro - ⟨⟩

/-- With no valid byte at OFF nothing is read (R126). -/
theorem exec_vsDec_invalid (ho : s.plen.toNat ≤ off.toNat) :
    exec (.vsDec le false off) s = .next (s.failed .invalidOffset 0) :=
  (whenFree_free hb _).trans (if_pos ho)

end

section
variable (s : State) (le : Bool) (off : U32) (v : VsValue) (n : Nat)

theorem vsFromIn_decoded : (s.vsFromIn le).vsEnd (some (v, n)) = ({ s with inQ := s.inQ.drop n } : State).vsEnded n v n := by
  cases v <;>
    simp [State.vsEnd, State.vsClosed, State.vsFromIn, State.passed, State.complete, State.raise, Phase.decoding, State.setResult,
      State.respond, State.vsEnded, State.failed, State.ended]

theorem vsFromIn_short : (s.vsFromIn le).vsEnd none = ({ s with inQ := [] } : State).failed .truncatedRead s.inQ.length :=
  vuFromIn_short s le

theorem vsFromPb_decoded : (s.vsFromPb le off).vsEnd (some (v, n)) = s.vsEnded 0 v n := by
  cases v <;> rfl

theorem vsFromPb_short : (s.vsFromPb le off).vsEnd none = s.failed .truncatedRead 0 := rfl

end

/-- Settles O28: the run of VS.DEC, in both forms. -/
theorem vsDecResult : Obligations.VsDecResult := by
  intro le strm off s hb hp hq
  refine endsIn_of_eq ?_
  cases strm with
  | true =>
    rw [exec_vsDec_stream hb le (hq rfl), if_pos rfl]
    cases vsDec le s.inQ with
    | none => exact congrArg _ (vsFromIn_short s le)
    | some r => exact congrArg _ (vsFromIn_decoded s le r.1 r.2)
  | false =>
    rw [if_neg (by simp)]
    by_cases ho : s.plen.toNat ≤ off.toNat
    · rw [exec_vsDec_invalid hb le ho, if_pos ho]
    · rw [exec_vsDec_buffer hb le (hp rfl) (by omega), if_neg ho]
      cases vsDec le (s.pb.readList off.toNat (s.plen.toNat - off.toNat)) with
      | none => exact congrArg _ (vsFromPb_short s le off)
      | some r => exact congrArg _ (vsFromPb_decoded s le off r.1 r.2)

/-! ## VS.ENC -/

/-- The bytes of VS.ENC, the sentinel where NVF is 1 (R125, R131); none where it raises Overflow. -/
def vsEncoded (le nvf : Bool) (a : U64) : Option (List Byte) := if nvf then some [vsSentinel le] else vsEnc le a

/-- `SPLIT` as sign and absolute value (R120). -/
theorem vsSplit_eq (a : U64) : vsSplit a = (decide (a.toInt < 0), a.toInt.natAbs) := by
  have ha := a.isLt
  rw [vsSplit, Prod.mk.injEq]
  refine ⟨BitVec.msb_eq_toInt, ?_⟩
  rw [BitVec.toInt_eq_msb_cond]
  split_ifs <;> omega

theorem vsEncoded_length_bounds {le nvf : Bool} {a : U64} {bs : List Byte} (h : vsEncoded le nvf a = some bs) :
    1 ≤ bs.length ∧ bs.length ≤ 8 := by
  unfold vsEncoded at h
  split_ifs at h
  · cases h
    exact ⟨le_rfl, by norm_num⟩
  · obtain ⟨n, hn, rfl⟩ := Option.map_eq_some_iff.1 (show Option.map _ (vsSize (vsSplit a).2) = some bs from h)
    obtain ⟨h1, h8, _⟩ := vsSize_bounds hn
    rw [vsLayout_length]
    exact ⟨h1, h8⟩

/-- A value's bytes to OUT, where the host takes them, or to PB (20_memory.md R58, R60). -/
theorem encodeTo_result {s : State} {strm : Bool} {bs : List Byte} (off : U32) (hne : 1 ≤ bs.length) (hlen : bs.length ≤ 8)
    (hroom : strm = true → s.roomFor bs.length = true) :
    s.encodeTo strm off bs = .next
      (if strm then (s.putAll (marked bs)).ended .ok 0 false bs.length 0
      else if s.plen.toNat < off.toNat ∨ Config.pbBytes < off.toNat + bs.length then s.failed .invalidOffset 0
      else (s.writePb off bs).ended .ok 0 false bs.length 0) := by
  cases strm with
  | true => exact encodeTo_stream off (List.ne_nil_of_length_pos hne) hlen (hroom rfl)
  | false =>
    rw [encodeTo_buffer, if_neg Bool.false_ne_true]
    by_cases hw : s.writable off bs.length = true
    · rw [if_pos hw, if_neg ((writable_iff off _).1 hw)]
    · rw [if_neg hw, if_pos (not_not.1 ((writable_iff off _).not.1 hw))]

section
variable {s : State} (hb : s.busy = false) {le strm nvf : Bool} {off : U32} {a : U64}
include hb

/-- A magnitude above VS_MAX (R122, R125). -/
theorem exec_vsEnc_overflow (h : vsEncoded le nvf a = none) :
    exec (.vsEnc le strm nvf off a) s = .next (s.failed .overflow 0) := by
  refine (whenFree_free hb _).trans ?_
  rw [← vsEncoded, h]
  exact congrArg _ (raise_accept_eq_failed s (by cases strm <;> rfl) _)

/-- A number in range, or the sentinel (R125). -/
theorem exec_vsEnc_encoded {bs : List Byte} (h : vsEncoded le nvf a = some bs) :
    exec (.vsEnc le strm nvf off a) s = s.encodeTo strm off bs := by
  refine (whenFree_free hb _).trans ?_
  rw [← vsEncoded, h]

end

/-- Settles O27: Overflow, the stream form, and the write to PB or its refusal. -/
theorem vsEncResult : Obligations.VsEncResult := by
  intro le strm nvf off a s hb mag bytes hroom
  have hbytes : bytes = vsEncoded le nvf a := by
    rw [vsEncoded, vsEnc, vsSplit_eq]
    rfl
  refine endsIn_of_eq ?_
  cases h : bytes with
  | none => exact exec_vsEnc_overflow hb (hbytes ▸ h)
  | some bs =>
    have h' : vsEncoded le nvf a = some bs := hbytes ▸ h
    obtain ⟨hne, hlen⟩ := vsEncoded_length_bounds h'
    exact (exec_vsEnc_encoded hb h').trans (encodeTo_result off hne hlen (hroom bs h))

/-! ## What VS.ENC wrote, read back -/

/-- VS.ENC to PB that ends in OK has stored its bytes (R125). -/
theorem exec_vsEnc_ok {s t : State} (hb : s.busy = false) {le nvf : Bool} {off : U32} {a : U64}
    (ht : exec (.vsEnc le false nvf off a) s = .next t) (hok : t.stat = .ok) :
    ∃ bs, vsEncoded le nvf a = some bs ∧ t = (s.writePb off bs).ended .ok 0 false bs.length 0 := by
  cases h : vsEncoded le nvf a with
  | none =>
    cases (exec_vsEnc_overflow hb h).symm.trans ht
    cases hok
  | some bs =>
    rw [exec_vsEnc_encoded hb h, encodeTo_buffer] at ht
    split_ifs at ht <;> cases ht
    · exact ⟨bs, rfl, rfl⟩
    · cases hok

/-- The bytes of VS.ENC decode to the number, or to NoValue (R131, R132). -/
theorem vsDec_vsEncoded {le nvf : Bool} {a : U64} {bs : List Byte} (h : vsEncoded le nvf a = some bs) (rest : List Byte) :
    vsDec le (bs ++ rest) = some (if nvf then .noValue else .value a, bs.length) := by
  cases nvf with
  | false => exact vsDec_vsEnc h rest
  | true =>
    have hbs : bs = vsLayout le true 1 0 := by
      cases h
      cases le <;> rfl
    rw [hbs, vsDec_vsLayout le true le_rfl (by norm_num) (by decide), vsLayout_length, if_pos ⟨rfl, rfl, rfl⟩, if_pos rfl]

/-- VS.ENC's number has as many bytes as its size (R122). -/
theorem vsSize_eq_length {le : Bool} {a : U64} {bs : List Byte} (h : vsEncoded le false a = some bs) :
    vsSize a.toInt.natAbs = some bs.length := by
  rw [vsEncoded, if_neg (by simp), vsEnc, vsSplit_eq] at h
  obtain ⟨n, hn, rfl⟩ := Option.map_eq_some_iff.1 h
  rw [vsLayout_length, hn]

/-- Settles O30: the bytes stored stand first of those below PLEN from OFF on, and decode to the number or to NoValue. -/
theorem varSIntRoundTrip : Obligations.VarSIntRoundTrip := by
  intro le nvf off a s t h hb ht hok
  have hi : Inv t := exec_inv rfl hb h ht
  obtain ⟨bs, hbs, hend⟩ := exec_vsEnc_ok hb ht hok
  obtain ⟨hne, hlen⟩ := vsEncoded_length_bounds hbs
  obtain ⟨hread, _, hplen⟩ := (encodeTo_storesAt h ((exec_vsEnc_encoded hb hbs).symm.trans ht)).1 hok
  have hrest : t.plen.toNat - off.toNat = bs.length + (t.plen.toNat - (off.toNat + bs.length)) := by omega
  have hcnt : t.cnt.toNat = bs.length := by
    rw [hend]
    exact Nat.mod_eq_of_lt (by omega)
  refine ⟨?_, ?_⟩
  · rw [exec_vsDec_buffer (by rw [hend]; rfl) le hi.plenBound (by omega), hrest, Mem.readList_add, hread, vsDec_vsEncoded hbs,
      vsFromPb_decoded, hend]
    cases nvf with
    | false => rfl
    | true =>
      obtain rfl : [vsSentinel le] = bs := Option.some.inj hbs
      rfl
  · rintro rfl
    rw [hcnt, vsSize_eq_length hbs]

end Sys2Proof.Machine
end

section
/-! The buffer commands NOP, PB.PUT, PB.GET and PB.CLR of a free codec (42_buffer_ops.md): the state in which each one ends. -/

namespace Sys2Proof.Machine

open Sys2Proof

/-! ## The two bounds on PB -/

/-- The choice by the write bound, with the refusal first (20_memory.md R60). -/
theorem ite_writable {α : Type} (s : State) (off : U32) (n : Nat) (x y : α) :
    (if s.writable off n then x else y) = if s.plen.toNat < off.toNat ∨ Config.pbBytes < off.toNat + n then y else x := by
  simp only [writable_iff, ite_not]

theorem fetchPb_ended {s : State} {a bound : Nat} (ha : bound ≤ a) : s.fetchPb a bound = .ended := if_pos ha

/-- Below a bound that PB covers no address is absent (20_memory.md R59). -/
theorem fetchPb_got {s : State} {a bound : Nat} (hb : bound ≤ Config.pbBytes) (ha : a < bound) :
    s.fetchPb a bound = .got (s.pb.read a) s := by
  rw [State.fetchPb, if_neg (not_le.2 ha), if_neg (not_le.2 (ha.trans_le hb))]

/-! ## What each command answers -/

section
variable {s : State} (hb : s.busy = false)
include hb

theorem exec_pbPut (off : U32) (b : Byte) :
    exec (.pbPut off b) s =
      .next (if s.writable off 1 then (s.writePb off [b]).ended .ok 0 false 0 0 else s.failed .invalidOffset 0) :=
  whenFree_free hb _

/-- The byte at OFF, below PLEN (R142). -/
theorem exec_pbGet_read {off : U32} (hp : s.plen.toNat ≤ Config.pbBytes) (ho : off.toNat < s.plen.toNat) :
    exec (.pbGet off) s = .next (s.ended .ok ((s.pb.read off.toNat).setWidth 64) false 0 0) := by
  refine (whenFree_free hb _).trans ?_
  rw [State.accept_plen, fetchPb_got hp ho]
  rfl

/-- No valid byte at OFF (R142). -/
theorem exec_pbGet_invalid {off : U32} (ho : s.plen.toNat ≤ off.toNat) :
    exec (.pbGet off) s = .next (s.failed .invalidOffset 0) := by
  refine (whenFree_free hb _).trans ?_
  rw [State.accept_plen, fetchPb_ended ho]
  rfl

theorem exec_pbClr : exec .pbClr s = .next (s.emptied.ended .ok 0 false 0 0) :=
  whenFree_free hb _

end

/-! ## The statements -/

/-- Settles O21: a free codec runs NOP at once, and NOP is the response pulse only. -/
theorem nopResult : Obligations.NopResult := fun _ hb => whenFree_free hb _

/-- Settles O22: the write bound decides, and one byte written is PB and PLEN of R141. -/
theorem pbPutResult : Obligations.PbPutResult := by
  intro off b s hb
  refine endsIn_of_eq ?_
  rw [exec_pbPut hb, ite_writable]
  rfl

/-- Settles O23: OFF at or above PLEN, and OFF below it. -/
theorem pbGetResult : Obligations.PbGetResult := by
  intro off s hb hp
  refine endsIn_of_eq ?_
  by_cases ho : s.plen.toNat ≤ off.toNat
  · rw [if_pos ho]
    exact exec_pbGet_invalid hb ho
  · rw [if_neg ho]
    exact exec_pbGet_read hb hp (not_le.1 ho)

/-- Settles O24: the codec accepts, empties the Record and ends; PB is not touched. -/
theorem pbClrResult : Obligations.PbClrResult := fun _ hb => endsIn_of_eq (exec_pbClr hb)

end Sys2Proof.Machine
end

section
/-! The CRC width, the payload-length handler, and the empty Record of a decode that has not succeeded (43_record_framer.md R150,
R162, R164, R173). -/

namespace Sys2Proof.Machine

open Sys2Proof

/-- Settles O19: the tiers of R150, one by one. -/
theorem crcTier : Obligations.CrcTier := by
  intro d enh
  unfold crcKind
  cases enh <;> split_ifs <;> rfl

/-! ## The length field -/

/-- The last byte of a record's length field hands the length to its handler (43_record_framer.md R162, R173). -/
theorem vuDone_length {s : State} (hp : s.ph = .fLen ∨ s.ph = .rLen) (v : U29) (n : Nat) (raw : List Byte) :
    s.vuDone v n raw = .next ({ s with scratch := { s.scratch with dlen := v, rawLen := raw } } : State).lengthHandler := by
  obtain hp | hp := hp <;> rw [State.vuDone, hp]

/-- Settles O47: each refusal is an exception of a record decode, and the header joins the CRC otherwise. -/
theorem lengthEnds : Obligations.LengthEnds := by
  intro i v n raw s h hp d
  have hdec : s.ph.decoding = true := by obtain hp | hp := hp <;> rw [hp] <;> rfl
  have hraise (e : Status) : ({ s with scratch := { s.scratch with dlen := v, rawLen := raw } } : State).raise e =
      s.emptied.failed e s.cons.toNat := (raise_with_scratch s _ e).trans (raise_of_decoding hdec e)
  rw [exec_of_endsVarUInt h, vuDone_length hp]
  refine congrArg Host.Outcome.next ?_
  unfold State.lengthHandler
  simp only [hraise]
  rfl

/-! ## A decode that has not succeeded -/

/-- The registers hold the empty Record (43_record_framer.md R164). -/
def State.HoldsNone (s : State) : Prop := s.plen = 0 ∧ s.sync = 0 ∧ s.rid = 0 ∧ s.crclen = 0 ∧ s.crcb = 0

/-- A record decode holds the empty Record, or has ended with OK. -/
def State.NoneOrOk (s : State) : Prop :=
  s.ph.decoding = true ∧ s.HoldsNone ∨ s.ph = .idle ∧ s.busy = false ∧ (s.stat = .ok ∨ s.HoldsNone)

theorem decoding_leavesTo {p : Phase} (h : p.decoding = true) (rev e : Bool) :
    p.leavesTo rev e ≠ .idle → (p.leavesTo rev e).decoding = true := by
  cases p <;> cases rev <;> cases e <;> simp_all [Phase.decoding, Phase.leavesTo]

theorem raise_holdsNone {s : State} (h : s.ph.decoding = true) (e : Status) : (s.raise e).HoldsNone := by
  rw [raise_of_decoding h]
  exact ⟨rfl, rfl, rfl, rfl, rfl⟩

theorem State.TakesTo.holdsNone {s u : State} (hu : s.TakesTo u) (h : s.HoldsNone) : u.HoldsNone := by
  obtain rfl | ⟨b, q, _, rfl⟩ := hu <;> exact h

theorem Handled.noneOrOk {s t : State} (ht : Handled s (.next t)) (hp : s.ph.decoding = true) (h : s.HoldsNone) :
    t.NoneOrOk := by
  cases ht with
  | raised => exact .inr ⟨State.raise_ph .., State.raise_busy .., .inr (raise_holdsNone hp _)⟩
  | valued hv => obtain hv | hv := hv <;> simp [hv, Phase.decoding] at hp
  | recorded => exact .inr ⟨rfl, rfl, .inl rfl⟩
  | goesOn hm =>
    refine .inl ⟨?_, h⟩
    obtain ⟨rfl, _⟩ | ⟨rfl, hi, _⟩ := hm
    · exact hp
    · exact decoding_leavesTo hp _ _ hi

theorem unit_noneOrOk {s t : State} (h : s.NoneOrOk) (ht : s.unit = some (.next t)) : t.NoneOrOk := by
  obtain ⟨hp, hnone⟩ | ⟨hp, _⟩ := h
  · obtain ⟨hs, _⟩ | ⟨_, u, hu, hh⟩ := unit_cases ht
    · simp [sending_not_decoding hs] at hp
    · exact hh.noneOrOk (hu.ph ▸ hp) (hu.holdsNone hnone)
  · simp [hp] at ht

/-- Settles O57, by induction over the units of the decode. -/
theorem noPartialRecord : Obligations.NoPartialRecord := by
  intro i s t hi hb ht hout
  obtain ⟨p, hp, hrun⟩ : ∃ p : Phase, p.decoding = true ∧ ((s.accept p).clearRecord).run = .next t := by
    obtain rfl | rfl := hi
    · exact ⟨.fSync, rfl, (whenFree_free hb _).symm.trans ht⟩
    · exact ⟨.rTail, rfl, (whenFree_free hb _).symm.trans ht⟩
  obtain ⟨k, hk⟩ := units_of_run hrun
  obtain ⟨_, hnone⟩ | ⟨_, hfree, hok⟩ := hk.induction (fun _ _ => unit_noneOrOk) (.inl ⟨hp, rfl, rfl, rfl, rfl, rfl⟩)
  · exact hnone
  · exact hok.resolve_left (hout.resolve_left (by simp [hfree]))

end Sys2Proof.Machine
end

section
/-! What REC.ENC comes to where the host takes its bytes (43_record_framer.md R158, R159): field by field the bytes of the record
are put, and the record registers are those of the fields. -/

namespace Sys2Proof.Machine

open Sys2Proof

/-! ## Bytes put one after the other -/

theorem putAll_append (s : State) (a b : List OutByte) : (s.putAll a).putAll b = s.putAll (a ++ b) := by
  have hroom : ∀ r : Nat, r - a.length - b.length = r - (a.length + b.length) := fun r => by omega
  simp [State.putAll, Function.comp_def, hroom]

/-- The last byte of a command's output is the last one of its last field (20_memory.md R58). -/
theorem marked_append (a : List Byte) {b : List Byte} (hb : b ≠ []) : marked (a ++ b) = unmarked a ++ marked b := by
  induction a with
  | nil => rfl
  | cons x a ih =>
    have hne : a ++ b ≠ [] := by simp [hb]
    obtain ⟨y, l, hy⟩ := List.exists_cons_of_ne_nil hne
    rw [List.cons_append, hy, marked, ← hy, ih]
    · rfl
    · simp

@[simp] theorem marked_length (bs : List Byte) : (marked bs).length = bs.length := by
  induction bs with
  | nil => rfl
  | cons b bs ih => cases bs <;> simp_all [marked]

@[simp] theorem marked_data (bs : List Byte) : (marked bs).map OutByte.data = bs := by
  induction bs with
  | nil => rfl
  | cons b bs ih => cases bs <;> simp_all [marked]

/-- The feeding of the CRC and the place in the command do not see OUT. -/
theorem afterPut_putAll (s : State) (b : Byte) (os : List OutByte) :
    s.afterPut (s.putAll os) b = (s.afterPut s b).putAll os := by
  have next (u : State) : (u.putAll os).txNext = u.txNext.putAll os := by
    unfold State.txNext
    rw [show (u.putAll os).ph = u.ph from rfl]
    split
    case h_5 => exact eq_apply_ite (State.putAll · os) rfl rfl
    all_goals rfl
  unfold State.afterPut
  simp only [txFeed_eq]
  exact eq_apply_ite (State.putAll · os) (next { s with scratch := s.fed [b] }) rfl

section
variable {s : State} {b : Byte} {bs w : List Byte} {n : Nat}

/-- A byte that the host takes, with room for `n` others. -/
theorem unit_put (hp : s.ph.sending = true) (hb : s.txByte = .got b s) (hroom : s.roomFor (n + 1) = true) :
    s.unit = some (.next ((s.afterPut s b).putAll [⟨b, s.txLast⟩])) ∧ (s.putAll [⟨b, s.txLast⟩]).roomFor n = true := by
  obtain ⟨hput, hrest⟩ := put_of_roomFor (b := b) hroom s.txLast
  rw [unit_sending hp, sendUnit_got hb, hput, Option.map_some, afterPut_putAll]
  exact ⟨rfl, hrest⟩

/-- What is left of a field after its next byte, and the registers that the byte leaves. -/
theorem fed_byte (s : State) (b : Byte) : (s.fed [b]).dlen = s.scratch.dlen ∧ (s.fed [b]).rev = s.scratch.rev := by
  obtain ⟨x, y, hfed⟩ := fed_eq s [b]
  rw [hfed]
  exact ⟨rfl, rfl⟩

/-- A field that another one follows is put byte by byte (10_state.md R30). -/
theorem units_field (hp : s.ph.sending = true) (hl : s.ph.leavesTo s.scratch.rev (s.scratch.dlen = 0) ≠ .idle)
    (hd : s.ph = .ePay → s.scratch.dlen.toNat ≤ Config.pbBytes) (hbs : s.txRest = bs) (hne : bs ≠ [])
    (hlen : s.cur.toNat + bs.length < 2 ^ 32) (hroom : s.roomFor (bs.length + n) = true) :
    Units bs.length s ((s.putAll (unmarked bs)).at (s.ph.leavesTo s.scratch.rev (s.scratch.dlen = 0)) 0 (s.fed bs)) ∧
      (s.putAll (unmarked bs)).roomFor n = true := by
  induction bs generalizing s with
  | nil => exact absurd rfl hne
  | cons b bs ih =>
    obtain ⟨hb, htx⟩ := txByte_of_txRest hd hbs
    obtain ⟨hu, hrest⟩ := unit_put (n := bs.length + n) hp hb (by rwa [List.length_cons, Nat.add_right_comm] at hroom)
    rw [txLast_of_leavesTo hl] at hu hrest
    cases bs with
    | nil =>
      rw [afterPut_next hp htx.le b hl] at hu
      exact ⟨.single hu, by rwa [List.length_nil, Nat.zero_add] at hrest⟩
    | cons b' bs =>
      simp only [List.length_cons] at htx hlen
      rw [afterPut_advance (by omega)] at hu
      obtain ⟨hdlen, hrev⟩ := fed_byte s b
      have hcur : (s.cur + 1).toNat = s.cur.toNat + 1 := toNat_add_one (by omega)
      have h := ih (s := (s.nextPlace (s.fed [b])).putAll [⟨b, false⟩]) hp
        (by simpa [State.putAll, State.nextPlace, hdlen, hrev] using hl)
        (by simpa [State.putAll, State.nextPlace, hdlen] using hd) (txRest_next (by omega) hbs) (by simp)
        (by simp only [State.putAll, State.nextPlace, List.length_cons, hcur]; omega) hrest
      rw [putAll_append] at h
      have hfed : State.fed ((s.nextPlace (s.fed [b])).putAll [⟨b, false⟩]) (b' :: bs) = s.fed (b :: b' :: bs) :=
        fed_cons s (s.cur + 1) b _
      obtain ⟨hunits, hroom'⟩ := h
      have hk : State.scratch ((s.nextPlace (s.fed [b])).putAll [⟨b, false⟩]) = s.fed [b] := rfl
      simp only [hfed, hk, hdlen, hrev] at hunits
      exact ⟨.head hu hunits, hroom'⟩

/-- The last field of a record is put byte by byte, and the record is done (43_record_framer.md R159). -/
theorem units_last (hp : s.ph = .eTail ∧ s.cur = 0 ∨ s.ph = .eCrc ∧ s.scratch.rev = false) (hbs : s.txRest = bs) (hne : bs ≠ [])
    (hlen : s.cur.toNat + bs.length < 2 ^ 32) (hroom : s.roomFor bs.length = true) :
    Units bs.length s (s.putAll (marked bs)).encodeDone := by
  have hs : s.ph.sending = true := by obtain ⟨hp, _⟩ | ⟨hp, _⟩ := hp <;> rw [hp] <;> rfl
  have hdone : s.txNext = s.encodeDone := by obtain ⟨hp, _⟩ | ⟨hp, hrev⟩ := hp <;> simp [State.txNext, *]
  have hfed (b : Byte) : s.txFeed b = s := by obtain ⟨hp, _⟩ | ⟨hp, _⟩ := hp <;> simp [State.txFeed, hp]
  induction bs generalizing s with
  | nil => exact absurd rfl hne
  | cons b bs ih =>
    obtain ⟨hb, htx⟩ := txByte_of_txRest (by obtain ⟨hp, _⟩ | ⟨hp, _⟩ := hp <;> simp [hp]) hbs
    obtain ⟨hu, hrest⟩ := unit_put hs hb hroom
    cases bs with
    | nil =>
      have hlast : s.txLast = true := by
        obtain ⟨hp, _⟩ | ⟨hp, hrev⟩ := hp
        · simp [State.txLast, hp]
        · simpa [State.txLast, hp, hrev] using htx.le
      have hle : s.txLen ≤ s.cur.toNat + 1 := htx.le
      have hend : s.afterPut s b = s.encodeDone := by rw [State.afterPut, if_pos hle, hfed, hdone]
      rw [hlast, hend] at hu
      exact .single hu
    | cons b' bs =>
      simp only [List.length_cons] at htx hlen
      obtain ⟨hp, hc⟩ | ⟨hp, hrev⟩ := hp
      · simp [State.txLen, State.txField, hp, hc] at htx
      · have hnext : State.txRest s.advance = b' :: bs := by
          have := txRest_next (by omega) hbs
          rwa [State.fed, if_neg (by simp [Phase.feeds, hp])] at this
        have hadv : s.afterPut s b = s.advance := by rw [State.afterPut, if_neg (by omega), hfed]
        rw [txLast_of_lt (by simp [hp]) (by omega)] at hu hrest
        rw [hadv] at hu
        have hcur : (s.cur + 1).toNat = s.cur.toNat + 1 := toNat_add_one (by omega)
        have h := ih (s := s.advance.putAll [⟨b, false⟩]) (.inr ⟨hp, hrev⟩) hnext (by simp)
          (by simp only [State.putAll, State.advance, List.length_cons, hcur]; omega) hrest hs
          (by simp [State.txNext, State.putAll, State.advance, hp, hrev])
          (fun b => by simp [State.txFeed, State.putAll, State.advance, hp])
        rw [putAll_append] at h
        exact .head hu h

/-! ## The fields of a record -/

/-- The bytes `w` are all that is still to be put, and the record is done with what the scratch registers `k` hold. -/
def State.SendsRecord (s : State) (w : List Byte) (k : Scratch) : Prop :=
  w ≠ [] ∧ (s.roomFor w.length = true → Units w.length s (State.putAll { s with scratch := k } (marked w)).encodeDone)

/-- A field, and what follows it. -/
theorem sendsRecord_field {k : Scratch} (hp : s.ph.sending = true)
    (hl : s.ph.leavesTo s.scratch.rev (s.scratch.dlen = 0) ≠ .idle)
    (hd : s.ph = .ePay → s.scratch.dlen.toNat ≤ Config.pbBytes) (hbs : s.txRest = bs) (hne : bs ≠ [])
    (hlen : s.cur.toNat + bs.length < 2 ^ 32)
    (H : ∀ u : State, u.ph = s.ph.leavesTo s.scratch.rev (s.scratch.dlen = 0) → u.cur = 0 → u.scratch = s.fed bs →
      u.pb = s.pb → u.SendsRecord w k) : s.SendsRecord (bs ++ w) k := by
  obtain ⟨hw, hrun⟩ := H ((s.putAll (unmarked bs)).at _ 0 (s.fed bs)) rfl rfl rfl rfl
  refine ⟨by simp [hw], fun hroom => ?_⟩
  rw [List.length_append] at hroom ⊢
  obtain ⟨hunits, hrest⟩ := units_field hp hl hd hbs hne hlen hroom
  rw [marked_append _ hw, ← putAll_append]
  exact hunits.trans (hrun hrest)

/-- The bytes after the CRC (30_encoding.md R80). -/
theorem trailer_sendsRecord {u : State} (hp : u.ph = .eRlen) (hc : u.cur = 0) :
    u.SendsRecord (u.scratch.trailerLen ++ [tailByte u.scratch.le u.scratch.enh]) u.scratch := by
  have hlen := trailerLen_length_le u.scratch
  refine sendsRecord_field (by rw [hp]; rfl) (by simp [hp, Phase.leavesTo]) (by simp [hp])
    ((txRest_start hc (by simp [hp])).trans (by simp [State.txField, hp])) (by simp [Scratch.trailerLen, vuEnc_ne_nil])
    (by simp [hc]; omega) fun v hv hcv hk _ => ?_
  have hph : v.ph = .eTail := by simpa [hp, Phase.leavesTo] using hv
  have hk' : v.scratch = u.scratch := hk.trans (if_neg (by simp [hp, Phase.feeds]))
  rw [← hk']
  exact ⟨by simp, units_last (.inl ⟨hph, hcv⟩) ((txRest_start hcv (by simp [hph])).trans (by simp [State.txField, hph])) (by simp)
    (by simp [hcv])⟩

/-- The CRC bytes, and what follows them. -/
theorem crc_sendsRecord {u : State} (hp : u.ph = .eCrc) (hc : u.cur = 0) :
    u.SendsRecord (u.scratch.crcField ++ recordTail u.scratch.le u.scratch.rev u.scratch.enh u.scratch.totalLen) u.scratch := by
  have hfield : u.txRest = u.scratch.crcField := (txRest_start hc (by simp [hp])).trans (by simp [State.txField, hp])
  have hlen := u.scratch.crc.len_le
  have hne : u.scratch.crcField ≠ [] := fun h => by
    have := congrArg List.length h
    rw [crcField_length] at this
    cases hk : u.scratch.crc <;> simp [hk, CrcKind.len] at this
  have hbound : u.cur.toNat + u.scratch.crcField.length < 2 ^ 32 := by simp [hc]; omega
  cases hrev : u.scratch.rev with
  | false =>
    rw [recordTail, if_neg (by simp), List.append_nil]
    exact ⟨hne, units_last (.inr ⟨hp, hrev⟩) hfield hne hbound⟩
  | true =>
    refine sendsRecord_field (by rw [hp]; rfl) (by simp [hp, hrev, Phase.leavesTo]) (by simp [hp]) hfield hne hbound
      fun v hv hcv hk _ => ?_
    have hph : v.ph = .eRlen := by simpa [hp, hrev, Phase.leavesTo] using hv
    have hk' : v.scratch = u.scratch := hk.trans (if_neg (by simp [hp, Phase.feeds]))
    rw [← hk']
    exact trailer_sendsRecord hph hcv

/-- The payload, and what follows it. -/
theorem payload_sendsRecord {u : State} (hp : u.ph = if u.scratch.dlen = 0 then .eCrc else .ePay) (hc : u.cur = 0)
    (hd : u.scratch.dlen.toNat ≤ Config.pbBytes) {k : Scratch}
    (hk : k = u.scratch.feedAll (u.pb.readList 0 u.scratch.dlen.toNat)) :
    u.SendsRecord (u.pb.readList 0 u.scratch.dlen.toNat ++ (k.crcField ++ recordTail k.le k.rev k.enh k.totalLen)) k := by
  have hpb : Config.pbBytes = 1048576 := rfl
  by_cases h0 : u.scratch.dlen = 0
  · rw [if_pos h0] at hp
    have hk' : k = u.scratch := by simpa [h0, Mem.readList] using hk
    simpa [h0, Mem.readList, hk'] using crc_sendsRecord hp hc
  · rw [if_neg h0] at hp
    have hpos : u.scratch.dlen.toNat ≠ 0 := fun h => h0 (BitVec.eq_of_toNat_eq h)
    refine sendsRecord_field (by rw [hp]; rfl) (by simp [hp, Phase.leavesTo]) (fun _ => hd) (by simp [State.txRest, hp, hc])
      (fun h => hpos (by simpa using congrArg List.length h)) (by simp [hc]; omega) fun v hv hcv hkv _ => ?_
    have hph : v.ph = .eCrc := by simpa [hp, Phase.leavesTo] using hv
    obtain rfl : v.scratch = k := hkv.trans ((if_pos (by simp [hp, Phase.feeds])).trans hk.symm)
    exact crc_sendsRecord hph hcv

/-- The id and the length, and what follows them. -/
theorem header_sendsRecord {u : State} {k : Scratch} (hp : u.ph = .eId) (hc : u.cur = 0) (hid : u.scratch.rawId ≠ [])
    (hlen : u.scratch.rawLen ≠ []) (hshort : u.scratch.rawId.length ≤ 4 ∧ u.scratch.rawLen.length ≤ 4)
    (H : ∀ v : State, v.ph = (if u.scratch.dlen = 0 then .eCrc else .ePay) → v.cur = 0 → v.scratch = u.scratch.crcHeader →
      v.pb = u.pb → v.SendsRecord w k) : u.SendsRecord (u.scratch.rawId ++ (u.scratch.rawLen ++ w)) k := by
  refine sendsRecord_field (by rw [hp]; rfl) (by simp [hp, Phase.leavesTo]) (by simp [hp])
    ((txRest_start hc (by simp [hp])).trans (by simp [State.txField, hp])) hid (by simp [hc]; omega) fun v hv hcv hk hpb => ?_
  have hph : v.ph = .eLen := by simpa [hp, Phase.leavesTo] using hv
  have hk' : v.scratch = u.scratch.feedAll u.scratch.rawId := hk.trans (if_pos (by simp [hp, Phase.feeds]))
  refine sendsRecord_field (s := v) (bs := u.scratch.rawLen) (by rw [hph]; rfl)
    (by simp only [hph, Phase.leavesTo]; split_ifs <;> simp) (by simp [hph])
    ((txRest_start hcv (by simp [hph])).trans (by simp [State.txField, hph, hk'])) hlen (by simp [hcv]; omega)
    fun x hx hcx hkx hpbx => H x ?_ hcx ?_ (hpbx.trans hpb)
  · simpa [hph, hk', Phase.leavesTo] using hx
  · rw [hkx, State.fed, if_pos (by simp [hph, Phase.feeds]), hk', ← Scratch.feedAll_append]
    rfl

end

/-! ## REC.ENC -/

@[simp] theorem Scratch.feedAll_id (k : Scratch) (bs : List Byte) : (k.feedAll bs).id = k.id := by rw [Scratch.feedAll_eq]

/-- The number of bytes of a record (43_record_framer.md R159). -/
theorem recordWire_length (le rev enh : Bool) (id : U29) (pay : List Byte) (k : CrcKind) :
    (recordWire le rev enh id pay k).length =
      1 + ((header le id pay.length).length + pay.length + k.len) +
        (if rev then ((vuEnc (BitVec.ofNat 29 ((header le id pay.length).length + pay.length + k.len)) le).reverse).length + 1
          else 0) := by
  rw [recordWire_eq, recordTail]
  cases rev <;> simp [header] <;> omega

/-- The scratch registers of a record at its end: those it began with, its header and payload fed to the CRC. -/
def Scratch.recordEnd (k : Scratch) (pay : List Byte) : Scratch := k.crcHeader.feedAll pay

theorem totalLen_recordEnd (k : Scratch) (pay : List Byte) : (k.recordEnd pay).totalLen = k.totalLen := by
  simp [Scratch.recordEnd, Scratch.totalLen, Scratch.dataLen, crcHeader_eq]

theorem recordEnd_keeps (k : Scratch) (pay : List Byte) :
    (k.recordEnd pay).le = k.le ∧ (k.recordEnd pay).rev = k.rev ∧ (k.recordEnd pay).enh = k.enh ∧ (k.recordEnd pay).id = k.id ∧
      (k.recordEnd pay).crc = k.crc := by
  simp [Scratch.recordEnd, crcHeader_eq]

/-- A record on OUT, from its head sync byte (43_record_framer.md R159). -/
theorem record_sendsRecord {u : State} {pay : List Byte} {k : Scratch} (hp : u.ph = .eSync) (hc : u.cur = 0)
    (hid : u.scratch.rawId ≠ []) (hlen : u.scratch.rawLen ≠ [])
    (hshort : u.scratch.rawId.length ≤ 4 ∧ u.scratch.rawLen.length ≤ 4) (hd : u.scratch.dlen.toNat ≤ Config.pbBytes)
    (hpay : pay = u.pb.readList 0 u.scratch.dlen.toNat) (hk : k = u.scratch.recordEnd pay) :
    u.SendsRecord ([headByte k.le k.rev k.enh] ++ (u.scratch.rawId ++ (u.scratch.rawLen ++ (pay ++ (k.crcField ++
      recordTail k.le k.rev k.enh k.totalLen))))) k := by
  obtain ⟨hle, hrev, henh, _⟩ := recordEnd_keeps u.scratch pay
  rw [← hk] at hle hrev henh
  refine sendsRecord_field (by rw [hp]; rfl) (by simp [hp, Phase.leavesTo]) (by simp [hp])
    ((txRest_start hc (by simp [hp])).trans (by simp [State.txField, hp, hle, hrev, henh])) (by simp) (by simp [hc])
    fun v hv hcv hkv hpb => ?_
  have hph : v.ph = .eId := by simpa [hp, Phase.leavesTo] using hv
  have hkv' : v.scratch = u.scratch := hkv.trans (if_neg (by simp [hp, Phase.feeds]))
  rw [← hkv'] at hid hlen hshort hk ⊢
  refine header_sendsRecord hph hcv hid hlen hshort fun x hx hcx hkx hpbx => ?_
  have hdx : x.scratch.dlen = u.scratch.dlen := by rw [hkx, crcHeader_dlen, hkv']
  have hpbs : x.pb = u.pb := hpbx.trans hpb
  have h := payload_sendsRecord (u := x) (k := k) (by rw [hx, hdx, hkv']) hcx (by rwa [hdx])
    (by rw [hk, hdx, hpbs, ← hpay, hkx]; rfl)
  rwa [hdx, hpbs, ← hpay] at h

section
variable (s : State) (le rev enh : Bool) (id : U29) (x : CrcKind)

/-- What REC.ENC latches (43_record_framer.md R159). -/
theorem beginEncode_scratch_eq :
    ∃ c : Scratch, (s.beginEncode le rev enh id x).scratch = c.crcBegin x ∧ c.le = le ∧ c.rev = rev ∧ c.enh = enh ∧ c.id = id ∧
      c.dlen = s.plen.setWidth 29 ∧ c.rawId = vuEnc id le ∧ c.rawLen = vuEnc (s.plen.setWidth 29) le :=
  ⟨_, rfl, rfl, rfl, rfl, rfl, rfl, rfl, rfl⟩

/-- The end of a record whose bytes have all been put. -/
def State.recordSent (rid : U32) (wire crc : List Byte) : State :=
  ({ s.putAll (marked wire) with
      sync := headByte le rev enh, rid := rid
      crclen := BitVec.ofNat 3 crc.length, crcb := packCrc crc } : State).ended .ok (BitVec.ofNat 64 wire.length) false 0 0

variable {x}

/-- A command that has latched its record runs to that end where the host takes the bytes. -/
theorem beginEncode_run {pay : List Byte} (hplen : s.plen.toNat ≤ Config.pbBytes) (hpay : pay = s.pb.readList 0 s.plen.toNat)
    (hroom : s.roomFor (recordWire le rev enh id pay x).length = true) :
    (s.beginEncode le rev enh id x).run =
      .next (s.recordSent le rev enh (id.setWidth 32) (recordWire le rev enh id pay x)
        (crcBytes (header le id pay.length) pay x le)) := by
  have hpb : Config.pbBytes = 1048576 := rfl
  have hd : (s.plen.setWidth 29).toNat = s.plen.toNat := by simp; omega
  have hlen : pay.length = s.plen.toNat := by rw [hpay, Mem.length_readList]
  have hof : BitVec.ofNat 29 pay.length = s.plen.setWidth 29 := BitVec.eq_of_toNat_eq (by simp [hlen])
  obtain ⟨c, hc, hle, hrev, henh, hid, hdlen, hrawId, hrawLen⟩ := beginEncode_scratch_eq s le rev enh id x
  have hids := vuEnc_length_bounds id le
  have hlens := vuEnc_length_bounds (s.plen.setWidth 29) le
  have hwire := recordWire_length_le le rev enh id pay x
  have hfield : ((c.crcBegin x).recordEnd pay).crcField = crcBytes (header le id pay.length) pay x le := by
    rw [Scratch.recordEnd, crcHeader_eq, crcField_feedAll, header, hof, ← hrawId, ← hrawLen]
    exact congrArg _ hle
  have htotal : (c.crcBegin x).totalLen = (header le id pay.length).length + pay.length + x.len := by
    have hmod : s.plen.toNat % 536870912 = s.plen.toNat := Nat.mod_eq_of_lt (by omega)
    simp [Scratch.totalLen, Scratch.dataLen, header, hrawId, hrawLen, hdlen, hlen, hmod]
  obtain ⟨-, hrun⟩ := record_sendsRecord (u := s.beginEncode le rev enh id x) (pay := pay) rfl rfl
    (by rw [hc]; exact hrawId ▸ vuEnc_ne_nil _ _) (by rw [hc]; exact hrawLen ▸ vuEnc_ne_nil _ _)
    (by rw [hc]; exact ⟨hrawId ▸ hids.2, hrawLen ▸ hlens.2⟩) (by rw [hc]; exact hdlen ▸ hd ▸ hplen)
    (by rw [hc]; exact hpay.trans (congrArg _ (hdlen ▸ hd.symm))) rfl
  rw [hc] at hrun
  obtain ⟨hkle, hkrev, hkenh, hkid, hkx⟩ := recordEnd_keeps (c.crcBegin x) pay
  have hktotal := totalLen_recordEnd (c.crcBegin x) pay
  simp only [Scratch.crcBegin_le, Scratch.crcBegin_rev, Scratch.crcBegin_enh, Scratch.crcBegin_id, Scratch.crcBegin_crc, hle, hrev,
    henh, hid] at hkle hkrev hkenh hkid hkx
  generalize (c.crcBegin x).recordEnd pay = k at *
  have hrec : [headByte k.le k.rev k.enh] ++ ((c.crcBegin x).rawId ++ ((c.crcBegin x).rawLen ++ (pay ++ (k.crcField ++
      recordTail k.le k.rev k.enh k.totalLen)))) = recordWire le rev enh id pay x := by
    rw [recordWire_eq, hfield, hktotal, htotal, hkle, hkrev, hkenh, hof, ← hrawId, ← hrawLen]
    rfl
  have hcount : k.wireLen = (recordWire le rev enh id pay x).length := by
    rw [recordWire_length, Scratch.wireLen, Scratch.trailerLen, hktotal, htotal, hkrev, hkle]
  rw [hrec] at hrun
  refine run_of_units (hrun hroom) ?_ (unit_idle rfl) |>.trans (congrArg _ ?_)
  · rw [settleFuel]
    omega
  · simp only [State.encodeDone, State.putAll, hkle, hkrev, hkenh, hkid, hkx, hfield, hcount, State.recordSent, crcBytes_length]
    rfl

end

/-- An id in range stands in RID as the operand gives it (43_record_framer.md R159). -/
theorem rid_of_operand {a : U64} (ha : a.toNat ≤ vuMax) : ((a.setWidth 29).setWidth 32 : U32) = a.setWidth 32 := by
  apply BitVec.eq_of_toNat_eq
  rw [BitVec.toNat_setWidth, setWidth_29_toNat ha, BitVec.toNat_setWidth]

/-- A record that REC.ENC accepts, where the host takes its bytes (R159). -/
theorem exec_recEnc_sent {s : State} (hb : s.busy = false) (le rev enh : Bool) {a : U64} {k : CrcKind} {pay : List Byte}
    (ha : a.toNat ≤ vuMax) (hpay : pay = s.pb.readList 0 s.plen.toNat)
    (hk : crcKind ((header le (a.setWidth 29) s.plen.toNat).length + s.plen.toNat) enh = some k)
    (hroom : s.roomFor (recordWire le rev enh (a.setWidth 29) pay k).length = true) :
    exec (.recEnc le rev enh a) s = .next (s.recordSent le rev enh (a.setWidth 32)
      (recordWire le rev enh (a.setWidth 29) pay k) (crcBytes (header le (a.setWidth 29) s.plen.toNat) pay k le)) := by
  have hd := crcKind_some_lt hk
  have hlen : pay.length = s.plen.toNat := by rw [hpay, Mem.length_readList]
  rw [exec_recEnc_start hb le rev enh ha hk, ← rid_of_operand ha, ← hlen]
  exact beginEncode_run s le rev enh _ (by rw [show Config.pbBytes = 1048576 from rfl]; omega) hpay hroom

section
variable {s : State} (hb : s.busy = false) (le rev enh : Bool) {a : U64}
include hb

/-- An id out of range (R158). -/
theorem exec_recEnc_overflow (ha : vuMax < a.toNat) : exec (.recEnc le rev enh a) s = .next (s.failed .overflow 0) :=
  (whenFree_free hb _).trans ((if_pos ha).trans (congrArg _ (raise_accept_eq_failed s rfl _)))

/-- A record of the reserved tier (R151, R158). -/
theorem exec_recEnc_unsupported (ha : a.toNat ≤ vuMax)
    (hk : crcKind ((header le (a.setWidth 29) s.plen.toNat).length + s.plen.toNat) enh = none) :
    exec (.recEnc le rev enh a) s = .next (s.failed .unsupported 0) := by
  refine (whenFree_free hb _).trans ?_
  rw [header, List.length_append,
    show BitVec.ofNat 29 s.plen.toNat = s.plen.setWidth 29 from BitVec.eq_of_toNat_eq (by simp)] at hk
  rw [if_neg (by omega)]
  simp only [hk]
  exact congrArg _ (raise_accept_eq_failed s rfl _)

end

/-- Settles O34: the two refusals, and the record put field by field. -/
theorem recEncResult : Obligations.RecEncResult := by
  intro le rev enh a s hb id hdr pay hroom
  refine endsIn_of_eq ?_
  by_cases ha : 536870911 < a.toNat
  · rw [if_pos ha]
    exact exec_recEnc_overflow hb le rev enh ha
  rw [if_neg ha]
  have ha' : a.toNat ≤ vuMax := not_lt.1 ha
  cases hk : crcKind (hdr.length + s.plen.toNat) enh with
  | none => exact exec_recEnc_unsupported hb le rev enh ha' hk
  | some k => exact exec_recEnc_sent hb le rev enh ha' rfl hk (hroom k (not_lt.1 ha) hk)

end Sys2Proof.Machine
end

section
/-! The bytes that a record decode works on (10_state.md R33: the forward and the reverse phases "do the same work"), whether
they come from IN or stand staged in RB: where they are, how its VarUInts are read, and how its plain bytes are. -/

namespace Sys2Proof.Machine

open Sys2Proof

/-! ## Staged bytes -/

/-- The write of bytes from address `a` downward, as R_FILL stages them (43_record_framer.md R171). -/
def Mem.stage (m : Mem) (a : Nat) : List Byte → Mem
  | [] => m
  | b :: bs => Mem.stage (m.write a b) (a - 1) bs

/-- Staging writes nowhere above its first address. -/
theorem Mem.read_stage_above (bs : List Byte) (m : Mem) {a x : Nat} (h : a < x) : (m.stage a bs).read x = m.read x := by
  induction bs generalizing m a with
  | nil => rfl
  | cons b bs ih => rw [Mem.stage, ih _ (by omega), Mem.read_write_ne _ _ _ _ (by omega)]

/-- Bytes staged down to address 0 stand there in the other order (R171: `rev` of what was taken). -/
theorem Mem.readList_stage {size : Nat} (bs : List Byte) {m : Mem} {a : Nat} (hm : m.wf size) (ha : a < size)
    (h : bs.length = a + 1) : (m.stage a bs).readList 0 (a + 1) = bs.reverse := by
  induction bs generalizing m a with
  | nil => simp at h
  | cons b bs ih =>
    have hread : (m.write a b).read a = b := Mem.read_write_eq m a b hm.1
    cases a with
    | zero =>
      obtain rfl : bs = [] := List.length_eq_zero_iff.1 (by simpa using h)
      simp [Mem.stage, Mem.readList, hread]
    | succ a =>
      have hlow := ih (Mem.wf_write hm b ha) (a := a) (by omega) (by simpa using h)
      rw [Mem.readList_add, Mem.stage, Nat.add_sub_cancel, hlow, Nat.zero_add, List.reverse_cons, Mem.readList,
        Mem.read_stage_above _ _ (Nat.lt_succ_self a), hread]
      rfl

/-! ## Where the bytes are -/

/-- A phase that works on staged bytes (10_state.md R30). -/
def Phase.staged : Phase → Bool
  | .rHead | .rId | .rLen | .rPay | .rCrc => true
  | _ => false

/-- The address of the next staged byte (43_record_framer.md R170 `next`). -/
def State.stagedAt (s : State) : Nat :=
  match s.ph with
  | .rId => 1 + s.cur.toNat
  | .rLen => 1 + s.scratch.rawId.length + s.cur.toNat
  | .rPay => 1 + s.scratch.rawId.length + s.scratch.rawLen.length + s.cur.toNat
  | .rCrc => 1 + s.scratch.dataLen + s.cur.toNat
  | _ => 0

/-- The bytes still to come: those of IN, or the staged ones up to L. -/
def State.ahead (s : State) : List Byte :=
  if s.ph.takes then s.inQ else s.rb.readList s.stagedAt (s.scratch.tlen.toNat + 1 - s.stagedAt)

/-- The state with `n` of them behind: those of IN are taken (10_state.md R25), the staged ones stay. -/
def State.fetched (s : State) (n : Nat) : State :=
  { s with
    inQ := if s.ph.takes then s.inQ.drop n else s.inQ
    cons := if s.ph.takes then s.cons + BitVec.ofNat 32 n else s.cons }

/-- The codec decodes a record, from IN or from staged bytes that RB holds. -/
def State.ReadsRecord (s : State) : Prop :=
  s.ph.takesRecord = true ∨ s.ph.staged = true ∧ s.scratch.tlen.toNat < Config.rbBytes

theorem takesRecord_takes {p : Phase} (h : p.takesRecord = true) : p.takes = true := by
  simp only [Phase.takesRecord, Bool.and_eq_true] at h
  exact h.1

theorem staged_not_takes {p : Phase} (h : p.staged = true) : p.takes = false := by
  cases p <;> simp_all [Phase.staged, Phase.takes]

section
variable {s : State} {b : Byte} {bs : List Byte}

theorem ahead_takes (h : s.ph.takes = true) : s.ahead = s.inQ := if_pos h

theorem fetched_zero (s : State) : s.fetched 0 = s := by simp [State.fetched]

theorem fetched_takes (h : s.ph.takes = true) (n : Nat) :
    s.fetched n = { s with inQ := s.inQ.drop n, cons := s.cons + BitVec.ofNat 32 n } := by
  simp [State.fetched, h]

theorem fetched_staged (h : s.ph.takes = false) (n : Nat) : s.fetched n = s := by simp [State.fetched, h]

theorem reads_of_staged {p : Phase} (h : p.staged = true) : p.reads = true := by
  cases p <;> simp_all [Phase.staged, Phase.reads, Phase.decoding]

theorem takesRecord_decoding {p : Phase} (h : p.takesRecord = true) : p.decoding = true := by
  cases p <;> simp_all [Phase.takesRecord, Phase.takes, Phase.decoding]

theorem staged_decoding {p : Phase} (h : p.staged = true) : p.decoding = true := by
  cases p <;> simp_all [Phase.staged, Phase.decoding]

theorem State.ReadsRecord.decoding (h : s.ReadsRecord) : s.ph.decoding = true :=
  h.elim takesRecord_decoding fun ⟨h, _⟩ => staged_decoding h

theorem nextByte_staged (h : s.ph.staged = true) (hL : s.scratch.tlen.toNat < Config.rbBytes) :
    s.nextByte = if s.scratch.tlen.toNat < s.stagedAt then .ended else .got (s.rb.read s.stagedAt) s := by
  rw [← fetchRb_eq hL]
  unfold State.nextByte State.stagedAt
  cases hp : s.ph <;> simp_all [Phase.staged]

/-- A unit works on the next of the bytes. -/
theorem unit_ahead (h : s.ReadsRecord) (hpay : s.ph = .rPay → s.cur.toNat < s.scratch.dlen.toNat) (hb : s.ahead = b :: bs) :
    s.unit = some ((s.fetched 1).handleByte b) := by
  obtain hp | ⟨hp, hL⟩ := h
  · have ht := takesRecord_takes hp
    rw [ahead_takes ht] at hb
    rw [unit_take ht hb, fetched_takes ht, hb]
    rfl
  · have ht := staged_not_takes hp
    rw [State.ahead, if_neg (by simp [ht])] at hb
    obtain ⟨hread, hlen, _⟩ := Mem.readList_eq_cons hb
    have hn := nextByte_staged hp hL
    rw [if_neg (by omega), hread] at hn
    rw [unit_got ⟨reads_of_staged hp, fun ⟨hr, hd⟩ => absurd (hpay hr) (not_lt.2 hd)⟩ hn, fetched_staged ht]

/-- Past the staged bytes the decode is cut short (43_record_framer.md R170). -/
theorem unit_ahead_nil (hp : s.ph.staged = true) (hL : s.scratch.tlen.toNat < Config.rbBytes)
    (hpay : s.ph = .rPay → s.cur.toNat < s.scratch.dlen.toNat) (hb : s.ahead = []) :
    s.unit = some (.next (s.raise .truncatedRead)) := by
  have hlen := congrArg List.length hb
  rw [State.ahead, if_neg (by simp [staged_not_takes hp]), Mem.length_readList, List.length_nil] at hlen
  refine unit_ended_byte ⟨reads_of_staged hp, fun ⟨hr, hd⟩ => absurd (hpay hr) (not_lt.2 hd)⟩ ?_
  rw [nextByte_staged hp hL, if_pos (by omega)]

/-- The state at the next byte of its field, with what a byte can change: the scratch registers but the lengths that place the
staged bytes, the buffers but the one that the bytes come from. -/
theorem ahead_next (h : s.ReadsRecord) (hp : s.ph ≠ .rHead) (hb : s.ahead = b :: bs) (hc : s.cur.toNat + 1 < 2 ^ 32) {k : Scratch}
    (hk : k.rawId = s.scratch.rawId ∧ k.rawLen = s.scratch.rawLen ∧ k.dlen = s.scratch.dlen ∧ k.tlen = s.scratch.tlen) {m r : Mem}
    (hr : s.ph.staged = true → r = s.rb) :
    State.ahead { s.fetched 1 with cur := s.cur + 1, scratch := k, pb := m, rb := r } = bs := by
  obtain ht | ⟨ht, -⟩ := h
  · have ht := takesRecord_takes ht
    rw [ahead_takes ht] at hb
    rw [ahead_takes (by exact ht), fetched_takes ht]
    simp [hb]
  · obtain ⟨hid, hlen, hd, hL⟩ := hk
    obtain rfl := hr ht
    have hn : s.ph.takes = false := staged_not_takes ht
    have hat : State.stagedAt { s with cur := s.cur + 1, scratch := k, pb := m } = s.stagedAt + 1 := by
      unfold State.stagedAt Scratch.dataLen
      simp only [toNat_add_one hc, hid, hlen, hd]
      revert ht hp
      cases s.ph <;> simp [Phase.staged] <;> omega
    rw [State.ahead, if_neg (by simp [hn])] at hb
    obtain ⟨_, hcount, hrest⟩ := Mem.readList_eq_cons hb
    rw [fetched_staged hn, State.ahead, if_neg (by simp [hn])]
    simp only [hat, hL]
    rw [show s.scratch.tlen.toNat + 1 - (s.stagedAt + 1) = bs.length by omega, hrest]

/-- One byte fetched, then `n` others. -/
theorem fetched_succ (n : Nat) (c : U32) (k : Scratch) (m r : Mem) :
    State.fetched { s.fetched 1 with cur := c, scratch := k, pb := m, rb := r } n =
      { s.fetched (n + 1) with cur := c, scratch := k, pb := m, rb := r } := by
  cases ht : s.ph.takes with
  | false => simp [State.fetched, ht]
  | true =>
    have hcons : s.cons + 1#32 + BitVec.ofNat 32 n = s.cons + BitVec.ofNat 32 (n + 1) := by
      rw [BitVec.add_assoc, Nat.add_comm n 1, BitVec.ofNat_add]
    simp [State.fetched, ht, hcons]

end

/-! ## VarUInts -/

/-- A phase that reads a VarUInt of a record (30_encoding.md R77). -/
def Phase.readsField (p : Phase) : Bool := p ∈ [.fId, .fLen, .rRlen, .rId, .rLen]

/-- The state inside a VarUInt of which `n` bytes are behind. -/
def State.inField (s : State) (n : Nat) (c : U32) (a : U29) (r : List Byte) : State :=
  { s.fetched n with cur := c, scratch := { s.scratch with acc := a, raw := r } }

theorem slot_readsField {s : State} (h : s.ph.readsField = true) : s.slot = some (vuSlot s.cur) := by
  unfold State.slot
  cases hp : s.ph <;> simp_all [Phase.readsField]

theorem inField_self (s : State) (n : Nat) : s.inField n s.cur s.scratch.acc s.scratch.raw = s.fetched n := rfl

/-- One byte of a VarUInt behind, then `n` others. -/
theorem inField_inField (s : State) (n : Nat) (c c' : U32) (a a' : U29) (r r' : List Byte) :
    (s.inField 1 c a r).inField n c' a' r' = s.inField (n + 1) c' a' r' := by
  have h := fetched_succ (s := s) n c { s.scratch with acc := a, raw := r } s.pb s.rb
  exact congrArg (fun t : State => { t with cur := c', scratch := { s.scratch with acc := a', raw := r' } }) h

/-- A unit that reads a VarUInt byte (40_varuint.md R105). -/
theorem unit_field {s : State} {b : Byte} {bs : List Byte} (h : s.ReadsRecord) (hp : s.ph.readsField = true)
    (hbs : s.ahead = b :: bs) :
    s.unit = some
      (if s.cur.toNat < 3 then
        if b.getLsbD 7 then
          .next (s.inField 1 (s.cur + 1) (vuJoin s.scratch.le s.scratch.acc s.cur.toNat (b.extractLsb' 0 7)) (s.scratch.raw ++ [b]))
        else (s.fetched 1).vuDone (vuJoin s.scratch.le s.scratch.acc s.cur.toNat (b.extractLsb' 0 7)) (s.cur.toNat + 1)
          (s.scratch.raw ++ [b])
      else (s.fetched 1).vuDone (vuJoinFourth s.scratch.le s.scratch.acc b) 4 (s.scratch.raw ++ [b])) := by
  rw [unit_ahead h (fun h' => by simp [h', Phase.readsField] at hp) hbs, handleByte_vu b (slot_readsField (s := s.fetched 1) hp)]
  rfl

/-- How the bytes of a VarUInt are read (40_varuint.md R105): to its end, which is then the work of the phase; or all of them,
where they run out. -/
theorem units_field_vu {bs : List Byte} {s : State} (h : s.ReadsRecord) (hp : s.ph.readsField = true) (hc : s.cur.toNat ≤ 3)
    (hbs : s.ahead = bs) :
    match vuDecFrom s.scratch.le s.cur.toNat s.scratch.acc bs with
    | some (v, n) => ∃ j c a r m, ∀ t,
        (s.inField (n - s.cur.toNat) c a r).vuDone v m (s.scratch.raw ++ bs.take (n - s.cur.toNat)) = .next t → Units j s t
    | none => ∃ j c a r, Units j s (s.inField bs.length c a r) ∧ (s.inField bs.length c a r).ahead = [] := by
  induction bs generalizing s with
  | nil =>
    refine ⟨0, s.cur, s.scratch.acc, s.scratch.raw, ?_⟩
    rw [inField_self, List.length_nil, fetched_zero]
    exact ⟨.refl s, hbs⟩
  | cons b bs ih =>
    have hu := unit_field h hp hbs
    simp only [vuDecFrom]
    split_ifs at hu ⊢ with h3 h7
    · have hcur : (s.cur + 1).toNat = s.cur.toNat + 1 := toNat_add_one (by omega)
      have hnext := ih (s := s.inField 1 (s.cur + 1) (vuJoin s.scratch.le s.scratch.acc s.cur.toNat (b.extractLsb' 0 7))
        (s.scratch.raw ++ [b])) h hp (by rw [State.inField, hcur]; omega)
        (ahead_next h (fun h' => by simp [h', Phase.readsField] at hp) hbs (by omega) ⟨rfl, rfl, rfl, rfl⟩
          (m := s.pb) (r := s.rb) fun _ => rfl)
      simp only [inField_inField, show ∀ c a r, (s.inField 1 c a r).scratch.le = s.scratch.le from fun _ _ _ => rfl,
        show ∀ c a r, (s.inField 1 c a r).cur = c from fun _ _ _ => rfl,
        show ∀ c a r, (s.inField 1 c a r).scratch.acc = a from fun _ _ _ => rfl,
        show ∀ c a r, (s.inField 1 c a r).scratch.raw = r from fun _ _ _ => rfl, hcur] at hnext
      cases hd : vuDecFrom s.scratch.le (s.cur.toNat + 1)
          (vuJoin s.scratch.le s.scratch.acc s.cur.toNat (b.extractLsb' 0 7)) bs with
      | none =>
        rw [hd] at hnext
        obtain ⟨j, c, a, r, hj, hnil⟩ := hnext
        exact ⟨j + 1, c, a, r, .head hu hj, hnil⟩
      | some vn =>
        obtain ⟨v, n⟩ := vn
        have hlt := (vuDecFrom_count hd).1
        rw [hd] at hnext
        obtain ⟨j, c, a, r, m, hj⟩ := hnext
        refine ⟨j + 1, c, a, r, m, fun t ht => .head hu (hj t ?_)⟩
        rw [show n - s.cur.toNat = n - (s.cur.toNat + 1) + 1 by omega] at ht
        rwa [List.append_assoc]
    · refine ⟨1, s.cur, s.scratch.acc, s.scratch.raw, s.cur.toNat + 1, fun t ht => .single (hu.trans (congrArg some ?_))⟩
      rwa [Nat.add_sub_cancel_left, inField_self] at ht
    · refine ⟨1, s.cur, s.scratch.acc, s.scratch.raw, 4, fun t ht => .single (hu.trans (congrArg some ?_))⟩
      rwa [Nat.add_sub_cancel_left, inField_self] at ht

/-! ## Plain bytes -/

/-- A phase that works on plain bytes: payload, CRC, trailing length, staging (30_encoding.md R86). -/
def Phase.plain (p : Phase) : Bool := p ∈ [.fPay, .rPay, .fCrc, .rCrc, .fRlen, .rFill]

/-- The scratch registers after the plain bytes `bs` of the phase `p` (43_record_framer.md R155, R160, R163). -/
def Scratch.gathered (k : Scratch) (p : Phase) (bs : List Byte) : Scratch :=
  if p = .fPay ∨ p = .rPay then k.feedAll bs
  else if p = .fCrc ∨ p = .rCrc then { k with got := k.got ++ bs }
  else if p = .fRlen then { k with gotLen := k.gotLen ++ bs }
  else k

/-- The state after the plain bytes `bs`, the payload ones in PB (R160, R170) and the staged ones in RB (R171). -/
def State.gathered (s : State) (bs : List Byte) : State :=
  { s.fetched bs.length with
    cur := s.cur + BitVec.ofNat 32 bs.length
    scratch := s.scratch.gathered s.ph bs
    pb := if s.ph = .fPay ∨ s.ph = .rPay then s.pb.writeList s.cur.toNat bs else s.pb
    rb := if s.ph = .rFill then s.rb.stage (s.scratch.tlen.toNat - s.cur.toNat) bs else s.rb }

/-- The number of plain bytes of the phase. -/
def State.plainLen (s : State) : Nat :=
  if s.ph = .fPay ∨ s.ph = .rPay then s.scratch.dlen.toNat
  else if s.ph = .fCrc ∨ s.ph = .rCrc then s.scratch.crc.len
  else if s.ph = .fRlen then s.scratch.trailerLen.length
  else s.scratch.tlen.toNat + 1

/-- What the phase does after the last of them (R160, R163, R170, R171). -/
def State.plainEnd (s : State) : State :=
  match s.ph with
  | .fPay => s.enter .fCrc
  | .rPay => s.enter .rCrc
  | .fCrc | .rCrc =>
    if s.scratch.got ≠ s.scratch.crcField then s.raise .checksumMismatch
    else if s.ph = .fCrc ∧ s.scratch.rev = true then s.enter .fRlen
    else s.recordDone
  | .fRlen => if s.scratch.gotLen ≠ s.scratch.trailerLen then s.raise .headTailMismatch else s.enter .fTail
  | _ => s.enter .rHead

/-- The plain bytes of the phase fit the buffer that they go to (R162, R171). -/
structure State.ReadsPlain (s : State) : Prop where
  plain : s.ph.plain = true
  payload : s.ph = .fPay ∨ s.ph = .rPay → s.scratch.dlen.toNat ≤ Config.pbBytes
  staged : s.ph = .rFill ∨ s.ph.staged = true → s.scratch.tlen.toNat < Config.rbBytes

@[simp] theorem Scratch.feedAll_tlen (k : Scratch) (bs : List Byte) : (k.feedAll bs).tlen = k.tlen := by
  rw [Scratch.feedAll_eq]

section
variable (k : Scratch) (p : Phase) (bs : List Byte)

@[simp] theorem gathered_le : (k.gathered p bs).le = k.le := by unfold Scratch.gathered; split_ifs <;> simp
@[simp] theorem gathered_rawId : (k.gathered p bs).rawId = k.rawId := by unfold Scratch.gathered; split_ifs <;> simp
@[simp] theorem gathered_rawLen : (k.gathered p bs).rawLen = k.rawLen := by unfold Scratch.gathered; split_ifs <;> simp
@[simp] theorem gathered_dlen : (k.gathered p bs).dlen = k.dlen := by unfold Scratch.gathered; split_ifs <;> simp
@[simp] theorem gathered_crc : (k.gathered p bs).crc = k.crc := by unfold Scratch.gathered; split_ifs <;> simp
@[simp] theorem gathered_tlen : (k.gathered p bs).tlen = k.tlen := by unfold Scratch.gathered; split_ifs <;> simp

theorem gathered_append (bs' : List Byte) : (k.gathered p bs).gathered p bs' = k.gathered p (bs ++ bs') := by
  unfold Scratch.gathered
  split_ifs <;> simp [Scratch.feedAll_append]

end

section
variable {s : State} {b : Byte} {bs : List Byte}

theorem gathered_nil (s : State) : s.gathered [] = s := by
  have hk : s.scratch.gathered s.ph [] = s.scratch := by unfold Scratch.gathered; split_ifs <;> simp
  simp [State.gathered, fetched_zero, hk, Mem.writeList, Mem.stage]

/-- One plain byte, then the others. -/
theorem gathered_cons (hc : s.cur.toNat + 1 < 2 ^ 32) : (s.gathered [b]).gathered bs = s.gathered (b :: bs) := by
  have hcur : s.cur + 1#32 + BitVec.ofNat 32 bs.length = s.cur + BitVec.ofNat 32 (bs.length + 1) := by
    rw [BitVec.add_assoc, Nat.add_comm bs.length 1, BitVec.ofNat_add]
  have hone : (s.cur + 1#32).toNat = s.cur.toNat + 1 := toNat_add_one hc
  have hk := gathered_append s.scratch s.ph [b] bs
  have hf := fetched_succ (s := s) bs.length (s.gathered [b]).cur (s.gathered [b]).scratch (s.gathered [b]).pb (s.gathered [b]).rb
  have hpb : ((s.gathered [b]).gathered bs).pb = (s.gathered (b :: bs)).pb := by
    show (if s.ph = .fPay ∨ s.ph = .rPay then _ else _) = if s.ph = .fPay ∨ s.ph = .rPay then _ else _
    split_ifs with hp <;> simp [State.gathered, hp, hone, Mem.writeList]
  have hrb : ((s.gathered [b]).gathered bs).rb = (s.gathered (b :: bs)).rb := by
    show (if s.ph = .rFill then _ else _) = if s.ph = .rFill then _ else _
    split_ifs with hp <;> simp [State.gathered, hp, hone, Mem.stage, Nat.sub_sub, Scratch.gathered]
  have hcurs : ((s.gathered [b]).gathered bs).cur = (s.gathered (b :: bs)).cur := hcur
  calc (s.gathered [b]).gathered bs
      = { State.fetched { s.fetched 1 with
            cur := (s.gathered [b]).cur, scratch := (s.gathered [b]).scratch
            pb := (s.gathered [b]).pb, rb := (s.gathered [b]).rb } bs.length with
          cur := (s.gathered (b :: bs)).cur, scratch := (s.scratch.gathered s.ph [b]).gathered s.ph bs
          pb := (s.gathered (b :: bs)).pb, rb := (s.gathered (b :: bs)).rb } := by
        rw [← hcurs, ← hpb, ← hrb]
        rfl
    _ = s.gathered (b :: bs) := by
        rw [hf, hk]
        rfl

theorem plain_cases {p : Phase} (h : p.plain = true) :
    (p = .fPay ∨ p = .rPay) ∨ (p = .fCrc ∨ p = .rCrc) ∨ p = .fRlen ∨ p = .rFill := by
  simp only [Phase.plain, decide_eq_true_eq, List.mem_cons, List.not_mem_nil, or_false] at h
  tauto

/-- What ends the CRC bytes (R160 F_CRC, R170 R_CRC). -/
theorem plainEnd_crc (hp : s.ph = .fCrc ∨ s.ph = .rCrc) :
    s.plainEnd =
      if s.scratch.got ≠ s.scratch.crcField then s.raise .checksumMismatch
      else if s.ph = .fCrc ∧ s.scratch.rev = true then s.enter .fRlen
      else s.recordDone := by
  unfold State.plainEnd
  obtain hp | hp := hp <;> rw [hp]

/-- What ends the trailing length (R163). -/
theorem plainEnd_rlen (hp : s.ph = .fRlen) :
    s.plainEnd = if s.scratch.gotLen ≠ s.scratch.trailerLen then s.raise .headTailMismatch else s.enter .fTail := by
  rw [State.plainEnd, hp]

theorem plainEnd_fill (hp : s.ph = .rFill) : s.plainEnd = s.enter .rHead := by
  rw [State.plainEnd, hp]

/-- A payload byte (43_record_framer.md R160 F_PAY, R170 R_PAY). -/
theorem payByte_gathered (hp : s.ph = .fPay ∨ s.ph = .rPay) (hc : s.cur.toNat < Config.pbBytes) (p : Phase) :
    (s.fetched 1).payByte p b =
      .next (if s.scratch.dlen.toNat ≤ s.cur.toNat + 1 then (s.gathered [b]).enter p else s.gathered [b]) := by
  have hone : s.gathered [b] =
      { s.fetched 1 with cur := s.cur + 1, scratch := s.scratch.feed b, pb := s.pb.write s.cur.toNat b } := by
    obtain hp | hp := hp <;> simp [State.gathered, State.fetched, Scratch.gathered, hp]
  rw [hone]
  exact if_neg (not_le.2 hc)

/-- A CRC byte (R160 F_CRC, R170 R_CRC). -/
theorem crcByte_gathered (hp : s.ph = .fCrc ∨ s.ph = .rCrc) :
    (s.fetched 1).crcByte b = if s.scratch.crc.len ≤ s.cur.toNat + 1 then (s.gathered [b]).plainEnd else s.gathered [b] := by
  have hone : s.gathered [b] =
      { s.fetched 1 with cur := s.cur + 1, scratch := { s.scratch with got := s.scratch.got ++ [b] } } := by
    obtain hp | hp := hp <;> simp [State.gathered, State.fetched, Scratch.gathered, hp]
  rw [plainEnd_crc (s := s.gathered [b]) hp, hone]
  refine ite_congr rfl (fun _ => ite_congr rfl (fun _ => ?_) fun _ => rfl) fun _ => rfl
  exact (raise_at_place { s.fetched 1 with scratch := _ } _ _ _).symm

/-- A byte of the trailing length in a forward decode (R163). -/
theorem rlenByte_gathered (hp : s.ph = .fRlen) :
    (s.fetched 1).rlenByte b =
      if s.scratch.trailerLen.length ≤ s.cur.toNat + 1 then (s.gathered [b]).plainEnd else s.gathered [b] := by
  have hone : s.gathered [b] =
      { s.fetched 1 with cur := s.cur + 1, scratch := { s.scratch with gotLen := s.scratch.gotLen ++ [b] } } := by
    simp [State.gathered, State.fetched, Scratch.gathered, hp]
  rw [plainEnd_rlen (s := s.gathered [b]) hp, hone]
  refine ite_congr rfl (fun _ => ite_congr rfl (fun _ => ?_) fun _ => rfl) fun _ => rfl
  exact (raise_at_place { s.fetched 1 with scratch := _ } _ _ _).symm

/-- A byte that is staged (R171). -/
theorem fillByte_gathered (hp : s.ph = .rFill) (hL : s.scratch.tlen.toNat < Config.rbBytes) :
    (s.fetched 1).fillByte b =
      .next (if s.scratch.tlen.toNat ≤ s.cur.toNat then (s.gathered [b]).plainEnd else s.gathered [b]) := by
  have hone : s.gathered [b] =
      { s.fetched 1 with cur := s.cur + 1, rb := s.rb.write (s.scratch.tlen.toNat - s.cur.toNat) b } := by
    simp [State.gathered, State.fetched, Scratch.gathered, hp, Mem.stage]
  rw [plainEnd_fill (s := s.gathered [b]) hp, hone]
  exact if_neg (show ¬Config.rbBytes ≤ s.scratch.tlen.toNat - s.cur.toNat by omega)

/-- A plain byte does the work of its phase, and the last one what ends the phase. -/
theorem dataByte_plain (h : s.ReadsPlain) (hc : s.cur.toNat < s.plainLen) :
    (s.fetched 1).dataByte b =
      .next (if s.plainLen ≤ s.cur.toNat + 1 then (s.gathered [b]).plainEnd else s.gathered [b]) := by
  have hph : (s.fetched 1).ph = s.ph ∧ (s.gathered [b]).ph = s.ph := ⟨rfl, rfl⟩
  obtain hp | hp | hp | hp := plain_cases h.plain
  · have hd := h.payload hp
    have hlen : s.plainLen = s.scratch.dlen.toNat := if_pos hp
    rw [hlen] at hc ⊢
    have hpay := payByte_gathered (b := b) hp (by omega)
    obtain hp | hp := hp <;> simp only [State.dataByte, State.plainEnd, hph, hp, hpay]
  · have hlen : s.plainLen = s.scratch.crc.len := by obtain hp | hp := hp <;> simp [State.plainLen, hp]
    rw [hlen, ← crcByte_gathered hp]
    obtain hp | hp := hp <;> simp only [State.dataByte, hph, hp]
  · have hlen : s.plainLen = s.scratch.trailerLen.length := by simp [State.plainLen, hp]
    rw [hlen, ← rlenByte_gathered hp]
    simp only [State.dataByte, hph, hp]
  · have hlen : s.plainLen = s.scratch.tlen.toNat + 1 := by simp [State.plainLen, hp]
    simp only [hlen, Nat.add_le_add_iff_right, ← fillByte_gathered hp (h.staged (.inl hp)), State.dataByte, hph, hp]

theorem State.ReadsPlain.readsRecord (h : s.ReadsPlain) : s.ReadsRecord := by
  have hp := h.plain
  have hs := h.staged
  unfold State.ReadsRecord
  cases hph : s.ph <;> simp_all [Phase.plain, Phase.takesRecord, Phase.takes, Phase.staged]

theorem slot_plain (h : s.ph.plain = true) : s.slot = none := by
  unfold State.slot
  cases hp : s.ph <;> simp_all [Phase.plain]

theorem State.ReadsPlain.gathered (h : s.ReadsPlain) (bs : List Byte) : (s.gathered bs).ReadsPlain :=
  ⟨h.plain, fun hp => (gathered_dlen ..).symm ▸ h.payload hp, fun hp => (gathered_tlen ..).symm ▸ h.staged hp⟩

theorem plainLen_gathered (s : State) (bs : List Byte) : (s.gathered bs).plainLen = s.plainLen := by
  simp [State.plainLen, State.gathered, State.fetched, Scratch.trailerLen, Scratch.totalLen, Scratch.dataLen]

theorem plainLen_lt (s : State) : s.plainLen < 2 ^ 32 := by
  have hd := s.scratch.dlen.isLt
  have hL := s.scratch.tlen.isLt
  have hc := s.scratch.crc.len_le
  have ht := trailerLen_length_le s.scratch
  unfold State.plainLen
  split_ifs <;> omega

/-- A unit that works on a plain byte. -/
theorem unit_plain (h : s.ReadsPlain) (hc : s.cur.toNat < s.plainLen) (hbs : s.ahead = b :: bs) :
    s.unit = some (.next (if s.plainLen ≤ s.cur.toNat + 1 then (s.gathered [b]).plainEnd else s.gathered [b])) := by
  rw [unit_ahead h.readsRecord (fun hp => ?_) hbs, handleByte_data b (slot_plain (s := s.fetched 1) h.plain), dataByte_plain h hc]
  simpa [State.plainLen, hp] using hc

/-- Plain bytes, one by one. -/
theorem units_plain (h : s.ReadsPlain) (hne : bs ≠ []) (hlen : s.cur.toNat + bs.length ≤ s.plainLen) {q : List Byte}
    (hbs : s.ahead = bs ++ q) :
    Units bs.length s (if s.plainLen ≤ s.cur.toNat + bs.length then (s.gathered bs).plainEnd else s.gathered bs) := by
  have hbound := plainLen_lt s
  induction bs generalizing s with
  | nil => exact absurd rfl hne
  | cons b bs ih =>
    simp only [List.length_cons] at hlen ⊢
    have hu := unit_plain h (by omega) hbs
    cases bs with
    | nil => exact .single hu
    | cons b' bs =>
      simp only [List.length_cons] at hlen ih
      have hcur : (s.gathered [b]).cur.toNat = s.cur.toNat + 1 := toNat_add_one (by omega)
      have hahead : (s.gathered [b]).ahead = b' :: bs ++ q :=
        ahead_next h.readsRecord (fun hp => by simpa [hp, Phase.plain] using h.plain) hbs (by omega)
          ⟨gathered_rawId .., gathered_rawLen .., gathered_dlen .., gathered_tlen ..⟩ fun hp => if_neg fun hf => by
            simp [hf, Phase.staged] at hp
      have hrest := ih (h.gathered [b]) (by simp) (by rw [plainLen_gathered, hcur]; omega) hahead (plainLen_lt _)
      rw [plainLen_gathered, hcur, gathered_cons (by omega)] at hrest
      rw [if_neg (by omega)] at hu
      have hsum : s.cur.toNat + 1 + (bs.length + 1) = s.cur.toNat + (bs.length + 1 + 1) := by omega
      simp only [hsum] at hrest
      exact .head hu hrest

end

end Sys2Proof.Machine
end

section
/-! How a record decode ends (43_record_framer.md R160, R164, R170), and the forward protocol: from each phase on, the codec does
what the rest of `readForward` says. -/

namespace Sys2Proof.Machine

open Sys2Proof

/-! ## How a decode ends -/

/-- What a record decode changes in no unit before its last one: everything but the place in it, the buffers, IN and CONS. -/
def State.frame (s : State) : State :=
  { s with ph := .idle, cur := 0, scratch := Scratch.init, pb := [], rb := [], inQ := [], cons := 0 }

/-- A decode with the frame `f` has come to `v` as `r` says, with PB `m` and RB `rb`: it waits for a byte with all of IN taken, or
it has ended (60_exceptions.md R193, 43_record_framer.md R160, R170). CONS is left open: R25 says that it counts the bytes. -/
def Stopped (f : State) (r : ReadResult) (m rb : Mem) (v : State) : Prop :=
  match r.stop with
  | .short =>
    r.rest = [] ∧ ∃ p c k n, p.takesRecord = true ∧
      v = { f with ph := p, cur := c, scratch := k, pb := m, rb := rb, inQ := [], cons := n }
  | .error e => ∃ n, v = ({ f.emptied with pb := m, rb := rb, inQ := r.rest } : State).failed e n
  | .record head id crc =>
    ∃ n, v = (({ f.emptied with pb := m, rb := rb, inQ := r.rest } : State).holding head id r.pay.length crc).ended .ok 0 false 0 n

/-- From `s`, inside a record decode, units of work lead to what `r` says. -/
def State.Decodes (s : State) (r : ReadResult) (m rb : Mem) : Prop := ∃ j v, Units j s v ∧ Stopped s.frame r m rb v

section
variable {s t : State} {r : ReadResult} {m rb : Mem} {j : Nat} {pay : List Byte}

theorem State.Decodes.of_units (h : Units j s t) (hf : t.frame = s.frame) (ht : t.Decodes r m rb) : s.Decodes r m rb := by
  obtain ⟨i, v, hv, hs⟩ := ht
  exact ⟨j + i, v, h.trans hv, hf ▸ hs⟩

theorem decodes_short (h : Units j s t) (hf : t.frame = s.frame) (ht : t.ph.takesRecord = true) (hq : t.inQ = []) :
    s.Decodes ⟨.short, pay, []⟩ t.pb t.rb :=
  ⟨j, t, h, hf ▸ ⟨rfl, t.ph, t.cur, t.scratch, t.cons, ht, by rw [← hq]; rfl⟩⟩

theorem decodes_raise {e : Status} (h : Units j s (t.raise e)) (hf : t.frame = s.frame) (ht : t.ph.decoding = true) :
    s.Decodes ⟨.error e, pay, t.inQ⟩ t.pb t.rb :=
  ⟨j, _, h, hf ▸ ⟨t.cons.toNat, raise_of_decoding ht e⟩⟩

theorem decodes_recordDone (h : Units j s t.recordDone) (hf : t.frame = s.frame) (hd : t.scratch.dlen.toNat = pay.length)
    (hg : t.scratch.got.length = t.scratch.crc.len) :
    s.Decodes ⟨.record (headByte t.scratch.le t.scratch.rev t.scratch.enh) t.scratch.id t.scratch.got, pay, t.inQ⟩ t.pb t.rb := by
  refine ⟨j, _, h, hf ▸ ⟨t.cons.toNat, (recordDone_eq_ended t).trans ?_⟩⟩
  have hplen : t.scratch.dlen.setWidth 32 = BitVec.ofNat 32 pay.length := by
    apply BitVec.eq_of_toNat_eq
    simp [← hd]
  rw [hplen, ← hg]
  rfl

/-! ## The parts of a record -/

/-- Plain bytes of IN that run out before their phase ends. -/
theorem decodes_plain_short (h : s.ReadsPlain) (ht : s.ph.takesRecord = true) (hlen : s.cur.toNat + s.inQ.length < s.plainLen) :
    s.Decodes ⟨.short, pay, []⟩ (s.gathered s.inQ).pb (s.gathered s.inQ).rb := by
  have htakes := takesRecord_takes ht
  have hunits : Units s.inQ.length s (s.gathered s.inQ) := by
    by_cases hq : s.inQ = []
    · rw [hq, gathered_nil]
      exact .refl s
    · have hu := units_plain h hq hlen.le (q := []) (by rw [ahead_takes htakes, List.append_nil])
      rwa [if_neg (by omega)] at hu
  exact decodes_short hunits rfl ht (by simp [State.gathered, fetched_takes htakes])

/-- The plain bytes of a phase that are all there. -/
theorem units_plain_all (h : s.ReadsPlain) (hc : s.cur = 0) (hlen : s.plainLen ≤ s.ahead.length) (hpos : s.plainLen ≠ 0) :
    Units s.plainLen s (s.gathered (s.ahead.take s.plainLen)).plainEnd := by
  have hn : (s.ahead.take s.plainLen).length = s.plainLen := List.length_take_of_le hlen
  have hu := units_plain h (bs := s.ahead.take s.plainLen) (fun h0 => hpos (by simpa [h0] using hn.symm)) (by simp [hc, hn])
    (List.take_append_drop ..).symm
  rw [hn, if_pos (by simp [hc])] at hu
  exact hu

/-- A VarUInt of a record that is all there, `H` being what its end leads to. -/
theorem decodes_field (h : s.ReadsRecord) (hp : s.ph.readsField = true) (hc : s.cur = 0) (ha : s.scratch.acc = 0)
    (hr : s.scratch.raw = []) {v : U29} {n : Nat} (hd : vuDec s.scratch.le s.ahead = some (v, n))
    (H : ∀ j c a w i, (∀ t, (s.inField n c a w).vuDone v i (s.ahead.take n) = .next t → Units j s t) → s.Decodes r m rb) :
    s.Decodes r m rb := by
  have hvu := units_field_vu h hp (by simp [hc]) rfl
  rw [ha, hc, hr, show vuDecFrom s.scratch.le (0 : U32).toNat 0 s.ahead = some (v, n) from hd] at hvu
  obtain ⟨j, c, a, w, i, hj⟩ := hvu
  exact H j c a w i hj

/-- A VarUInt of a record whose bytes run out: the codec waits, or the staged record is cut short. -/
theorem decodes_field_short (h : s.ReadsRecord) (hp : s.ph.readsField = true) (hc : s.cur = 0) (ha : s.scratch.acc = 0)
    (hd : vuDec s.scratch.le s.ahead = none) :
    s.Decodes (if s.ph.takes then ⟨.short, pay, []⟩ else ⟨.error .truncatedRead, pay, s.inQ⟩) s.pb s.rb := by
  have hvu := units_field_vu h hp (by simp [hc]) rfl
  rw [ha, hc, show vuDecFrom s.scratch.le (0 : U32).toNat 0 s.ahead = none from hd] at hvu
  obtain ⟨j, c, a, w, hj, hnil⟩ := hvu
  obtain ht | ⟨hs, hL⟩ := h
  · have htakes := takesRecord_takes ht
    rw [if_pos htakes]
    exact decodes_short (t := s.inField _ c a w) hj rfl ht ((ahead_takes (s := s.inField _ c a w) htakes).symm.trans hnil)
  · have hno := staged_not_takes hs
    rw [if_neg (by simp [hno])]
    have hu := unit_ahead_nil (s := s.inField _ c a w) hs hL (fun hpay => by
      rw [show s.ph = .rPay from hpay] at hp
      cases hp) hnil
    have hdec := decodes_raise (pay := pay) (hj.trans (.single hu)) rfl (staged_decoding hs)
    simpa [State.inField, fetched_staged hno] using hdec

end

/-! ## Sync bytes as the protocols read them -/

/-- A byte is a head, the tail paired with a head, or neither (30_encoding.md R73, R75). -/
theorem sync_cases (b : Byte) :
    (∃ le rev enh, b = headByte le rev enh ∧ parseHead b = some (le, rev, enh) ∧ headOf b = none) ∨
    (∃ le enh, b = tailByte le enh ∧ parseHead b = none ∧ parseTail b = some (le, enh) ∧ headOf b = some (headByte le true enh)) ∨
    (parseHead b = none ∧ parseTail b = none ∧ headOf b = none) := by
  revert b
  decide +kernel

theorem headByte_inj {le rev enh le' rev' enh' : Bool} (h : headByte le rev enh = headByte le' rev' enh') :
    le = le' ∧ rev = rev' ∧ enh = enh' := by
  revert le rev enh le' rev' enh'
  decide

/-- The tail sync byte at the end of a forward read (43_record_framer.md R160 step 5, R163). -/
theorem handleByte_fTail {s : State} (hp : s.ph = .fTail) (b : Byte) :
    s.handleByte b = .next
      (if headOf b = none then s.raise .malformedSync
        else if headOf b ≠ some (headByte s.scratch.le true s.scratch.enh) then s.raise .headTailMismatch
        else s.recordDone) := by
  rw [handleByte_sync b (slot_of_awaitsSync (.inr (.inl hp)))]
  obtain ⟨le, rev, enh, _, hhead, hof⟩ | ⟨le, enh, _, hhead, htail, hof⟩ | ⟨hhead, htail, hof⟩ := sync_cases b
  · simp only [hhead, hof, if_true, headSync_fTail _ _ _ hp]
  · simp only [hhead, htail, hof, tailSync_fTail _ _ hp, reduceCtorEq, if_false, ne_eq, ite_not, Option.some.injEq]
    refine congrArg _ (if_congr ⟨fun ⟨h1, h2⟩ => by rw [h1, h2], fun h => ?_⟩ rfl rfl)
    obtain ⟨h1, _, h2⟩ := headByte_inj h
    exact ⟨h1, h2⟩
  · simp only [hhead, htail, hof, if_true, badSync_eq (s := s) (by simp [hp])]

/-! ## The rest of a forward read, from each phase on -/

/-- The tail byte of a forward read (R163). -/
def readTailByte (le enh : Bool) (done : Stop) (pay : List Byte) : List Byte → ReadResult
  | [] => ⟨.short, pay, []⟩
  | t :: rest =>
    if headOf t = none then ⟨.error .malformedSync, pay, rest⟩
    else if headOf t ≠ some (headByte le true enh) then ⟨.error .headTailMismatch, pay, rest⟩
    else ⟨done, pay, rest⟩

theorem readTrailer_eq (le enh : Bool) (total : Nat) (done : Stop) (pay bs : List Byte) :
    readTrailer le enh total done pay bs =
      let e := (vuEnc (BitVec.ofNat 29 total) le).reverse
      if bs.length < e.length then ⟨.short, pay, []⟩
      else if bs.take e.length ≠ e then ⟨.error .headTailMismatch, pay, bs.drop e.length⟩
      else readTailByte le enh done pay (bs.drop e.length) := by
  refine ite_congr rfl (fun _ => rfl) fun _ => ite_congr rfl (fun _ => rfl) fun _ => ?_
  cases bs.drop (vuEnc (BitVec.ofNat 29 total) le).reverse.length <;> rfl

/-- The CRC bytes of a forward read that are all there, and what follows them (R160, R163); `field` are the computed ones. -/
def readCrc (head : Byte) (le rev enh : Bool) (id : U29) (total : Nat) (field pay bs : List Byte) : ReadResult :=
  if bs.take field.length ≠ field then ⟨.error .checksumMismatch, pay, bs.drop field.length⟩
  else if rev then readTrailer le enh total (.record head id (bs.take field.length)) pay (bs.drop field.length)
  else ⟨.record head id (bs.take field.length), pay, bs.drop field.length⟩

theorem readTailByte_pay (le enh : Bool) (done : Stop) (pay bs : List Byte) : (readTailByte le enh done pay bs).pay = pay := by
  unfold readTailByte
  cases bs with
  | nil => rfl
  | cons => dsimp only; split_ifs <;> rfl

theorem readCrc_pay (head : Byte) (le rev enh : Bool) (id : U29) (total : Nat) (field pay bs : List Byte) :
    (readCrc head le rev enh id total field pay bs).pay = pay := by
  rw [readCrc, readTrailer_eq]
  simp only [apply_ite ReadResult.pay, readTailByte_pay, ite_self]

/-- What follows the header bytes `hdr` of a forward read (R160, R162). -/
def readPayload (head : Byte) (le rev enh : Bool) (id : U29) (hdr : List Byte) (len : U29) (bs : List Byte) : ReadResult :=
  match crcKind (hdr.length + len.toNat) enh with
  | none => ⟨.error .unsupported, [], bs⟩
  | some k =>
    if Config.pbBytes < len.toNat then ⟨.error .unsupported, [], bs⟩
    else if bs.length < len.toNat + k.len then ⟨.short, bs.take len.toNat, []⟩
    else readCrc head le rev enh id (hdr.length + len.toNat + k.len) (crcBytes hdr (bs.take len.toNat) k le) (bs.take len.toNat)
      (bs.drop len.toNat)

/-- What follows the id field `rawId` of a forward read (R160 step 2). -/
def readLen (head : Byte) (le rev enh : Bool) (id : U29) (rawId bs : List Byte) : ReadResult :=
  match vuDec le bs with
  | none => ⟨.short, [], []⟩
  | some (len, n) => readPayload head le rev enh id (rawId ++ bs.take n) len (bs.drop n)

/-- What follows the head byte of a forward read (R160 step 2). -/
def readId (head : Byte) (le rev enh : Bool) (bs : List Byte) : ReadResult :=
  match vuDec le bs with
  | none => ⟨.short, [], []⟩
  | some (id, n) => readLen head le rev enh id (bs.take n) (bs.drop n)

/-- A VarUInt ends inside the bytes that it is read from. -/
theorem vuDec_length {le : Bool} {bs : List Byte} {v : U29} {n : Nat} (h : vuDec le bs = some (v, n)) : n ≤ bs.length := by
  have := (vuDecFrom_count h).2.1
  omega

/-- A forward read, field by field. -/
theorem readForward_cons (b : Byte) (bs : List Byte) :
    readForward (b :: bs) =
      match parseHead b with
      | none => ⟨.error .malformedSync, [], bs⟩
      | some (le, rev, enh) => readId b le rev enh bs := by
  rw [readForward]
  cases parseHead b with
  | none => rfl
  | some f =>
    obtain ⟨le, rev, enh⟩ := f
    dsimp only
    rw [readId]
    cases hid : vuDec le bs with
    | none => rfl
    | some vn =>
      obtain ⟨id, n⟩ := vn
      dsimp only
      rw [readLen]
      cases hlen : vuDec le (bs.drop n) with
      | none => rfl
      | some vm =>
        obtain ⟨len, m⟩ := vm
        have hn := vuDec_length hid
        have hm := vuDec_length hlen
        rw [List.length_drop] at hm
        have hhdr : (bs.take (n + m)).length = n + m := List.length_take_of_le (by omega)
        simp only [← List.take_add, List.drop_drop, readPayload, hhdr]
        cases crcKind (n + m + len.toNat) enh with
        | none => rfl
        | some k => simp only [readCrc, crcBytes_length, List.drop_drop]

/-! ## The phases of a forward decode -/

theorem CrcKind.len_ne_zero (c : CrcKind) : c.len ≠ 0 := by cases c <;> decide

section
variable {s : State} {pay : List Byte} {j : Nat}

theorem plainEnd_fPay (hp : s.ph = .fPay) : s.plainEnd = s.enter .fCrc := by rw [State.plainEnd, hp]

theorem totalLen_feedAll (k : Scratch) (bs : List Byte) : (k.feedAll bs).totalLen = k.totalLen := by
  simp [Scratch.totalLen, Scratch.dataLen]

/-- F_TAIL (R160 step 5). -/
theorem decodes_fTail (hp : s.ph = .fTail) (hd : s.scratch.dlen.toNat = pay.length)
    (hg : s.scratch.got.length = s.scratch.crc.len) :
    s.Decodes (readTailByte s.scratch.le s.scratch.enh
      (.record (headByte s.scratch.le s.scratch.rev s.scratch.enh) s.scratch.id s.scratch.got) pay s.inQ) s.pb s.rb := by
  cases hq : s.inQ with
  | nil => exact decodes_short (.refl s) rfl (by rw [hp]; rfl) hq
  | cons b q =>
    have hu := unit_take (by rw [hp]; rfl) hq
    have hdec : s.ph.decoding = true := by rw [hp]; rfl
    rw [handleByte_fTail (s := s.took q) hp] at hu
    change s.unit = some (.next (if headOf b = none then _ else
      if headOf b ≠ some (headByte s.scratch.le true s.scratch.enh) then _ else _)) at hu
    simp only [readTailByte]
    split_ifs at hu ⊢ with hnone hne
    · exact decodes_raise (t := s.took q) (.single hu) rfl hdec
    · exact decodes_raise (t := s.took q) (.single hu) rfl hdec
    · exact decodes_recordDone (t := s.took q) (.single hu) rfl hd hg

/-- F_RLEN (R163). -/
theorem decodes_fRlen (hp : s.ph = .fRlen) (hc : s.cur = 0) (hgot : s.scratch.gotLen = []) (hd : s.scratch.dlen.toNat = pay.length)
    (hg : s.scratch.got.length = s.scratch.crc.len) :
    s.Decodes (readTrailer s.scratch.le s.scratch.enh s.scratch.totalLen
      (.record (headByte s.scratch.le s.scratch.rev s.scratch.enh) s.scratch.id s.scratch.got) pay s.inQ) s.pb s.rb := by
  have hplain : s.ReadsPlain := ⟨by rw [hp]; rfl, by simp [hp], by simp [hp, Phase.staged]⟩
  have htakes : s.ph.takes = true := by rw [hp]; rfl
  have hlen : s.plainLen = s.scratch.trailerLen.length := by simp [State.plainLen, hp]
  have hpos : s.scratch.trailerLen.length ≠ 0 := by simp [Scratch.trailerLen, vuEnc_ne_nil]
  have hz (bs : List Byte) : s.gathered bs =
      { s with
        inQ := s.inQ.drop bs.length, cons := s.cons + BitVec.ofNat 32 bs.length, cur := s.cur + BitVec.ofNat 32 bs.length
        scratch := { s.scratch with gotLen := bs } } := by
    simp [State.gathered, fetched_takes htakes, Scratch.gathered, hp, hgot]
  rw [readTrailer_eq]
  change State.Decodes _ (if s.inQ.length < s.scratch.trailerLen.length then _ else
    if s.inQ.take s.scratch.trailerLen.length ≠ s.scratch.trailerLen then _ else _) _ _
  by_cases hshort : s.inQ.length < s.scratch.trailerLen.length
  · rw [if_pos hshort]
    have h := decodes_plain_short (pay := pay) hplain (by rw [hp]; rfl) (by simp [hc, hlen, hshort])
    rwa [hz] at h
  rw [if_neg hshort]
  have hu := units_plain_all hplain hc (by rw [hlen, ahead_takes htakes]; omega) (by rwa [hlen])
  rw [ahead_takes htakes, hlen, hz, List.length_take_of_le (by omega), plainEnd_rlen (by exact hp)] at hu
  change Units _ s (if s.inQ.take s.scratch.trailerLen.length ≠ s.scratch.trailerLen then _ else _) at hu
  split_ifs at hu ⊢ with hne
  · exact decodes_raise hu rfl (by exact congrArg Phase.decoding hp)
  · exact .of_units hu rfl (decodes_fTail rfl hd hg)

/-- F_CRC (R160 step 4). -/
theorem decodes_fCrc (hp : s.ph = .fCrc) (hc : s.cur = 0) (hgot : s.scratch.got = []) (hgotLen : s.scratch.gotLen = [])
    (hd : s.scratch.dlen.toNat = pay.length) :
    s.Decodes (if s.inQ.length < s.scratch.crc.len then ⟨.short, pay, []⟩ else
      readCrc (headByte s.scratch.le s.scratch.rev s.scratch.enh) s.scratch.le s.scratch.rev s.scratch.enh s.scratch.id
        s.scratch.totalLen s.scratch.crcField pay s.inQ) s.pb s.rb := by
  have hplain : s.ReadsPlain := ⟨by rw [hp]; rfl, by simp [hp], by simp [hp, Phase.staged]⟩
  have htakes : s.ph.takes = true := by rw [hp]; rfl
  have hlen : s.plainLen = s.scratch.crc.len := by simp [State.plainLen, hp]
  have hz (bs : List Byte) : s.gathered bs =
      { s with
        inQ := s.inQ.drop bs.length, cons := s.cons + BitVec.ofNat 32 bs.length, cur := s.cur + BitVec.ofNat 32 bs.length
        scratch := { s.scratch with got := bs } } := by
    simp [State.gathered, fetched_takes htakes, Scratch.gathered, hp, hgot]
  by_cases hshort : s.inQ.length < s.scratch.crc.len
  · rw [if_pos hshort]
    have h := decodes_plain_short (pay := pay) hplain (by rw [hp]; rfl) (by simp [hc, hlen, hshort])
    rwa [hz] at h
  have hn : (s.inQ.take s.scratch.crc.len).length = s.scratch.crc.len := List.length_take_of_le (by omega)
  rw [if_neg hshort, readCrc, crcField_length]
  have hu := units_plain_all hplain hc (by rw [hlen, ahead_takes htakes]; omega) (hlen ▸ CrcKind.len_ne_zero _)
  rw [ahead_takes htakes, hlen, hz, hn, plainEnd_crc (.inl (by exact hp))] at hu
  change Units _ s (if s.inQ.take s.scratch.crc.len ≠ s.scratch.crcField then _ else
    if s.ph = .fCrc ∧ s.scratch.rev = true then _ else _) at hu
  simp only [hp, true_and] at hu
  split_ifs at hu ⊢ with hne hrev
  · exact decodes_raise hu rfl rfl
  · exact .of_units hu rfl (decodes_fRlen rfl rfl hgotLen hd hn)
  · exact decodes_recordDone hu rfl hd hn

/-- From the payload on, or from the CRC on where the payload is empty (R160 steps 3 and 4). -/
theorem decodes_body (hp : s.ph = if s.scratch.dlen = 0 then .fCrc else .fPay) (hc : s.cur = 0) (hgot : s.scratch.got = [])
    (hgotLen : s.scratch.gotLen = []) (hd : s.scratch.dlen.toNat ≤ Config.pbBytes)
    (hpay : pay = s.inQ.take s.scratch.dlen.toNat) :
    s.Decodes (if s.inQ.length < s.scratch.dlen.toNat + s.scratch.crc.len then ⟨.short, pay, []⟩ else
      readCrc (headByte s.scratch.le s.scratch.rev s.scratch.enh) s.scratch.le s.scratch.rev s.scratch.enh s.scratch.id
        s.scratch.totalLen (s.scratch.feedAll pay).crcField pay (s.inQ.drop s.scratch.dlen.toNat))
      (s.pb.writeList 0 pay) s.rb := by
  by_cases h0 : s.scratch.dlen = 0
  · have hnil : pay = [] := by simp [hpay, h0]
    have h := decodes_fCrc (pay := pay) (by simpa [h0] using hp) hc hgot hgotLen (by simp [h0, hnil])
    simpa [h0, hnil, Mem.writeList] using h
  rw [if_neg h0] at hp
  have hpos : s.scratch.dlen.toNat ≠ 0 := fun h => h0 (BitVec.eq_of_toNat_eq h)
  have hplain : s.ReadsPlain := ⟨by rw [hp]; rfl, fun _ => hd, by simp [hp, Phase.staged]⟩
  have htakes : s.ph.takes = true := by rw [hp]; rfl
  have hlen : s.plainLen = s.scratch.dlen.toNat := by simp [State.plainLen, hp]
  have hz (bs : List Byte) : s.gathered bs =
      { s with
        inQ := s.inQ.drop bs.length, cons := s.cons + BitVec.ofNat 32 bs.length, cur := s.cur + BitVec.ofNat 32 bs.length
        scratch := s.scratch.feedAll bs, pb := s.pb.writeList 0 bs } := by
    simp [State.gathered, fetched_takes htakes, Scratch.gathered, hp, hc]
  by_cases hshort : s.inQ.length < s.scratch.dlen.toNat
  · rw [if_pos (by omega), hpay, List.take_of_length_le (by omega)]
    have h := decodes_plain_short (pay := s.inQ) hplain (by rw [hp]; rfl) (by simp [hc, hlen, hshort])
    rwa [hz] at h
  have hn : pay.length = s.scratch.dlen.toNat := by rw [hpay]; exact List.length_take_of_le (by omega)
  have hu := units_plain_all hplain hc (by rw [hlen, ahead_takes htakes]; omega) (by rwa [hlen])
  rw [ahead_takes htakes, hlen, ← hpay, hz, hn] at hu
  rw [plainEnd_fPay (by exact hp)] at hu
  have hcrc := decodes_fCrc (s := State.enter { s with
    inQ := s.inQ.drop s.scratch.dlen.toNat, cons := s.cons + BitVec.ofNat 32 s.scratch.dlen.toNat
    cur := s.cur + BitVec.ofNat 32 s.scratch.dlen.toNat, scratch := s.scratch.feedAll pay, pb := s.pb.writeList 0 pay } .fCrc)
    (pay := pay) rfl rfl (by simpa [State.enter]) (by simpa [State.enter]) (by simp [State.enter, hn])
  refine .of_units hu rfl ?_
  simpa only [State.enter, Scratch.feedAll_le, Scratch.feedAll_rev, Scratch.feedAll_enh, Scratch.feedAll_id, Scratch.feedAll_crc,
    totalLen_feedAll, List.length_drop, Nat.sub_lt_iff_lt_add' (not_lt.1 hshort)] using hcrc

/-- The payload-length handler of a forward decode, in the state that holds the decoded length (R162). -/
theorem decodes_lengthHandler {u : State} (hp : u.ph = .fLen) (hu : Units j s u.lengthHandler) (hf : u.frame = s.frame)
    {r : ReadResult}
    (hr : r = readPayload (headByte u.scratch.le u.scratch.rev u.scratch.enh) u.scratch.le u.scratch.rev u.scratch.enh u.scratch.id
      (u.scratch.rawId ++ u.scratch.rawLen) u.scratch.dlen u.inQ) : s.Decodes r (u.pb.writeList 0 r.pay) u.rb := by
  have hdec : u.ph.decoding = true := by rw [hp]; rfl
  rw [readPayload, List.length_append] at hr
  rw [State.lengthHandler, Scratch.dataLen] at hu
  cases hk : crcKind (u.scratch.rawId.length + u.scratch.rawLen.length + u.scratch.dlen.toNat) u.scratch.enh with
  | none =>
    simp only [hk] at hu hr
    rw [hr]
    exact decodes_raise hu hf hdec
  | some k =>
    simp only [hk] at hu hr
    by_cases hbig : Config.pbBytes < u.scratch.dlen.toNat
    · rw [if_pos hbig] at hu hr
      rw [hr]
      exact decodes_raise hu hf hdec
    rw [if_neg hbig, if_neg (by simp [hp]), if_neg (by simp [hp])] at hu
    have hbody := decodes_body (s := u.at (if u.scratch.dlen = 0 then .fCrc else .fPay) 0 (u.scratch.crcBegin k).crcHeader)
      (by simp [State.at, crcHeader_eq]) rfl (by simp [State.at, crcHeader_eq]) (by simp [State.at, crcHeader_eq])
      (by simpa [State.at, crcHeader_eq] using hbig) rfl
    refine .of_units hu hf ?_
    simp only [State.at, crcHeader_eq, Scratch.feedAll_le, Scratch.feedAll_rev, Scratch.feedAll_enh, Scratch.feedAll_id,
      Scratch.feedAll_crc, Scratch.feedAll_dlen, totalLen_feedAll, crcField_feedAll] at hbody
    rw [if_neg hbig] at hr
    have hpay : r.pay = u.inQ.take u.scratch.dlen.toNat := by
      rw [hr, apply_ite ReadResult.pay, readCrc_pay, ite_self]
    rw [hpay, hr]
    exact hbody

/-- F_LEN (R160 step 2, R162). -/
theorem decodes_fLen (hp : s.ph = .fLen) (hc : s.cur = 0) (ha : s.scratch.acc = 0) (hraw : s.scratch.raw = []) {r : ReadResult}
    (hr : r = readLen (headByte s.scratch.le s.scratch.rev s.scratch.enh) s.scratch.le s.scratch.rev s.scratch.enh s.scratch.id
      s.scratch.rawId s.inQ) : s.Decodes r (s.pb.writeList 0 r.pay) s.rb := by
  have hreads : s.ReadsRecord := .inl (by rw [hp]; rfl)
  have htakes : s.ph.takes = true := by rw [hp]; rfl
  rw [readLen] at hr
  cases hv : vuDec s.scratch.le s.inQ with
  | none =>
    have h := decodes_field_short (pay := []) hreads (by rw [hp]; rfl) hc ha (by rwa [ahead_takes htakes])
    rw [hv] at hr
    rw [if_pos htakes] at h
    rwa [hr]
  | some vn =>
    obtain ⟨len, n⟩ := vn
    rw [hv] at hr
    refine decodes_field hreads (by rw [hp]; rfl) hc ha hraw (by rwa [ahead_takes htakes]) fun j c a w i hu => ?_
    have hlen := decodes_lengthHandler (by exact hp) (hu _ (vuDone_length (.inl (by exact hp)) ..)) rfl rfl
    simpa only [hr, State.inField, fetched_takes htakes, ahead_takes htakes] using hlen

/-- F_ID (R160 step 2). -/
theorem decodes_fId (hp : s.ph = .fId) (hc : s.cur = 0) (ha : s.scratch.acc = 0) (hraw : s.scratch.raw = []) {r : ReadResult}
    (hr : r = readId (headByte s.scratch.le s.scratch.rev s.scratch.enh) s.scratch.le s.scratch.rev s.scratch.enh s.inQ) :
    s.Decodes r (s.pb.writeList 0 r.pay) s.rb := by
  have hreads : s.ReadsRecord := .inl (by rw [hp]; rfl)
  have htakes : s.ph.takes = true := by rw [hp]; rfl
  rw [readId] at hr
  cases hv : vuDec s.scratch.le s.inQ with
  | none =>
    have h := decodes_field_short (pay := []) hreads (by rw [hp]; rfl) hc ha (by rwa [ahead_takes htakes])
    rw [hv] at hr
    rw [if_pos htakes] at h
    rwa [hr]
  | some vn =>
    obtain ⟨id, n⟩ := vn
    rw [hv] at hr
    refine decodes_field hreads (by rw [hp]; rfl) hc ha hraw (by rwa [ahead_takes htakes]) fun j c a w i hu => ?_
    replace hu := hu _ (vuDone_id _ _ _ (.inl (by exact hp)))
    rw [if_pos (by exact hp)] at hu
    refine .of_units hu rfl (decodes_fLen rfl rfl rfl rfl ?_)
    simpa only [State.enterField, State.inField, fetched_takes htakes, ahead_takes htakes] using hr

/-- F_SYNC, that is all of a forward decode (R160). -/
theorem decodes_fSync (hp : s.ph = .fSync) : s.Decodes (readForward s.inQ) (s.pb.writeList 0 (readForward s.inQ).pay) s.rb := by
  have hreads : s.ph.takesRecord = true := by rw [hp]; rfl
  cases hq : s.inQ with
  | nil => exact decodes_short (.refl s) rfl hreads hq
  | cons b q =>
    have hu := unit_take (takesRecord_takes hreads) hq
    have hpt : (s.took q).ph = .fSync := hp
    rw [handleByte_sync b (slot_of_awaitsSync (.inl hpt))] at hu
    rw [readForward_cons]
    obtain ⟨le, rev, enh, rfl, hhead, _⟩ | ⟨le, enh, _, hhead, htail, _⟩ | ⟨hhead, htail, hof⟩ := sync_cases b
    · simp only [hhead, headSync_fSync _ _ _ hpt] at hu ⊢
      exact .of_units (.single hu) rfl (decodes_fId rfl rfl rfl rfl rfl)
    · simp only [hhead, htail, tailSync_fSync _ _ hpt] at hu ⊢
      exact decodes_raise (t := s.took q) (.single hu) rfl (takesRecord_decoding hreads)
    · simp only [hhead, htail, badSync_eq (s := s.took q) (by simp [hp])] at hu ⊢
      exact decodes_raise (t := s.took q) (.single hu) rfl (takesRecord_decoding hreads)

end

end Sys2Proof.Machine
end

section
/-! A whole record decode: what the state it comes to has to do with the read of IN (43_record_framer.md R160, R164, R170), and
REC.DECF. -/

namespace Sys2Proof.Machine

open Sys2Proof

/-! ## From the read to the command -/

/-- The two record decodes and their first phases (10_state.md R30). -/
def DecodesFrom (i : Instr) (p : Phase) : Prop := i = .recDecf ∧ p = .fSync ∨ i = .recDecr ∧ p = .rTail

section
variable {i : Instr} {p : Phase} {s : State}

theorem DecodesFrom.exec_eq_run (hi : DecodesFrom i p) (hb : s.busy = false) : exec i s = ((s.accept p).clearRecord).run := by
  obtain ⟨rfl, rfl⟩ | ⟨rfl, rfl⟩ := hi <;> exact whenFree_free hb _

/-- A decode that comes to a state where it can do nothing more: CONS counts the bytes (R25). -/
theorem DecodesFrom.exec_of_units (hi : DecodesFrom i p) (hb : s.busy = false) {j : Nat} {v : State}
    (h : Units j ((s.accept p).clearRecord) v) (hv : v.unit = none) :
    exec i s = .next v ∧ v.cons = BitVec.ofNat 32 (s.inQ.length - v.inQ.length) := by
  have hp : p.sending = false := by obtain ⟨_, rfl⟩ | ⟨_, rfl⟩ := hi <;> rfl
  have hx : exec i s = .next v := (hi.exec_eq_run hb).trans (run_of_reading_units h hp hv)
  have hc : i.isCommand = true ∧ i ≠ .nop := by obtain ⟨rfl, _⟩ | ⟨rfl, _⟩ := hi <;> exact ⟨rfl, by simp⟩
  obtain ⟨taken, hq, hcons⟩ := consCounts i s v hc.1 hb hx
  rw [if_neg hc.2] at hcons
  refine ⟨hx, hcons.trans ?_⟩
  rw [hq, List.length_append, Nat.add_sub_cancel]

/-- What the record decode `i` comes to where `r` is the read of all of IN, with RB `rb` (43_record_framer.md R160, R164, R170;
20_memory.md R57). -/
def State.ComesTo (s : State) (i : Instr) (r : ReadResult) (rb : Mem) : Prop :=
  match s.afterRead r with
  | some t => exec i s = .next { t with rb := rb }
  | none =>
    ∃ t, exec i s = .next t ∧ t.blocked ∧ t.busy = true ∧ t.inQ = [] ∧ t.cons = BitVec.ofNat 32 s.inQ.length ∧
      t.pb = s.pb.writeList 0 r.pay ∧ t.rb = rb ∧ t.HoldsNone

/-- The buffers that the statements leave a decode with. -/
theorem afterRead_buffers {r : ReadResult} {t : State} (h : s.afterRead r = some t) :
    t.pb = s.pb.writeList 0 r.pay ∧ t.rb = s.rb := by
  unfold State.afterRead at h
  cases hr : r.stop <;> simp only [hr, Option.ite_none_right_eq_some] at h
  case short => obtain ⟨_, h⟩ := h; cases h; exact ⟨rfl, rfl⟩
  all_goals cases h; exact ⟨rfl, rfl⟩

/-- A decode that has ended. -/
theorem DecodesFrom.exec_of_ended (hi : DecodesFrom i p) (hb : s.busy = false) {j n : Nat} {v : State} {e : Status}
    (h : Units j ((s.accept p).clearRecord) (v.ended e 0 false 0 n)) :
    exec i s = .next (v.ended e 0 false 0 (s.inQ.length - v.inQ.length)) := by
  obtain ⟨hx, hcons⟩ := hi.exec_of_units hb h (unit_idle rfl)
  have hn : BitVec.ofNat 32 n = BitVec.ofNat 32 (s.inQ.length - v.inQ.length) := hcons
  rw [hx, State.ended, hn]
  rfl

theorem DecodesFrom.comesTo (hi : DecodesFrom i p) (hb : s.busy = false) {r : ReadResult} {rb : Mem}
    (h : State.Decodes ((s.accept p).clearRecord) r (s.pb.writeList 0 r.pay) rb) : s.ComesTo i r rb := by
  obtain ⟨j, v, hu, hv⟩ := h
  unfold Stopped at hv
  unfold State.ComesTo State.afterRead
  cases hr : r.stop with
  | error e =>
    rw [hr] at hv
    obtain ⟨n, rfl⟩ := hv
    exact hi.exec_of_ended hb hu
  | record head id crc =>
    rw [hr] at hv
    obtain ⟨n, rfl⟩ := hv
    exact hi.exec_of_ended hb hu
  | short =>
    rw [hr] at hv
    obtain ⟨hrest, p', c, k, n, hp, hv⟩ := hv
    have htakes : v.ph.takes = true := by rw [hv]; exact takesRecord_takes hp
    have hdec : v.ph.decoding = true := by rw [hv]; exact takesRecord_decoding hp
    have hq : v.inQ = [] := by rw [hv]
    cases he : s.inEos with
    | true =>
      have heos : v.inEos = true := by rw [hv]; exact he
      have hend := unit_eos htakes hq heos
      rw [raise_of_decoding hdec] at hend
      have hx := hi.exec_of_ended hb (hu.trans (.single hend))
      simp only [if_true]
      rw [hx, hv, hrest]
      rfl
    | false =>
      have heos : v.inEos = false := by rw [hv]; exact he
      have hw := unit_wait htakes hq heos
      obtain ⟨hx, hcons⟩ := hi.exec_of_units hb hu hw
      simp only [Bool.false_eq_true, if_false]
      refine ⟨v, hx, hw, ?_, hq, by rw [hcons, hq]; rfl, ?_⟩ <;> rw [hv]
      · rfl
      · exact ⟨rfl, rfl, rfl, rfl, rfl, rfl, rfl⟩

end

/-! ## REC.DECF -/

section
variable {s : State}

theorem recDecf_comesTo (hb : s.busy = false) : s.ComesTo .recDecf (readForward s.inQ) s.rb :=
  DecodesFrom.comesTo (.inl ⟨rfl, rfl⟩) hb (decodes_fSync (s := (s.accept .fSync).clearRecord) rfl)

/-- Settles O35: the units of a forward decode do what `readForward` says. -/
theorem recDecfResult : Obligations.RecDecfResult := by
  intro s hb
  have h := recDecf_comesTo hb
  unfold State.ComesTo at h
  cases ht : s.afterRead (readForward s.inQ) with
  | some t =>
    rw [ht] at h
    exact endsIn_of_eq (by rw [h, ← (afterRead_buffers ht).2])
  | none =>
    rw [ht] at h
    obtain ⟨t, hx, hblocked, hbusy, hq, hcons, hpb, _, hplen, hregs⟩ := h
    exact ⟨t, hx, hblocked, hbusy, hq, hcons, hpb, hplen, hregs⟩

/-! ## Whole records as the encoder writes them -/

section
variable {le rev enh : Bool} {id : U29} {pay crc rest : List Byte} {k : CrcKind}

theorem toNat_ofNat_of_crcKind (hk : crcKind ((header le id pay.length).length + pay.length) enh = some k) :
    (BitVec.ofNat 29 pay.length).toNat = pay.length := by
  have := crcKind_some_lt hk
  rw [BitVec.toNat_ofNat]
  omega

/-- A forward read of a record with minimal header fields, up to its CRC bytes (43_record_framer.md R152, R160). -/
theorem readForward_minimal (hk : crcKind ((header le id pay.length).length + pay.length) enh = some k)
    (hc : crc.length = k.len) :
    readForward (headByte le rev enh :: (header le id pay.length ++ (pay ++ (crc ++ rest)))) =
      readCrc (headByte le rev enh) le rev enh id ((header le id pay.length).length + pay.length + k.len)
        (crcBytes (header le id pay.length) pay k le) pay (crc ++ rest) := by
  have hlt := crcKind_some_lt hk
  have hpb : Config.pbBytes = 1048576 := rfl
  have hv := toNat_ofNat_of_crcKind hk
  rw [readForward_cons, parseHead_headByte]
  simp only [readId, readLen, header, List.append_assoc, vuDec_vuEnc, List.drop_left, List.take_left, readPayload, hv]
  rw [header] at hk
  simp only [hk]
  rw [if_neg (by omega), if_neg (by simp [hc])]

end

/-- Settles O41: the comparison of the CRC bytes fails in a read that has come that far. -/
theorem checksumMismatch : Obligations.ChecksumMismatch := by
  intro le rev enh id pay crc rest k s hb hdr hk hc hne hq
  have h := recDecf_comesTo hb
  have hr : readForward s.inQ = ⟨.error .checksumMismatch, pay, rest⟩ := by
    have hf : (crcBytes hdr pay k le).length = crc.length := by rw [crcBytes_length, hc]
    rw [hq, List.append_assoc, List.append_assoc, readForward_minimal hk hc, readCrc, hf, List.take_left, if_pos hne,
      List.drop_left]
  rw [hr] at h
  have hn : s.inQ.length - rest.length = 1 + hdr.length + pay.length + k.len := by
    rw [hq, ← hc]
    simp only [List.length_cons, List.length_append]
    omega
  rw [← hn]
  exact h

end

end Sys2Proof.Machine
end

section
/-! The reverse protocol (43_record_framer.md R170, R171): the record is staged in RB and then read as REC.DECF reads it from
IN. -/

namespace Sys2Proof.Machine

open Sys2Proof

/-! ## The read of a staged record, field by field -/

/-- The CRC bytes `got` of a staged record (43_record_framer.md R170 step 4); `field` are the computed ones. -/
def readStagedCrc (head : Byte) (id : U29) (field pay got rest : List Byte) : ReadResult :=
  if got ≠ field then ⟨.error .checksumMismatch, pay, rest⟩ else ⟨.record head id got, pay, rest⟩

/-- What follows the header bytes `hdr` of a staged record of L = `total` (R170, R173). -/
def readStagedPayload (head : Byte) (le enh : Bool) (id : U29) (hdr : List Byte) (len : U29) (total : Nat) (bs rest : List Byte) :
    ReadResult :=
  match crcKind (hdr.length + len.toNat) enh with
  | none => ⟨.error .unsupported, [], rest⟩
  | some k =>
    if Config.pbBytes < len.toNat then ⟨.error .unsupported, [], rest⟩
    else if hdr.length + len.toNat + k.len ≠ total then ⟨.error .headTailMismatch, [], rest⟩
    else readStagedCrc head id (crcBytes hdr (bs.take len.toNat) k le) (bs.take len.toNat) (bs.drop len.toNat) rest

/-- What follows the id field `rawId` of a staged record. -/
def readStagedLen (head : Byte) (le enh : Bool) (id : U29) (rawId : List Byte) (total : Nat) (bs rest : List Byte) : ReadResult :=
  match vuDec le bs with
  | none => ⟨.error .truncatedRead, [], rest⟩
  | some (len, n) => readStagedPayload head le enh id (rawId ++ bs.take n) len total (bs.drop n) rest

/-- What follows the head byte of a staged record. -/
def readStagedId (head : Byte) (le enh : Bool) (total : Nat) (bs rest : List Byte) : ReadResult :=
  match vuDec le bs with
  | none => ⟨.error .truncatedRead, [], rest⟩
  | some (id, n) => readStagedLen head le enh id (bs.take n) total (bs.drop n) rest

/-- The read of a staged record, field by field. -/
theorem readStaged_cons (head : Byte) (le enh : Bool) (b : Byte) (bs rest : List Byte) :
    readStaged head le enh (b :: bs) rest =
      if b ≠ head then ⟨.error .headTailMismatch, [], rest⟩ else readStagedId head le enh bs.length bs rest := by
  rw [readStaged]
  refine ite_congr rfl (fun _ => rfl) fun _ => ?_
  rw [readStagedId]
  cases hid : vuDec le bs with
  | none => rfl
  | some vn =>
    obtain ⟨id, n⟩ := vn
    dsimp only
    rw [readStagedLen]
    cases hlen : vuDec le (bs.drop n) with
    | none => rfl
    | some vm =>
      obtain ⟨len, m⟩ := vm
      have hn := vuDec_length hid
      have hm := vuDec_length hlen
      rw [List.length_drop] at hm
      have hhdr : (bs.take (n + m)).length = n + m := List.length_take_of_le (by omega)
      simp only [← List.take_add, List.drop_drop, readStagedPayload, hhdr]
      cases crcKind (n + m + len.toNat) enh with
      | none => rfl
      | some k => simp only [readStagedCrc]

/-- What follows the trailing length of a reverse read, L = `total` (R170, R171). -/
def readFill (head : Byte) (le enh : Bool) (total : Nat) (bs : List Byte) : ReadResult :=
  if bs.length < total + 1 then ⟨.short, [], []⟩ else readStaged head le enh (bs.take (total + 1)).reverse (bs.drop (total + 1))

/-- What follows the tail byte of a reverse read (R170). -/
def readTotal (head : Byte) (le enh : Bool) (bs : List Byte) : ReadResult :=
  match vuDec le bs with
  | none => ⟨.short, [], []⟩
  | some (total, n) =>
    if Config.rbBytes < total.toNat + 1 then ⟨.error .unsupported, [], bs.drop n⟩ else readFill head le enh total.toNat (bs.drop n)

theorem headByte_le (le rev enh : Bool) : (!(headByte le rev enh).getLsbD 5) = le := by revert le rev enh; decide

theorem headByte_rev (le rev enh : Bool) : (headByte le rev enh).getLsbD 4 = rev := by revert le rev enh; decide

theorem headByte_enh (le rev enh : Bool) : (headByte le rev enh).getLsbD 3 = enh := by revert le rev enh; decide

/-- A reverse read, field by field. -/
theorem readBackward_cons (b : Byte) (bs : List Byte) :
    readBackward (b :: bs) =
      match headOf b with
      | none => ⟨.error .malformedSync, [], bs⟩
      | some head => readTotal head (!head.getLsbD 5) (head.getLsbD 3) bs := by
  rw [readBackward]
  cases headOf b <;> rfl

/-- RB after the bytes `bs` that follow a tail byte (R171). -/
def Mem.stageTotal (m : Mem) (le : Bool) (bs : List Byte) : Mem :=
  match vuDec le bs with
  | none => m
  | some (total, n) =>
    if Config.rbBytes < total.toNat + 1 then m else m.stage total.toNat ((bs.drop n).take (total.toNat + 1))

/-- RB after a reverse read of `bs` (R171). -/
def Mem.stageRecord (m : Mem) : List Byte → Mem
  | [] => m
  | t :: bs =>
    match headOf t with
    | none => m
    | some head => m.stageTotal (!head.getLsbD 5) bs

/-! ## Staged bytes -/

/-- The tail of a read of consecutive addresses. -/
theorem Mem.drop_readList (m : Mem) (a n i : Nat) : (m.readList a n).drop i = m.readList (a + i) (n - i) := by
  induction i generalizing a n with
  | zero => rfl
  | succ i ih =>
    cases n with
    | zero => simp [Mem.readList]
    | succ n => rw [Mem.readList, List.drop_succ_cons, ih, Nat.add_right_comm, Nat.add_assoc, Nat.add_sub_add_right]

/-- The staged bytes, from the head byte on (43_record_framer.md R171 RB[0..L]). -/
def State.stagedRecord (s : State) : List Byte := s.rb.readList 0 (s.scratch.tlen.toNat + 1)

section
variable {s : State} {pay : List Byte} {j : Nat}

theorem ahead_staged (h : s.ph.staged = true) : s.ahead = s.stagedRecord.drop s.stagedAt := by
  rw [State.ahead, if_neg (by simp [staged_not_takes h]), State.stagedRecord, Mem.drop_readList, Nat.zero_add]

theorem length_ahead_staged (h : s.ph.staged = true) : s.ahead.length = s.scratch.tlen.toNat + 1 - s.stagedAt := by
  rw [ahead_staged h, State.stagedRecord, List.length_drop, Mem.length_readList]

/-- `n` staged bytes further. -/
theorem ahead_further {u : State} {n : Nat} (hu : u.ph.staged = true) (hs : s.ph.staged = true) (hrb : u.rb = s.rb)
    (hL : u.scratch.tlen = s.scratch.tlen) (hn : u.stagedAt = s.stagedAt + n) : u.ahead = s.ahead.drop n := by
  rw [ahead_staged hu, ahead_staged hs, State.stagedRecord, State.stagedRecord, List.drop_drop, hrb, hL, hn]

/-! ## The phases of a reverse decode -/

/-- R_CRC (R170 step 4). -/
theorem decodes_rCrc (hp : s.ph = .rCrc) (hc : s.cur = 0) (hgot : s.scratch.got = []) (hd : s.scratch.dlen.toNat = pay.length)
    (hL : s.scratch.tlen.toNat < Config.rbBytes) (htotal : s.scratch.totalLen = s.scratch.tlen.toNat) :
    s.Decodes (readStagedCrc (headByte s.scratch.le s.scratch.rev s.scratch.enh) s.scratch.id s.scratch.crcField pay s.ahead s.inQ)
      s.pb s.rb := by
  have hstaged : s.ph.staged = true := by rw [hp]; rfl
  have hplain : s.ReadsPlain := ⟨by rw [hp]; rfl, by simp [hp], fun _ => hL⟩
  have hlen : s.plainLen = s.scratch.crc.len := by simp [State.plainLen, hp]
  have hn : s.ahead.length = s.scratch.crc.len := by
    rw [length_ahead_staged hstaged, ← htotal, Scratch.totalLen]
    simp only [State.stagedAt, hp, hc, show (0 : U32).toNat = 0 from rfl]
    omega
  have hz : s.gathered s.ahead =
      { s with cur := s.cur + BitVec.ofNat 32 s.ahead.length, scratch := { s.scratch with got := s.ahead } } := by
    simp [State.gathered, fetched_staged (staged_not_takes hstaged), Scratch.gathered, hp, hgot]
  have hu := units_plain_all hplain hc (by rw [hlen, hn]) (hlen ▸ CrcKind.len_ne_zero _)
  rw [hlen, List.take_of_length_le hn.le, hz, plainEnd_crc (.inr (by exact hp))] at hu
  change Units _ s (if s.ahead ≠ s.scratch.crcField then _ else if s.ph = .fCrc ∧ s.scratch.rev = true then _ else _) at hu
  rw [readStagedCrc]
  simp only [hp, reduceCtorEq, false_and, if_false] at hu
  split_ifs at hu ⊢ with hne
  · have hraise := decodes_raise (pay := pay) hu rfl rfl
    exact hraise
  · exact decodes_recordDone hu rfl hd hn

theorem plainEnd_rPay (hp : s.ph = .rPay) : s.plainEnd = s.enter .rCrc := by rw [State.plainEnd, hp]

/-- A reverse decode behind its payload. -/
def State.pastPayload (s : State) (pay : List Byte) : State :=
  { s with ph := .rCrc, cur := 0, scratch := s.scratch.feedAll pay, pb := s.pb.writeList 0 pay }

/-- The CRC bytes stand after the payload (R170 `next`). -/
theorem ahead_pastPayload (hp : s.ph = .rPay) (hc : s.cur = 0) (pay : List Byte) :
    (s.pastPayload pay).ahead = s.ahead.drop s.scratch.dlen.toNat := by
  refine ahead_further rfl (by rw [hp]; rfl) rfl (Scratch.feedAll_tlen ..) ?_
  simp [State.stagedAt, State.pastPayload, hp, hc, Scratch.dataLen, Nat.add_assoc]

/-- R_PAY (R170 step 3). -/
theorem decodes_rPay (hp : s.ph = .rPay) (hc : s.cur = 0) (hgot : s.scratch.got = []) (hd : s.scratch.dlen.toNat ≤ Config.pbBytes)
    (hL : s.scratch.tlen.toNat < Config.rbBytes) (htotal : s.scratch.totalLen = s.scratch.tlen.toNat)
    (hpay : pay = s.ahead.take s.scratch.dlen.toNat) :
    s.Decodes (readStagedCrc (headByte s.scratch.le s.scratch.rev s.scratch.enh) s.scratch.id (s.scratch.feedAll pay).crcField pay
      (s.ahead.drop s.scratch.dlen.toNat) s.inQ) (s.pb.writeList 0 pay) s.rb := by
  have hstaged : s.ph.staged = true := by rw [hp]; rfl
  have hn : s.ahead.length = s.scratch.dlen.toNat + s.scratch.crc.len := by
    rw [length_ahead_staged hstaged, ← htotal, Scratch.totalLen, Scratch.dataLen]
    simp only [State.stagedAt, hp, hc, show (0 : U32).toNat = 0 from rfl]
    omega
  have hpaylen : pay.length = s.scratch.dlen.toNat := by rw [hpay]; exact List.length_take_of_le (by omega)
  have hlen : s.plainLen = s.scratch.dlen.toNat := by simp [State.plainLen, hp]
  have hu : ∃ j, Units j s (s.pastPayload pay) := by
    by_cases h0 : s.scratch.dlen.toNat = 0
    · have hnil : pay = [] := List.length_eq_zero_iff.1 (hpaylen.trans h0)
      refine ⟨1, .single ?_⟩
      rw [unit_payEnded hp (by omega), hnil]
      rfl
    · have hplain : s.ReadsPlain := ⟨by rw [hp]; rfl, fun _ => hd, fun _ => hL⟩
      have hu := units_plain_all hplain hc (by omega) (by rwa [hlen])
      have hz : s.gathered pay = { s with
          cur := s.cur + BitVec.ofNat 32 pay.length, scratch := s.scratch.feedAll pay, pb := s.pb.writeList 0 pay } := by
        simp [State.gathered, fetched_staged (staged_not_takes hstaged), Scratch.gathered, hp, hc]
      rw [hlen, ← hpay, hz, plainEnd_rPay (by exact hp)] at hu
      exact ⟨_, hu⟩
  obtain ⟨j, hu⟩ := hu
  have hcrc := decodes_rCrc (s := s.pastPayload pay) (pay := pay) rfl rfl (by simpa [State.pastPayload])
    (by simp [State.pastPayload, hpaylen]) (by simpa [State.pastPayload]) (by simpa [State.pastPayload, totalLen_feedAll])
  rw [ahead_pastPayload hp hc] at hcrc
  refine .of_units hu rfl ?_
  simpa only [State.pastPayload, Scratch.feedAll_le, Scratch.feedAll_rev, Scratch.feedAll_enh, Scratch.feedAll_id] using hcrc

theorem readStagedCrc_pay (head : Byte) (id : U29) (field pay got rest : List Byte) :
    (readStagedCrc head id field pay got rest).pay = pay := by
  simp only [readStagedCrc, apply_ite ReadResult.pay, ite_self]

/-- The payload-length handler of a reverse decode, in the state that holds the decoded length (R162, R173). -/
theorem decodes_rLengthHandler {u : State} (hp : u.ph = .rLen) (hu : Units j s u.lengthHandler) (hf : u.frame = s.frame)
    (hL : u.scratch.tlen.toNat < Config.rbBytes) {r : ReadResult}
    (hr : r = readStagedPayload (headByte u.scratch.le u.scratch.rev u.scratch.enh) u.scratch.le u.scratch.enh u.scratch.id
      (u.scratch.rawId ++ u.scratch.rawLen) u.scratch.dlen u.scratch.tlen.toNat
      (u.stagedRecord.drop (1 + u.scratch.rawId.length + u.scratch.rawLen.length)) u.inQ) :
    s.Decodes r (u.pb.writeList 0 r.pay) u.rb := by
  have hdec : u.ph.decoding = true := by rw [hp]; rfl
  rw [readStagedPayload, List.length_append] at hr
  rw [State.lengthHandler, Scratch.dataLen] at hu
  cases hk : crcKind (u.scratch.rawId.length + u.scratch.rawLen.length + u.scratch.dlen.toNat) u.scratch.enh with
  | none =>
    simp only [hk] at hu hr
    rw [hr]
    exact decodes_raise hu hf hdec
  | some k =>
    simp only [hk, hp, true_and] at hu hr
    by_cases hbig : Config.pbBytes < u.scratch.dlen.toNat
    · rw [if_pos hbig] at hu hr
      rw [hr]
      exact decodes_raise hu hf hdec
    rw [if_neg hbig] at hu hr
    by_cases hne : u.scratch.rawId.length + u.scratch.rawLen.length + u.scratch.dlen.toNat + k.len ≠ u.scratch.tlen.toNat
    · rw [if_pos hne] at hu hr
      rw [hr]
      exact decodes_raise hu hf hdec
    rw [if_neg hne] at hu hr
    have hbody := decodes_rPay (s := u.at .rPay 0 (u.scratch.crcBegin k).crcHeader) rfl rfl (by simp [State.at, crcHeader_eq])
      (by simpa [State.at, crcHeader_eq] using hbig) (by simpa [State.at, crcHeader_eq])
      (by simpa [State.at, crcHeader_eq, totalLen_feedAll, Scratch.totalLen, Scratch.dataLen] using hne) rfl
    rw [ahead_staged rfl] at hbody
    refine .of_units hu hf ?_
    simp only [State.at, State.stagedAt, State.stagedRecord, crcHeader_eq, Scratch.feedAll_le, Scratch.feedAll_rev,
      Scratch.feedAll_enh, Scratch.feedAll_id, Scratch.feedAll_rawId, Scratch.feedAll_rawLen, Scratch.feedAll_tlen,
      Scratch.feedAll_dlen, crcField_feedAll] at hbody
    rw [hr, readStagedCrc_pay]
    exact hbody

/-- R_LEN (R170 step 2, R173). -/
theorem decodes_rLen (hp : s.ph = .rLen) (hc : s.cur = 0) (ha : s.scratch.acc = 0) (hraw : s.scratch.raw = [])
    (hL : s.scratch.tlen.toNat < Config.rbBytes) {bs : List Byte} (hbs : s.ahead = bs) {r : ReadResult}
    (hr : r = readStagedLen (headByte s.scratch.le s.scratch.rev s.scratch.enh) s.scratch.le s.scratch.enh s.scratch.id
      s.scratch.rawId s.scratch.tlen.toNat bs s.inQ) : s.Decodes r (s.pb.writeList 0 r.pay) s.rb := by
  have hstaged : s.ph.staged = true := by rw [hp]; rfl
  have hreads : s.ReadsRecord := .inr ⟨hstaged, hL⟩
  subst hbs
  rw [readStagedLen] at hr
  cases hv : vuDec s.scratch.le s.ahead with
  | none =>
    have h := decodes_field_short (pay := []) hreads (by rw [hp]; rfl) hc ha hv
    rw [hv] at hr
    rw [if_neg (by simp [staged_not_takes hstaged])] at h
    rwa [hr]
  | some vn =>
    obtain ⟨len, n⟩ := vn
    have hn : (s.ahead.take n).length = n := List.length_take_of_le (vuDec_length hv)
    rw [hv] at hr
    refine decodes_field hreads (by rw [hp]; rfl) hc ha hraw hv fun j c a w i hu => ?_
    have hlen := decodes_rLengthHandler (by exact hp) (hu _ (vuDone_length (.inr (by exact hp)) ..)) rfl hL rfl
    have hahead : s.ahead.drop n = s.stagedRecord.drop (1 + s.scratch.rawId.length + n) := by
      rw [ahead_staged hstaged, List.drop_drop]
      simp [State.stagedAt, hp, hc]
    dsimp only at hr
    rw [hahead] at hr
    rw [hr]
    simpa only [State.inField, fetched_staged (staged_not_takes hstaged), hn, State.stagedRecord] using hlen

/-- R_ID (R170 step 2). -/
theorem decodes_rId (hp : s.ph = .rId) (hc : s.cur = 0) (ha : s.scratch.acc = 0) (hraw : s.scratch.raw = [])
    (hL : s.scratch.tlen.toNat < Config.rbBytes) {bs : List Byte} (hbs : s.ahead = bs) {r : ReadResult}
    (hr : r = readStagedId (headByte s.scratch.le s.scratch.rev s.scratch.enh) s.scratch.le s.scratch.enh s.scratch.tlen.toNat
      bs s.inQ) : s.Decodes r (s.pb.writeList 0 r.pay) s.rb := by
  have hstaged : s.ph.staged = true := by rw [hp]; rfl
  have hreads : s.ReadsRecord := .inr ⟨hstaged, hL⟩
  subst hbs
  rw [readStagedId] at hr
  cases hv : vuDec s.scratch.le s.ahead with
  | none =>
    have h := decodes_field_short (pay := []) hreads (by rw [hp]; rfl) hc ha hv
    rw [hv] at hr
    rw [if_neg (by simp [staged_not_takes hstaged])] at h
    rwa [hr]
  | some vn =>
    obtain ⟨id, n⟩ := vn
    have hn : (s.ahead.take n).length = n := List.length_take_of_le (vuDec_length hv)
    rw [hv] at hr
    refine decodes_field hreads (by rw [hp]; rfl) hc ha hraw hv fun j c a w i hu => ?_
    replace hu := hu _ (vuDone_id _ _ _ (.inr (by exact hp)))
    rw [if_neg (by simp [State.inField, State.fetched, hp])] at hu
    have hnext : s.stagedAt + n = 1 + (s.ahead.take n).length + (0 : U32).toNat := by simp [State.stagedAt, hp, hc, hn]
    refine .of_units hu rfl (decodes_rLen rfl rfl rfl rfl (by exact hL)
      (by exact ahead_further rfl hstaged rfl rfl hnext.symm) ?_)
    simpa only [State.enterField, State.inField, fetched_staged (staged_not_takes hstaged)] using hr

/-- R_HEAD, that is all of the staged read (R170 step 1, R172). -/
theorem decodes_rHead (hp : s.ph = .rHead) (hL : s.scratch.tlen.toNat < Config.rbBytes) {r : ReadResult}
    (hr : r = readStaged (headByte s.scratch.le s.scratch.rev s.scratch.enh) s.scratch.le s.scratch.enh s.stagedRecord s.inQ) :
    s.Decodes r (s.pb.writeList 0 r.pay) s.rb := by
  have hstaged : s.ph.staged = true := by rw [hp]; rfl
  have hdec : s.ph.decoding = true := by rw [hp]; rfl
  have hahead : s.ahead = s.stagedRecord := by rw [ahead_staged hstaged]; simp [State.stagedAt, hp]
  have hlen : s.stagedRecord.length = s.scratch.tlen.toNat + 1 := by rw [State.stagedRecord, Mem.length_readList]
  obtain ⟨b, bs, hrec⟩ := List.exists_cons_of_length_eq_add_one hlen
  rw [hrec, List.length_cons, Nat.add_right_cancel_iff] at hlen
  have hu := unit_ahead (.inr ⟨hstaged, hL⟩) (by simp [hp]) (hahead.trans hrec)
  rw [fetched_staged (staged_not_takes hstaged), handleByte_sync b (slot_of_awaitsSync (.inr (.inr (.inr hp))))] at hu
  rw [hrec, readStaged_cons, hlen] at hr
  obtain ⟨le, rev, enh, rfl, hhead, _⟩ | ⟨le, enh, _, hhead, htail, _⟩ | ⟨hhead, htail, hof⟩ := sync_cases b
  · simp only [hhead, headSync_rHead _ _ _ hp] at hu
    by_cases heq : le = s.scratch.le ∧ rev = s.scratch.rev ∧ enh = s.scratch.enh
    · rw [if_pos heq] at hu
      obtain ⟨rfl, rfl, rfl⟩ := heq
      rw [if_neg (not_not_intro rfl)] at hr
      have hnext : s.stagedAt + 1 = 1 + (0 : U32).toNat := by simp [State.stagedAt, hp]
      refine .of_units (.single hu) rfl (decodes_rId rfl rfl rfl rfl (by exact hL)
        (by exact ahead_further rfl hstaged rfl rfl hnext.symm) ?_)
      rwa [hahead, hrec]
    · rw [if_neg heq] at hu
      rw [if_pos fun h => heq (headByte_inj h)] at hr
      rw [hr]
      exact decodes_raise (.single hu) rfl hdec
  all_goals
    have hne : b ≠ headByte s.scratch.le s.scratch.rev s.scratch.enh := by
      rintro rfl
      rw [parseHead_headByte] at hhead
      cases hhead
    rw [if_pos hne] at hr
    rw [hr]
  · simp only [hhead, htail, tailSync_rHead _ _ hp] at hu
    exact decodes_raise (.single hu) rfl hdec
  · simp only [hhead, htail, State.badSync, hp, if_true] at hu
    exact decodes_raise (.single hu) rfl hdec

/-- R_FILL and the staged read (R170, R171). -/
theorem decodes_rFill (hp : s.ph = .rFill) (hc : s.cur = 0) (hL : s.scratch.tlen.toNat < Config.rbBytes)
    (hwf : Mem.wf Config.rbBytes s.rb) {r : ReadResult}
    (hr : r = readFill (headByte s.scratch.le s.scratch.rev s.scratch.enh) s.scratch.le s.scratch.enh s.scratch.tlen.toNat s.inQ) :
    s.Decodes r (s.pb.writeList 0 r.pay) (s.rb.stage s.scratch.tlen.toNat (s.inQ.take (s.scratch.tlen.toNat + 1))) := by
  have hplain : s.ReadsPlain := ⟨by rw [hp]; rfl, by simp [hp], fun _ => hL⟩
  have htakes : s.ph.takes = true := by rw [hp]; rfl
  have hlen : s.plainLen = s.scratch.tlen.toNat + 1 := by simp [State.plainLen, hp]
  have hz (bs : List Byte) : s.gathered bs =
      { s with
        inQ := s.inQ.drop bs.length, cons := s.cons + BitVec.ofNat 32 bs.length, cur := s.cur + BitVec.ofNat 32 bs.length
        rb := s.rb.stage s.scratch.tlen.toNat bs } := by
    simp [State.gathered, fetched_takes htakes, Scratch.gathered, hp, hc]
  rw [readFill] at hr
  by_cases hshort : s.inQ.length < s.scratch.tlen.toNat + 1
  · rw [if_pos hshort] at hr
    have h := decodes_plain_short (pay := []) hplain (by rw [hp]; rfl) (by simp [hc, hlen, hshort])
    rw [hz] at h
    rwa [hr, List.take_of_length_le (by omega)]
  have hn : (s.inQ.take (s.scratch.tlen.toNat + 1)).length = s.scratch.tlen.toNat + 1 := List.length_take_of_le (by omega)
  have hu := units_plain_all hplain hc (by rw [hlen, ahead_takes htakes]; omega) (by omega)
  rw [ahead_takes htakes, hlen, hz, hn, plainEnd_fill (by exact hp)] at hu
  rw [if_neg hshort, ← Mem.readList_stage _ hwf hL hn] at hr
  exact .of_units hu rfl (decodes_rHead rfl (by exact hL) (by exact hr))

/-- R_RLEN and what follows it (R170, R171). -/
theorem decodes_rRlen (hp : s.ph = .rRlen) (hc : s.cur = 0) (ha : s.scratch.acc = 0) (hraw : s.scratch.raw = [])
    (hwf : Mem.wf Config.rbBytes s.rb) {r : ReadResult}
    (hr : r = readTotal (headByte s.scratch.le s.scratch.rev s.scratch.enh) s.scratch.le s.scratch.enh s.inQ) :
    s.Decodes r (s.pb.writeList 0 r.pay) (s.rb.stageTotal s.scratch.le s.inQ) := by
  have hreads : s.ReadsRecord := .inl (by rw [hp]; rfl)
  have htakes : s.ph.takes = true := by rw [hp]; rfl
  have hdec : s.ph.decoding = true := by rw [hp]; rfl
  rw [readTotal] at hr
  rw [Mem.stageTotal]
  cases hv : vuDec s.scratch.le s.inQ with
  | none =>
    have h := decodes_field_short (pay := []) hreads (by rw [hp]; rfl) hc ha (by rwa [ahead_takes htakes])
    rw [hv] at hr
    rw [if_pos htakes] at h
    rwa [hr]
  | some vn =>
    obtain ⟨total, n⟩ := vn
    simp only [hv] at hr ⊢
    refine decodes_field hreads (by rw [hp]; rfl) hc ha hraw (by rwa [ahead_takes htakes]) fun j c a w i hu => ?_
    replace hu := hu _ (vuDone_trailing _ _ _ (by exact hp))
    simp only [State.inField, fetched_takes htakes] at hu
    by_cases hbig : Config.rbBytes < total.toNat + 1
    · rw [if_pos hbig] at hu hr ⊢
      have h := decodes_raise (pay := []) hu rfl hdec
      rwa [hr]
    · rw [if_neg hbig] at hu hr ⊢
      have hL : total.toNat < Config.rbBytes := by omega
      exact .of_units hu rfl (decodes_rFill rfl rfl (by exact hL) (by exact hwf) (by exact hr))

/-- R_TAIL, that is all of a reverse decode (R170). -/
theorem decodes_rTail (hp : s.ph = .rTail) (hwf : Mem.wf Config.rbBytes s.rb) :
    s.Decodes (readBackward s.inQ) (s.pb.writeList 0 (readBackward s.inQ).pay) (s.rb.stageRecord s.inQ) := by
  have hreads : s.ph.takesRecord = true := by rw [hp]; rfl
  cases hq : s.inQ with
  | nil => exact decodes_short (.refl s) rfl hreads hq
  | cons b q =>
    have hu := unit_take (takesRecord_takes hreads) hq
    have hpt : (s.took q).ph = .rTail := hp
    rw [handleByte_sync b (slot_of_awaitsSync (.inr (.inr (.inl hpt))))] at hu
    rw [readBackward_cons, Mem.stageRecord]
    obtain ⟨le, rev, enh, _, hhead, hof⟩ | ⟨le, enh, _, hhead, htail, hof⟩ | ⟨hhead, htail, hof⟩ := sync_cases b
    · simp only [hhead, hof, headSync_rTail _ _ _ hpt] at hu ⊢
      exact decodes_raise (t := s.took q) (.single hu) rfl (takesRecord_decoding hreads)
    · simp only [hhead, htail, hof, tailSync_rTail _ _ hpt, headByte_le, headByte_enh] at hu ⊢
      exact .of_units (.single hu) rfl (decodes_rRlen rfl rfl rfl rfl (by exact hwf) (by exact rfl))
    · simp only [hhead, htail, hof, badSync_eq (s := s.took q) (by simp [hp])] at hu ⊢
      exact decodes_raise (t := s.took q) (.single hu) rfl (takesRecord_decoding hreads)

/-! ## REC.DECR -/

theorem recDecr_comesTo (hb : s.busy = false) (hwf : Mem.wf Config.rbBytes s.rb) :
    s.ComesTo .recDecr (readBackward s.inQ) (s.rb.stageRecord s.inQ) :=
  DecodesFrom.comesTo (.inr ⟨rfl, rfl⟩) hb (decodes_rTail (s := (s.accept .rTail).clearRecord) rfl hwf)

theorem afterRead_none {r : ReadResult} (h : s.afterRead r = none) : r.stop = .short := by
  unfold State.afterRead at h
  cases hr : r.stop <;> simp_all

/-- A staged record is never cut short by the host, and no payload of it is reached that does not fit PB (R162, R170). -/
theorem readStaged_bounds (head : Byte) (le enh : Bool) (bs rest : List Byte) :
    (readStaged head le enh bs rest).stop ≠ .short ∧ (readStaged head le enh bs rest).pay.length ≤ Config.pbBytes := by
  cases bs with
  | nil => simp [readStaged]
  | cons b bs =>
    rw [readStaged_cons]
    unfold readStagedId readStagedLen readStagedPayload
    split_ifs
    · simp
    split
    · simp
    split
    · simp
    split
    · simp
    split_ifs
    · simp
    · simp
    · rw [readStagedCrc_pay, List.length_take]
      refine ⟨?_, by omega⟩
      rw [readStagedCrc]
      split_ifs <;> simp

/-- A reverse read that waits has reached no payload. -/
theorem readBackward_short {bs : List Byte} (h : (readBackward bs).stop = .short) : (readBackward bs).pay = [] := by
  cases bs with
  | nil => rfl
  | cons b bs =>
    rw [readBackward_cons] at h ⊢
    cases hh : headOf b with
    | none => rfl
    | some head =>
      simp only [hh, readTotal] at h ⊢
      cases hv : vuDec (!head.getLsbD 5) bs with
      | none => rfl
      | some vn =>
        simp only [hv, readFill] at h ⊢
        split_ifs at h ⊢
        · rfl
        · exact ((readStaged_bounds _ _ _ _ _).1 h).elim

/-- Settles O36: the units of a reverse decode do what `readBackward` says. -/
theorem recDecrResult : Obligations.RecDecrResult := by
  intro s hwf hb
  have h := recDecr_comesTo hb hwf
  unfold State.ComesTo at h
  cases ht : s.afterRead (readBackward s.inQ) with
  | some t =>
    rw [ht] at h
    exact ⟨_, endsIn_of_eq h⟩
  | none =>
    rw [ht] at h
    obtain ⟨t, hx, hblocked, hbusy, hq, hcons, hpb, _, hplen, hregs⟩ := h
    rw [readBackward_short (afterRead_none ht)] at hpb
    exact ⟨t, hx, hblocked, hbusy, hq, hcons, hpb, hplen, hregs⟩

/-! ## The buffers after a record decode -/

/-- Where a record decode leaves the buffers, whether it has ended or waits. -/
theorem State.ComesTo.buffers {i : Instr} {r : ReadResult} {rb : Mem} {t : State} (h : s.ComesTo i r rb)
    (ht : exec i s = .next t) :
    t.pb = s.pb.writeList 0 r.pay ∧ t.rb = rb := by
  unfold State.ComesTo at h
  cases hr : s.afterRead r with
  | some u =>
    rw [hr] at h
    obtain rfl : t = _ := Host.Outcome.next.inj (ht.symm.trans h)
    exact ⟨(afterRead_buffers hr).1, rfl⟩
  | none =>
    rw [hr] at h
    obtain ⟨u, hu, _, _, _, _, hpb, hrb, _⟩ := h
    obtain rfl : t = u := Host.Outcome.next.inj (ht.symm.trans hu)
    exact ⟨hpb, hrb⟩

/-- No read reaches a payload that does not fit PB (43_record_framer.md R162). -/
theorem readForward_pay_length (bs : List Byte) : (readForward bs).pay.length ≤ Config.pbBytes := by
  cases bs with
  | nil => simp [readForward]
  | cons b bs =>
    rw [readForward_cons]
    split
    · simp
    unfold readId readLen readPayload
    split
    · simp
    split
    · simp
    split
    · simp
    split_ifs
    · simp
    · simp; omega
    · rw [readCrc_pay, List.length_take]; omega

theorem readBackward_pay_length (bs : List Byte) : (readBackward bs).pay.length ≤ Config.pbBytes := by
  cases bs with
  | nil => simp [readBackward]
  | cons b bs =>
    rw [readBackward_cons]
    unfold readTotal readFill
    split
    · simp
    split
    · simp
    split_ifs
    · simp
    · simp
    · exact (readStaged_bounds ..).2

/-- RB above the trailing length that the read accepted (R171). -/
theorem read_stageRecord (m : Mem) (bs : List Byte) :
    match stagedTop bs with
    | none => m.stageRecord bs = m
    | some top => ∀ x, top < x → (m.stageRecord bs).read x = m.read x := by
  cases bs with
  | nil => rfl
  | cons b bs =>
    rw [stagedTop, Mem.stageRecord]
    cases headOf b with
    | none => rfl
    | some head =>
      dsimp only
      rw [Mem.stageTotal]
      cases vuDec (!head.getLsbD 5) bs with
      | none => rfl
      | some vn =>
        dsimp only
        split_ifs
        · rfl
        · exact fun x hx => Mem.read_stage_above _ _ hx

/-- Settles O32: the payload is one write from address 0 on, the staging one downward from L. -/
theorem recordStoreFrame : Obligations.RecordStoreFrame := by
  intro i pay s t hinv hb hi ht
  have hpb : t.pb = s.pb.writeList 0 pay ∧ pay.length ≤ Config.pbBytes ∧
      t.rb = if i = .recDecr then s.rb.stageRecord s.inQ else s.rb := by
    obtain ⟨rfl, rfl⟩ | ⟨rfl, rfl⟩ := hi
    · obtain ⟨hpb, hrb⟩ := (recDecf_comesTo hb).buffers ht
      exact ⟨hpb, readForward_pay_length _, hrb⟩
    · obtain ⟨hpb, hrb⟩ := (recDecr_comesTo hb hinv.rbWf).buffers ht
      exact ⟨hpb, readBackward_pay_length _, hrb⟩
  obtain ⟨hpb, hlen, hrb⟩ := hpb
  refine ⟨?_, fun x hx => ?_, ?_⟩
  · rw [hpb]
    exact Mem.readList_writeList _ hinv.pbWf 0 (by omega)
  · rw [hpb]
    exact Mem.read_writeList_outside _ _ _ _ (.inr (by omega))
  · rw [hrb]
    split_ifs
    · exact read_stageRecord s.rb s.inQ
    · rfl

end

end Sys2Proof.Machine
end

section
/-! Records as REC.ENC writes them, read in both directions (43_record_framer.md R174, R175, R176). -/

namespace Sys2Proof.Machine

open Sys2Proof

/-! ## The read of a record with minimal header fields -/

/-- A record by its fields, with any CRC bytes (30_encoding.md R79, R80). -/
def recordBytes (le rev enh : Bool) (id : U29) (pay crc : List Byte) : List Byte :=
  headByte le rev enh :: (header le id pay.length ++ (pay ++ (crc ++
    recordTail le rev enh ((header le id pay.length).length + pay.length + crc.length))))

section
variable {le rev enh : Bool} {id : U29} {pay crc rest : List Byte} {k : CrcKind}

theorem recordWire_eq_recordBytes :
    recordWire le rev enh id pay k = recordBytes le rev enh id pay (crcBytes (header le id pay.length) pay k le) := by
  rw [recordWire_eq, recordBytes, crcBytes_length]
  simp [header]

/-- A trailer as the encoder writes it is read whole (43_record_framer.md R163). -/
theorem readTrailer_recordTail (total : Nat) (done : Stop) :
    readTrailer le enh total done pay (recordTail le true enh total ++ rest) = ⟨done, pay, rest⟩ := by
  rw [readTrailer_eq, recordTail, if_pos rfl, List.append_assoc]
  dsimp only
  rw [if_neg (by simp), List.take_left, if_neg (not_not_intro rfl), List.drop_left]
  simp [readTailByte, headOf_tailByte]

/-- REC.DECF, on a record (R160). -/
theorem readForward_recordBytes (hk : crcKind ((header le id pay.length).length + pay.length) enh = some k)
    (hc : crc.length = k.len) :
    (crc = crcBytes (header le id pay.length) pay k le →
      readForward (recordBytes le rev enh id pay crc ++ rest) = ⟨.record (headByte le rev enh) id crc, pay, rest⟩) ∧
    (crc ≠ crcBytes (header le id pay.length) pay k le →
      (readForward (recordBytes le rev enh id pay crc ++ rest)).stop = .error .checksumMismatch) := by
  have hf : (crcBytes (header le id pay.length) pay k le).length = crc.length := by rw [crcBytes_length, hc]
  rw [recordBytes, List.cons_append, List.append_assoc, List.append_assoc, List.append_assoc, readForward_minimal hk hc, readCrc,
    hf, List.take_left, List.drop_left]
  refine ⟨fun h => ?_, fun h => by rw [if_pos h]⟩
  rw [if_neg (not_not_intro h), hc]
  cases rev with
  | false => rfl
  | true => exact readTrailer_recordTail ..

/-- A staged record is read as REC.DECF reads it (R170). -/
theorem readStaged_recordBytes (hk : crcKind ((header le id pay.length).length + pay.length) enh = some k)
    (hc : crc.length = k.len) :
    readStaged (headByte le true enh) le enh (headByte le true enh :: (header le id pay.length ++ (pay ++ crc))) rest =
      readStagedCrc (headByte le true enh) id (crcBytes (header le id pay.length) pay k le) pay crc rest := by
  have hlt := crcKind_some_lt hk
  have hpb : Config.pbBytes = 1048576 := rfl
  have hv := toNat_ofNat_of_crcKind hk
  rw [readStaged_cons, if_neg (not_not_intro rfl)]
  simp only [readStagedId, readStagedLen, header, List.append_assoc, vuDec_vuEnc, List.drop_left, List.take_left, readStagedPayload,
    hv]
  rw [header] at hk
  simp only [hk]
  rw [if_neg (by omega), if_neg (by simp [hc, Nat.add_assoc])]

/-- REC.DECR, on a reverse-readable record (R170, R171). -/
theorem readBackward_recordBytes (hk : crcKind ((header le id pay.length).length + pay.length) enh = some k)
    (hc : crc.length = k.len) :
    readBackward ((recordBytes le true enh id pay crc).reverse ++ rest) =
      readStagedCrc (headByte le true enh) id (crcBytes (header le id pay.length) pay k le) pay crc rest := by
  have hlt := crcKind_some_lt hk
  have hlen := k.len_le
  have hrb : Config.rbBytes = 1048592 := rfl
  generalize htotal : (header le id pay.length).length + pay.length + crc.length = total
  have hv : (BitVec.ofNat 29 total).toNat = total := by
    rw [BitVec.toNat_ofNat]
    omega
  generalize hw : headByte le true enh :: (header le id pay.length ++ (pay ++ crc)) = w
  have hlenw : w.length = total + 1 := by
    rw [← hw, ← htotal]
    simp only [List.length_cons, List.length_append]
    omega
  have hrev : (recordBytes le true enh id pay crc).reverse ++ rest =
      tailByte le enh :: (vuEnc (BitVec.ofNat 29 total) le ++ (w.reverse ++ rest)) := by
    rw [recordBytes, htotal, ← hw]
    simp [recordTail]
  rw [hrev, readBackward_cons, headOf_tailByte]
  simp only [headByte_le, headByte_enh, readTotal, vuDec_vuEnc, hv, List.drop_left]
  rw [if_neg (by omega), readFill, if_neg (by simp only [List.length_append, List.length_reverse, hlenw]; omega)]
  rw [← hlenw, List.take_left' w.length_reverse, List.drop_left' w.length_reverse, List.reverse_reverse, ← hw]
  exact readStaged_recordBytes hk hc

end

/-! ## A decode whose read fails, or succeeds -/

section
variable {s t : State} {i : Instr} {r : ReadResult} {rb : Mem}

theorem State.ComesTo.of_error (h : s.ComesTo i r rb) {e : Status} (hr : r.stop = .error e) (ht : exec i s = .next t) :
    t.stat = e ∧ t.plen = 0 := by
  simp only [State.ComesTo, State.afterRead, hr] at h
  obtain rfl := Host.Outcome.next.inj (ht.symm.trans h)
  exact ⟨rfl, rfl⟩

/-- A record that a decode holds, read from `n` bytes of IN with `rest` after them (43_record_framer.md R160, R170). -/
structure State.Holds (t : State) (n : Nat) (rest : List Byte) (head : Byte) (id : U29) (pay crc : List Byte) : Prop where
  stat : t.stat = .ok
  free : t.busy = false
  inQ : t.inQ = rest
  cons : t.cons = BitVec.ofNat 32 n
  sync : t.sync = head
  rid : t.rid = id.setWidth 32
  plen : t.plen = BitVec.ofNat 32 pay.length
  crclen : t.crclen = BitVec.ofNat 3 crc.length
  crcb : t.crcb = packCrc crc
  pb : t.pb.readList 0 pay.length = pay

theorem State.ComesTo.of_record {n : Nat} {head : Byte} {id : U29} {crc pay rest : List Byte}
    (h : s.ComesTo i ⟨.record head id crc, pay, rest⟩ rb) (hn : s.inQ.length - rest.length = n)
    (hwf : Mem.wf Config.pbBytes s.pb) (hpay : pay.length ≤ Config.pbBytes) :
    ∃ t, exec i s = .next t ∧ t.Holds n rest head id pay crc := by
  have hread := Mem.readList_writeList pay hwf 0 (by omega)
  exact ⟨_, h, rfl, rfl, rfl, hn ▸ rfl, rfl, rfl, rfl, rfl, rfl, hread⟩

end

/-! ## One changed payload byte under the 1-byte checksum -/

theorem xorFrom_injective (bs : List Byte) {x y : Byte} (h : bs.foldl (· ^^^ ·) x = bs.foldl (· ^^^ ·) y) : x = y := by
  induction bs generalizing x y with
  | nil => exact h
  | cons b bs ih => exact (BitVec.xor_left_inj b).1 (ih h)

/-- One changed byte changes the XOR of all of them (43_record_framer.md R154). -/
theorem xor8_ne (hdr a c : List Byte) {b b' : Byte} (h : b ≠ b') (le : Bool) :
    crcBytes hdr (a ++ b :: c) .xor8 le ≠ crcBytes hdr (a ++ b' :: c) .xor8 le := by
  intro heq
  have hx : xorBytes (hdr ++ (a ++ b :: c)) = xorBytes (hdr ++ (a ++ b' :: c)) := (List.cons.inj heq).1
  simp only [xorBytes, List.foldl_append, List.foldl_cons] at hx
  exact h ((BitVec.xor_right_inj _).1 (xorFrom_injective c hx))

theorem set_recordWire (le rev : Bool) (id : U29) (a c : List Byte) (b b' : Byte) :
    (recordWire le rev false id (a ++ b :: c) .xor8).set
        (1 + (header le id (a ++ b :: c).length).length + a.length) b' =
      recordBytes le rev false id (a ++ b' :: c) (crcBytes (header le id (a ++ b :: c).length) (a ++ b :: c) .xor8 le) := by
  have hlen : (a ++ b' :: c).length = (a ++ b :: c).length := by simp
  rw [recordWire_eq_recordBytes, recordBytes, recordBytes, hlen]
  generalize header le id (a ++ b :: c).length = hdr
  rw [show 1 + hdr.length + a.length = hdr.length + a.length + 1 by omega, List.set_cons_succ]
  simp

/-- Settles O42: the read comes to the CRC byte, which is that of the unchanged payload. -/
theorem payloadCorruption : Obligations.PayloadCorruption := by
  intro le rev id a c b b' s t pay wire bad hlen hne hb
  have hlenb : (a ++ b' :: c).length = pay.length := by simp [pay]
  have hk : crcKind ((header le id (a ++ b' :: c).length).length + (a ++ b' :: c).length) false = some .xor8 := by
    rw [hlenb, crcKind, if_neg (by omega), if_pos hlen]
    rfl
  have hcrc : crcBytes (header le id pay.length) pay .xor8 le ≠
      crcBytes (header le id (a ++ b' :: c).length) (a ++ b' :: c) .xor8 le := by
    rw [hlenb]
    exact xor8_ne _ _ _ hne le
  have hbad : bad = recordBytes le rev false id (a ++ b' :: c) (crcBytes (header le id pay.length) pay .xor8 le) :=
    set_recordWire ..
  refine ⟨fun hq ht => ?_, fun hrev hwf hq ht => ?_⟩
  · refine (recDecf_comesTo hb).of_error ?_ ht
    have h := (readForward_recordBytes (rest := []) (rev := rev) hk (crcBytes_length ..)).2 hcrc
    rwa [List.append_nil, ← hbad, ← hq] at h
  · subst hrev
    refine (recDecr_comesTo hb hwf).of_error ?_ ht
    have h := readBackward_recordBytes (rest := []) hk (crcBytes_length (header le id pay.length) pay .xor8 le)
    rw [List.append_nil, ← hbad, ← hq] at h
    rw [h, readStagedCrc, if_pos hcrc]

/-! ## Encode, then decode -/

theorem Mem.read_of_readList_eq {m m' : Mem} {a n : Nat} (h : m.readList a n = m'.readList a n) :
    ∀ x, a ≤ x → x < a + n → m.read x = m'.read x := by
  induction n generalizing a with
  | zero => omega
  | succ n ih =>
    intro x hx hlt
    obtain ⟨hhead, htail⟩ := List.cons.inj h
    obtain rfl | hne := hx.eq_or_lt
    · exact hhead
    · exact ih htail x hne (by omega)

/-- A REC.ENC that ends with OK has put its record, where the host takes all bytes (43_record_framer.md R158, R159). -/
theorem exec_recEnc_ok {s t : State} (hb : s.busy = false) (hout : s.outRoom = none) {le rev enh : Bool} {a : U64}
    (ht : exec (.recEnc le rev enh a) s = .next t) (hok : t.stat = .ok) {pay : List Byte}
    (hpay : pay = s.pb.readList 0 s.plen.toNat) :
    a.toNat ≤ vuMax ∧ ∃ k, crcKind ((header le (a.setWidth 29) pay.length).length + pay.length) enh = some k ∧
      t = s.recordSent le rev enh (a.setWidth 32) (recordWire le rev enh (a.setWidth 29) pay k)
        (crcBytes (header le (a.setWidth 29) pay.length) pay k le) := by
  have hlen : pay.length = s.plen.toNat := by rw [hpay, Mem.length_readList]
  rw [hlen]
  by_cases ha : a.toNat ≤ vuMax
  · cases hk : crcKind ((header le (a.setWidth 29) s.plen.toNat).length + s.plen.toNat) enh with
    | none =>
      rw [exec_recEnc_unsupported hb le rev enh ha hk] at ht
      cases ht
      cases hok
    | some k =>
      rw [exec_recEnc_sent hb le rev enh ha hpay hk (by rw [State.roomFor, hout])] at ht
      exact ⟨ha, k, rfl, (Host.Outcome.next.inj ht).symm⟩
  · rw [exec_recEnc_overflow hb le rev enh (not_le.1 ha)] at ht
    cases ht
    cases hok

/-- A decoded record agrees with the state whose payload it carries. -/
theorem State.Holds.agrees {s t : State} {n : Nat} {rest pay crc : List Byte} {head : Byte} {a : U64}
    (h : t.Holds n rest head (a.setWidth 29) pay crc) (hn : n < 2 ^ 32) (ha : a.toNat ≤ vuMax)
    (hpay : pay = s.pb.readList 0 s.plen.toNat) :
    t.stat = .ok ∧ t.busy = false ∧ t.inQ = rest ∧ t.cons.toNat = n ∧ t.sync = head ∧ t.rid = a.setWidth 32 ∧ t.plen = s.plen ∧
      t.crclen = BitVec.ofNat 3 crc.length ∧ t.crcb = packCrc crc ∧ ∀ x, x < s.plen.toNat → t.pb.read x = s.pb.read x := by
  have hlen : pay.length = s.plen.toNat := by rw [hpay, Mem.length_readList]
  have hpb : t.pb.readList 0 s.plen.toNat = s.pb.readList 0 s.plen.toNat := by rw [← hpay, ← hlen, h.pb]
  refine ⟨h.stat, h.free, h.inQ, ?_, h.sync, h.rid.trans (rid_of_operand ha), ?_, h.crclen, h.crcb, fun x hx => ?_⟩
  · rw [h.cons, BitVec.toNat_ofNat, Nat.mod_eq_of_lt hn]
  · rw [h.plen, hlen, BitVec.ofNat_toNat, BitVec.setWidth_eq]
  · exact Mem.read_of_readList_eq hpb x x.zero_le (by omega)

/-- Settles O37: in both directions the read of the encoder's bytes is the record. -/
theorem recordRoundTrip : Obligations.RecordRoundTrip := by
  intro le rev enh a s t u v rest hb hplen hroom hout ht hok w hu hub huq hv hvb hvq
  generalize hpay : s.pb.readList 0 s.plen.toNat = pay
  obtain ⟨ha, k, hk, rfl⟩ := exec_recEnc_ok hb hroom ht hok hpay.symm
  have hlen : pay.length = s.plen.toNat := by rw [← hpay, Mem.length_readList]
  have hbound : pay.length ≤ Config.pbBytes := hlen ▸ hplen
  generalize hcrc : crcBytes (header le (a.setWidth 29) pay.length) pay k le = crc
  have hclen : crc.length = k.len := hcrc ▸ crcBytes_length ..
  have hw : w = recordBytes le rev enh (a.setWidth 29) pay crc := by
    rw [← hcrc, ← recordWire_eq_recordBytes]
    simp [w, State.recordSent, State.ended, State.putAll, hout]
  have hwlen : w.length < 2 ^ 32 := by
    have h := recordWire_length_le le rev enh (a.setWidth 29) pay k
    rw [recordWire_eq_recordBytes, hcrc, ← hw] at h
    have hpb : Config.pbBytes = 1048576 := rfl
    omega
  constructor
  · have hr : readForward u.inQ = ⟨.record (headByte le rev enh) (a.setWidth 29) crc, pay, rest⟩ := by
      rw [huq, hw]
      exact (readForward_recordBytes hk hclen).1 hcrc.symm
    have hx := recDecf_comesTo hub
    rw [hr] at hx
    obtain ⟨u', hu', hh⟩ := hx.of_record (by rw [huq, List.length_append, Nat.add_sub_cancel]) hu.pbWf hbound
    exact ⟨u', hu', hh.agrees hwlen ha hpay.symm⟩
  · rintro rfl
    have hr : readBackward v.inQ = ⟨.record (headByte le true enh) (a.setWidth 29) crc, pay, rest⟩ := by
      rw [hvq, hw, readBackward_recordBytes hk hclen, readStagedCrc, if_neg (not_not_intro hcrc.symm)]
    have hx := recDecr_comesTo hvb hv.rbWf
    rw [hr] at hx
    obtain ⟨v', hv', hh⟩ := hx.of_record (by rw [hvq, List.length_append, List.length_reverse, Nat.add_sub_cancel]) hv.pbWf hbound
    exact ⟨v', hv', hh.agrees hwlen ha hpay.symm⟩

end Sys2Proof.Machine
end

section
/-! What a forward decode that has succeeded was given (43_record_framer.md R160), and the encoder's bytes of it (R175). -/

namespace Sys2Proof.Machine

open Sys2Proof

/-! ## The bytes of a record that is accepted -/

section
variable {le rev enh : Bool} {id id' : U29} {head head' : Byte} {hdr pay bs field crc : List Byte} {len : U29} {total : Nat}

/-- The paired head of a tail sync byte determines it (30_encoding.md R75). -/
theorem eq_tailByte_of_headOf {t : Byte} (h : headOf t = some (headByte le true enh)) : t = tailByte le enh := by
  obtain ⟨_, _, _, _, _, hof⟩ | ⟨le', enh', rfl, _, _, hof⟩ | ⟨_, _, hof⟩ := sync_cases t
  · cases hof.symm.trans h
  · obtain ⟨rfl, _, rfl⟩ := headByte_inj (Option.some.inj (hof.symm.trans h))
    rfl
  · cases hof.symm.trans h

/-- The tail byte of a record that is accepted (43_record_framer.md R160 step 5). -/
theorem readTailByte_record {done : Stop} (h : (readTailByte le enh done pay bs).stop = .record head id crc) :
    done = .record head id crc ∧ bs = tailByte le enh :: (readTailByte le enh done pay bs).rest := by
  cases bs with
  | nil => cases h
  | cons t rest =>
    simp only [readTailByte] at h ⊢
    split_ifs at h ⊢ with hnone hne
    exact ⟨h, by rw [eq_tailByte_of_headOf (not_not.1 hne)]⟩

/-- The trailer of a record that is accepted (R163). -/
theorem readTrailer_record {done : Stop} (h : (readTrailer le enh total done pay bs).stop = .record head id crc) :
    done = .record head id crc ∧ bs = recordTail le true enh total ++ (readTrailer le enh total done pay bs).rest := by
  rw [readTrailer_eq] at h ⊢
  dsimp only at h ⊢
  split_ifs at h ⊢ with hshort hne
  obtain ⟨hdone, hdrop⟩ := readTailByte_record h
  refine ⟨hdone, ?_⟩
  rw [recordTail, if_pos rfl, List.append_assoc, List.singleton_append, ← hdrop]
  exact (List.take_append_drop ..).symm.trans (congrArg (· ++ _) (not_not.1 hne))

/-- The CRC bytes of a record that is accepted, and what follows them (R160 step 4). -/
theorem readCrc_record (h : (readCrc head' le rev enh id' total field pay bs).stop = .record head id crc) :
    head' = head ∧ id' = id ∧ field = crc ∧
      bs = crc ++ (recordTail le rev enh total ++ (readCrc head' le rev enh id' total field pay bs).rest) := by
  rw [readCrc] at h ⊢
  by_cases hne : bs.take field.length ≠ field
  · rw [if_pos hne] at h
    cases h
  have hfield := not_not.1 hne
  rw [if_neg hne] at h ⊢
  have hsplit : bs = field ++ bs.drop field.length :=
    (List.take_append_drop ..).symm.trans (congrArg (· ++ _) hfield)
  cases rev with
  | false =>
    rw [if_neg (by simp)] at h ⊢
    obtain ⟨rfl, rfl, rfl⟩ := Stop.record.inj h
    exact ⟨rfl, rfl, hfield.symm, by rwa [hfield]⟩
  | true =>
    rw [if_pos rfl] at h ⊢
    obtain ⟨hdone, hrest⟩ := readTrailer_record h
    obtain ⟨rfl, rfl, rfl⟩ := Stop.record.inj hdone
    refine ⟨rfl, rfl, hfield.symm, ?_⟩
    rw [← hrest, hfield]
    exact hsplit

/-- The payload of a record that is accepted, and what follows it (R160 steps 2 and 3, R162). -/
theorem readPayload_record {r : ReadResult} (hr : r = readPayload head' le rev enh id' hdr len bs)
    (h : r.stop = .record head id crc) :
    head' = head ∧ id' = id ∧ r.pay.length = len.toNat ∧ ∃ k, crcKind (hdr.length + len.toNat) enh = some k ∧
      crcBytes hdr r.pay k le = crc ∧
      bs = r.pay ++ (crc ++ (recordTail le rev enh (hdr.length + len.toNat + k.len) ++ r.rest)) := by
  rw [readPayload] at hr
  cases hk : crcKind (hdr.length + len.toNat) enh with
  | none =>
    rw [hk] at hr
    rw [hr] at h
    cases h
  | some k =>
    simp only [hk] at hr
    split_ifs at hr with hbig hshort
    · rw [hr] at h
      cases h
    · rw [hr] at h
      cases h
    · have hpay : r.pay = bs.take len.toNat := by rw [hr, readCrc_pay]
      rw [hr] at h
      obtain ⟨rfl, rfl, hcrc, hdrop⟩ := readCrc_record h
      rw [← hr] at hdrop
      refine ⟨rfl, rfl, ?_, k, rfl, hpay ▸ hcrc, ?_⟩
      · rw [hpay, List.length_take_of_le (by omega)]
      · rw [hpay, ← hdrop, List.take_append_drop]

/-- The fields of a record that is accepted (R160). -/
theorem readForward_record {r : ReadResult} (hr : r = readForward bs) (h : r.stop = .record head id crc) :
    ∃ le rev enh b n len m, bs = headByte le rev enh :: b ∧ vuDec le b = some (id, n) ∧ vuDec le (b.drop n) = some (len, m) ∧
      r = readPayload (headByte le rev enh) le rev enh id (b.take n ++ (b.drop n).take m) len ((b.drop n).drop m) := by
  cases bs with
  | nil => rw [hr] at h; cases h
  | cons s b =>
    rw [readForward_cons] at hr
    obtain ⟨le, rev, enh, rfl, hhead, _⟩ | ⟨_, _, _, hhead, _⟩ | ⟨hhead, _⟩ := sync_cases s
    case inr.inl => rw [hr, hhead] at h; cases h
    case inr.inr => rw [hr, hhead] at h; cases h
    simp only [hhead, readId] at hr
    cases hid : vuDec le b with
    | none => rw [hr, hid] at h; cases h
    | some vn =>
      obtain ⟨id', n⟩ := vn
      simp only [hid, readLen] at hr
      cases hlen : vuDec le (b.drop n) with
      | none => rw [hr, hlen] at h; cases h
      | some vm =>
        obtain ⟨len, m⟩ := vm
        simp only [hlen] at hr
        obtain ⟨_, rfl, _⟩ := readPayload_record hr h
        exact ⟨le, rev, enh, b, n, len, m, rfl, hid, hlen, hr⟩

/-! ## The errors of a read are kinds of error (60_exceptions.md R190) -/

theorem readTailByte_stop {done : Stop} (hd : done ≠ .error .ok) : (readTailByte le enh done pay bs).stop ≠ .error .ok := by
  unfold readTailByte
  cases bs with
  | nil => simp
  | cons => dsimp only; split_ifs <;> simp [hd]

theorem readCrc_stop : (readCrc head le rev enh id total field pay bs).stop ≠ .error .ok := by
  rw [readCrc, readTrailer_eq]
  dsimp only
  split_ifs
  · simp
  · simp
  · simp
  · exact readTailByte_stop (by simp)
  · simp

theorem readForward_stop (bs : List Byte) : (readForward bs).stop ≠ .error .ok := by
  cases bs with
  | nil => simp [readForward]
  | cons b bs =>
    rw [readForward_cons]
    split
    · simp
    unfold readId readLen readPayload
    split
    · simp
    split
    · simp
    split
    · simp
    split_ifs
    · simp
    · simp
    · exact readCrc_stop

end

section
variable {s t : State} {i : Instr} {r : ReadResult} {rb : Mem}

/-- A decode that has ended with OK has read a record. -/
theorem State.ComesTo.record_of_ok (h : s.ComesTo i r rb) (hr : r.stop ≠ .error .ok) (ht : exec i s = .next t)
    (hb : t.busy = false) (hok : t.stat = .ok) : ∃ head id crc, r.stop = .record head id crc := by
  unfold State.ComesTo State.afterRead at h
  cases hstop : r.stop with
  | record head id crc => exact ⟨head, id, crc, rfl⟩
  | error e =>
    simp only [hstop] at h
    obtain rfl := Host.Outcome.next.inj (ht.symm.trans h)
    exact absurd (hstop.trans (congrArg Stop.error hok)) hr
  | short =>
    simp only [hstop] at h
    cases he : s.inEos with
    | true =>
      simp only [he, if_true] at h
      obtain rfl := Host.Outcome.next.inj (ht.symm.trans h)
      cases hok
    | false =>
      simp only [he, Bool.false_eq_true, if_false] at h
      obtain ⟨u, hu, _, hbusy, _⟩ := h
      obtain rfl := Host.Outcome.next.inj (ht.symm.trans hu)
      cases hb.symm.trans hbusy

end

/-! ## Decode, then encode -/

section
variable {le : Bool} {id len : U29} {b hdr x : List Byte} {n m : Nat}

/-- Header fields that are read from the encoder's bytes are those bytes. -/
theorem header_of_minimal (hid : vuDec le b = some (id, n)) (hlen : vuDec le (b.drop n) = some (len, m))
    (hb : b = vuEnc id le ++ (vuEnc len le ++ x)) : b.take n ++ (b.drop n).take m = vuEnc id le ++ vuEnc len le := by
  rw [hb, vuDec_vuEnc] at hid
  obtain ⟨_, rfl⟩ := Prod.mk.inj (Option.some.inj hid)
  rw [hb, List.drop_left, vuDec_vuEnc] at hlen
  obtain ⟨_, rfl⟩ := Prod.mk.inj (Option.some.inj hlen)
  rw [hb, List.take_left, List.drop_left, List.take_left]

/-- An accepted record with minimal header fields is the encoder's (43_record_framer.md R175). -/
theorem eq_recordWire_of_accepted {bs crc pay rest : List Byte} {head : Byte}
    (hr : readForward bs = ⟨.record head id crc, pay, rest⟩)
    (hmin : bs.drop 1 = header (!head.getLsbD 5) id pay.length ++ x) :
    ∃ le rev enh k, head = headByte le rev enh ∧ crcKind ((header le id pay.length).length + pay.length) enh = some k ∧
      bs = recordWire le rev enh id pay k ++ rest := by
  obtain ⟨le, rev, enh, b, n, len, m, rfl, hid, hlen, hpay⟩ := readForward_record hr.symm rfl
  obtain ⟨rfl, _, hplen, k, hk, hcrc, hsplit⟩ := readPayload_record hpay rfl
  dsimp only at hplen hcrc hsplit
  have hof : BitVec.ofNat 29 pay.length = len := by rw [hplen, BitVec.ofNat_toNat, BitVec.setWidth_eq]
  have hhdr : b.take n ++ (b.drop n).take m = header le id pay.length := by
    rw [headByte_le, header, hof, List.append_assoc] at hmin
    rw [header, hof]
    exact header_of_minimal hid hlen hmin
  rw [hhdr, ← hplen] at hk
  refine ⟨le, rev, enh, k, rfl, hk, ?_⟩
  have hb : b = (b.take n ++ (b.drop n).take m) ++ (b.drop n).drop m := by
    rw [List.append_assoc, List.take_append_drop, List.take_append_drop]
  rw [hb, hsplit, hhdr, ← hplen, ← hcrc, hhdr, recordWire_eq_recordBytes, recordBytes, crcBytes_length]
  simp only [List.cons_append, List.append_assoc]

end

/-- A held record is encoded to the bytes of its fields (43_record_framer.md R159). -/
theorem State.Holds.reencode {t : State} {le rev enh : Bool} {id : U29} {n : Nat} {pay crc rest : List Byte} {k : CrcKind}
    (h : t.Holds n rest (headByte le rev enh) id pay crc) (hout : t.outRoom = none)
    (hk : crcKind ((header le id pay.length).length + pay.length) enh = some k) :
    ∃ u, exec (.recEnc (!t.sync.getLsbD 5) (t.sync.getLsbD 4) (t.sync.getLsbD 3) (t.rid.setWidth 64)) t = .next u ∧
      u.stat = .ok ∧ u.outQ = t.outQ ++ marked (recordWire le rev enh id pay k) := by
  have hlt := crcKind_some_lt hk
  have hplen : t.plen.toNat = pay.length := by
    rw [h.plen, BitVec.toNat_ofNat]
    omega
  have hid : (t.rid.setWidth 64 : U64).setWidth 29 = id := by
    rw [h.rid]
    apply BitVec.eq_of_toNat_eq
    simp only [BitVec.toNat_setWidth]
    omega
  have hrange : (t.rid.setWidth 64 : U64).toNat ≤ vuMax := by
    rw [h.rid]
    simp only [BitVec.toNat_setWidth]
    have := id.isLt
    have hmax : vuMax = 536870911 := rfl
    omega
  rw [h.sync, headByte_le, headByte_rev, headByte_enh]
  have hx := exec_recEnc_sent h.free le rev enh hrange (k := k) (pay := pay) (by rw [hplen, h.pb]) (by rw [hid, hplen]; exact hk)
    (by rw [State.roomFor, hout])
  rw [hid] at hx
  exact ⟨_, hx, rfl, rfl⟩

/-- Settles O38: the bytes of an accepted record are its fields, and with minimal header fields those that REC.ENC puts. -/
theorem recordReencode : Obligations.RecordReencode := by
  intro s t hinv hb hout ht hfree hok w le' hdr' hmin
  have hx := recDecf_comesTo hb
  obtain ⟨head, id, crc, hstop⟩ := hx.record_of_ok (readForward_stop _) ht hfree hok
  have hbound := readForward_pay_length s.inQ
  cases hr : readForward s.inQ with
  | mk stop pay rest =>
  rw [hr] at hx hstop hbound
  dsimp only at hstop hbound
  subst hstop
  obtain ⟨t', ht', hh⟩ := hx.of_record rfl hinv.pbWf hbound
  obtain rfl : t' = t := Host.Outcome.next.inj (ht'.symm.trans ht)
  have hfields : hdr' = header (!head.getLsbD 5) id pay.length := by
    have hplen : t'.plen.toNat = pay.length := by
      have hpb : Config.pbBytes = 1048576 := rfl
      rw [hh.plen, BitVec.toNat_ofNat]
      omega
    simp only [hdr', le', hplen, hh.sync, hh.rid, BitVec.setWidth_setWidth_of_le _ (show 29 ≤ 32 by omega), BitVec.setWidth_eq]
  have hstart : s.inQ.drop 1 = hdr' ++ (s.inQ.drop 1).drop (min hdr'.length (t'.cons.toNat - 1)) := by
    rw [List.drop_take, List.take_take] at hmin
    nth_rw 1 [← hmin]
    exact (List.take_append_drop ..).symm
  rw [hfields] at hstart
  obtain ⟨le, rev, enh, k, rfl, hk, hq⟩ := eq_recordWire_of_accepted hr hstart
  have hw : w = recordWire le rev enh id pay k := by
    have hlen := recordWire_length_le le rev enh id pay k
    have hpb : Config.pbBytes = 1048576 := rfl
    have hcons : t'.cons.toNat = (recordWire le rev enh id pay k).length := by
      rw [hh.cons, hq, List.length_append, Nat.add_sub_cancel, BitVec.toNat_ofNat]
      omega
    simp only [w, hcons, hq, List.take_left]
  have hroom : t'.outRoom = none := by
    obtain ⟨_, _, hroom⟩ := execRecDecf_frame ht
    exact hroom.trans hout
  rw [hw]
  exact hh.reencode hroom hk

end Sys2Proof.Machine
end

section
/-! `raise` as one update of the state (60_exceptions.md R193). -/

namespace Sys2Proof.Machine

open Sys2Proof

/-- Settles O58: an exception completes with its kind from the empty Record in a record decode, from the Record kept elsewhere. -/
theorem raiseRule : Obligations.RaiseRule := by
  intro s k
  rw [raise_eq_complete]
  by_cases hdec : s.ph.decoding = true
  · simp only [if_pos hdec]
    rfl
  · simp only [if_neg hdec]
    rfl

end Sys2Proof.Machine
end

section
/-! A busy codec and the command port: the word presented there waits (70_reset_and_hazards.md R224). -/

namespace Sys2Proof.Machine

open Sys2Proof

/-- A unit of work takes no command word. -/
theorem unit_keeps_cmdQ {s t : State} (h : s.unit = some (.next t)) : t.cmdQ = s.cmdQ := by
  have hhost := unit_keeps_hostSide h
  simp only [State.hostSide, Prod.mk.injEq] at hhost
  obtain ⟨_, hq, _⟩ := hhost
  exact hq

/-- No step of a busy codec takes a command word: it resets, waits or does one unit of its command. -/
theorem step_keeps_cmdQ_of_busy {s t : State} (hb : s.busy = true) (ht : step s = .next t) : t.cmdQ = s.cmdQ := by
  by_cases hr : s.rst = true
  · cases (step_reset hr).symm.trans ht
    rfl
  rw [Bool.not_eq_true] at hr
  by_cases hp : s.ph = .idle
  · cases (step_noCommand hr hp (.inl hb)).symm.trans ht
    rfl
  rw [step_busy hr hp] at ht
  cases hu : s.tickOver.unit with
  | none =>
    rw [hu] at ht
    cases ht
    rfl
  | some r =>
    rw [hu] at ht
    cases ht
    exact (unit_keeps_cmdQ hu).trans (State.tickOver_cmdQ s)

theorem whenFree_busy {s : State} (h : s.busy = true) (r : Result) : s.whenFree r = .next s := by
  simp [State.whenFree, h]

/-- Every command first asks whether the codec is free (10_state.md R27). -/
theorem exec_command_whenFree {i : Instr} (hi : i.isCommand = true) (s : State) : ∃ r, exec i s = s.whenFree r := by
  cases i with
  | nop | vuEnc | vuDec | vsEnc | vsDec | pbPut | pbGet | pbClr | recEnc | recDecf | recDecr => exact ⟨_, rfl⟩
  | _ => simp [Instr.isCommand, Instr.slot] at hi

/-- A command that is not accepted changes nothing (A25). -/
theorem exec_command_of_busy {i : Instr} {s : State} (hi : i.isCommand = true) (hb : s.busy = true) : exec i s = .next s := by
  obtain ⟨r, hr⟩ := exec_command_whenFree hi s
  rw [hr, whenFree_busy hb]

/-- Settles O52. -/
theorem busyWaits : Obligations.BusyWaits :=
  ⟨fun _ _ => step_keeps_cmdQ_of_busy, fun _ _ => exec_command_of_busy⟩

end Sys2Proof.Machine
end
